-- ==== Sys2Proof/Word.lean ====
section
/-! DEFINITION. The words of the decode block: register, data-memory, byte, register-number and immediate widths
(spec 00_scope.md R6 and R7, 30_encoding.md R81). -/

namespace Sys2Proof

/-- One byte of the byte source SRC (R61). -/
abbrev Byte := BitVec 8

/-- One word of the data memory DM (R62); also a binary32 bit pattern (R9). -/
abbrev Word32 := BitVec 32

/-- The value of an operand register (R20, `XLEN` = 64). -/
abbrev Word := BitVec 64

/-- The number of an operand register, `x0` to `x15` (R20). -/
abbrev Reg := BitVec 4

/-- The immediate field `c[11:0]` of a command word (R81, R83). -/
abbrev Imm := BitVec 12

/-- The result `2^64 - 1` a command leaves when it has no answer (R147, R182). -/
abbrev noResult : Word := BitVec.allOnes 64

end Sys2Proof
end

