-- ==== Sys2Proof/Syntax.lean ====
section
/-! DEFINITION. The 45 commands of the command set NVD-1, one constructor per row of spec/opcode_table.json
(30_encoding.md R84). Every field is the field of the command word at its fixed place (R81); `imm` is the whole 12-bit
immediate field, and WellFormed.lean says how many of its bits a command may use. -/

namespace Sys2Proof

inductive Instr where
  -- SYS, 40_sys.md
  | sysNop
  | sysReset
  | sysLi (rd : Reg) (imm : Imm)
  | sysLis (rd rs1 : Reg) (imm : Imm)
  | sysCsrr (rd : Reg) (csr : Imm)
  | sysCsrw (rs1 : Reg) (csr : Imm)
  | sysLdw (rd rs1 : Reg) (imm : Imm)
  | sysStw (rs1 rs2 : Reg) (imm : Imm)
  -- CRC, 41_crc.md
  | crcClr
  | crcUpd (rs1 : Reg) (imm : Imm)
  | crcSrc (rs1 rs2 : Reg)
  | crcGet (rd : Reg)
  -- BC, 42_bitcursor.md
  | bcClr
  | bcAddr (rs1 rs2 : Reg)
  | bcReset
  | bcPeek (rd rs1 : Reg) (imm : Imm)
  | bcSkip (rs1 : Reg) (imm : Imm)
  | bcRead (rd rs1 : Reg) (imm : Imm)
  | bcRdvf (rd : Reg)
  -- PFV, 43_pfv.md
  | pfvLock (cid : Imm)
  | pfvRel (cid : Imm)
  | pfvSeek (rs1 : Reg) (cid : Imm)
  | pfvNext (rd : Reg) (cid : Imm)
  | pfvLace (rd rs1 : Reg)
  | pfvPkt (rd rs1 : Reg) (sel : Imm)
  | pfvStrm (rd rs1 : Reg) (sel : Imm)
  -- HUF, 44_huffman.md
  | hufBuild (rs1 rs2 : Reg)
  | hufVq (rs1 rs2 : Reg)
  | hufDec (rd rs1 : Reg)
  | hufDecv (rd rs1 rs2 : Reg)
  | hufInfo (rd rs1 : Reg) (sel : Imm)
  | hufCode (rd rs1 rs2 : Reg)
  | hufLut (rd rs1 rs2 : Reg)
  -- RES, 45_residue.md
  | resSetup (rs1 rs2 : Reg)
  | resDec (rd rs1 rs2 : Reg)
  -- MDCT, 46_imdct.md
  | mdctInit (rs1 : Reg) (slot : Imm)
  | mdctRev (rd rs1 : Reg) (slot : Imm)
  -- OLA, 47_ola.md
  | olaCfg (rs1 rs2 : Reg) (ch : Imm)
  | olaMode (rs1 : Reg) (flag : Imm)
  | olaAdd (rd rs1 rs2 : Reg) (flags : Imm)
  | olaRd (rd rs1 rs2 : Reg)
  | olaDisc (rd rs1 : Reg)
  | olaReset
  | olaWin (rd rs1 rs2 : Reg) (w : Imm)
  | olaCpl (rs1 : Reg)
  deriving DecidableEq, Repr

end Sys2Proof
end

