-- ==== Sys2Proof/WellFormed.lean ====
section
/-! DEFINITION. Which commands have a legal word (30_encoding.md R83, R84, R86): a command that needs fewer than 12
immediate bits leaves the bits above them zero. Register numbers are 4 bits wide by type, and a field that a format does
not use is no field of the command's constructor, so the immediate's width is all there is to check. -/

namespace Sys2Proof

/-- No bit of the immediate at or above `width` is set (R86 (c)). -/
def Imm.fits (imm : Imm) (width : Nat) : Bool := imm.toNat >>> width == 0

/-- The command's immediate stays inside the command's immediate width (the "imm width" column of R84). -/
def Instr.wf : Instr → Bool
  | .sysNop => true
  | .sysReset => true
  | .sysLi _ _ => true
  | .sysLis _ _ _ => true
  | .sysCsrr _ _ => true
  | .sysCsrw _ _ => true
  | .sysLdw _ _ _ => true
  | .sysStw _ _ _ => true
  | .crcClr => true
  | .crcUpd _ _ => true
  | .crcSrc _ _ => true
  | .crcGet _ => true
  | .bcClr => true
  | .bcAddr _ _ => true
  | .bcReset => true
  | .bcPeek _ _ _ => true
  | .bcSkip _ _ => true
  | .bcRead _ _ _ => true
  | .bcRdvf _ => true
  | .pfvLock cid => Imm.fits cid 8
  | .pfvRel cid => Imm.fits cid 8
  | .pfvSeek _ cid => Imm.fits cid 8
  | .pfvNext _ cid => Imm.fits cid 8
  | .pfvLace _ _ => true
  | .pfvPkt _ _ sel => Imm.fits sel 2
  | .pfvStrm _ _ sel => Imm.fits sel 2
  | .hufBuild _ _ => true
  | .hufVq _ _ => true
  | .hufDec _ _ => true
  | .hufDecv _ _ _ => true
  | .hufInfo _ _ sel => Imm.fits sel 4
  | .hufCode _ _ _ => true
  | .hufLut _ _ _ => true
  | .resSetup _ _ => true
  | .resDec _ _ _ => true
  | .mdctInit _ slot => Imm.fits slot 1
  | .mdctRev _ _ slot => Imm.fits slot 1
  | .olaCfg _ _ ch => Imm.fits ch 8
  | .olaMode _ flag => Imm.fits flag 1
  | .olaAdd _ _ _ flags => Imm.fits flags 2
  | .olaRd _ _ _ => true
  | .olaDisc _ _ => true
  | .olaReset => true
  | .olaWin _ _ _ w => Imm.fits w 2
  | .olaCpl _ => true

end Sys2Proof
end

