-- ==== Sys2Proof/Decode.lean ====
section
/-! DEFINITION. From a command word to a command and back (30_encoding.md R80 to R90). `decode` is R89 over the table of
R84; `encode` is the sum of R81 over the same opcode bytes. A command word is one 32-bit value with no byte order of its own
(R80): it is presented at the command port and never fetched from a memory. -/

namespace Sys2Proof

/-- The twelve formats (R82): which of `rd` (D), `rs1` (S), `rs2` (second S) and `imm` (I) a command uses. -/
inductive Format where
  | n | d | s | i | di | si | ds | ss | dsi | ssi | dss | dssi
  deriving DecidableEq, Repr

/-- The format has a D (R82). -/
def Format.hasD : Format → Bool
  | .d | .di | .ds | .dsi | .dss | .dssi => true
  | .n | .s | .i | .si | .ss | .ssi => false

/-- The format has an S (R82). -/
def Format.hasS1 : Format → Bool
  | .s | .si | .ds | .ss | .dsi | .ssi | .dss | .dssi => true
  | .n | .d | .i | .di => false

/-- The format has a second S (R82). -/
def Format.hasS2 : Format → Bool
  | .ss | .ssi | .dss | .dssi => true
  | .n | .d | .s | .i | .di | .si | .ds | .dsi => false

/-- One row of the opcode map (R84). A format with no I has immediate width 0, so `immWidth` says both. -/
structure Row where
  op : BitVec 8
  mnemonic : String
  format : Format
  immWidth : Nat
  build : Reg → Reg → Reg → Imm → Instr

/-- R84, units SYS and CRC. -/
def rowsSysCrc : List Row :=
  [ ⟨0x00, "SYS.NOP", .n, 0, fun _ _ _ _ => .sysNop⟩,
    ⟨0x01, "SYS.RESET", .n, 0, fun _ _ _ _ => .sysReset⟩,
    ⟨0x02, "SYS.LI", .di, 12, fun rd _ _ imm => .sysLi rd imm⟩,
    ⟨0x03, "SYS.LIS", .dsi, 12, fun rd rs1 _ imm => .sysLis rd rs1 imm⟩,
    ⟨0x04, "SYS.CSRR", .di, 12, fun rd _ _ imm => .sysCsrr rd imm⟩,
    ⟨0x05, "SYS.CSRW", .si, 12, fun _ rs1 _ imm => .sysCsrw rs1 imm⟩,
    ⟨0x06, "SYS.LDW", .dsi, 12, fun rd rs1 _ imm => .sysLdw rd rs1 imm⟩,
    ⟨0x07, "SYS.STW", .ssi, 12, fun _ rs1 rs2 imm => .sysStw rs1 rs2 imm⟩,
    ⟨0x10, "CRC.CLR", .n, 0, fun _ _ _ _ => .crcClr⟩,
    ⟨0x11, "CRC.UPD", .si, 12, fun _ rs1 _ imm => .crcUpd rs1 imm⟩,
    ⟨0x12, "CRC.SRC", .ss, 0, fun _ rs1 rs2 _ => .crcSrc rs1 rs2⟩,
    ⟨0x13, "CRC.GET", .d, 0, fun rd _ _ _ => .crcGet rd⟩ ]

/-- R84, units BC and PFV. -/
def rowsBcPfv : List Row :=
  [ ⟨0x20, "BC.CLR", .n, 0, fun _ _ _ _ => .bcClr⟩,
    ⟨0x21, "BC.ADDR", .ss, 0, fun _ rs1 rs2 _ => .bcAddr rs1 rs2⟩,
    ⟨0x22, "BC.RESET", .n, 0, fun _ _ _ _ => .bcReset⟩,
    ⟨0x23, "BC.PEEK", .dsi, 12, fun rd rs1 _ imm => .bcPeek rd rs1 imm⟩,
    ⟨0x24, "BC.SKIP", .si, 12, fun _ rs1 _ imm => .bcSkip rs1 imm⟩,
    ⟨0x25, "BC.READ", .dsi, 12, fun rd rs1 _ imm => .bcRead rd rs1 imm⟩,
    ⟨0x26, "BC.RDVF", .d, 0, fun rd _ _ _ => .bcRdvf rd⟩,
    ⟨0x30, "PFV.LOCK", .i, 8, fun _ _ _ imm => .pfvLock imm⟩,
    ⟨0x31, "PFV.REL", .i, 8, fun _ _ _ imm => .pfvRel imm⟩,
    ⟨0x32, "PFV.SEEK", .si, 8, fun _ rs1 _ imm => .pfvSeek rs1 imm⟩,
    ⟨0x33, "PFV.NEXT", .di, 8, fun rd _ _ imm => .pfvNext rd imm⟩,
    ⟨0x34, "PFV.LACE", .ds, 0, fun rd rs1 _ _ => .pfvLace rd rs1⟩,
    ⟨0x35, "PFV.PKT", .dsi, 2, fun rd rs1 _ imm => .pfvPkt rd rs1 imm⟩,
    ⟨0x36, "PFV.STRM", .dsi, 2, fun rd rs1 _ imm => .pfvStrm rd rs1 imm⟩ ]

/-- R84, units HUF, RES and MDCT. -/
def rowsHufResMdct : List Row :=
  [ ⟨0x40, "HUF.BUILD", .ss, 0, fun _ rs1 rs2 _ => .hufBuild rs1 rs2⟩,
    ⟨0x41, "HUF.VQ", .ss, 0, fun _ rs1 rs2 _ => .hufVq rs1 rs2⟩,
    ⟨0x42, "HUF.DEC", .ds, 0, fun rd rs1 _ _ => .hufDec rd rs1⟩,
    ⟨0x43, "HUF.DECV", .dss, 0, fun rd rs1 rs2 _ => .hufDecv rd rs1 rs2⟩,
    ⟨0x44, "HUF.INFO", .dsi, 4, fun rd rs1 _ imm => .hufInfo rd rs1 imm⟩,
    ⟨0x45, "HUF.CODE", .dss, 0, fun rd rs1 rs2 _ => .hufCode rd rs1 rs2⟩,
    ⟨0x46, "HUF.LUT", .dss, 0, fun rd rs1 rs2 _ => .hufLut rd rs1 rs2⟩,
    ⟨0x50, "RES.SETUP", .ss, 0, fun _ rs1 rs2 _ => .resSetup rs1 rs2⟩,
    ⟨0x51, "RES.DEC", .dss, 0, fun rd rs1 rs2 _ => .resDec rd rs1 rs2⟩,
    ⟨0x60, "MDCT.INIT", .si, 1, fun _ rs1 _ imm => .mdctInit rs1 imm⟩,
    ⟨0x61, "MDCT.REV", .dsi, 1, fun rd rs1 _ imm => .mdctRev rd rs1 imm⟩ ]

/-- R84, unit OLA. -/
def rowsOla : List Row :=
  [ ⟨0x70, "OLA.CFG", .ssi, 8, fun _ rs1 rs2 imm => .olaCfg rs1 rs2 imm⟩,
    ⟨0x71, "OLA.MODE", .si, 1, fun _ rs1 _ imm => .olaMode rs1 imm⟩,
    ⟨0x72, "OLA.ADD", .dssi, 2, fun rd rs1 rs2 imm => .olaAdd rd rs1 rs2 imm⟩,
    ⟨0x73, "OLA.RD", .dss, 0, fun rd rs1 rs2 _ => .olaRd rd rs1 rs2⟩,
    ⟨0x74, "OLA.DISC", .ds, 0, fun rd rs1 _ _ => .olaDisc rd rs1⟩,
    ⟨0x75, "OLA.RESET", .n, 0, fun _ _ _ _ => .olaReset⟩,
    ⟨0x76, "OLA.WIN", .dssi, 2, fun rd rs1 rs2 imm => .olaWin rd rs1 rs2 imm⟩,
    ⟨0x77, "OLA.CPL", .s, 0, fun _ rs1 _ _ => .olaCpl rs1⟩ ]

/-- The opcode map, 45 rows (R84). -/
def rows : List Row := rowsSysCrc ++ rowsBcPfv ++ rowsHufResMdct ++ rowsOla

/-- The word with the given fields, `op * 2^24 + rd * 2^20 + rs1 * 2^16 + rs2 * 2^12 + imm` (R81). -/
def commandWord (op : BitVec 8) (rd rs1 rs2 : Reg) (imm : Imm) : BitVec 32 :=
  op ++ rd ++ rs1 ++ rs2 ++ imm

/-- The bits of a word that must equal the row's match: the opcode byte, the fields the format does not use, and the
immediate bits above the row's immediate width (R82, R83; the "mask" of spec/opcode_table.json). -/
def Row.mask (r : Row) : BitVec 32 :=
  commandWord 0xFF (if r.format.hasD then 0 else 0xF) (if r.format.hasS1 then 0 else 0xF)
    (if r.format.hasS2 then 0 else 0xF) ((BitVec.allOnes 12) <<< r.immWidth)

/-- `op * 2^24` (R84; the "match" of spec/opcode_table.json). -/
def Row.pattern (r : Row) : BitVec 32 := commandWord r.op 0 0 0 0

/-- Why a word is no command (R86). -/
inductive DecodeError where
  /-- (a) the opcode byte is one of the 211 reserved values -/
  | reservedOpcode
  /-- (b) a register field the format does not use is not zero -/
  | unusedField
  /-- (c) an immediate bit above the command's immediate width is not zero -/
  | immediateWidth
  deriving DecidableEq, Repr

/-- The fields of the command word (R81). -/
def fieldOp (c : BitVec 32) : BitVec 8 := c.extractLsb' 24 8
def fieldRd (c : BitVec 32) : Reg := c.extractLsb' 20 4
def fieldRs1 (c : BitVec 32) : Reg := c.extractLsb' 16 4
def fieldRs2 (c : BitVec 32) : Reg := c.extractLsb' 12 4
def fieldImm (c : BitVec 32) : Imm := c.extractLsb' 0 12

/-- Decoding a command word, line by line as R89. -/
def decode (c : BitVec 32) : Except DecodeError Instr :=
  match rows.find? (fun r => r.op == fieldOp c) with
  | none => .error .reservedOpcode
  | some r =>
    if fieldRd c ≠ 0 ∧ r.format.hasD = false then .error .unusedField
    else if fieldRs1 c ≠ 0 ∧ r.format.hasS1 = false then .error .unusedField
    else if fieldRs2 c ≠ 0 ∧ r.format.hasS2 = false then .error .unusedField
    else if Imm.fits (fieldImm c) r.immWidth = false then .error .immediateWidth
    else .ok (r.build (fieldRd c) (fieldRs1 c) (fieldRs2 c) (fieldImm c))

/-- The word of a command; a field the format does not use is zero (R81, R82, R84). -/
def encode : Instr → BitVec 32
  | .sysNop => commandWord 0x00 0 0 0 0
  | .sysReset => commandWord 0x01 0 0 0 0
  | .sysLi rd imm => commandWord 0x02 rd 0 0 imm
  | .sysLis rd rs1 imm => commandWord 0x03 rd rs1 0 imm
  | .sysCsrr rd csr => commandWord 0x04 rd 0 0 csr
  | .sysCsrw rs1 csr => commandWord 0x05 0 rs1 0 csr
  | .sysLdw rd rs1 imm => commandWord 0x06 rd rs1 0 imm
  | .sysStw rs1 rs2 imm => commandWord 0x07 0 rs1 rs2 imm
  | .crcClr => commandWord 0x10 0 0 0 0
  | .crcUpd rs1 imm => commandWord 0x11 0 rs1 0 imm
  | .crcSrc rs1 rs2 => commandWord 0x12 0 rs1 rs2 0
  | .crcGet rd => commandWord 0x13 rd 0 0 0
  | .bcClr => commandWord 0x20 0 0 0 0
  | .bcAddr rs1 rs2 => commandWord 0x21 0 rs1 rs2 0
  | .bcReset => commandWord 0x22 0 0 0 0
  | .bcPeek rd rs1 imm => commandWord 0x23 rd rs1 0 imm
  | .bcSkip rs1 imm => commandWord 0x24 0 rs1 0 imm
  | .bcRead rd rs1 imm => commandWord 0x25 rd rs1 0 imm
  | .bcRdvf rd => commandWord 0x26 rd 0 0 0
  | .pfvLock cid => commandWord 0x30 0 0 0 cid
  | .pfvRel cid => commandWord 0x31 0 0 0 cid
  | .pfvSeek rs1 cid => commandWord 0x32 0 rs1 0 cid
  | .pfvNext rd cid => commandWord 0x33 rd 0 0 cid
  | .pfvLace rd rs1 => commandWord 0x34 rd rs1 0 0
  | .pfvPkt rd rs1 sel => commandWord 0x35 rd rs1 0 sel
  | .pfvStrm rd rs1 sel => commandWord 0x36 rd rs1 0 sel
  | .hufBuild rs1 rs2 => commandWord 0x40 0 rs1 rs2 0
  | .hufVq rs1 rs2 => commandWord 0x41 0 rs1 rs2 0
  | .hufDec rd rs1 => commandWord 0x42 rd rs1 0 0
  | .hufDecv rd rs1 rs2 => commandWord 0x43 rd rs1 rs2 0
  | .hufInfo rd rs1 sel => commandWord 0x44 rd rs1 0 sel
  | .hufCode rd rs1 rs2 => commandWord 0x45 rd rs1 rs2 0
  | .hufLut rd rs1 rs2 => commandWord 0x46 rd rs1 rs2 0
  | .resSetup rs1 rs2 => commandWord 0x50 0 rs1 rs2 0
  | .resDec rd rs1 rs2 => commandWord 0x51 rd rs1 rs2 0
  | .mdctInit rs1 slot => commandWord 0x60 0 rs1 0 slot
  | .mdctRev rd rs1 slot => commandWord 0x61 rd rs1 0 slot
  | .olaCfg rs1 rs2 ch => commandWord 0x70 0 rs1 rs2 ch
  | .olaMode rs1 flag => commandWord 0x71 0 rs1 0 flag
  | .olaAdd rd rs1 rs2 flags => commandWord 0x72 rd rs1 rs2 flags
  | .olaRd rd rs1 rs2 => commandWord 0x73 rd rs1 rs2 0
  | .olaDisc rd rs1 => commandWord 0x74 rd rs1 0 0
  | .olaReset => commandWord 0x75 0 0 0 0
  | .olaWin rd rs1 rs2 w => commandWord 0x76 rd rs1 rs2 w
  | .olaCpl rs1 => commandWord 0x77 0 rs1 0 0

/-- The command this decoder reads from a row of spec/opcode_table.json whose bits are `w`; none where it refuses. There is
one length of command, 32 bits (R80). -/
def decodeTableWord (_nbits w : Nat) : Option Instr :=
  if w < 2 ^ 32 then
    match decode (BitVec.ofNat 32 w) with
    | .ok i => some i
    | .error _ => none
  else none

end Sys2Proof
end

