-- ==== Sys2Proof/Config.lean ====
section
/-! DEFINITION. What one implementation of the block fixes: the fixed numbers of spec 00_scope.md R6, the launch
parameters the spec leaves OPEN (held in `State.par`, so that a statement about every state holds for every choice of
them), and the two numeric functions the spec leaves OPEN (constants with no body). -/

namespace Sys2Proof

namespace Config

/-- `SCAN_CAP`, the bytes a resync scan may consume (R6, R148). -/
def scanCap : Nat := 65536

/-- `PEEK_MAX`, the most bits one peek returns (R6, R122). -/
def peekMax : Nat := 64

/-- `TABLE_BITS_MAX`, the cap on the prefix table's index width (R6, R174). -/
def tableBitsMax : Nat := 10

/-- `MAXLEN`, the longest code length (R6, R170). -/
def maxLen : Nat := 32

/-- `MAXCLASS`, the largest classification count (R6, R202). -/
def maxClass : Nat := 64

/-- The generator polynomial of the page checksum, the x^32 term implied (R110). -/
def crcPoly : Word32 := 0x04C11DB7

/-- The identity word `CSR[ID]` (R27). -/
def idWord : Word := 0x4E560007

/-- The inverse-MDCT numeric function (R224): sample `i` of the block of size `n` made from the `n/2` spectral words.
A FREE VALUE (log entry 6): the spec gives no binary32 result, so nothing here says what it is. -/
opaque imdct (n : Nat) (spectrum : List Word32) (i : Nat) : Word32

/-- Sample `i` of a window slope of length `L` on a block whose sine is not the default one (R234, `sinf` of R6).
A FREE VALUE (log entry 5). -/
opaque slope (i L : Nat) : Word32

end Config

/-- Which sine the window builder has (R6, R234): the default, correctly rounded, or another of the implementation's. -/
inductive SineUnit where
  | correctlyRounded
  | implementation
  deriving DecidableEq, Repr

/-- The launch parameters the spec leaves OPEN (R6); the defaults are the spec's. -/
structure Params where
  /-- `DM_WORDS` -/
  dmWords : Nat := 2 ^ 20
  /-- `NSTREAM` -/
  nstream : Nat := 16
  /-- `MAXRANGES` -/
  maxRanges : Nat := 256
  /-- `NCB` -/
  ncb : Nat := 256
  /-- `MAXENTRIES` -/
  maxEntries : Nat := 2 ^ 24 - 1
  /-- `MAXDIM` -/
  maxDim : Nat := 65535
  /-- `NRES` -/
  nres : Nat := 64
  /-- `MAXCH` -/
  maxCh : Nat := 255
  /-- `NMODE` -/
  nmode : Nat := 64
  /-- `BLK_MIN_LOG2` -/
  blkMinLog2 : Nat := 3
  /-- `BLK_MAX_LOG2` -/
  blkMaxLog2 : Nat := 13
  /-- `RB_MAX` -/
  rbMax : Nat := 65536
  /-- `sinf` -/
  sine : SineUnit := .correctlyRounded
  /-- Whether codebook map type 2 is supported (93_implementation_defined.md U6). -/
  mapType2 : Bool := true
  deriving DecidableEq, Repr

/-- The conditions the spec puts on a launch (92_eei_decisions.md, the list of OPEN parameters; U4), and the bounds that
the CSR widths of R24 put on the parameters (log entry 7). -/
structure Params.Legal (p : Params) (srcLen : Nat) : Prop where
  ring : 2 ^ p.blkMaxLog2 ≤ p.rbMax
  bits : p.maxRanges * srcLen * 8 < 2 ^ 64
  streams : p.nstream ≤ 255
  books : p.ncb < 2 ^ 64
  residues : p.nres < 2 ^ 64
  modes : p.nmode < 2 ^ 64
  source : srcLen < 2 ^ 64
  ranges : p.maxRanges < 2 ^ 16
  blocks : p.blkMaxLog2 ≤ 13
  capacity : p.rbMax < 2 ^ 32
  channels : p.maxCh ≤ 255

end Sys2Proof
end

