-- ==== Sys2Proof/Machine/Float.lean ====
section
/-! DEFINITION. IEEE 754 binary32 arithmetic on bit patterns, round to nearest, ties to even (00_scope.md R9), exactly:
operands become integers times powers of two, the result is computed without rounding and rounded once. -/

namespace Sys2Proof.Machine

/-- What a binary32 bit pattern stands for; a finite value is `(-1)^neg * m * 2^e`. -/
inductive F32Val where
  | nan
  | inf (neg : Bool)
  | fin (neg : Bool) (m : Nat) (e : Int)
  deriving DecidableEq, Repr

namespace F32

/-- The default quiet NaN (R9). -/
def defaultNaN : Word32 := 0x7FC00000

/-- 1.0 -/
def one : Word32 := 0x3F800000

/-- The sign bit. -/
def signBit (neg : Bool) : Word32 := if neg then 0x80000000 else 0

/-- The infinity of a sign. -/
def infinity (neg : Bool) : Word32 := signBit neg ||| 0x7F800000

/-- What a bit pattern stands for. -/
def decode (w : Word32) : F32Val :=
  let neg := w.getLsbD 31
  let ex := (w.extractLsb' 23 8).toNat
  let fr := (w.extractLsb' 0 23).toNat
  if ex = 255 then (if fr = 0 then .inf neg else .nan)
  else if ex = 0 then .fin neg fr (-149)
  else .fin neg (fr + 2 ^ 23) ((ex : Int) - 150)

/-- `m / 2^k` to the nearest integer, ties to even. -/
def shiftNearest (m k : Nat) : Nat :=
  let d := m >>> k
  let r := m % 2 ^ k
  if 2 ^ k < 2 * r ∨ (2 * r = 2 ^ k ∧ d % 2 = 1) then d + 1 else d

/-- The binary32 pattern nearest to `(-1)^neg * m * 2^e`, ties to even; infinity on overflow, subnormals kept. `q` is the
exponent of the result's last place, and adding the rounded integer to the exponent field carries into it. -/
def round (neg : Bool) (m : Nat) (e : Int) : Word32 :=
  if m = 0 then signBit neg
  else
    let q : Int := max ((m.log2 : Int) + e - 23) (-149)
    let r : Nat := if q ≤ e then m <<< (e - q).toNat else shiftNearest m (q - e).toNat
    let b : Nat := ((q + 149).toNat <<< 23) + r
    if 0x7F800000 ≤ b then infinity neg else signBit neg ||| BitVec.ofNat 32 b

/-- The signed integer of a finite value over the exponent `e'`, which is at most its own. -/
def scaled (neg : Bool) (m : Nat) (e e' : Int) : Int :=
  let v : Int := ((m <<< (e - e').toNat : Nat) : Int)
  if neg then -v else v

/-- `fadd` (R9). An exact zero sum is +0.0 unless both operands are negative zero. -/
def add (a b : Word32) : Word32 :=
  match decode a, decode b with
  | .nan, _ => defaultNaN
  | _, .nan => defaultNaN
  | .inf s, .inf t => if s = t then infinity s else defaultNaN
  | .inf s, .fin _ _ _ => infinity s
  | .fin _ _ _, .inf t => infinity t
  | .fin s m e, .fin t n f =>
    let g := min e f
    let sum := scaled s m e g + scaled t n f g
    if sum = 0 then signBit (s && t) else round (decide (sum < 0)) sum.natAbs g

/-- The pattern with its sign turned. -/
def neg (a : Word32) : Word32 := a ^^^ 0x80000000

/-- `fsub` (R9). -/
def sub (a b : Word32) : Word32 := add a (neg b)

/-- `fmul` (R9). -/
def mul (a b : Word32) : Word32 :=
  match decode a, decode b with
  | .nan, _ => defaultNaN
  | _, .nan => defaultNaN
  | .inf s, .inf t => infinity (xor s t)
  | .inf s, .fin t n _ => if n = 0 then defaultNaN else infinity (xor s t)
  | .fin s m _, .inf t => if m = 0 then defaultNaN else infinity (xor s t)
  | .fin s m e, .fin t n f => round (xor s t) (m * n) (e + f)

/-- `u2f` (R6): an unsigned integer to binary32. -/
def ofNat (n : Nat) : Word32 := round false n 0

/-- The IEEE comparison `a > 0`: false for both zeros and for a NaN (R248). -/
def gtZero (a : Word32) : Bool :=
  match decode a with
  | .nan => false
  | .inf s => !s
  | .fin s m _ => !s && m != 0

/-- `vf2f` (R131): mantissa `u[20:0]`, exponent `u[30:21]` biased by 788, sign `u[31]`, rounded once. -/
def ofVorbis (u : Word32) : Word32 :=
  round (u.getLsbD 31) (u.extractLsb' 0 21).toNat (((u.extractLsb' 21 10).toNat : Int) - 788)

/-! ### The default sine of the window slope (R234) -/

/-- Binary places of the fixed-point evaluation. -/
def fracBits : Nat := 160

/-- pi times `2^fracBits`, rounded down. -/
def piFixed : Nat := 4591442807048218921384805199743311128454155024418

/-- `t - t*sq/(d(d+1)) + ...`: the alternating series of the cosine (from `t` = 1, `d` = 1) or of the sine (from `t` = the
angle, `d` = 2), `sq` the square of the angle, all in fixed point. -/
def series (sq : Nat) : (terms t d : Nat) → Int
  | 0, _, _ => 0
  | n + 1, t, d => (t : Int) - series sq n (((t * sq) >>> fracBits) / (d * (d + 1))) (d + 2)

/-- `sin((pi/2) * sin((pi/2) * (i + 0.5) / L)^2)` rounded to binary32 (R234), with the inner square as
`(1 - cos(pi * (2i+1) / (2L))) / 2`. -/
def slopeDefault (i L : Nat) : Word32 :=
  let theta := piFixed * (2 * i + 1) / (2 * L)
  let cos := series ((theta * theta) >>> fracBits) 48 (2 ^ fracBits) 1
  let square := (((2 ^ fracBits : Nat) : Int) - cos).toNat / 2
  let phi := (piFixed * square) >>> (fracBits + 1)
  let value := series ((phi * phi) >>> fracBits) 48 phi 2
  round false value.toNat (-(fracBits : Int))

end F32

end Sys2Proof.Machine
end

