-- ==== Sys2Proof/Machine/Table.lean ====
section
/-! DEFINITION. Sparse storage by number: a list of (number, value) pairs with strictly rising numbers. The data memory,
the codebook, residue, mode and registry slots and the ring buffer are held in this one form, so that equal contents are
equal lists. -/

namespace Sys2Proof.Machine

/-- Values by number; a number that is not listed holds nothing. -/
abbrev Table (α : Type) := List (Nat × α)

namespace Table

/-- The value listed for `k`. -/
def find {α : Type} : Table α → Nat → Option α
  | [], _ => none
  | (k', v) :: rest, k => if k' = k then some v else find rest k

/-- The table with `v` listed for `k`, in its place. -/
def put {α : Type} : Table α → Nat → α → Table α
  | [], k, v => [(k, v)]
  | (k', v') :: rest, k, v =>
    if k < k' then (k, v) :: (k', v') :: rest
    else if k' = k then (k, v) :: rest
    else (k', v') :: put rest k v

/-- The table with nothing listed for `k`. -/
def erase {α : Type} (t : Table α) (k : Nat) : Table α := t.filter (fun c => c.1 != k)

/-- The one canonical form: the numbers strictly rise. -/
abbrev wf {α : Type} (t : Table α) : Prop := t.Pairwise (fun a b => a.1 < b.1)

end Table

end Sys2Proof.Machine
end

