-- ==== Sys2Proof/Machine/State.lean ====
section
/-! DEFINITION. The state of the decode block (spec 10_state.md), as plain data, and its value after reset (R50).

Registers that software sees as words are bit vectors of the width R24 gives them. A table that comes with a count register
(the bound ranges and BC_NR, the lacing values and PG_NSEG, the packet table and PG_NPKT) is one list whose length is the
count. What the spec calls derived is computed where it is read: BC_TOTAL, SRC_LEN, RB accessors, code masks. -/

namespace Sys2Proof.Machine

/-- One byte range of SRC bound to the bit cursor (R29, `BC_RNG`). -/
structure Range where
  off : Word
  len : Word
  deriving DecidableEq, Repr

/-- The bit cursor (R29). `ranges` is `BC_RNG[0 .. BC_NR-1]`. -/
structure BitCursor where
  ranges : List Range
  pos : Word
  short : Bool
  cnt : BitVec 7
  deriving DecidableEq, Repr

/-- The reader lock (R33). -/
structure Lock where
  held : Bool
  owner : BitVec 8
  depth : BitVec 8
  deriving DecidableEq, Repr

/-- One entry of the packet table `PK` (R36). -/
structure Packet where
  off : Word
  len : BitVec 16
  cont : Bool
  deriving DecidableEq, Repr

/-- The page record (R34 to R37). `lace` is `PG_LACE[0 .. PG_NSEG-1]` and `packets` is `PK[0 .. PG_NPKT-1]`; entries
above read 0 (R35, R36). -/
structure Page where
  valid : Bool
  resync : Bool
  lastCont : Bool
  isNew : Bool
  offset : Word
  serial : BitVec 32
  seq : BitVec 32
  granule : Word
  flags : BitVec 8
  crc : BitVec 32
  payOff : Word
  payLen : BitVec 16
  lace : List Byte
  packets : List Packet
  stream : BitVec 8
  deriving DecidableEq, Repr

/-- A claimed slot of the stream registry (R37); a slot that is not listed is not valid. -/
structure Stream where
  serial : BitVec 32
  eos : Bool
  deriving DecidableEq, Repr

/-- The code of a used entry of a codebook: its length (1..32) and its stored, bit-reversed code (R39, R173). -/
structure Code where
  len : Nat
  code : BitVec 32
  deriving DecidableEq, Repr

/-- The map type of a codebook (R184). -/
inductive MapType where
  | noTable
  | lattice
  | direct
  deriving DecidableEq, Repr

/-- A valid codebook slot (R39). `codes` has one place per entry, empty for an entry of length 0, so the entry count is
its length; `lut` is empty when `mapType` is `noTable`. -/
structure Codebook where
  dim : Nat
  codes : List (Option Code)
  prefixes : List (Option Nat)
  chain : List Nat
  mapType : MapType
  lut : List Word32
  deriving DecidableEq, Repr

/-- What a residue setup holds for one classification (R41): the cascade mask and, for each stage whose bit is set, its
codebook slot. -/
structure Cascade where
  mask : BitVec 8
  books : List (Option Nat)
  deriving DecidableEq, Repr

/-- A valid residue slot (R41); `ncls` is the number of classifications held. -/
structure Residue where
  beginAt : BitVec 32
  endAt : BitVec 32
  psize : BitVec 32
  classbook : Nat
  classes : List Cascade
  cw : Nat
  deriving DecidableEq, Repr

/-- The two MDCT slots (R43, R44): their block sizes, 0 when empty. -/
structure Mdct where
  n0 : BitVec 14
  n1 : BitVec 14
  deriving DecidableEq, Repr

/-- The OLA configuration and the previous block's size (R45, R48). -/
structure Ola where
  ch : BitVec 8
  b0 : BitVec 14
  b1 : BitVec 14
  prev : BitVec 14
  deriving DecidableEq, Repr

/-- A valid mode slot (R46): the block size is the long one exactly when `long`; `windows` are its 1 or 4 tables. -/
structure Mode where
  long : Bool
  n : Nat
  windows : List (List Word32)
  deriving DecidableEq, Repr

/-- The ring buffer (R47). `buf` lists the samples that are not +0.0. The three cursors are frame counts that only ever
grow (log entry 9). -/
structure Ring where
  buf : Table Word32
  start : Nat
  valid : Nat
  endAt : Nat
  cap : BitVec 32
  deriving DecidableEq, Repr

/-- What the host does at its ports, in its order (R10, R76): present a command word, write a register through the
register port, write a word of DM through the DM port. -/
inductive HostAction where
  | command (word : BitVec 32)
  | writeReg (r : Reg) (v : Word)
  | writeDm (a : Nat) (v : Word32)
  deriving DecidableEq, Repr

/-- The data memory (R62): word address and word. An address that is not listed has not been written since the launch and
holds no known word (R49). -/
abbrev Memory := Table Word32

/-- The state of the machine: the host's pending actions, the launch arguments (`par`, `src`, and the initial `dm`), and
the block's own state. -/
structure State where
  port : List HostAction
  par : Params
  src : List Byte
  dm : Memory
  regs : Vector Word 16
  status : BitVec 8
  flags : BitVec 8
  crcAcc : BitVec 32
  bc : BitCursor
  srcPos : Word
  waste : Word
  lock : Lock
  dead : Bool
  page : Page
  streams : Table Stream
  books : Table Codebook
  residues : Table Residue
  mdct : Mdct
  ola : Ola
  modes : Table Mode
  ring : Ring
  deriving DecidableEq, Repr

/-- Why the machine stops where the spec gives no next state. None of these is a status of the block. -/
inductive Fault where
  /-- A command reads a DM word that neither the launch, the host nor a command has written
  (93_implementation_defined.md U2, treatment `fault`). Raised by every command that reads DM. Safe. -/
  | dmUnwritten (addr : Nat)
  /-- The host writes DM at an address at or above `DM_WORDS` through its port: no such word exists (R62). Raised by
  `hostStep`. Safe. -/
  | hostDmAddress (addr : Nat)
  /-- `RES.DEC` meets a codebook slot that is not valid. Never happens in a state a run reaches (R194, R202). Safe. -/
  | bookAbsent (slot : Nat)
  deriving DecidableEq, Repr

/-- Why the model gives no meaning. -/
inductive Refusal where
  /-- The instruction has no meaning yet. Raised by `exec` only. Safe. -/
  | notModelled (mnemonic : String)
  /-- A buffer of `RES.DEC` or `OLA.CPL` overlaps another of its buffers or its descriptor
  (93_implementation_defined.md U3, treatment `refuse`). Safe. -/
  | overlap
  /-- `BC.ADDR` would make BC_TOTAL exceed 64 bits (93_implementation_defined.md U4, treatment `refuse`). Safe. -/
  | bitTotal
  deriving DecidableEq, Repr

/-- What a command or a step answers. -/
abbrev Result := Host.Outcome State Fault Refusal

/-- The success status and the condition statuses (R260, R261). -/
inductive Cond where
  | ok
  | eos
  | short
  | invalidData
  | busy
  | regFull
  | malformedSetup
  | unrecoverable
  deriving DecidableEq, Repr

/-- The fault statuses of the block (R260, R262). -/
inductive Trap where
  | illegalCmd
  | illegalOperand
  | nolock
  | lockerr
  | dmRange
  | notReady
  | rbOverrun
  | srcRange
  deriving DecidableEq, Repr

/-- The sticky summary bits of `CSR[FLAGS]` (R26). -/
inductive Flag where
  | short
  | invalid
  | resync
  | eos
  | malformed
  | unrec
  | regFull
  | fault
  deriving DecidableEq, Repr

/-- The page record after reset: zero, with `PG_STREAM` = 0xFF (R50). -/
def Page.reset : Page :=
  { valid := false, resync := false, lastCont := false, isNew := false, offset := 0, serial := 0, seq := 0,
    granule := 0, flags := 0, crc := 0, payOff := 0, payLen := 0, lace := [], packets := [], stream := 0xFF }

/-- The state right after reset (R50), launched with the default parameters, an empty byte source, no DM word written
and no host action pending (log entries 1 to 3). -/
def State.reset : State :=
  { port := [], par := {}, src := [], dm := [],
    regs := Vector.replicate 16 0,
    status := 0, flags := 0, crcAcc := 0,
    bc := { ranges := [], pos := 0, short := false, cnt := 0 },
    srcPos := 0, waste := 0,
    lock := { held := false, owner := 0, depth := 0 },
    dead := false, page := Page.reset, streams := [], books := [], residues := [],
    mdct := { n0 := 0, n1 := 0 },
    ola := { ch := 0, b0 := 0, b1 := 0, prev := 0 },
    modes := [],
    ring := { buf := [], start := 0, valid := 0, endAt := 0, cap := 0 } }

end Sys2Proof.Machine
end

