-- ==== Sys2Proof/Machine/Flags.lean ====
section
/-! DEFINITION. The block's flags (10_state.md R23): the status code (R260) and the sticky bits of `CSR[FLAGS]` (R26). The
block has no arithmetic condition codes. -/

namespace Sys2Proof.Machine

/-- The code of a success or condition status (R260). -/
def Cond.code : Cond → BitVec 8
  | .ok => 0
  | .eos => 1
  | .short => 2
  | .invalidData => 3
  | .busy => 4
  | .regFull => 5
  | .malformedSetup => 8
  | .unrecoverable => 9

/-- The code of a fault status (R260). -/
def Trap.code : Trap → BitVec 8
  | .illegalCmd => 16
  | .illegalOperand => 17
  | .nolock => 18
  | .lockerr => 19
  | .dmRange => 20
  | .notReady => 21
  | .rbOverrun => 24
  | .srcRange => 25

/-- The bit of `CSR[FLAGS]` a flag stands at, as a mask (R26). -/
def Flag.mask : Flag → BitVec 8
  | .short => 0x01
  | .invalid => 0x02
  | .resync => 0x04
  | .eos => 0x08
  | .malformed => 0x10
  | .unrec => 0x20
  | .regFull => 0x40
  | .fault => 0x80

/-- Set a sticky bit (R26). -/
def State.setFlag (s : State) (f : Flag) : State := { s with flags := s.flags ||| f.mask }

/-- Set a sticky bit when its event happened. -/
def State.setFlagIf (s : State) (b : Bool) (f : Flag) : State := if b then s.setFlag f else s

/-- Write one to clear (R26, R105). -/
def clearFlags (flags ones : BitVec 8) : BitVec 8 := flags &&& ~~~ones

end Sys2Proof.Machine
end

