-- ==== Sys2Proof/Machine/Ops.lean ====
section
/-! DEFINITION. The named operations over registers, DM, SRC, the bit cursor and the ring buffer that the commands share,
and how a command ends: `finish` with OK or a condition (R261), `raise` with a fault (R262). -/

namespace Sys2Proof.Machine

/-! ### Operand registers (R20, R21) -/

/-- Read a register; `x0` reads 0 (R21). -/
def State.x (s : State) (r : Reg) : Word := if r = 0 then 0 else s.regs[r.toNat]'r.isLt

/-- Write a register; a write to `x0` is dropped (R21). -/
def State.setX (s : State) (r : Reg) (v : Word) : State :=
  if r = 0 then s else { s with regs := s.regs.set r.toNat v r.isLt }

/-! ### How a command ends -/

/-- End with OK or a condition: what the command wrote stays written, and `CSR[STATUS]` gets the code (R261, R263). -/
def State.finish (s : State) (c : Cond) : Result := .next { s with status := c.code }

/-- End with a fault, the block's whole trap entry (R262, R280): `CSR[STATUS]` gets the code and `CSR[FLAGS].FAULT` is set,
and nothing else changes. There is no vector, no saved position and no mode, and there is no return from it: the next
command executes normally whatever the last status was (R281). -/
def State.raise (s : State) (t : Trap) : Result :=
  .next { s with status := t.code, flags := s.flags ||| Flag.fault.mask }

/-! ### Reset (R50, R101, R290) -/

/-- Every piece of the block's state at its reset value; the launch arguments, DM and the host's port are no block state
and stay (R101). -/
def State.resetBlock (s : State) : State :=
  { State.reset with port := s.port, par := s.par, src := s.src, dm := s.dm }

/-! ### Data memory (R62) -/

/-- The canonical form of memory: word addresses strictly rise, and an address that holds no known word is not listed. -/
abbrev Memory.wf (m : Memory) : Prop := Table.wf m

/-- The word at an address, or none when nothing has written it (R49). -/
def Memory.read (m : Memory) (a : Nat) : Option Word32 := Table.find m a

/-- Write one word. -/
def Memory.write (m : Memory) (a : Nat) (v : Word32) : Memory := Table.put m a v

/-- Write consecutive words from `a` upward, in order. -/
def Memory.writeList : Memory → Nat → List Word32 → Memory
  | m, _, [] => m
  | m, a, v :: vs => Memory.writeList (Memory.write m a v) (a + 1) vs

/-- Read `n` consecutive words from `a` upward, or the first address that holds no known word. -/
def Memory.readList (m : Memory) : Nat → Nat → Except Nat (List Word32)
  | _, 0 => .ok []
  | a, n + 1 =>
    match Memory.read m a with
    | none => .error a
    | some w =>
      match Memory.readList m (a + 1) n with
      | .error b => .error b
      | .ok ws => .ok (w :: ws)

/-- Go on with the word at `a`, or stop (93_implementation_defined.md U2). -/
def State.withWord (s : State) (a : Nat) (k : Word32 → Result) : Result :=
  match Memory.read s.dm a with
  | some w => k w
  | none => .fault (.dmUnwritten a)

/-- Go on with the `n` words from `a`, or stop. -/
def State.withWords (s : State) (a n : Nat) (k : List Word32 → Result) : Result :=
  match Memory.readList s.dm a n with
  | .ok ws => k ws
  | .error b => .fault (.dmUnwritten b)

/-- Write one DM word (R8, `MemWrite`). -/
def State.dmWrite (s : State) (a : Nat) (v : Word32) : State := { s with dm := Memory.write s.dm a v }

/-- Write consecutive DM words. -/
def State.dmWriteList (s : State) (a : Nat) (vs : List Word32) : State := { s with dm := Memory.writeList s.dm a vs }

/-- Two DM regions, each a first address and a length, share a word. -/
def overlaps (r q : Nat × Nat) : Bool := 0 < r.2 && 0 < q.2 && r.1 < q.1 + q.2 && q.1 < r.1 + r.2

/-- No two of the regions share a word. -/
def disjointRegions : List (Nat × Nat) → Bool
  | [] => true
  | r :: rs => rs.all (fun q => !overlaps r q) && disjointRegions rs

/-! ### Byte source (R61, R64) -/

/-- `SRC_LEN` (R31). -/
def State.srcLen (s : State) : Nat := s.src.length

/-- The little-endian value of a byte string (R64). -/
def leValue : List Byte → Nat
  | [] => 0
  | b :: bs => b.toNat + 256 * leValue bs

/-- `MemRead(SRC:p, n)` over the byte string `bs` (R8, R64). -/
def leRead (bs : List Byte) (p n : Nat) : Nat := leValue ((bs.drop p).take n)

/-! ### Bit cursor (R120 to R123) -/

/-- The packet's byte string `BC_DATA`: the bound ranges' bytes, first range first (R120). -/
def State.bcData (s : State) : List Byte :=
  s.bc.ranges.flatMap (fun r => (s.src.drop r.off.toNat).take r.len.toNat)

/-- `BC_TOTAL`, 8 times the sum of the bound ranges' lengths (R29). -/
def State.bcTotal (s : State) : Nat := 8 * (s.bc.ranges.map (fun r => r.len.toNat)).sum

/-- Bit `k` of a byte string, least significant bit of each byte first (R65). -/
def bitAt (bs : List Byte) (k : Nat) : Nat := ((bs.getD (k / 8) 0).toNat >>> (k % 8)) % 2

/-- `bits(q, n)`: the first bit in reading order is the least significant bit of the result (R121). -/
def bitsAt (bs : List Byte) (q : Nat) : Nat → Nat
  | 0 => 0
  | n + 1 => bitAt bs q + 2 * bitsAt bs (q + 1) n

/-- The bits that remain after the cursor. -/
def State.bcAvail (s : State) : Nat := s.bcTotal - s.bc.pos.toNat

/-- `bc_peek(n)` (R122): the value and how many bits it has; only `BC_CNT` changes. -/
def State.bcPeek (s : State) (n : Nat) : State × Nat × Nat :=
  let got := min n s.bcAvail
  ({ s with bc := { s.bc with cnt := BitVec.ofNat 7 got } }, bitsAt s.bcData s.bc.pos.toNat got, got)

/-- `bc_skip(n)` (R123): whether the bits were there. -/
def State.bcSkip (s : State) (n : Nat) : State × Bool :=
  if n ≤ s.bcAvail then
    ({ s with bc := { s.bc with pos := BitVec.ofNat 64 (s.bc.pos.toNat + n) } }, true)
  else
    ({ s with
        bc := { s.bc with pos := BitVec.ofNat 64 s.bcTotal, short := true }
        flags := s.flags ||| Flag.short.mask }, false)

/-! ### Ring buffer (R47) -/

/-- Where sample `RB[c][t]` is listed; channel numbers are below 256. -/
def ringKey (c t : Nat) : Nat := 256 * t + c

/-- `RB[c][t]`; a sample that is not listed is +0.0 (R47). -/
def Ring.read (r : Ring) (c t : Nat) : Word32 := (Table.find r.buf (ringKey c t)).getD 0

/-- Write `RB[c][t]`; a sample that becomes +0.0 is not listed. -/
def Ring.write (r : Ring) (c t : Nat) (v : Word32) : Ring :=
  { r with buf := if v = 0 then Table.erase r.buf (ringKey c t) else Table.put r.buf (ringKey c t) v }

/-- Make `RB[c][t]` +0.0 for every channel and every `t` with `lo <= t < hi`. -/
def Ring.clear (r : Ring) (lo hi : Nat) : Ring :=
  { r with buf := r.buf.filter (fun cell => !(decide (lo ≤ cell.1 / 256) && decide (cell.1 / 256 < hi))) }

/-! ### Loops -/

/-- Run `body i`, `body (i+1)`, .. `n` times in increasing order, stopping at the first error. -/
def loopFrom {σ ε : Type} (body : Nat → σ → Except ε σ) : (n i : Nat) → σ → Except ε σ
  | 0, _, r => .ok r
  | n + 1, i, r =>
    match body i r with
    | .ok r' => loopFrom body n (i + 1) r'
    | .error e => .error e

/-- Run `body x` for the elements of a list in order, stopping at the first error. -/
def loopOver {α σ ε : Type} (body : α → σ → Except ε σ) : List α → σ → Except ε σ
  | [], r => .ok r
  | x :: xs, r =>
    match body x r with
    | .ok r' => loopOver body xs r'
    | .error e => .error e

/-! ### The host's ports (R76) -/

/-- What a host action that is no command does between two commands. -/
def State.hostStep (s : State) : HostAction → Result
  | .command _ => .next s
  | .writeReg r v => .next (s.setX r v)
  | .writeDm a v => if a < s.par.dmWords then .next (s.dmWrite a v) else .fault (.hostDmAddress a)

end Sys2Proof.Machine
end

