-- ==== Sys2Proof/Machine/Operands.lean ====
section
/-! DEFINITION. The operand forms of the commands (30_encoding.md R83). -/

namespace Sys2Proof.Machine

/-- `x[rs1] + imm` as an unbounded integer: a DM address (R62) or a bit count (R127). -/
def State.offset (s : State) (rs1 : Reg) (imm : Imm) : Nat := (s.x rs1).toNat + imm.toNat

/-- A register's value as an integer. -/
def State.xNat (s : State) (r : Reg) : Nat := (s.x r).toNat

/-- The consumer number of a command, `imm[7:0]` (R83, R141). -/
def consumer (imm : Imm) : BitVec 8 := imm.setWidth 8

/-- A selector of 2 or 4 bits, a window number or neighbour flags of 2 bits, a channel count of 8 bits (R83). -/
def selector (width : Nat) (imm : Imm) : Nat := (imm.setWidth width).toNat

/-- A one-bit immediate: the MDCT slot or the long-block flag (R83). -/
def oneBit (imm : Imm) : Bool := imm.getLsbD 0

/-- One bit as a 64-bit value at a place. -/
def flagAt (b : Bool) (place : Nat) : Word := if b then 1#64 <<< place else 0

/-- Consumer `cid` holds the reader lock (R141). -/
def State.holdsLock (s : State) (cid : BitVec 8) : Bool := s.lock.held && s.lock.owner == cid

/-- `n` is a block size (R220): a power of two with its log between the two limits. -/
def isBlockSize (p : Params) (n : Nat) : Bool :=
  n == 2 ^ n.log2 && decide (p.blkMinLog2 ≤ n.log2) && decide (n.log2 ≤ p.blkMaxLog2)

end Sys2Proof.Machine
end

