-- ==== Sys2Proof/Machine/Bc.lean ====
section
/-! DEFINITION. The bit-cursor commands (42_bitcursor.md R124 to R130). -/

namespace Sys2Proof.Machine

/-- OK when the bits were there, SHORT when the cursor ran past the end (R128). -/
def endRead (r : State × Bool) : Result := r.1.finish (if r.2 then .ok else .short)

/-- `BC.CLR` (R124). -/
def execBcClr (s : State) : Result :=
  State.finish { s with bc := { ranges := [], pos := 0, short := false, cnt := 0 } } .ok

/-- `BC.ADDR` (R125). -/
def execBcAddr (rs1 rs2 : Reg) (s : State) : Result :=
  let off := s.xNat rs1
  let len := s.xNat rs2
  if s.bc.ranges.length = s.par.maxRanges then s.raise .illegalOperand
  else if s.srcLen < off + len then s.raise .srcRange
  else if 2 ^ 64 ≤ s.bcTotal + 8 * len then .refused .bitTotal
  else State.finish { s with bc := { s.bc with ranges := s.bc.ranges ++ [⟨s.x rs1, s.x rs2⟩] } } .ok

/-- `BC.RESET` (R126); `CSR[FLAGS].SHORT` is sticky and stays. -/
def execBcReset (s : State) : Result :=
  State.finish { s with bc := { s.bc with pos := 0, short := false, cnt := 0 } } .ok

/-- `BC.PEEK` (R127). -/
def execBcPeek (rd rs1 : Reg) (imm : Imm) (s : State) : Result :=
  let n := s.offset rs1 imm
  if n < 1 ∨ Config.peekMax < n then s.raise .illegalOperand
  else
    let (s1, v, _) := s.bcPeek n
    (s1.setX rd (BitVec.ofNat 64 v)).finish .ok

/-- `BC.SKIP` (R128). -/
def execBcSkip (rs1 : Reg) (imm : Imm) (s : State) : Result := endRead (s.bcSkip (s.offset rs1 imm))

/-- `BC.READ` (R129). -/
def execBcRead (rd rs1 : Reg) (imm : Imm) (s : State) : Result :=
  let n := s.offset rs1 imm
  if n < 1 ∨ Config.peekMax < n then s.raise .illegalOperand
  else
    let (s1, v, _) := s.bcPeek n
    endRead ((s1.setX rd (BitVec.ofNat 64 v)).bcSkip n)

/-- `BC.RDVF` (R130). -/
def execBcRdvf (rd : Reg) (s : State) : Result :=
  let (s1, u, _) := s.bcPeek 32
  endRead ((s1.setX rd ((F32.ofVorbis (BitVec.ofNat 32 u)).setWidth 64)).bcSkip 32)

end Sys2Proof.Machine
end

