-- ==== Sys2Proof/Machine/Crc.lean ====
section
/-! DEFINITION. The checksum leaf (41_crc.md): the arithmetic (R110 to R112, R117) and the four CRC commands. -/

namespace Sys2Proof.Machine

/-- One turn of the loop of R112. -/
def crcShift (r : Word32) : Word32 := if r.msb then (r <<< 1) ^^^ Config.crcPoly else r <<< 1

/-- `n` turns of the loop of R112. -/
def crcShifts : Nat → Word32 → Word32
  | 0, r => r
  | n + 1, r => crcShifts n (crcShift r)

/-- `CRC_TABLE[i]` (R112). -/
def crcTable (i : Byte) : Word32 := crcShifts 8 (i.setWidth 32 <<< 24)

/-- Fold one byte into a remainder (R111). -/
def crcStep (crc : Word32) (b : Byte) : Word32 := (crc <<< 8) ^^^ crcTable (b ^^^ (crc >>> 24).setWidth 8)

/-- Fold a byte string, in offset order (R111). -/
def crcBytes (crc : Word32) (bs : List Byte) : Word32 := bs.foldl crcStep crc

/-- The checksum of a page image: the bytes at offsets 22 to 25 count as zero (R117). -/
def pageCrc (img : List Byte) : Word32 :=
  crcBytes 0 (img.mapIdx fun i b => if 22 ≤ i ∧ i ≤ 25 then 0 else b)

/-- `CRC.CLR` (R113). -/
def execCrcClr (s : State) : Result := State.finish { s with crcAcc := 0 } .ok

/-- `CRC.UPD` (R114). -/
def execCrcUpd (rs1 : Reg) (imm : Imm) (s : State) : Result :=
  State.finish { s with crcAcc := crcStep s.crcAcc (BitVec.ofNat 8 (s.offset rs1 imm)) } .ok

/-- `CRC.SRC` (R115). -/
def execCrcSrc (rs1 rs2 : Reg) (s : State) : Result :=
  let p := s.xNat rs1
  let n := s.xNat rs2
  if s.srcLen < p + n then s.raise .srcRange
  else State.finish { s with crcAcc := crcBytes s.crcAcc ((s.src.drop p).take n) } .ok

/-- `CRC.GET` (R116). -/
def execCrcGet (rd : Reg) (s : State) : Result := (s.setX rd (s.crcAcc.setWidth 64)).finish .ok

end Sys2Proof.Machine
end

