-- ==== Sys2Proof/Machine/Codes.lean ====
section
/-! DEFINITION. Canonical Huffman codes (44_huffman.md R170 to R176): which codeword each entry gets, its stored form, the
prefix table and the overflow chain. -/

namespace Sys2Proof.Machine

/-- The codewords given out so far, as a binary tree: nothing given out below, everything given out below, or two halves
(next bit 0, next bit 1). -/
inductive CodeTree where
  | free
  | full
  | node (zero one : CodeTree)
  deriving DecidableEq, Repr

/-- Two halves, folded when both are full. -/
def CodeTree.join : CodeTree → CodeTree → CodeTree
  | .full, .full => .full
  | zero, one => .node zero one

/-- Give out the numerically lowest free codeword of `l` bits (R172): the codeword and the tree after it, or none when no
codeword of that length is free. A codeword is free when none given out is a prefix of it and it is a prefix of none. -/
def CodeTree.alloc : (l : Nat) → CodeTree → Option (Nat × CodeTree)
  | _, .full => none
  | 0, .free => some (0, .full)
  | 0, .node _ _ => none
  | l + 1, .free =>
    match CodeTree.alloc l .free with
    | some (c, t) => some (c, CodeTree.join t .free)
    | none => none
  | l + 1, .node zero one =>
    match CodeTree.alloc l zero with
    | some (c, t) => some (c, CodeTree.join t one)
    | none =>
      match CodeTree.alloc l one with
      | some (c, t) => some (2 ^ l + c, CodeTree.join zero t)
      | none => none

/-- The codes of the entries in entry order (R172), as pairs (length, canonical code), none for an unused entry; none at all
when the list is overpopulated. -/
def canonicalFrom : CodeTree → List Nat → Option (List (Option (Nat × Nat)))
  | _, [] => some []
  | t, 0 :: ls =>
    match canonicalFrom t ls with
    | some cs => some (none :: cs)
    | none => none
  | t, (l + 1) :: ls =>
    match CodeTree.alloc (l + 1) t with
    | none => none
    | some (c, t') =>
      match canonicalFrom t' ls with
      | some cs => some (some (l + 1, c) :: cs)
      | none => none

/-- Canonical code assignment of a code-length list (R172). -/
def canonicalCodes (lens : List Nat) : Option (List (Option (Nat × Nat))) := canonicalFrom .free lens

/-- The `l` low bits of `c` in reverse order (R173). -/
def reverseBits : Nat → Nat → Nat
  | 0, _ => 0
  | l + 1, c => (c % 2) * 2 ^ l + reverseBits l (c / 2)

/-- The stored code of a canonical code (R173). -/
def storedCode (lc : Nat × Nat) : Code := { len := lc.1, code := BitVec.ofNat 32 (reverseBits lc.1 lc.2) }

/-- `mask[e]`, `2^len - 1` (R173). -/
def Code.mask (c : Code) : Word := BitVec.ofNat 64 (2 ^ c.len - 1)

/-- The upcoming bits `v` begin with the stored code: `v & mask == code` (R173). -/
def Code.hits (c : Code) (v : Word) : Bool := v &&& c.mask == c.code.setWidth 64

/-- The code of entry `e`, none when it is unused or there is no such entry. -/
def codeOf (codes : List (Option Code)) (e : Nat) : Option Code := (codes.getD e none)

/-- `len[e]` (R39): 0 for an unused entry. -/
def lenOf (c : Option Code) : Nat :=
  match c with
  | none => 0
  | some c => c.len

/-- The lengths of the used entries. -/
def usedLens (codes : List (Option Code)) : List Nat := codes.filterMap (fun c => c.map Code.len)

/-- `maxLen`, the largest used length (R39). -/
def maxLenOf (codes : List (Option Code)) : Nat := (usedLens codes).foldl max 0

/-- `minLen`, the smallest used length (R39). -/
def minLenOf (codes : List (Option Code)) : Nat := (usedLens codes).foldl min (maxLenOf codes)

/-- `tableBits` (R174). -/
def tableBitsOf (codes : List (Option Code)) : Nat := min (maxLenOf codes) Config.tableBitsMax

/-- Write entry `e` with code `c` into all its slots of a prefix table of `bits` index bits (R174). -/
def fillSlots (bits e : Nat) (c : Code) (table : List (Option Nat)) : List (Option Nat) :=
  (List.range (2 ^ (bits - c.len))).foldl (fun t j => t.set (c.code.toNat ||| (j <<< c.len)) (some e)) table

/-- Write the entries of a list, numbered from `e`, into the prefix table (R174). -/
def fillEntries (bits : Nat) : List (Option Code) → Nat → List (Option Nat) → List (Option Nat)
  | [], _, table => table
  | none :: cs, e, table => fillEntries bits cs (e + 1) table
  | some c :: cs, e, table =>
    fillEntries bits cs (e + 1) (if c.len ≤ bits then fillSlots bits e c table else table)

/-- The prefix table (R174). -/
def prefixTable (codes : List (Option Code)) : List (Option Nat) :=
  let bits := tableBitsOf codes
  fillEntries bits codes 0 (List.replicate (2 ^ bits) none)

/-- The chain's order (R176): by length, then by stored code. -/
def chainBefore (a b : Nat × Code) : Bool :=
  decide (a.2.len < b.2.len) || (a.2.len == b.2.len && decide (a.2.code.toNat ≤ b.2.code.toNat))

/-- Insert an entry in the chain's order. -/
def chainInsert (a : Nat × Code) : List (Nat × Code) → List (Nat × Code)
  | [] => [a]
  | b :: bs => if chainBefore a b then a :: b :: bs else b :: chainInsert a bs

/-- The entries longer than `bits`, numbered from `e`, in the chain's order (R175). -/
def chainFrom (bits : Nat) : List (Option Code) → Nat → List (Nat × Code)
  | [], _ => []
  | none :: cs, e => chainFrom bits cs (e + 1)
  | some c :: cs, e =>
    if bits < c.len then chainInsert (e, c) (chainFrom bits cs (e + 1)) else chainFrom bits cs (e + 1)

/-- The overflow chain, entry numbers in order (R175, R176). -/
def overflowChain (codes : List (Option Code)) : List Nat :=
  (chainFrom (tableBitsOf codes) codes 0).map Prod.fst

/-- The codebook of a code-length list, with no lookup table; none when the list is overpopulated (R177). -/
def buildCodebook (dim : Nat) (lens : List Nat) : Option Codebook :=
  match canonicalCodes lens with
  | none => none
  | some cs =>
    let codes := cs.map (fun c => c.map storedCode)
    some { dim := dim, codes := codes, prefixes := prefixTable codes, chain := overflowChain codes,
           mapType := .noTable, lut := [] }

namespace Codebook

/-- `entries` (R39). -/
def entries (b : Codebook) : Nat := b.codes.length

/-- `len[e]` (R39). -/
def len (b : Codebook) (e : Nat) : Nat := lenOf (codeOf b.codes e)

/-- `ovfMaxLen` (R175). -/
def ovfMaxLen (b : Codebook) : Nat := (b.chain.map b.len).foldl max 0

/-- Entry `e` matches the upcoming bits (R173, R178). -/
def matchesAt (b : Codebook) (v : Word) (e : Nat) : Bool :=
  match codeOf b.codes e with
  | none => false
  | some c => c.hits v

end Codebook

end Sys2Proof.Machine
end

