-- ==== Sys2Proof/Machine/Huf.lean ====
section
/-! DEFINITION. The HUF commands (44_huffman.md): setup, scalar and vector decode, and the readers of a slot. -/

namespace Sys2Proof.Machine

/-! ### Dependents (R194) -/

/-- The residue setup names codebook slot `k` (R194). -/
def Residue.names (r : Residue) (k : Nat) : Bool :=
  r.classbook == k || r.classes.any (fun c => c.books.any (fun b => b == some k))

/-- Make every residue slot that names `k` invalid (R194). -/
def State.dropDependents (s : State) (k : Nat) : State :=
  { s with residues := s.residues.filter (fun c => !c.2.names k) }

/-- End a setup command on a bad descriptor (R268). -/
def State.malformed (s : State) : Result := (s.setFlag .malformed).finish .malformedSetup

/-! ### HUF.BUILD -/

/-- The state of `HUF.BUILD` once its fault checks have passed: dependents and the slot itself invalid (R177). -/
def State.openSlot (s : State) (k : Nat) : State :=
  let s1 := s.dropDependents k
  { s1 with books := Table.erase s1.books k }

/-- `HUF.BUILD` (R177). All lengths are read before any of them is tested (log entry 29). -/
def execHufBuild (rs1 rs2 : Reg) (s : State) : Result :=
  let k := s.xNat rs1
  let a := s.xNat rs2
  if s.par.ncb ≤ k then s.raise .illegalOperand
  else if s.par.dmWords ≤ a + 1 then s.raise .dmRange
  else s.withWord a fun entriesWord => s.withWord (a + 1) fun dimWord =>
    let entries := entriesWord.toNat
    let dim := dimWord.toNat
    if s.par.dmWords < a + 2 + entries then s.raise .dmRange
    else
      let s1 := s.openSlot k
      if entries = 0 ∨ s.par.maxEntries < entries ∨ dim = 0 ∨ s.par.maxDim < dim then s1.malformed
      else s.withWords (a + 2) entries fun lenWords =>
        let lens := lenWords.map BitVec.toNat
        if lens.any (fun l => decide (Config.maxLen < l)) then s1.malformed
        else if lens.all (fun l => l == 0) then s1.malformed
        else
          match buildCodebook dim lens with
          | none => s1.malformed
          | some b => State.finish { s1 with books := Table.put s1.books k b } .ok

/-! ### Scalar decode (R178 to R181) -/

/-- What `huf_decode` returns (R178): INVALID, or an entry and whether its bits were all there. -/
inductive Symbol where
  | invalid
  | entry (e : Nat) (ok : Bool)
  deriving DecidableEq, Repr

/-- Consume entry `e`'s bits and return it (R178). -/
def State.takeSymbol (s : State) (b : Codebook) (e : Nat) : State × Symbol :=
  let (s1, ok) := s.bcSkip (b.len e)
  (s1, .entry e ok)

/-- `huf_decode` (R178). What is compared with the shortest code is the bits that remain (R180, R181), not the bits peeked,
which differ when every code is longer than the table is wide (log entry 28). -/
def State.hufDecode (s : State) (b : Codebook) : State × Symbol :=
  let (s1, v, _) := s.bcPeek (tableBitsOf b.codes)
  if s.bcAvail < minLenOf b.codes then (s1, .invalid)
  else
    match b.prefixes.getD v none with
    | some e => s1.takeSymbol b e
    | none =>
      if b.chain.isEmpty then (s1, .invalid)
      else
        let (s2, v2, _) := s1.bcPeek b.ovfMaxLen
        match b.chain.find? (b.matchesAt (BitVec.ofNat 64 v2)) with
        | some e => s2.takeSymbol b e
        | none => (s2, .invalid)

/-- A decode that met invalid data: the result is all ones (R182, R180). -/
def State.invalidData (s : State) (rd : Reg) : Result :=
  ((s.setX rd noResult).setFlag .invalid).finish .invalidData

/-- `HUF.DEC` (R182). -/
def execHufDec (rd rs1 : Reg) (s : State) : Result :=
  let k := s.xNat rs1
  if s.par.ncb ≤ k then s.raise .illegalOperand
  else
    match Table.find s.books k with
    | none => s.raise .notReady
    | some b =>
      match s.hufDecode b with
      | (s1, .invalid) => s1.invalidData rd
      | (s1, .entry e ok) => (s1.setX rd (BitVec.ofNat 64 e)).finish (if ok then .ok else .short)

/-! ### Vector lookup (R183 to R187) -/

/-- The largest number that differs from `v` only in its low `bits` bits and whose power `dim` is at most `entries`. -/
def rootFrom (entries dim : Nat) : (bits v : Nat) → Nat
  | 0, v => v
  | b + 1, v => if (v + 2 ^ b) ^ dim ≤ entries then rootFrom entries dim b (v + 2 ^ b) else rootFrom entries dim b v

/-- `lookup1_values(entries, dim)`: the largest `v` with `v^dim <= entries` (R185). -/
def lookup1Values (entries dim : Nat) : Nat := rootFrom entries dim (entries.log2 + 1) 0

/-- What the lookup build takes from a descriptor (R183). -/
structure VqSpec where
  lattice : Bool
  minValue : Word32
  delta : Word32
  sequential : Bool
  mult : List Word32
  deriving DecidableEq, Repr

/-- Which multiplicand element `d` of entry `e` takes (R186). -/
def VqSpec.index (q : VqSpec) (lv dim e d : Nat) : Nat :=
  if q.lattice then (e / lv ^ d) % lv else e * dim + d

/-- One element: multiply, add the minimum, add the last, each rounded (R186). -/
def VqSpec.element (q : VqSpec) (mi : Nat) (last : Word32) : Word32 :=
  F32.add (F32.add (F32.mul (F32.ofNat (q.mult.getD mi 0).toNat) q.delta) q.minValue) last

/-- `n` elements of entry `e` from element `d` on (R186). -/
def VqSpec.rowFrom (q : VqSpec) (lv dim e : Nat) : (n d : Nat) → (last : Word32) → List Word32
  | 0, _, _ => []
  | n + 1, d, last =>
    let v := q.element (q.index lv dim e d) last
    v :: q.rowFrom lv dim e n (d + 1) (if q.sequential then v else last)

/-- The lookup table, entry-major (R186). -/
def VqSpec.table (q : VqSpec) (entries dim : Nat) : List Word32 :=
  (List.range entries).flatMap fun e => q.rowFrom (lookup1Values entries dim) dim e dim 0 0

/-- The codebook without a lookup table (R187). -/
def Codebook.withoutTable (b : Codebook) : Codebook := { b with mapType := .noTable, lut := [] }

/-- The state of `HUF.VQ` once its fault checks have passed (R187). -/
def State.dropTable (s : State) (k : Nat) (b : Codebook) : State :=
  let s1 := s.dropDependents k
  { s1 with books := Table.put s1.books k b.withoutTable }

/-- `HUF.VQ` (R187). -/
def execHufVq (rs1 rs2 : Reg) (s : State) : Result :=
  let k := s.xNat rs1
  let a := s.xNat rs2
  if s.par.ncb ≤ k then s.raise .illegalOperand
  else if s.par.dmWords ≤ a + 4 then s.raise .dmRange
  else s.withWord (a + 4) fun nmultWord =>
    let nmult := nmultWord.toNat
    if s.par.dmWords < a + 5 + nmult then s.raise .dmRange
    else
      match Table.find s.books k with
      | none => s.raise .notReady
      | some b =>
        let s1 := s.dropTable k b
        s.withWord a fun mapWord =>
          let mapType := mapWord.toNat
          if mapType = 0 then s1.finish .ok
          else if 2 < mapType ∨ (mapType = 2 ∧ s.par.mapType2 = false) then s1.malformed
          else s.withWord (a + 3) fun seqWord =>
            if 1 < seqWord.toNat then s1.malformed
            else if mapType = 1 ∧ nmult ≠ lookup1Values b.entries b.dim then s1.malformed
            else if mapType = 2 ∧ nmult ≠ b.entries * b.dim then s1.malformed
            else s.withWord (a + 1) fun minWord => s.withWord (a + 2) fun deltaWord =>
              s.withWords (a + 5) nmult fun mult =>
                let q : VqSpec := { lattice := mapType == 1, minValue := minWord, delta := deltaWord,
                                    sequential := seqWord.toNat == 1, mult := mult }
                let b1 := { b with mapType := (if mapType = 1 then .lattice else .direct)
                                   lut := q.table b.entries b.dim }
                State.finish { s1 with books := Table.put s1.books k b1 } .ok

/-- The vector of entry `e` (R186, R188). -/
def Codebook.vector (b : Codebook) (e : Nat) : List Word32 := (b.lut.drop (e * b.dim)).take b.dim

/-- `HUF.DECV` (R188). -/
def execHufDecv (rd rs1 rs2 : Reg) (s : State) : Result :=
  let k := s.xNat rs1
  let dst := s.xNat rs2
  if s.par.ncb ≤ k then s.raise .illegalOperand
  else
    match Table.find s.books k with
    | none => s.raise .notReady
    | some b =>
      if b.mapType = .noTable then s.raise .notReady
      else if s.par.dmWords < dst + b.dim then s.raise .dmRange
      else
        match s.hufDecode b with
        | (s1, .invalid) => s1.invalidData rd
        | (s1, .entry e ok) =>
          let s2 := s1.setX rd (BitVec.ofNat 64 e)
          if ok = false then s2.finish .short
          else (s2.dmWriteList dst (b.vector e)).finish .ok

/-! ### Readers of a slot (R189 to R191) -/

/-- The number of a map type (R184). -/
def MapType.number : MapType → Nat
  | .noTable => 0
  | .lattice => 1
  | .direct => 2

/-- The number `HUF.INFO` reads with a selector from 1 to 9 (R189). -/
def Codebook.info (b : Codebook) (sel : Nat) : Nat :=
  if sel = 1 then b.entries
  else if sel = 2 then b.dim
  else if sel = 3 then maxLenOf b.codes
  else if sel = 4 then minLenOf b.codes
  else if sel = 5 then tableBitsOf b.codes
  else if sel = 6 then b.chain.length
  else if sel = 7 then b.ovfMaxLen
  else if sel = 8 then b.mapType.number
  else (usedLens b.codes).length

/-- `HUF.INFO` (R189). -/
def execHufInfo (rd rs1 : Reg) (imm : Imm) (s : State) : Result :=
  let k := s.xNat rs1
  let sel := selector 4 imm
  if s.par.ncb ≤ k ∨ 10 ≤ sel then s.raise .illegalOperand
  else
    match Table.find s.books k with
    | none => if sel = 0 then (s.setX rd 0).finish .ok else s.raise .notReady
    | some b => (s.setX rd (if sel = 0 then 1 else BitVec.ofNat 64 (b.info sel))).finish .ok

/-- `HUF.CODE` (R190). -/
def execHufCode (rd rs1 rs2 : Reg) (s : State) : Result :=
  let k := s.xNat rs1
  let e := s.xNat rs2
  if s.par.ncb ≤ k then s.raise .illegalOperand
  else
    match Table.find s.books k with
    | none => s.raise .notReady
    | some b =>
      if b.entries ≤ e then s.raise .illegalOperand
      else
        let v : Word :=
          match codeOf b.codes e with
          | none => 0
          | some c => (BitVec.ofNat 64 c.len <<< 32) ||| c.code.setWidth 64
        (s.setX rd v).finish .ok

/-- `HUF.LUT` (R191). -/
def execHufLut (rd rs1 rs2 : Reg) (s : State) : Result :=
  let k := s.xNat rs1
  let i := s.xNat rs2
  if s.par.ncb ≤ k then s.raise .illegalOperand
  else
    match Table.find s.books k with
    | none => s.raise .notReady
    | some b =>
      if b.mapType = .noTable then s.raise .notReady
      else if b.entries * b.dim ≤ i then s.raise .illegalOperand
      else (s.setX rd ((b.lut.getD i 0).setWidth 64)).finish .ok

end Sys2Proof.Machine
end

