-- ==== Sys2Proof/Machine/Mdct.lean ====
section
/-! DEFINITION. The inverse-MDCT commands (46_imdct.md). The numeric function itself is the free value `Config.imdct`. -/

namespace Sys2Proof.Machine

/-- The block size held by the slot an immediate names (R43, R44). -/
def State.mdctSize (s : State) (imm : Imm) : Nat := if oneBit imm then s.mdct.n1.toNat else s.mdct.n0.toNat

/-- `MDCT.INIT` (R221). -/
def execMdctInit (rs1 : Reg) (imm : Imm) (s : State) : Result :=
  let n := s.x rs1
  if isBlockSize s.par n.toNat = false then s.raise .illegalOperand
  else
    let m : Mdct := if oneBit imm then { s.mdct with n1 := n.setWidth 14 } else { s.mdct with n0 := n.setWidth 14 }
    State.finish { s with mdct := m } .ok

/-- The `n` words of the transformed block (R222, R224). -/
def imdctBlock (n : Nat) (spectrum : List Word32) : List Word32 := (List.range n).map (Config.imdct n spectrum)

/-- `MDCT.REV` (R222): the first `n/2` words are read, all `n` are written. -/
def execMdctRev (rd rs1 : Reg) (imm : Imm) (s : State) : Result :=
  let b := s.xNat rs1
  let n := s.mdctSize imm
  if n = 0 then s.raise .notReady
  else if s.par.dmWords < b + n then s.raise .dmRange
  else s.withWords b (n / 2) fun spectrum =>
    ((s.dmWriteList b (imdctBlock n spectrum)).setX rd (s.x rs1)).finish .ok

end Sys2Proof.Machine
end

