-- ==== Sys2Proof/Machine/Ola.lean ====
section
/-! DEFINITION. Windows, overlap-add, ring buffer and inverse coupling (47_ola.md). -/

namespace Sys2Proof.Machine

/-! ### Configuration and modes (R230 to R234, R246) -/

/-- `OLA.CFG` (R231). -/
def execOlaCfg (rs1 rs2 : Reg) (imm : Imm) (s : State) : Result :=
  let b0 := s.xNat rs1
  let b1 := s.xNat rs2
  let ch := selector 8 imm
  if ch = 0 ∨ s.par.maxCh < ch then s.raise .illegalOperand
  else if isBlockSize s.par b0 = false ∨ isBlockSize s.par b1 = false ∨ b1 < b0 then s.raise .illegalOperand
  else
    State.finish { s with
      ola := { ch := BitVec.ofNat 8 ch, b0 := BitVec.ofNat 14 b0, b1 := BitVec.ofNat 14 b1, prev := 0 }
      modes := []
      ring := { buf := [], start := 0, valid := 0, endAt := 0,
                cap := BitVec.ofNat 32 (max s.ring.cap.toNat b1) } } .ok

/-- Sample `i` of a slope of length `len` (R234). -/
def slope (sine : SineUnit) (i len : Nat) : Word32 :=
  match sine with
  | .correctlyRounded => F32.slopeDefault i len
  | .implementation => Config.slope i len

/-- Value `i` of `window(n, left, right)` (R233). -/
def windowValue (sine : SineUnit) (n left right i : Nat) : Word32 :=
  let lb := n / 4 - left / 2
  let rb := n - n / 4 - right / 2
  if i < lb then 0
  else if i < lb + left then slope sine (i - lb) left
  else if i < rb then F32.one
  else if i < rb + right then slope sine (right - 1 - (i - rb)) right
  else 0

/-- `window(n, left, right)` (R233). -/
def window (sine : SineUnit) (n left right : Nat) : List Word32 :=
  (List.range n).map (windowValue sine n left right)

/-- The windows of a mode (R232): one for a short mode; for a long mode window `w` has bit 0 set when the previous block is
long and bit 1 when the next is. -/
def modeWindows (sine : SineUnit) (long : Bool) (b0 b1 : Nat) : List (List Word32) :=
  if long then
    [ window sine b1 (b0 / 2) (b0 / 2), window sine b1 (b1 / 2) (b0 / 2),
      window sine b1 (b0 / 2) (b1 / 2), window sine b1 (b1 / 2) (b1 / 2) ]
  else [window sine b0 (b0 / 2) (b0 / 2)]

/-- `OLA.MODE` (R232). -/
def execOlaMode (rs1 : Reg) (imm : Imm) (s : State) : Result :=
  let m := s.xNat rs1
  if s.par.nmode ≤ m then s.raise .illegalOperand
  else if s.ola.ch = 0 then s.raise .notReady
  else
    let b0 := s.ola.b0.toNat
    let b1 := s.ola.b1.toNat
    let long := oneBit imm
    let mode : Mode := { long := long, n := (if long then b1 else b0),
                         windows := modeWindows s.par.sine long b0 b1 }
    State.finish { s with modes := Table.put s.modes m mode } .ok

/-- `OLA.WIN` (R246). -/
def execOlaWin (rd rs1 rs2 : Reg) (imm : Imm) (s : State) : Result :=
  let m := s.xNat rs1
  let i := s.xNat rs2
  let w := selector 2 imm
  if s.par.nmode ≤ m then s.raise .illegalOperand
  else
    match Table.find s.modes m with
    | none => s.raise .notReady
    | some mode =>
      if mode.windows.length ≤ w ∨ mode.n ≤ i then s.raise .illegalOperand
      else (s.setX rd (((mode.windows.getD w []).getD i 0).setWidth 64)).finish .ok

/-! ### Overlap-add (R236 to R240) -/

/-- Where a block's sample 0 lands (R237); `p` is the previous block's size, 0 for none, and `v` is RB_VALID. -/
def landing (p n v : Nat) : Int :=
  if p = 0 then (v : Int) - (n / 2 : Nat) else (v : Int) + (p / 4 : Nat) - (n / 4 : Nat)

/-- Where the finished region ends after the block (R237). -/
def validAfter (p n v : Nat) : Nat := if p = 0 then v else v + p / 4 + n / 4

/-- The frames the ring must hold for the block (R238, R240). -/
def framesNeeded (p n : Nat) (r : Ring) : Int := landing p n r.valid + (n : Int) - (r.start : Int)

/-- One sample of a block (R238): dropped when it lands below `v`, else the windowed sample is added. -/
def addWindowed (dm : Memory) (win : List Word32) (buf c : Nat) (st : Int) (v i : Nat) (r : Ring) :
    Except Nat Ring :=
  let t := st + (i : Int)
  if t < (v : Int) then .ok r
  else
    match Memory.read dm (buf + i) with
    | none => .error (buf + i)
    | some y => .ok (r.write c t.toNat (F32.add (r.read c t.toNat) (F32.mul (win.getD i 0) y)))

/-- The block of one channel; a channel without energy counts as zeros and is not read (R236, R238). -/
def addChannel (dm : Memory) (win : List Word32) (n : Nat) (st : Int) (v : Nat) (cb : Nat × Nat × Bool) (r : Ring) :
    Except Nat Ring :=
  if cb.2.2 then loopFrom (addWindowed dm win cb.2.1 cb.1 st v) n 0 r else .ok r

/-- The (buffer, energy) words of an `OLA.ADD` descriptor as channel number, buffer and energy (R236). -/
def blockChannels : Nat → List Word32 → List (Nat × Nat × Bool)
  | c, b :: e :: ws => (c, b.toNat, e == 1) :: blockChannels (c + 1) ws
  | _, _ => []

/-- The energy words of an `OLA.ADD` descriptor (R236). -/
def energyWords : List Word32 → List Word32
  | _ :: e :: ws => e :: energyWords ws
  | _ => []

/-- `OLA.ADD` (R238). All `2*OLA_CH` words of the descriptor are read before any of them is tested, which R72 allows and the model
chooses (DESIGN CHOICE, log entry 29): an unwritten `buf[j]` stops the command also where `energy[j]` is 0. -/
def execOlaAdd (rd rs1 rs2 : Reg) (imm : Imm) (s : State) : Result :=
  let m := s.xNat rs1
  let a := s.xNat rs2
  let w := selector 2 imm
  let ch := s.ola.ch.toNat
  if s.par.nmode ≤ m then s.raise .illegalOperand
  else if ch = 0 then s.raise .notReady
  else
    match Table.find s.modes m with
    | none => s.raise .notReady
    | some mode =>
      if mode.long = false ∧ w ≠ 0 then s.raise .illegalOperand
      else if s.par.dmWords < a + 2 * ch then s.raise .dmRange
      else s.withWords a (2 * ch) fun words =>
        let n := mode.n
        let blocks := blockChannels 0 words
        if (energyWords words).any (fun e => decide (1 < e.toNat)) then s.raise .illegalOperand
        else if blocks.any (fun b => b.2.2 && decide (s.par.dmWords < b.2.1 + n)) then s.raise .dmRange
        else
          let p := s.ola.prev.toNat
          let v := s.ring.valid
          let st := landing p n v
          let need := framesNeeded p n s.ring
          if (s.par.rbMax : Int) < need then s.raise .rbOverrun
          else
            match loopOver (addChannel s.dm (mode.windows.getD w []) n st v) blocks s.ring with
            | .error e => .fault (.dmUnwritten e)
            | .ok r =>
              let v1 := validAfter p n v
              (State.setX { s with
                ring := { r with valid := v1
                                 endAt := max s.ring.endAt (st + (n : Int)).toNat
                                 cap := BitVec.ofNat 32 (max s.ring.cap.toNat need.toNat) }
                ola := { s.ola with prev := BitVec.ofNat 14 n } } rd (BitVec.ofNat 64 (v1 - v))).finish .ok

/-! ### Draining (R241, R242, R245) -/

/-- The `k` oldest frames, interleaved by channel (R241). -/
def drainWords (r : Ring) (ch k : Nat) : List Word32 :=
  (List.range k).flatMap fun f => (List.range ch).map fun c => r.read c (r.start + f)

/-- The ring without its `k` oldest frames (R241, R242). -/
def Ring.drop (r : Ring) (k : Nat) : Ring := { r.clear r.start (r.start + k) with start := r.start + k }

/-- `OLA.RD` (R241). -/
def execOlaRd (rd rs1 rs2 : Reg) (s : State) : Result :=
  let dst := s.xNat rs1
  let ch := s.ola.ch.toNat
  if ch = 0 then s.raise .notReady
  else
    let k := min (s.xNat rs2) (s.ring.valid - s.ring.start)
    if s.par.dmWords < dst + k * ch then s.raise .dmRange
    else
      let s1 := s.dmWriteList dst (drainWords s.ring ch k)
      (State.setX { s1 with ring := s.ring.drop k } rd (BitVec.ofNat 64 k)).finish .ok

/-- `OLA.DISC` (R242). -/
def execOlaDisc (rd rs1 : Reg) (s : State) : Result :=
  if s.ola.ch = 0 then s.raise .notReady
  else
    let k := min (s.xNat rs1) (s.ring.valid - s.ring.start)
    (State.setX { s with ring := s.ring.drop k } rd (BitVec.ofNat 64 k)).finish .ok

/-- `OLA.RESET` (R245). -/
def execOlaReset (s : State) : Result :=
  State.finish { s with ring := s.ring.clear s.ring.valid s.ring.endAt, ola := { s.ola with prev := 0 } } .ok

/-! ### Inverse coupling (R247, R248) -/

/-- `uncouple(M, A)` (R248): the new magnitude and the new angle. -/
def uncouple (m a : Word32) : Word32 × Word32 :=
  if F32.gtZero m then
    if F32.gtZero a then (m, F32.sub m a) else (F32.add m a, m)
  else
    if F32.gtZero a then (m, F32.add m a) else (F32.sub m a, m)

/-- `OLA.CPL` (R247). Both buffers are read whole before anything is written (log entry 29). -/
def execOlaCpl (rs1 : Reg) (s : State) : Result :=
  let a := s.xNat rs1
  if s.par.dmWords ≤ a + 2 then s.raise .dmRange
  else s.withWord a fun magWord => s.withWord (a + 1) fun angWord => s.withWord (a + 2) fun cntWord =>
    let mag := magWord.toNat
    let ang := angWord.toNat
    let cnt := cntWord.toNat
    if s.par.dmWords < mag + cnt then s.raise .dmRange
    else if s.par.dmWords < ang + cnt then s.raise .dmRange
    else if disjointRegions [(a, 3), (mag, cnt), (ang, cnt)] = false then .refused .overlap
    else s.withWords mag cnt fun ms => s.withWords ang cnt fun as =>
      let pairs := List.zipWith uncouple ms as
      ((s.dmWriteList mag (pairs.map Prod.fst)).dmWriteList ang (pairs.map Prod.snd)).finish .ok

end Sys2Proof.Machine
end

