-- ==== Sys2Proof/Machine/Pfv.lean ====
section
/-! DEFINITION. The page-frame validator and page-header parser (43_pfv.md): the lock, the scan, the page record and its
readers. -/

namespace Sys2Proof.Machine

/-! ### The lock -/

/-- `PFV.LOCK` (R154). -/
def execPfvLock (imm : Imm) (s : State) : Result :=
  let cid := consumer imm
  if s.lock.held = false then
    State.finish { s with lock := { held := true, owner := cid, depth := 1 } } .ok
  else if s.lock.owner = cid then
    if s.lock.depth = 255 then s.raise .lockerr
    else State.finish { s with lock := { s.lock with depth := s.lock.depth + 1 } } .ok
  else s.finish .busy

/-- `PFV.REL` (R155). -/
def execPfvRel (imm : Imm) (s : State) : Result :=
  let cid := consumer imm
  if s.holdsLock cid = false then s.raise .lockerr
  else if s.lock.depth - 1 = 0 then
    State.finish { s with lock := { held := false, owner := 0, depth := 0 } } .ok
  else State.finish { s with lock := { s.lock with depth := s.lock.depth - 1 } } .ok

/-- `PFV.SEEK` (R156). -/
def execPfvSeek (rs1 : Reg) (imm : Imm) (s : State) : Result :=
  if s.srcLen < s.xNat rs1 then s.raise .srcRange
  else if s.holdsLock (consumer imm) = false then s.raise .nolock
  else State.finish { s with srcPos := s.x rs1, dead := false } .ok

/-! ### The page on the wire (R142 to R145) -/

/-- The bytes of "OggS" (R143). -/
def capturePattern : List Byte := [0x4F, 0x67, 0x67, 0x53]

/-- The lacing table of the candidate that `rest` begins with: `nseg` bytes from offset 27 (R142). -/
def laceOf (rest : List Byte) : List Byte := (rest.drop 27).take (leRead rest 26 1)

/-- The payload length, the sum of the lacing values (R142). -/
def payLenOf (rest : List Byte) : Nat := ((laceOf rest).map BitVec.toNat).sum

/-- The whole page's length (R142). -/
def totalOf (rest : List Byte) : Nat := 27 + leRead rest 26 1 + payLenOf rest

/-- `page_at(p)` of R145, with `rest` the byte source from offset `p`: a valid page begins there. The tests stand in the
order of the rule; each `false` is one of its `return none`. -/
def pageAt (rest : List Byte) : Bool :=
  if rest.length < 4 then false
  else if rest.take 4 ≠ capturePattern then false
  else if rest.length < 27 then false
  else if leRead rest 4 1 ≠ 0 then false
  else if rest.length < 27 + leRead rest 26 1 then false
  else if rest.length < totalOf rest then false
  else (pageCrc (rest.take (totalOf rest))).toNat == leRead rest 22 4

/-! ### The scan (R147 to R149) -/

/-- How a scan ends. -/
inductive Scan where
  /-- a valid page begins at offset `p` -/
  | found (p : Nat)
  /-- fewer than 4 bytes remain (R149) -/
  | ended
  /-- `SCAN_CAP` offsets held no page; `p` is the offset after them (R148) -/
  | capped (p : Nat)
  deriving DecidableEq, Repr

/-- `rest` has fewer than 4 bytes, told from its first 4. -/
def fewerThanFour : List Byte → Bool
  | _ :: _ :: _ :: _ :: _ => false
  | _ => true

/-- The loop of R147 from offset `p`, with `rest` the byte source from `p` and `fuel` the offsets it may still examine: the
cap is tested before the end of the source, and a rejected candidate is followed by the very next offset. -/
def scanFrom : (fuel p : Nat) → (rest : List Byte) → Scan
  | 0, p, _ => .capped p
  | fuel + 1, p, rest =>
    if fewerThanFour rest then .ended
    else if pageAt rest then .found p
    else scanFrom fuel (p + 1) rest.tail

/-- The scan of one `PFV.NEXT`. -/
def State.scan (s : State) : Scan := scanFrom Config.scanCap s.srcPos.toNat (s.src.drop s.srcPos.toNat)

/-! ### Accepting a page (R150 to R153) -/

/-- The packet table (R151). `off` and `len` are the range begun so far, `more` that the lacing value before was 255. -/
def packetsFrom : (lace : List Byte) → (off len : Nat) → (more : Bool) → List Packet
  | [], off, len, more => if more then [⟨BitVec.ofNat 64 off, BitVec.ofNat 16 len, true⟩] else []
  | v :: vs, off, len, _ =>
    if v.toNat < 255 then
      ⟨BitVec.ofNat 64 off, BitVec.ofNat 16 (len + v.toNat), false⟩ :: packetsFrom vs (off + (len + v.toNat)) 0 false
    else packetsFrom vs off (len + v.toNat) true

/-- The registry slot of a serial (R152): the lowest slot that has it. -/
def streamOf (s : State) (serial : BitVec 32) : Option Nat :=
  (List.range s.par.nstream).find? fun k =>
    match Table.find s.streams k with
    | some e => e.serial == serial
    | none => false

/-- The lowest free registry slot (R152). -/
def freeStream (s : State) : Option Nat :=
  (List.range s.par.nstream).find? fun k => (Table.find s.streams k).isNone

/-- What the registry makes of a page (R152, R153): its slot number or 0xFF, whether the serial is new, whether the
registry was full, and the registry after it. An end-of-stream page marks its slot. -/
def register (s : State) (serial : BitVec 32) (eos : Bool) : BitVec 8 × Bool × Bool × Table Stream :=
  match streamOf s serial with
  | some k =>
    (BitVec.ofNat 8 k, false, false,
      if eos then Table.put s.streams k { serial := serial, eos := true } else s.streams)
  | none =>
    match freeStream s with
    | some k => (BitVec.ofNat 8 k, true, false, Table.put s.streams k { serial := serial, eos := eos })
    | none => (0xFF, false, true, s.streams)

/-- Accept the page at offset `p` (R150 to R153) after a scan from `start`. The answer's second part says that the registry
was full. -/
def State.acceptPage (s : State) (p : Nat) : State × Bool :=
  let start := s.srcPos.toNat
  let rest := s.src.drop p
  let lace := laceOf rest
  let flags : BitVec 8 := BitVec.ofNat 8 (leRead rest 5 1)
  let serial : BitVec 32 := BitVec.ofNat 32 (leRead rest 14 4)
  let payOff := p + 27 + lace.length
  let (slot, isNew, full, streams) := register s serial (flags.getLsbD 2)
  let page : Page :=
    { valid := true
      resync := p != start
      lastCont := lace.getLast? == some 255
      isNew := isNew
      offset := BitVec.ofNat 64 p
      serial := serial
      seq := BitVec.ofNat 32 (leRead rest 18 4)
      granule := BitVec.ofNat 64 (leRead rest 6 8)
      flags := flags
      crc := BitVec.ofNat 32 (leRead rest 22 4)
      payOff := BitVec.ofNat 64 payOff
      payLen := BitVec.ofNat 16 (payLenOf rest)
      lace := lace
      packets := packetsFrom lace payOff 0 false
      stream := slot }
  let s1 := { s with
    waste := s.waste + BitVec.ofNat 64 (p - start)
    srcPos := BitVec.ofNat 64 (p + totalOf rest)
    page := page
    streams := streams }
  ((s1.setFlagIf (p != start) .resync).setFlagIf full .regFull, full)

/-- A scan that found no page: the bytes from the start to `p` are waste, the cursor is at `p`, the page record is no
longer valid and the result is all ones (R148, R149). -/
def State.noPage (s : State) (rd : Reg) (p : Nat) : State :=
  { s with
    waste := s.waste + BitVec.ofNat 64 (p - s.srcPos.toNat)
    srcPos := BitVec.ofNat 64 p
    page := { s.page with valid := false } }.setX rd noResult

/-- `PFV.NEXT` (R147). -/
def execPfvNext (rd : Reg) (imm : Imm) (s : State) : Result :=
  if s.holdsLock (consumer imm) = false then s.raise .nolock
  else if s.dead then
    ((({ s with page := { s.page with valid := false } } : State).setX rd noResult).setFlag .unrec).finish .unrecoverable
  else
    match s.scan with
    | .capped p => State.finish { (s.noPage rd p).setFlag .unrec with dead := true } .unrecoverable
    | .ended => ((s.noPage rd s.srcLen).setFlag .eos).finish .eos
    | .found p =>
      let (s1, full) := s.acceptPage p
      (s1.setX rd (BitVec.ofNat 64 p)).finish (if full then .regFull else .ok)

/-! ### Readers of the page record -/

/-- `PFV.LACE` (R157). -/
def execPfvLace (rd rs1 : Reg) (s : State) : Result :=
  let i := s.xNat rs1
  if 254 < i then s.raise .illegalOperand
  else if s.page.valid = false then s.raise .notReady
  else (s.setX rd ((s.page.lace.getD i 0).setWidth 64)).finish .ok

/-- The flags word of packet-table entry `i` (R158, selector 2). -/
def packetFlags (g : Page) (i : Nat) (e : Packet) : Word :=
  flagAt e.cont 0 ||| flagAt (i == 0 && g.flags.getLsbD 0) 1 ||| flagAt (i + 1 == g.packets.length) 2 |||
    flagAt (i == 0 && g.resync) 3

/-- `PFV.PKT` (R158). -/
def execPfvPkt (rd rs1 : Reg) (imm : Imm) (s : State) : Result :=
  let sel := selector 2 imm
  let i := s.xNat rs1
  if sel = 3 then s.raise .illegalOperand
  else if s.page.valid = false then s.raise .notReady
  else
    match s.page.packets[i]? with
    | none => s.raise .illegalOperand
    | some e =>
      let v : Word :=
        if sel = 0 then e.off
        else if sel = 1 then e.len.setWidth 64
        else packetFlags s.page i e
      (s.setX rd v).finish .ok

/-- `PFV.STRM` (R159); a slot that is not valid reads 0. -/
def execPfvStrm (rd rs1 : Reg) (imm : Imm) (s : State) : Result :=
  let sel := selector 2 imm
  let k := s.xNat rs1
  if sel = 3 ∨ s.par.nstream ≤ k then s.raise .illegalOperand
  else
    let v : Word :=
      match Table.find s.streams k with
      | none => 0
      | some e => if sel = 0 then 1 else if sel = 1 then e.serial.setWidth 64 else if e.eos then 1 else 0
    (s.setX rd v).finish .ok

end Sys2Proof.Machine
end

