-- ==== Sys2Proof/Machine/Res.lean ====
section
/-! DEFINITION. The residue decoder (45_residue.md): setup and its checks, the cascade decode, the two addressing
variants. -/

namespace Sys2Proof.Machine

/-! ### RES.SETUP (R201, R202, R204) -/

/-- Codebook slot `k` exists, is valid and has a lookup table (R202). -/
def State.bookHasTable (s : State) (k : Nat) : Bool :=
  decide (k < s.par.ncb) &&
    match Table.find s.books k with
    | none => false
    | some b => b.mapType != .noTable

/-- The stage books of one classification: word `a + st` for the stages `st` whose bit of the mask is set, and nothing
read for the others (R201). -/
def readStages (m : Memory) (a : Nat) (mask : BitVec 8) : List Nat → Except Nat (List (Option Nat))
  | [] => .ok []
  | st :: sts =>
    if mask.getLsbD st then
      match Memory.read m (a + st) with
      | none => .error (a + st)
      | some w =>
        match readStages m a mask sts with
        | .error e => .error e
        | .ok bs => .ok (some w.toNat :: bs)
    else
      match readStages m a mask sts with
      | .error e => .error e
      | .ok bs => .ok (none :: bs)

/-- The cascades and stage books of the classifications, the book words of the first from `a` on (R201). -/
def readClasses (m : Memory) : Nat → List Word32 → Except Nat (List Cascade)
  | _, [] => .ok []
  | a, w :: ws =>
    match readStages m a (w.setWidth 8) (List.range 8) with
    | .error e => .error e
    | .ok bs =>
      match readClasses m (a + 8) ws with
      | .error e => .error e
      | .ok cs => .ok ({ mask := w.setWidth 8, books := bs } :: cs)

/-- Every stage book of every classification is a valid codebook with a table (R202). -/
def State.stagesReady (s : State) (cs : List Cascade) : Bool :=
  cs.all fun c => c.books.all fun b =>
    match b with
    | none => true
    | some k => s.bookHasTable k

/-- `RES.SETUP` (R204), the conditions of R202 in the order they are listed. Three groups of words are each read whole before
the first test that looks at one of them (DESIGN CHOICE, log entry 29): words `a` to `a + 2`, the masks, and the stage-book words
of all classifications. So an unwritten `psize` stops the command also where `begin > end` makes the descriptor malformed, and
an unwritten stage-book word also where another stage book does. -/
def execResSetup (rs1 rs2 : Reg) (s : State) : Result :=
  let r := s.xNat rs1
  let a := s.xNat rs2
  if s.par.nres ≤ r then s.raise .illegalOperand
  else if s.par.dmWords ≤ a + 4 then s.raise .dmRange
  else s.withWord (a + 3) fun nclsWord =>
    let ncls := nclsWord.toNat
    if 1 ≤ ncls ∧ ncls ≤ Config.maxClass ∧ s.par.dmWords < a + 5 + 9 * ncls then s.raise .dmRange
    else
      let s1 : State := { s with residues := Table.erase s.residues r }
      s.withWord a fun beginWord => s.withWord (a + 1) fun endWord => s.withWord (a + 2) fun psizeWord =>
        if endWord.toNat < beginWord.toNat then s1.malformed
        else if psizeWord = 0 then s1.malformed
        else if ncls = 0 ∨ Config.maxClass < ncls then s1.malformed
        else s.withWord (a + 4) fun classWord =>
          match Table.find s.books classWord.toNat with
          | none => s1.malformed
          | some cb =>
            if s.par.ncb ≤ classWord.toNat then s1.malformed
            else s.withWords (a + 5) ncls fun masks =>
              if masks.any (fun w => decide (255 < w.toNat)) then s1.malformed
              else
                match readClasses s.dm (a + 5 + ncls) masks with
                | .error e => .fault (.dmUnwritten e)
                | .ok classes =>
                  if s.stagesReady classes = false then s1.malformed
                  else
                    let res : Residue :=
                      { beginAt := beginWord, endAt := endWord, psize := psizeWord, classbook := classWord.toNat,
                        classes := classes, cw := cb.dim }
                    State.finish { s1 with residues := Table.put s1.residues r res } .ok

/-! ### The decode map (R203) -/

/-- `ncls` (R41). -/
def Residue.ncls (r : Residue) : Nat := r.classes.length

/-- `map[i][pos]`: digit `pos` of entry `i` in base `ncls` with `cw` digits, the most significant first (R203). -/
def Residue.digit (r : Residue) (i pos : Nat) : Nat := (i / r.ncls ^ (r.cw - 1 - pos)) % r.ncls

/-- The codebook slot of stage `st` for classification `c`, when its cascade bit is set (R207). -/
def Residue.stageBook (r : Residue) (c st : Nat) : Option Nat :=
  match r.classes[c]? with
  | none => none
  | some k => k.books.getD st none

/-! ### RES.DEC (R205 to R214) -/

/-- The decode descriptor (R205): variant 1 is `interleaved`, and each channel has a buffer and a do-not-decode flag. -/
structure ResJob where
  interleaved : Bool
  n : Nat
  bufs : List Nat
  skip : List Bool
  deriving DecidableEq, Repr

/-- The number of channels. -/
def ResJob.ch (j : ResJob) : Nat := j.bufs.length

/-- `vlen` (R206). -/
def ResJob.vlen (j : ResJob) : Nat := if j.interleaved then j.n * j.ch else j.n

/-- `lim_end` (R206). -/
def limEnd (r : Residue) (j : ResJob) : Nat := min r.endAt.toNat j.vlen

/-- `lim_begin` (R206). -/
def limBegin (r : Residue) (j : ResJob) : Nat := min r.beginAt.toNat (limEnd r j)

/-- `nparts` (R206). -/
def nparts (r : Residue) (j : ResJob) : Nat := (limEnd r j - limBegin r j) / r.psize.toNat

/-- `chans` (R207): the channels that are decoded, in order; the virtual channel of variant 1 is channel 0. -/
def ResJob.chans (j : ResJob) : List Nat :=
  if j.interleaved then [0] else (List.range j.ch).filter fun c => j.skip.getD c true = false

/-- Where `add(j, idx, ..)` adds (R210). -/
def ResJob.address (j : ResJob) (c idx : Nat) : Nat :=
  if j.interleaved then j.bufs.getD (idx % j.ch) 0 + idx / j.ch else j.bufs.getD c 0 + idx

/-- A residue decode in progress: the state, the vectors added, and the scratch digits `cls[j][p]` (R42, R207). -/
structure ResRun where
  st : State
  cnt : Nat
  cls : Table Nat

/-- Why a residue decode stops early: a failed codeword (R211), or a stop of the model. -/
inductive ResHalt where
  | invalid (r : ResRun)
  | short (r : ResRun)
  | fault (f : Fault)

/-- Where `cls[j][p]` is kept in the scratch. -/
def digitKey (parts c p : Nat) : Nat := c * parts + p

/-- Decode one codeword with codebook slot `k`; an INVALID or short symbol stops the decode and is not used (R207, R211). -/
def ResRun.symbol (k : Nat) (r : ResRun) : Except ResHalt (ResRun × Codebook × Nat) :=
  match Table.find r.st.books k with
  | none => .error (.fault (.bookAbsent k))
  | some b =>
    match r.st.hufDecode b with
    | (s1, .invalid) => .error (.invalid { r with st := s1 })
    | (s1, .entry e true) => .ok ({ r with st := s1 }, b, e)
    | (s1, .entry _ false) => .error (.short { r with st := s1 })

/-- The class codeword of channel `c` for the group that begins at partition `p` (R208): its digits, those at or beyond
`nparts` dropped. -/
def classify (res : Residue) (parts p c : Nat) (r : ResRun) : Except ResHalt ResRun :=
  match r.symbol res.classbook with
  | .error h => .error h
  | .ok (r1, _, e) =>
    .ok { r1 with
      cls := (List.range res.cw).foldl
        (fun t pos => if p + pos < parts then Table.put t (digitKey parts c (p + pos)) (res.digit e pos) else t) r1.cls }

/-- `add(j, idx, val)` (R210). -/
def addSample (job : ResJob) (c idx : Nat) (val : Word32) (r : ResRun) : Except ResHalt ResRun :=
  let a := job.address c idx
  match Memory.read r.st.dm a with
  | none => .error (.fault (.dmUnwritten a))
  | some w => .ok { r with st := r.st.dmWrite a (F32.add w val) }

/-- One vector of a partition (R209): decode an entry with slot `k` and add its values from index `at0` on. -/
def addVector (job : ResJob) (k c at0 : Nat) (r : ResRun) : Except ResHalt ResRun :=
  match r.symbol k with
  | .error h => .error h
  | .ok (r1, b, e) =>
    match loopFrom (fun q => addSample job c (at0 + q) (b.lut.getD (e * b.dim + q) 0)) b.dim 0 r1 with
    | .error h => .error h
    | .ok r2 => .ok { r2 with cnt := r2.cnt + 1 }

/-- Partition `p` of channel `c` with codebook slot `k` (R209). -/
def decodePartition (res : Residue) (job : ResJob) (k c p : Nat) (r : ResRun) : Except ResHalt ResRun :=
  match Table.find r.st.books k with
  | none => .error (.fault (.bookAbsent k))
  | some b =>
    let off := limBegin res job + p * res.psize.toNat
    loopFrom (fun t => addVector job k c (off + t * b.dim)) (res.psize.toNat / b.dim) 0 r

/-- Channel `c` of partition `p` at stage `st`: decoded when the cascade bit of its class is set (R207). -/
def decodeChannel (res : Residue) (job : ResJob) (st p c : Nat) (r : ResRun) : Except ResHalt ResRun :=
  match Table.find r.cls (digitKey (nparts res job) c p) with
  | none => .ok r
  | some cls =>
    match res.stageBook cls st with
    | none => .ok r
    | some k => decodePartition res job k c p r

/-- Group `g` at stage `st`: on stage 0 its class codewords, then its partitions, channels innermost (R207). -/
def decodeGroup (res : Residue) (job : ResJob) (st g : Nat) (r : ResRun) : Except ResHalt ResRun :=
  let p := g * res.cw
  let parts := nparts res job
  match (if st = 0 then loopOver (classify res parts p) job.chans r else .ok r) with
  | .error h => .error h
  | .ok r1 =>
    loopFrom (fun i => loopOver (decodeChannel res job st (p + i)) job.chans) (min res.cw (parts - p)) 0 r1

/-- How many groups cover `nparts` partitions. -/
def groupCount (res : Residue) (job : ResJob) : Nat := (nparts res job + res.cw - 1) / res.cw

/-- `res_decode` (R207): stages 0 to 7, groups in order. -/
def resDecode (res : Residue) (job : ResJob) (s : State) : Except ResHalt ResRun :=
  let r0 : ResRun := { st := s, cnt := 0, cls := [] }
  if job.skip.all id then .ok r0
  else loopFrom (fun st => loopFrom (decodeGroup res job st) (groupCount res job) 0) 8 0 r0

/-- The buffer words and the flag words of a decode descriptor's channel part, in turn (R205). -/
def evenWords : List Word32 → List Word32
  | w :: _ :: ws => w :: evenWords ws
  | [w] => [w]
  | [] => []

/-- The odd words of a list. -/
def oddWords : List Word32 → List Word32
  | _ :: v :: ws => v :: oddWords ws
  | _ => []

/-- End `RES.DEC` with the vector count in `x[rd]` (R212). -/
def endResDec (rd : Reg) : Except ResHalt ResRun → Result
  | .ok r => (r.st.setX rd (BitVec.ofNat 64 r.cnt)).finish .ok
  | .error (.short r) => (r.st.setX rd (BitVec.ofNat 64 r.cnt)).finish .short
  | .error (.invalid r) => ((r.st.setX rd (BitVec.ofNat 64 r.cnt)).setFlag .invalid).finish .invalidData
  | .error (.fault f) => .fault f

/-- `RES.DEC` (R212). All `2*ch` words of the channel part are read before any of them is tested, which R72 allows and the model
chooses (DESIGN CHOICE, log entry 29): an unwritten one stops the command before its remaining fault checks. -/
def execResDec (rd rs1 rs2 : Reg) (s : State) : Result :=
  let r := s.xNat rs1
  let a := s.xNat rs2
  if s.par.nres ≤ r then s.raise .illegalOperand
  else if s.par.dmWords ≤ a + 2 then s.raise .dmRange
  else s.withWord a fun variantWord => s.withWord (a + 1) fun chWord => s.withWord (a + 2) fun nWord =>
    let ch := chWord.toNat
    let n := nWord.toNat
    if 1 < variantWord.toNat ∨ ch = 0 ∨ s.par.maxCh < ch then s.raise .illegalOperand
    else if s.par.dmWords < a + 3 + 2 * ch then s.raise .dmRange
    else s.withWords (a + 3) (2 * ch) fun words =>
      let bufs := (evenWords words).map BitVec.toNat
      let flags := (oddWords words).map BitVec.toNat
      if flags.any (fun d => decide (1 < d)) then s.raise .illegalOperand
      else
        match Table.find s.residues r with
        | none => s.raise .notReady
        | some res =>
          if bufs.any (fun b => decide (s.par.dmWords < b + n)) then s.raise .dmRange
          else if disjointRegions ((a, 3 + 2 * ch) :: bufs.map (fun b => (b, n))) = false then .refused .overlap
          else
            let job : ResJob := { interleaved := variantWord.toNat == 1, n := n, bufs := bufs,
                                  skip := flags.map (fun d => d == 1) }
            endResDec rd (resDecode res job s)

end Sys2Proof.Machine
end

