-- ==== Sys2Proof/Machine/Csr.lean ====
section
/-! DEFINITION. The map of control and status registers (10_state.md R24), one row per CSR: number, name, width and what it
reads as. Every value is zero-extended to 64 bits. -/

namespace Sys2Proof.Machine

/-- One row of the CSR map. -/
structure CsrRow where
  number : Nat
  name : String
  width : Nat
  read : State → Word

/-- `CSR[LOCK]`: depth, owner, held (R33). -/
def State.csrLock (s : State) : Word :=
  s.lock.depth.setWidth 64 ||| (s.lock.owner.setWidth 64 <<< 8) ||| flagAt s.lock.held 16

/-- `CSR[PG_INFO]`: valid, resync, lastcont, newstream, dead (R34, R38). -/
def State.csrPgInfo (s : State) : Word :=
  flagAt s.page.valid 0 ||| flagAt s.page.resync 1 ||| flagAt s.page.lastCont 2 ||| flagAt s.page.isNew 3 |||
    flagAt s.dead 4

/-- R24: identity, status, CRC and bit cursor. -/
def csrRowsCore : List CsrRow :=
  [ ⟨0x000, "ID", 32, fun _ => Config.idWord⟩,
    ⟨0x001, "STATUS", 8, fun s => s.status.setWidth 64⟩,
    ⟨0x002, "FLAGS", 8, fun s => s.flags.setWidth 64⟩,
    ⟨0x010, "CRC_ACC", 32, fun s => s.crcAcc.setWidth 64⟩,
    ⟨0x020, "BC_NR", 16, fun s => (BitVec.ofNat 16 s.bc.ranges.length).setWidth 64⟩,
    ⟨0x021, "BC_POS", 64, fun s => s.bc.pos⟩,
    ⟨0x022, "BC_TOTAL", 64, fun s => BitVec.ofNat 64 s.bcTotal⟩,
    ⟨0x023, "BC_SHORT", 1, fun s => flagAt s.bc.short 0⟩,
    ⟨0x024, "BC_CNT", 7, fun s => s.bc.cnt.setWidth 64⟩ ]

/-- R24: page-frame validator. -/
def csrRowsPfv : List CsrRow :=
  [ ⟨0x030, "SRC_POS", 64, fun s => s.srcPos⟩,
    ⟨0x031, "SRC_LEN", 64, fun s => BitVec.ofNat 64 s.srcLen⟩,
    ⟨0x032, "WASTE", 64, fun s => s.waste⟩,
    ⟨0x033, "LOCK", 17, State.csrLock⟩,
    ⟨0x034, "PG_INFO", 5, State.csrPgInfo⟩,
    ⟨0x035, "PG_OFFSET", 64, fun s => s.page.offset⟩,
    ⟨0x036, "PG_SERIAL", 32, fun s => s.page.serial.setWidth 64⟩,
    ⟨0x037, "PG_SEQ", 32, fun s => s.page.seq.setWidth 64⟩,
    ⟨0x038, "PG_GRANULE", 64, fun s => s.page.granule⟩,
    ⟨0x039, "PG_FLAGS", 8, fun s => s.page.flags.setWidth 64⟩,
    ⟨0x03A, "PG_NSEG", 8, fun s => (BitVec.ofNat 8 s.page.lace.length).setWidth 64⟩,
    ⟨0x03B, "PG_CRC", 32, fun s => s.page.crc.setWidth 64⟩,
    ⟨0x03C, "PG_PAYOFF", 64, fun s => s.page.payOff⟩,
    ⟨0x03D, "PG_PAYLEN", 16, fun s => s.page.payLen.setWidth 64⟩,
    ⟨0x03E, "PG_NPKT", 8, fun s => (BitVec.ofNat 8 s.page.packets.length).setWidth 64⟩,
    ⟨0x03F, "PG_STREAM", 8, fun s => s.page.stream.setWidth 64⟩ ]

/-- R24: MDCT and OLA. -/
def csrRowsOla : List CsrRow :=
  [ ⟨0x060, "MDCT_N0", 14, fun s => s.mdct.n0.setWidth 64⟩,
    ⟨0x061, "MDCT_N1", 14, fun s => s.mdct.n1.setWidth 64⟩,
    ⟨0x070, "OLA_CH", 8, fun s => s.ola.ch.setWidth 64⟩,
    ⟨0x071, "OLA_B0", 14, fun s => s.ola.b0.setWidth 64⟩,
    ⟨0x072, "OLA_B1", 14, fun s => s.ola.b1.setWidth 64⟩,
    ⟨0x073, "RB_START", 64, fun s => BitVec.ofNat 64 s.ring.start⟩,
    ⟨0x074, "RB_VALID", 64, fun s => BitVec.ofNat 64 s.ring.valid⟩,
    ⟨0x075, "RB_END", 64, fun s => BitVec.ofNat 64 s.ring.endAt⟩,
    ⟨0x076, "RB_CAP", 32, fun s => s.ring.cap.setWidth 64⟩,
    ⟨0x077, "OLA_PREV", 14, fun s => s.ola.prev.setWidth 64⟩ ]

/-- The whole map (R24). -/
def csrRows : List CsrRow := csrRowsCore ++ csrRowsPfv ++ csrRowsOla

/-- `CSR[n]`, or none when `n` is no CSR number. -/
def State.csrRead (s : State) (n : Nat) : Option Word :=
  match csrRows.find? (fun r => r.number == n) with
  | some r => some (r.read s)
  | none => none

end Sys2Proof.Machine
end

