-- ==== Sys2Proof/Machine/Sys.lean ====
section
/-! DEFINITION. The SYS commands (40_sys.md). -/

namespace Sys2Proof.Machine

/-- `SYS.NOP` (R100). -/
def execSysNop (s : State) : Result := s.finish .ok

/-- `SYS.RESET` (R101). -/
def execSysReset (s : State) : Result := s.resetBlock.finish .ok

/-- `SYS.LI` (R102). -/
def execSysLi (rd : Reg) (imm : Imm) (s : State) : Result := (s.setX rd (imm.setWidth 64)).finish .ok

/-- `SYS.LIS` (R103). -/
def execSysLis (rd rs1 : Reg) (imm : Imm) (s : State) : Result :=
  (s.setX rd ((s.x rs1 <<< 12) ||| imm.setWidth 64)).finish .ok

/-- `SYS.CSRR` (R104). -/
def execSysCsrr (rd : Reg) (csr : Imm) (s : State) : Result :=
  match s.csrRead csr.toNat with
  | none => s.raise .illegalOperand
  | some v => (s.setX rd v).finish .ok

/-- `SYS.CSRW` (R105): FLAGS, CRC_ACC and WASTE are the writable CSRs. -/
def execSysCsrw (rs1 : Reg) (csr : Imm) (s : State) : Result :=
  if csr.toNat = 0x002 then
    State.finish { s with flags := clearFlags s.flags ((s.x rs1).setWidth 8) } .ok
  else if csr.toNat = 0x010 then
    State.finish { s with crcAcc := (s.x rs1).setWidth 32 } .ok
  else if csr.toNat = 0x032 then
    State.finish { s with waste := s.x rs1 } .ok
  else s.raise .illegalOperand

/-- `SYS.LDW` (R106). -/
def execSysLdw (rd rs1 : Reg) (imm : Imm) (s : State) : Result :=
  let a := s.offset rs1 imm
  if s.par.dmWords ≤ a then s.raise .dmRange
  else s.withWord a fun w => (s.setX rd (w.setWidth 64)).finish .ok

/-- `SYS.STW` (R107). -/
def execSysStw (rs1 rs2 : Reg) (imm : Imm) (s : State) : Result :=
  let a := s.offset rs1 imm
  if s.par.dmWords ≤ a then s.raise .dmRange
  else (s.dmWrite a ((s.x rs2).setWidth 32)).finish .ok

end Sys2Proof.Machine
end

