-- ==== Sys2Proof/Machine/Dispatch.lean ====
section
/-! DEFINITION. The meaning of every command: one arm per constructor, each one call. -/

namespace Sys2Proof.Machine

def exec (i : Instr) (s : State) : Host.Outcome State Fault Refusal :=
  match i with
  | .sysNop => Sys2Proof.Machine.execSysNop s
  | .sysReset => Sys2Proof.Machine.execSysReset s
  | .sysLi rd imm => Sys2Proof.Machine.execSysLi rd imm s
  | .sysLis rd rs1 imm => Sys2Proof.Machine.execSysLis rd rs1 imm s
  | .sysCsrr rd csr => Sys2Proof.Machine.execSysCsrr rd csr s
  | .sysCsrw rs1 csr => Sys2Proof.Machine.execSysCsrw rs1 csr s
  | .sysLdw rd rs1 imm => Sys2Proof.Machine.execSysLdw rd rs1 imm s
  | .sysStw rs1 rs2 imm => Sys2Proof.Machine.execSysStw rs1 rs2 imm s
  | .crcClr => Sys2Proof.Machine.execCrcClr s
  | .crcUpd rs1 imm => Sys2Proof.Machine.execCrcUpd rs1 imm s
  | .crcSrc rs1 rs2 => Sys2Proof.Machine.execCrcSrc rs1 rs2 s
  | .crcGet rd => Sys2Proof.Machine.execCrcGet rd s
  | .bcClr => Sys2Proof.Machine.execBcClr s
  | .bcAddr rs1 rs2 => Sys2Proof.Machine.execBcAddr rs1 rs2 s
  | .bcReset => Sys2Proof.Machine.execBcReset s
  | .bcPeek rd rs1 imm => Sys2Proof.Machine.execBcPeek rd rs1 imm s
  | .bcSkip rs1 imm => Sys2Proof.Machine.execBcSkip rs1 imm s
  | .bcRead rd rs1 imm => Sys2Proof.Machine.execBcRead rd rs1 imm s
  | .bcRdvf rd => Sys2Proof.Machine.execBcRdvf rd s
  | .pfvLock cid => Sys2Proof.Machine.execPfvLock cid s
  | .pfvRel cid => Sys2Proof.Machine.execPfvRel cid s
  | .pfvSeek rs1 cid => Sys2Proof.Machine.execPfvSeek rs1 cid s
  | .pfvNext rd cid => Sys2Proof.Machine.execPfvNext rd cid s
  | .pfvLace rd rs1 => Sys2Proof.Machine.execPfvLace rd rs1 s
  | .pfvPkt rd rs1 sel => Sys2Proof.Machine.execPfvPkt rd rs1 sel s
  | .pfvStrm rd rs1 sel => Sys2Proof.Machine.execPfvStrm rd rs1 sel s
  | .hufBuild rs1 rs2 => Sys2Proof.Machine.execHufBuild rs1 rs2 s
  | .hufVq rs1 rs2 => Sys2Proof.Machine.execHufVq rs1 rs2 s
  | .hufDec rd rs1 => Sys2Proof.Machine.execHufDec rd rs1 s
  | .hufDecv rd rs1 rs2 => Sys2Proof.Machine.execHufDecv rd rs1 rs2 s
  | .hufInfo rd rs1 sel => Sys2Proof.Machine.execHufInfo rd rs1 sel s
  | .hufCode rd rs1 rs2 => Sys2Proof.Machine.execHufCode rd rs1 rs2 s
  | .hufLut rd rs1 rs2 => Sys2Proof.Machine.execHufLut rd rs1 rs2 s
  | .resSetup rs1 rs2 => Sys2Proof.Machine.execResSetup rs1 rs2 s
  | .resDec rd rs1 rs2 => Sys2Proof.Machine.execResDec rd rs1 rs2 s
  | .mdctInit rs1 slot => Sys2Proof.Machine.execMdctInit rs1 slot s
  | .mdctRev rd rs1 slot => Sys2Proof.Machine.execMdctRev rd rs1 slot s
  | .olaCfg rs1 rs2 ch => Sys2Proof.Machine.execOlaCfg rs1 rs2 ch s
  | .olaMode rs1 flag => Sys2Proof.Machine.execOlaMode rs1 flag s
  | .olaAdd rd rs1 rs2 flags => Sys2Proof.Machine.execOlaAdd rd rs1 rs2 flags s
  | .olaRd rd rs1 rs2 => Sys2Proof.Machine.execOlaRd rd rs1 rs2 s
  | .olaDisc rd rs1 => Sys2Proof.Machine.execOlaDisc rd rs1 s
  | .olaReset => Sys2Proof.Machine.execOlaReset s
  | .olaWin rd rs1 rs2 w => Sys2Proof.Machine.execOlaWin rd rs1 rs2 w s
  | .olaCpl rs1 => Sys2Proof.Machine.execOlaCpl rs1 s

end Sys2Proof.Machine
end

