-- ==== Sys2Proof/Machine/Step.lean ====
section
/-! DEFINITION. One step of the machine. The block has no program counter and fetches nothing: the host presents commands at
the command port, one at a time, and each runs to completion as one atomic step (R10, R22, R69). A step takes the host's
next action; with no action pending nothing runs. -/

namespace Sys2Proof.Machine

/-- Run one command word (R263): an illegal word ends with ILLEGAL_CMD and no other effect (R86). -/
def execWord (c : BitVec 32) (s : State) : Host.Outcome State Fault Refusal :=
  match decode c with
  | .ok i => exec i s
  | .error _ => s.raise .illegalCmd

/-- The next host action, taken off the port, then done. -/
def step (s : State) : Host.Outcome State Fault Refusal :=
  match s.port with
  | [] => .next s
  | .command c :: rest => execWord c { s with port := rest }
  | action :: rest => State.hostStep { s with port := rest } action

/-- The state in which the host is about to present the command word `w`, before anything else it has pending. -/
def State.withFetchWord (s : State) (_nbits w : Nat) : State :=
  { s with port := .command (BitVec.ofNat 32 w) :: s.port }

end Sys2Proof.Machine
end

