-- ==== Sys2Proof/Safety.lean ====
section
/-! DEFINITION. The words in which claims are stated: what a command may write (its footprint), the invariants of a run, and
the real value of a binary32 pattern. -/

namespace Sys2Proof

/-! ### Footprints -/

/-- The destination register of a command, for the commands whose rule says "writes x[rd]" (R20). -/
def Instr.dest : Instr → Option Reg
  | .sysLi rd _ | .sysLis rd _ _ | .sysCsrr rd _ | .sysLdw rd _ _ | .crcGet rd | .bcPeek rd _ _ | .bcRead rd _ _
  | .bcRdvf rd | .pfvNext rd _ | .pfvLace rd _ | .pfvPkt rd _ _ | .pfvStrm rd _ _ | .hufDec rd _ | .hufDecv rd _ _
  | .hufInfo rd _ _ | .hufCode rd _ _ | .hufLut rd _ _ | .resDec rd _ _ | .mdctRev rd _ _ | .olaAdd rd _ _ _
  | .olaRd rd _ _ | .olaDisc rd _ | .olaWin rd _ _ _ => some rd
  | _ => none

/-- The command is `SYS.RESET`, the one command that writes every part of the state (R101). -/
def Instr.isReset : Instr → Bool
  | .sysReset => true
  | _ => false

/-- The commands that store to DM (R106 to R247). -/
def Instr.storesDm : Instr → Bool
  | .sysStw _ _ _ | .hufDecv _ _ _ | .resDec _ _ _ | .mdctRev _ _ _ | .olaRd _ _ _ | .olaCpl _ => true
  | _ => false

/-- The sticky bits a command can set, the FAULT bit apart (R26). -/
def Instr.flagsSet : Instr → BitVec 8
  | .bcSkip _ _ | .bcRead _ _ _ | .bcRdvf _ => 0x01
  | .hufDec _ _ | .hufDecv _ _ _ | .resDec _ _ _ => 0x03
  | .pfvNext _ _ => 0x6C
  | .hufBuild _ _ | .hufVq _ _ | .resSetup _ _ => 0x10
  | _ => 0

/-- The commands that can clear sticky bits (R26). -/
def Instr.clearsFlags : Instr → Bool
  | .sysReset | .sysCsrw _ _ => true
  | _ => false

/-- The commands that can write CRC_ACC (R28, R105, R113 to R115). -/
def Instr.writesCrc : Instr → Bool
  | .sysReset | .sysCsrw _ _ | .crcClr | .crcUpd _ _ | .crcSrc _ _ => true
  | _ => false

/-- The commands that can move the bit cursor (R132). -/
def Instr.movesBits : Instr → Bool
  | .sysReset | .bcClr | .bcReset | .bcSkip _ _ | .bcRead _ _ _ | .bcRdvf _ | .hufDec _ _ | .hufDecv _ _ _
  | .resDec _ _ _ => true
  | _ => false

/-- The commands that can change the bound ranges (R124, R125). -/
def Instr.bindsRanges : Instr → Bool
  | .sysReset | .bcClr | .bcAddr _ _ => true
  | _ => false

/-- The commands that can move the byte-source cursor (R140). -/
def Instr.movesSource : Instr → Bool
  | .sysReset | .pfvSeek _ _ | .pfvNext _ _ => true
  | _ => false

/-- The commands that can change the lock (R154, R155). -/
def Instr.writesLock : Instr → Bool
  | .sysReset | .pfvLock _ | .pfvRel _ => true
  | _ => false

/-- The commands that can change the page record, the packet table and the registry (R34, R150 to R153). -/
def Instr.writesPage : Instr → Bool
  | .sysReset | .pfvNext _ _ => true
  | _ => false

/-- The commands that can change a codebook slot (R39). -/
def Instr.writesBooks : Instr → Bool
  | .sysReset | .hufBuild _ _ | .hufVq _ _ => true
  | _ => false

/-- The commands that can change a residue slot (R41, R194). -/
def Instr.writesResidues : Instr → Bool
  | .sysReset | .hufBuild _ _ | .hufVq _ _ | .resSetup _ _ => true
  | _ => false

/-- The commands that can change an MDCT slot (R43). -/
def Instr.writesMdct : Instr → Bool
  | .sysReset | .mdctInit _ _ => true
  | _ => false

/-- The commands that can change the OLA configuration or the mode slots (R45, R46, R48). -/
def Instr.writesOla : Instr → Bool
  | .sysReset | .olaCfg _ _ _ | .olaMode _ _ | .olaAdd _ _ _ _ | .olaReset => true
  | _ => false

/-- The commands that can change the ring buffer (R243). -/
def Instr.writesRing : Instr → Bool
  | .sysReset | .olaCfg _ _ _ | .olaAdd _ _ _ _ | .olaRd _ _ _ | .olaDisc _ _ | .olaReset => true
  | _ => false

/-- The consumer number a lock or cursor command carries (R141). -/
def Instr.cid : Instr → Option (BitVec 8)
  | .pfvLock imm | .pfvRel imm | .pfvSeek _ imm | .pfvNext _ imm => some (imm.setWidth 8)
  | _ => none

namespace Machine

/-- The word a descriptor holds at a DM address, 0 where no word is known. -/
def State.word (s : State) (a : Nat) : Nat := ((Memory.read s.dm a).getD 0).toNat

/-- The DM word at an address is known. -/
abbrev State.known (s : State) (a : Nat) : Prop := (Memory.read s.dm a).isSome = true

/-- The DM regions a command may store to, each a first address and a length: the same address expressions its meaning
uses (R107, R188, R212, R222, R241, R247). -/
def State.storeRegions (s : State) : Instr → List (Nat × Nat)
  | .sysStw rs1 _ imm => [(s.offset rs1 imm, 1)]
  | .hufDecv _ rs1 rs2 =>
    match Table.find s.books (s.xNat rs1) with
    | none => []
    | some b => [(s.xNat rs2, b.dim)]
  | .resDec _ _ rs2 =>
    let a := s.xNat rs2
    (List.range (s.word (a + 1))).filterMap fun j =>
      if s.word a = 0 ∧ s.word (a + 4 + 2 * j) = 1 then none else some (s.word (a + 3 + 2 * j), s.word (a + 2))
  | .mdctRev _ rs1 imm => [(s.xNat rs1, s.mdctSize imm)]
  | .olaRd _ rs1 rs2 =>
    [(s.xNat rs1, min (s.xNat rs2) (s.ring.valid - s.ring.start) * s.ola.ch.toNat)]
  | .olaCpl rs1 =>
    let a := s.xNat rs1
    [(s.word a, s.word (a + 2)), (s.word (a + 1), s.word (a + 2))]
  | _ => []

/-! ### Invariants -/

/-- Every sparse store is in its canonical form, and the ring lists no +0.0. -/
structure State.Canonical (s : State) : Prop where
  dm : Memory.wf s.dm
  streams : Table.wf s.streams
  books : Table.wf s.books
  residues : Table.wf s.residues
  modes : Table.wf s.modes
  ring : Table.wf s.ring.buf
  noZero : ∀ c ∈ s.ring.buf, c.2 ≠ 0

/-- `BC_POS <= BC_TOTAL` and `SRC_POS <= SRC_LEN` (R22). -/
structure State.CursorsInRange (s : State) : Prop where
  bits : s.bc.pos.toNat ≤ s.bcTotal
  bytes : s.srcPos.toNat ≤ s.srcLen

/-- The lock is free with owner 0 and depth 0, or held with a depth of 1 to 255 (R33). -/
structure State.LockConsistent (s : State) : Prop where
  free : s.lock.held = false → s.lock.owner = 0 ∧ s.lock.depth = 0
  held : s.lock.held = true → s.lock.depth ≠ 0

/-- The bound ranges lie inside SRC and are at most `MAXRANGES` (R29, R125). -/
structure State.RangesInside (s : State) : Prop where
  count : s.bc.ranges.length ≤ s.par.maxRanges
  inside : ∀ r ∈ s.bc.ranges, r.off.toNat + r.len.toNat ≤ s.srcLen

/-- The invariants of the ring buffer (R47), under the launch condition on `RB_MAX`. -/
structure State.RingInvariant (s : State) : Prop where
  launch : 2 ^ s.par.blkMaxLog2 ≤ s.par.rbMax ∧ s.par.rbMax < 2 ^ 32
  order : s.ring.start ≤ s.ring.valid ∧ s.ring.valid ≤ s.ring.endAt
  held : s.ring.endAt - s.ring.start ≤ s.ring.cap.toNat
  cap : s.ring.cap.toNat ≤ s.par.rbMax
  zeroOutside : ∀ c ∈ s.ring.buf, s.ring.start ≤ c.1 / 256 ∧ c.1 / 256 < s.ring.endAt

/-- Every residue setup names codebooks that are valid, its stage books with a lookup table (R194, R202). -/
def State.ResiduesReady (s : State) : Prop :=
  ∀ c ∈ s.residues,
    (∃ b, Table.find s.books c.2.classbook = some b) ∧
    ∀ k ∈ c.2.classes, ∀ j ∈ k.books, ∀ n, j = some n →
      ∃ b, Table.find s.books n = some b ∧ b.mapType ≠ .noTable

/-- The page record holds at most 255 lacing values and 255 packet entries (R35, R36, R151). -/
structure State.PageBounded (s : State) : Prop where
  lace : s.page.lace.length ≤ 255
  packets : s.page.packets.length ≤ s.page.lace.length

/-! ### The trap entry, spelt out -/

/-- The state after a fault (R262): STATUS holds the code, FLAGS.FAULT is set, the rest is as it was. -/
def State.faulted (s : State) (code : BitVec 8) : State := { s with status := code, flags := s.flags ||| 0x80 }

/-- The state after a command that ended with the given status and no other change. -/
def State.ended (s : State) (code : BitVec 8) : State := { s with status := code }

/-! ### Codes (R172, R181) -/

/-- The test of R172: neither of two codewords (code, length) is a prefix of the other. -/
def apart (c l uc ul : Nat) : Prop := c >>> (l - min l ul) ≠ uc >>> (ul - min l ul)

/-- Bit `k` of the infinite bit string made of the remaining packet bits followed by zeros (R181). -/
def State.bitAhead (s : State) (k : Nat) : Nat :=
  if k < s.bcAvail then bitAt s.bcData (s.bc.pos.toNat + k) else 0

/-- The codeword of a canonical code is a prefix of the bits ahead, most significant bit first (R181). -/
def State.codewordAhead (s : State) (l c : Nat) : Prop := ∀ i, i < l → s.bitAhead i = (c >>> (l - 1 - i)) % 2

/-! ### The order of a residue decode (R207, R208) -/

/-- One piece of a residue decode: the class codeword of channel `c` for the group at partition `p`, or partition `p` of
channel `c` at stage `st`. -/
inductive ResEvent where
  | classword (p c : Nat)
  | partition (st p c : Nat)
  deriving DecidableEq, Repr

/-- The pieces in the order of R207: stage, group, then on stage 0 the class codewords in channel order, then partition by
partition the channels. -/
def schedule (res : Residue) (job : ResJob) : List ResEvent :=
  (List.range 8).flatMap fun st =>
    (List.range (groupCount res job)).flatMap fun g =>
      (if st = 0 then job.chans.map (ResEvent.classword (g * res.cw)) else []) ++
        (List.range (min res.cw (nparts res job - g * res.cw))).flatMap fun i =>
          job.chans.map (ResEvent.partition st (g * res.cw + i))

/-- What a piece does. -/
def ResEvent.run (res : Residue) (job : ResJob) : ResEvent → ResRun → Except ResHalt ResRun
  | .classword p c => classify res (nparts res job) p c
  | .partition st p c => decodeChannel res job st p c

/-! ### binary32 over the rationals (R9) -/

namespace F32

/-- The pattern is neither an infinity nor a NaN. -/
def isFinite (w : Word32) : Bool :=
  match decode w with
  | .fin _ _ _ => true
  | _ => false

/-- The rational value of a finite pattern; 0 for the others. -/
def value (w : Word32) : ℚ :=
  match decode w with
  | .fin neg m e => (if neg then -1 else 1) * (m : ℚ) * (2 : ℚ) ^ e
  | _ => 0

/-- Half a last place above the largest finite value: from here on a result rounds to infinity. -/
def overflowBound : ℚ := (2 - 1 / 2 ^ 24) * 2 ^ 127

/-- `w` is `v` rounded to nearest, ties to even, with overflow to the infinity of the sign (R9). -/
structure IsRounded (v : ℚ) (w : Word32) : Prop where
  overflow : overflowBound ≤ |v| → w = infinity (decide (v < 0))
  finite : |v| < overflowBound → isFinite w = true
  sign : |v| < overflowBound → v ≠ 0 → w.getLsbD 31 = decide (v < 0)
  nearest : |v| < overflowBound → ∀ x, isFinite x = true → |value w - v| ≤ |value x - v|
  tie : |v| < overflowBound → ∀ x, isFinite x = true → |value w - v| = |value x - v| → value x ≠ value w →
    w.getLsbD 0 = false

end F32

end Machine

end Sys2Proof
end

