-- ==== Sys2Proof/Certificates/Slice0/Obligations.lean ====
section
/-! DEFINITION. The statements about the block, from the numbered rules of spec/. A next state is written out in full, so a
statement of an instruction's result is its completion and its frame at once: what the record update does not name is as it
was. `ended` and `faulted` (Safety.lean) are the two ends of a command, R261 and R262. -/

open Sys2Proof Sys2Proof.Machine

/-! ### Encoding -/

/-- R81, R84, R89: decoding the word of a well-formed command gives the command back, with every operand. -/
def Obligations.EncodeThenDecode : Prop := ∀ i : Instr, i.wf = true → decode (encode i) = .ok i

/-- R86: a word is illegal exactly when (a) its opcode byte is reserved, (b) a register field its format does not use is not
zero, or (c) an immediate bit above the width is not zero; that is, when it matches no row; the rows are disjoint; an illegal
word ends with ILLEGAL_CMD and no other effect; and a word that decodes is the word of its command (R81), which is well
formed, so that each word has one meaning. -/
def Obligations.OneMeaningPerWord : Prop :=
  (∀ (c : BitVec 32) (i : Instr), decode c = .ok i → encode i = c ∧ i.wf = true) ∧
  rows.length = 45 ∧ (rows.map Row.op).Nodup ∧
  (∀ c, (∃ e, decode c = .error e) ↔
    (∀ r ∈ rows, r.op ≠ fieldOp c) ∨
    ∃ r ∈ rows, r.op = fieldOp c ∧
      ((fieldRd c ≠ 0 ∧ r.format.hasD = false) ∨ (fieldRs1 c ≠ 0 ∧ r.format.hasS1 = false) ∨
       (fieldRs2 c ≠ 0 ∧ r.format.hasS2 = false) ∨ (fieldImm c).toNat >>> r.immWidth ≠ 0)) ∧
  (∀ c, (∃ e, decode c = .error e) ↔ ∀ r ∈ rows, c &&& r.mask ≠ r.pattern) ∧
  (∀ r ∈ rows, ∀ q ∈ rows, ∀ c, c &&& r.mask = r.pattern → c &&& q.mask = q.pattern → r.op = q.op) ∧
  (∀ c e s, decode c = .error e → execWord c s = .next (s.faulted 16)) ∧
  decode 0x00000000 = .ok .sysNop ∧ (∃ e, decode 0xFFFFFFFF = .error e)

/-- R90: the worked encodings, and the words the rule calls illegal. -/
def Obligations.WorkedEncodings : Prop :=
  decode 0x00000000 = .ok .sysNop ∧
  decode 0x02100123 = .ok (.sysLi 1 0x123) ∧
  decode 0x03110FFF = .ok (.sysLis 1 1 0xFFF) ∧
  decode 0x04500032 = .ok (.sysCsrr 5 0x032) ∧
  decode 0x07012004 = .ok (.sysStw 1 2 4) ∧
  decode 0x12034000 = .ok (.crcSrc 3 4) ∧
  decode 0x2570000A = .ok (.bcRead 7 0 10) ∧
  decode 0x33200001 = .ok (.pfvNext 2 1) ∧
  decode 0x43345000 = .ok (.hufDecv 3 4 5) ∧
  decode 0x51123000 = .ok (.resDec 1 2 3) ∧
  decode 0x61120001 = .ok (.mdctRev 1 2 1) ∧
  decode 0x72123003 = .ok (.olaAdd 1 2 3 3) ∧
  decode 0x77090000 = .ok (.olaCpl 9) ∧
  decode 0x08000000 = .error .reservedOpcode ∧
  decode 0x80000000 = .error .reservedOpcode ∧
  decode 0x00100000 = .error .unusedField ∧
  decode 0x30000100 = .error .immediateWidth ∧
  decode 0x61120002 = .error .immediateWidth

/-! ### The step -/

/-- R10, R76, R86, R263: a step takes the host's next action. A command word is decoded and run; an illegal word faults; the
host's register and DM writes happen between commands. With nothing pending the state stays (the model's choice, log
entry 10); a host write beyond DM_WORDS stops (log entry 12). -/
def Obligations.StepRunsCommand : Prop :=
  (∀ (s : State) (c : BitVec 32) (rest : List HostAction), s.port = .command c :: rest →
    (∀ i, decode c = .ok i → step s = exec i { s with port := rest }) ∧
    (∀ e, decode c = .error e → step s = .next (State.faulted { s with port := rest } 16))) ∧
  (∀ (s : State) (w : Nat) (i : Instr), decode (BitVec.ofNat 32 w) = .ok i → step (s.withFetchWord 32 w) = exec i s) ∧
  (∀ s : State, s.port = [] → step s = .next s) ∧
  (∀ (s : State) (r : Reg) (v : Word) (rest : List HostAction), s.port = .writeReg r v :: rest →
    step s = .next (State.setX { s with port := rest } r v)) ∧
  (∀ (s : State) (a : Nat) (v : Word32) (rest : List HostAction), s.port = .writeDm a v :: rest →
    (a < s.par.dmWords → step s = .next { s with port := rest, dm := Memory.write s.dm a v }) ∧
    (s.par.dmWords ≤ a → step s = .fault (.hostDmAddress a)))

/-! ### Reset -/

/-- R50, R101, R290: after the launch and after SYS.RESET every piece of state has its reset value, and SYS.RESET leaves SRC
and DM alone and ends OK. The model's choice, not the rules': that State.reset lists no DM word (log entry 4; R49 and R50 say
only "unspecified"), that the launch parameters are fields that SYS.RESET keeps (log entry 1), and that it keeps what the host
has pending (log entries 3 and 11). -/
def Obligations.ResetState : Prop :=
  (∀ s : State, ∃ t, exec .sysReset s = .next t ∧ t.src = s.src ∧ t.dm = s.dm ∧ t.par = s.par ∧ t.port = s.port ∧
    t.csrRead 0x031 = some (BitVec.ofNat 64 s.src.length)) ∧
  (∀ a, Memory.read State.reset.dm a = none) ∧
  ∀ t : State, (t = State.reset ∨ ∃ s, exec .sysReset s = .next t) →
    (∀ r, t.x r = 0) ∧
    (∀ p ∈ [(0x000, 0x4E560007#64), (0x001, 0), (0x002, 0), (0x010, 0), (0x020, 0), (0x021, 0), (0x022, 0), (0x023, 0),
        (0x024, 0), (0x030, 0), (0x032, 0), (0x033, 0), (0x034, 0), (0x035, 0), (0x036, 0), (0x037, 0), (0x038, 0),
        (0x039, 0), (0x03A, 0), (0x03B, 0), (0x03C, 0), (0x03D, 0), (0x03E, 0), (0x03F, 0xFF), (0x060, 0), (0x061, 0),
        (0x070, 0), (0x071, 0), (0x072, 0), (0x073, 0), (0x074, 0), (0x075, 0), (0x076, 0), (0x077, 0)],
      t.csrRead p.1 = some p.2) ∧
    t.bc.ranges = [] ∧ t.page.lace = [] ∧ t.page.packets = [] ∧
    t.lock = { held := false, owner := 0, depth := 0 } ∧ t.dead = false ∧
    (∀ k, Table.find t.streams k = none ∧ Table.find t.books k = none ∧ Table.find t.residues k = none ∧
      Table.find t.modes k = none) ∧
    (∀ c f, t.ring.read c f = 0)

/-! ### Registers, SYS -/

/-- R20, R21, R100, R102, R103: `x0` reads 0 and a write to it is dropped; a write to another register is read back and
touches no other; SYS.NOP, SYS.LI and SYS.LIS. -/
def Obligations.RegistersAndConstants : Prop :=
  (∀ (s : State) (r q : Reg) (v : Word),
    (s.setX r v).x q = (if q = 0 then 0 else if q = r then v else s.x q) ∧ s.setX 0 v = s ∧
    { s.setX r v with regs := s.regs } = s) ∧
  ∀ (s : State) (rd rs1 : Reg) (imm : Imm),
    exec .sysNop s = .next (s.ended 0) ∧
    exec (.sysLi rd imm) s = .next ((s.setX rd (BitVec.ofNat 64 imm.toNat)).ended 0) ∧
    exec (.sysLis rd rs1 imm) s =
      .next ((s.setX rd (BitVec.ofNat 64 ((s.x rs1).toNat * 2 ^ 12 + imm.toNat))).ended 0)

/-- R24, R104, R105: what each CSR number reads as, zero-extended; SYS.CSRR of a number outside the map faults and leaves
x[rd]; reading STATUS gives the status of the command before; the three writable CSRs, FLAGS write-one-to-clear, and every
other number faults. -/
def Obligations.ControlRegisters : Prop :=
  (∀ (s : State) (rd : Reg) (csr : Imm),
    let csrs : List (Nat × Word) :=
      [ (0x000, 0x4E560007), (0x001, s.status.setWidth 64), (0x002, s.flags.setWidth 64),
        (0x010, s.crcAcc.setWidth 64),
        (0x020, BitVec.ofNat 64 (s.bc.ranges.length % 2 ^ 16)), (0x021, s.bc.pos),
        (0x022, BitVec.ofNat 64 s.bcTotal), (0x023, if s.bc.short then 1 else 0), (0x024, s.bc.cnt.setWidth 64),
        (0x030, s.srcPos), (0x031, BitVec.ofNat 64 s.src.length), (0x032, s.waste),
        (0x033, BitVec.ofNat 64
          (s.lock.depth.toNat + 256 * s.lock.owner.toNat + 65536 * (if s.lock.held then 1 else 0))),
        (0x034, BitVec.ofNat 64
          ((if s.page.valid then 1 else 0) + 2 * (if s.page.resync then 1 else 0) +
            4 * (if s.page.lastCont then 1 else 0) + 8 * (if s.page.isNew then 1 else 0) + 16 * (if s.dead then 1 else 0))),
        (0x035, s.page.offset), (0x036, s.page.serial.setWidth 64), (0x037, s.page.seq.setWidth 64),
        (0x038, s.page.granule), (0x039, s.page.flags.setWidth 64),
        (0x03A, BitVec.ofNat 64 (s.page.lace.length % 2 ^ 8)), (0x03B, s.page.crc.setWidth 64),
        (0x03C, s.page.payOff), (0x03D, s.page.payLen.setWidth 64),
        (0x03E, BitVec.ofNat 64 (s.page.packets.length % 2 ^ 8)), (0x03F, s.page.stream.setWidth 64),
        (0x060, s.mdct.n0.setWidth 64), (0x061, s.mdct.n1.setWidth 64),
        (0x070, s.ola.ch.setWidth 64), (0x071, s.ola.b0.setWidth 64), (0x072, s.ola.b1.setWidth 64),
        (0x073, BitVec.ofNat 64 s.ring.start), (0x074, BitVec.ofNat 64 s.ring.valid),
        (0x075, BitVec.ofNat 64 s.ring.endAt), (0x076, s.ring.cap.setWidth 64), (0x077, s.ola.prev.setWidth 64) ]
    (∀ p ∈ csrs, csr.toNat = p.1 → exec (.sysCsrr rd csr) s = .next ((s.setX rd p.2).ended 0)) ∧
    ((∀ p ∈ csrs, csr.toNat ≠ p.1) → exec (.sysCsrr rd csr) s = .next (s.faulted 17))) ∧
  ∀ (s : State) (rs1 : Reg) (csr : Imm),
    (csr = 0x002 → exec (.sysCsrw rs1 csr) s =
      .next { s with flags := s.flags &&& ~~~((s.x rs1).setWidth 8), status := 0 }) ∧
    (csr = 0x010 → exec (.sysCsrw rs1 csr) s = .next { s with crcAcc := (s.x rs1).setWidth 32, status := 0 }) ∧
    (csr = 0x032 → exec (.sysCsrw rs1 csr) s = .next { s with waste := s.x rs1, status := 0 }) ∧
    (csr ≠ 0x002 → csr ≠ 0x010 → csr ≠ 0x032 → exec (.sysCsrw rs1 csr) s = .next (s.faulted 17))

/-- R62, R106, R107: the address is an unbounded sum; beyond DM_WORDS both commands fault; a load zero-extends; a store keeps
the low 32 bits, and every other word reads as before. That a load of a word nothing has written stops is the model's choice:
log entry 4, one of the two treatments U2 offers. -/
def Obligations.DmLoadStore : Prop :=
  ∀ (s : State) (rd rs1 rs2 : Reg) (imm : Imm),
    let a := (s.x rs1).toNat + imm.toNat
    (s.par.dmWords ≤ a →
      exec (.sysLdw rd rs1 imm) s = .next (s.faulted 20) ∧ exec (.sysStw rs1 rs2 imm) s = .next (s.faulted 20)) ∧
    (a < s.par.dmWords →
      (∀ w, Memory.read s.dm a = some w →
        exec (.sysLdw rd rs1 imm) s = .next ((s.setX rd (w.setWidth 64)).ended 0)) ∧
      (Memory.read s.dm a = none → exec (.sysLdw rd rs1 imm) s = .fault (.dmUnwritten a)) ∧
      exec (.sysStw rs1 rs2 imm) s =
        .next { s with dm := Memory.write s.dm a ((s.x rs2).setWidth 32), status := 0 } ∧
      ∀ b, Memory.read (Memory.write s.dm a ((s.x rs2).setWidth 32)) b =
        if b = a then some ((s.x rs2).setWidth 32) else Memory.read s.dm b)

/-! ### CRC -/

/-- R111 to R116: the byte step, the table's loop and the values the spec prints, and the four commands. -/
def Obligations.CrcCommands : Prop :=
  (∀ (crc : Word32) (b : Byte), crcStep crc b = (crc <<< 8) ^^^ crcTable (b ^^^ (crc >>> 24).setWidth 8)) ∧
  (∀ b : Byte, crcTable b =
    (fun r : Word32 => if r.msb then (r <<< 1) ^^^ 0x04C11DB7 else r <<< 1)^[8] (b.setWidth 32 <<< 24)) ∧
  (∀ p ∈ ([(0, 0x00000000), (1, 0x04C11DB7), (2, 0x09823B6E), (3, 0x0D4326D9), (4, 0x130476DC), (5, 0x17C56B6B),
      (6, 0x1A864DB2), (7, 0x1E475005), (128, 0x690CE0EE), (255, 0xB1F740B4)] : List (Byte × Word32)),
    crcTable p.1 = p.2) ∧
  ∀ (s : State) (rd rs1 rs2 : Reg) (imm : Imm),
    exec .crcClr s = .next { s with crcAcc := 0, status := 0 } ∧
    exec (.crcUpd rs1 imm) s =
      .next { s with crcAcc := crcStep s.crcAcc (BitVec.ofNat 8 ((s.x rs1).toNat + imm.toNat)), status := 0 } ∧
    (s.src.length < (s.x rs1).toNat + (s.x rs2).toNat → exec (.crcSrc rs1 rs2) s = .next (s.faulted 25)) ∧
    ((s.x rs1).toNat + (s.x rs2).toNat ≤ s.src.length → exec (.crcSrc rs1 rs2) s =
      .next { s with
        crcAcc := ((List.range (s.x rs2).toNat).map fun i => s.src.getD ((s.x rs1).toNat + i) 0).foldl crcStep s.crcAcc,
        status := 0 }) ∧
    exec (.crcGet rd) s = .next ((s.setX rd (s.crcAcc.setWidth 64)).ended 0)

/-- R118: the byte step is linear over GF(2) in remainder and byte jointly; so the remainder of a message of a fixed length is
affine with zero constant; one flipped bit changes the remainder; the check string. -/
def Obligations.CrcProperties : Prop :=
  (∀ (r q : Word32) (a b : Byte), crcStep (r ^^^ q) (a ^^^ b) = crcStep r a ^^^ crcStep q b) ∧
  (∀ m n : List Byte, m.length = n.length →
    crcBytes 0 (List.zipWith (· ^^^ ·) m n) = crcBytes 0 m ^^^ crcBytes 0 n) ∧
  (∀ (r : Word32) (m : List Byte) (k j : Nat) (b : Byte), m[k]? = some b → j < 8 →
    crcBytes r (m.set k (b ^^^ (1 <<< j))) ≠ crcBytes r m) ∧
  crcBytes 0 [0x31, 0x32, 0x33, 0x34, 0x35, 0x36, 0x37, 0x38, 0x39] = 0x89A1897F

/-! ### Bit cursor -/

/-- R65, R120, R121: the packet is the bound ranges' bytes in order, with 8 bits a byte; bit k is bit k % 8 of byte k / 8; a
read's first bit is the least significant; reading n bits is reading m of them and then the rest. -/
def Obligations.BitStream : Prop :=
  (∀ s : State, s.RangesInside → 8 * s.bcData.length = s.bcTotal) ∧
  (∀ (s : State) (r : Machine.Range), r.off.toNat + r.len.toNat ≤ s.src.length →
    let t : State := { s with bc := { s.bc with ranges := s.bc.ranges ++ [r] } }
    (∃ tail, t.bcData = s.bcData ++ tail ∧ tail.length = r.len.toNat ∧
      ∀ i, i < r.len.toNat → tail[i]? = s.src[r.off.toNat + i]?)) ∧
  (∀ (bs : List Byte) (k : Nat) (b : Byte), bs[k / 8]? = some b → bitAt bs k = (b.toNat / 2 ^ (k % 8)) % 2) ∧
  (∀ (bs : List Byte) (q n : Nat), bitsAt bs q n = ∑ i ∈ Finset.range n, bitAt bs (q + i) * 2 ^ i) ∧
  (∀ (bs : List Byte) (q m n : Nat), bitsAt bs q (m + n) = bitsAt bs q m + 2 ^ m * bitsAt bs (q + m) n)

/-- R124, R125, R126: BC.CLR, BC.ADDR and BC.RESET. That BC.ADDR is refused when BC_TOTAL would pass 64 bits is the model's
choice: log entry 8, its reading of U4, which leaves such a launch out. -/
def Obligations.BitCursorBinding : Prop :=
  ∀ (s : State) (rs1 rs2 : Reg),
    let off := (s.x rs1).toNat
    let len := (s.x rs2).toNat
    exec .bcClr s = .next { s with bc := { ranges := [], pos := 0, short := false, cnt := 0 }, status := 0 } ∧
    exec .bcReset s = .next { s with bc := { s.bc with pos := 0, short := false, cnt := 0 }, status := 0 } ∧
    (s.bc.ranges.length = s.par.maxRanges → exec (.bcAddr rs1 rs2) s = .next (s.faulted 17)) ∧
    (s.bc.ranges.length ≠ s.par.maxRanges →
      (s.src.length < off + len → exec (.bcAddr rs1 rs2) s = .next (s.faulted 25)) ∧
      (off + len ≤ s.src.length →
        (2 ^ 64 ≤ s.bcTotal + 8 * len → exec (.bcAddr rs1 rs2) s = .refused .bitTotal) ∧
        (s.bcTotal + 8 * len < 2 ^ 64 →
          let t : State := { s with
            bc := { s.bc with ranges := s.bc.ranges ++ [{ off := s.x rs1, len := s.x rs2 }] }, status := 0 }
          exec (.bcAddr rs1 rs2) s = .next t ∧ t.bcTotal = s.bcTotal + 8 * len)))

/-- R122, R123, R127 to R130: BC.PEEK, BC.SKIP, BC.READ and BC.RDVF. `got` bits are there of the `n` asked for, the value has
zeros above them; only consuming past the end moves to the end, sets the short flag and its sticky bit, and ends SHORT. -/
def Obligations.BitReads : Prop :=
  ∀ (s : State) (rd rs1 : Reg) (imm : Imm),
    let n := (s.x rs1).toNat + imm.toNat
    let q := s.bc.pos.toNat
    let avail := s.bcTotal - q
    let value (k : Nat) : Nat := bitsAt s.bcData q (min k avail)
    let counted (k : Nat) : BitVec 7 := BitVec.ofNat 7 (min k avail)
    let moved (k : Nat) (cnt : BitVec 7) : State :=
      { s with bc := { s.bc with pos := BitVec.ofNat 64 (q + k), cnt := cnt } }
    let atEnd (cnt : BitVec 7) : State :=
      { s with bc := { s.bc with pos := BitVec.ofNat 64 s.bcTotal, short := true, cnt := cnt },
               flags := s.flags ||| 0x01 }
    let float : Word := (F32.ofVorbis (BitVec.ofNat 32 (value 32))).setWidth 64
    ((n < 1 ∨ 64 < n) → exec (.bcPeek rd rs1 imm) s = .next (s.faulted 17) ∧
      exec (.bcRead rd rs1 imm) s = .next (s.faulted 17)) ∧
    (1 ≤ n → n ≤ 64 →
      exec (.bcPeek rd rs1 imm) s = .next
        ((State.setX { s with bc := { s.bc with cnt := counted n } } rd (BitVec.ofNat 64 (value n))).ended 0) ∧
      (n ≤ avail → exec (.bcRead rd rs1 imm) s = .next
        (((moved n (counted n)).setX rd (BitVec.ofNat 64 (value n))).ended 0)) ∧
      (avail < n → exec (.bcRead rd rs1 imm) s = .next
        (((atEnd (counted n)).setX rd (BitVec.ofNat 64 (value n))).ended 2))) ∧
    (n ≤ avail → exec (.bcSkip rs1 imm) s = .next ((moved n s.bc.cnt).ended 0)) ∧
    (avail < n → exec (.bcSkip rs1 imm) s = .next ((atEnd s.bc.cnt).ended 2)) ∧
    (32 ≤ avail → exec (.bcRdvf rd) s = .next (((moved 32 (counted 32)).setX rd float).ended 0)) ∧
    (avail < 32 → exec (.bcRdvf rd) s = .next (((atEnd (counted 32)).setX rd float).ended 2))

/-! ### binary32 -/

/-- R131: the packed Vorbis float is `(-1)^s * m * 2^(e - 788)` rounded once to binary32; `m` = 0 gives the zero of its
sign; 1.0 is 0x62800001. -/
def Obligations.VorbisFloat : Prop :=
  (∀ u : Word32,
    let m : Nat := u.toNat % 2 ^ 21
    let e : Nat := (u.toNat / 2 ^ 21) % 2 ^ 10
    let v : ℚ := (if u.getLsbD 31 then -1 else 1) * (m : ℚ) * (2 : ℚ) ^ ((e : ℤ) - 788)
    F32.IsRounded v (F32.ofVorbis u) ∧
    (m = 0 → F32.ofVorbis u = if u.getLsbD 31 then 0x80000000 else 0)) ∧
  F32.ofVorbis 0x62800001 = 0x3F800000

/-- R9: addition, subtraction and multiplication of finite values are the exact result rounded to nearest, ties to even, with
infinities on overflow and the IEEE sign of a zero; a NaN operand or an invalid operation gives the default quiet NaN; the
unsigned conversion rounds the same way. -/
def Obligations.FloatArithmetic : Prop :=
  (∀ a b : Word32, F32.isFinite a = true → F32.isFinite b = true →
    F32.IsRounded (F32.value a + F32.value b) (F32.add a b) ∧
    F32.IsRounded (F32.value a - F32.value b) (F32.sub a b) ∧
    F32.IsRounded (F32.value a * F32.value b) (F32.mul a b) ∧
    (F32.value a + F32.value b = 0 → F32.add a b = if a.getLsbD 31 && b.getLsbD 31 then 0x80000000 else 0) ∧
    (F32.value a - F32.value b = 0 → F32.sub a b = if a.getLsbD 31 && !b.getLsbD 31 then 0x80000000 else 0) ∧
    (F32.value a * F32.value b = 0 → F32.mul a b = if xor (a.getLsbD 31) (b.getLsbD 31) then 0x80000000 else 0)) ∧
  (∀ a b : Word32, (F32.decode a = .nan ∨ F32.decode b = .nan) →
    F32.add a b = 0x7FC00000 ∧ F32.sub a b = 0x7FC00000 ∧ F32.mul a b = 0x7FC00000) ∧
  (∀ s t : Bool,
    F32.add (F32.infinity s) (F32.infinity t) = (if s = t then F32.infinity s else 0x7FC00000) ∧
    F32.sub (F32.infinity s) (F32.infinity t) = (if s = t then 0x7FC00000 else F32.infinity s) ∧
    F32.mul (F32.infinity s) (F32.infinity t) = F32.infinity (xor s t)) ∧
  (∀ (s : Bool) (a : Word32), F32.isFinite a = true →
    F32.add (F32.infinity s) a = F32.infinity s ∧ F32.add a (F32.infinity s) = F32.infinity s ∧
    F32.sub (F32.infinity s) a = F32.infinity s ∧ F32.sub a (F32.infinity s) = F32.infinity (!s) ∧
    F32.mul a (F32.infinity s) = F32.mul (F32.infinity s) a ∧
    (F32.value a = 0 → F32.mul (F32.infinity s) a = 0x7FC00000) ∧
    (F32.value a ≠ 0 → F32.mul (F32.infinity s) a = F32.infinity (xor s (a.getLsbD 31)))) ∧
  (∀ n : Nat, F32.IsRounded (n : ℚ) (F32.ofNat n))

/-! ### Page-frame validator -/

/-- R141, R154, R155, R156: taking, re-taking and giving back the lock, and the seek. -/
def Obligations.LockAndSeek : Prop :=
  ∀ (s : State) (imm : Imm) (rs1 : Reg),
    let cid : BitVec 8 := imm.setWidth 8
    (s.lock.held = false →
      exec (.pfvLock imm) s = .next { s with lock := { held := true, owner := cid, depth := 1 }, status := 0 }) ∧
    (s.lock.held = true → s.lock.owner = cid → s.lock.depth = 255 → exec (.pfvLock imm) s = .next (s.faulted 19)) ∧
    (s.lock.held = true → s.lock.owner = cid → s.lock.depth ≠ 255 →
      exec (.pfvLock imm) s = .next { s with lock := { s.lock with depth := s.lock.depth + 1 }, status := 0 }) ∧
    (s.lock.held = true → s.lock.owner ≠ cid → exec (.pfvLock imm) s = .next (s.ended 4)) ∧
    (¬ (s.lock.held = true ∧ s.lock.owner = cid) → exec (.pfvRel imm) s = .next (s.faulted 19)) ∧
    (s.lock.held = true → s.lock.owner = cid → s.lock.depth = 1 →
      exec (.pfvRel imm) s = .next { s with lock := { held := false, owner := 0, depth := 0 }, status := 0 }) ∧
    (s.lock.held = true → s.lock.owner = cid → s.lock.depth ≠ 1 →
      exec (.pfvRel imm) s = .next { s with lock := { s.lock with depth := s.lock.depth - 1 }, status := 0 }) ∧
    (s.src.length < (s.x rs1).toNat → exec (.pfvSeek rs1 imm) s = .next (s.faulted 25)) ∧
    ((s.x rs1).toNat ≤ s.src.length →
      (¬ (s.lock.held = true ∧ s.lock.owner = cid) → exec (.pfvSeek rs1 imm) s = .next (s.faulted 18)) ∧
      (s.lock.held = true → s.lock.owner = cid →
        exec (.pfvSeek rs1 imm) s = .next { s with srcPos := s.x rs1, dead := false, status := 0 }))

/-- R142, R143, R145, R117, R64: a valid page begins at offset `p` exactly when the capture pattern, the version, the three
lengths and the checksum are right; the checksum runs over the whole page with its own four bytes as zeros, and the stored
field is little-endian. -/
def Obligations.PageTest : Prop :=
  ∀ (src : List Byte) (p : Nat),
    let byte (i : Nat) : Nat := (src.getD (p + i) 0).toNat
    let nseg := byte 26
    let payLen := ∑ i ∈ Finset.range nseg, byte (27 + i)
    let total := 27 + nseg + payLen
    pageAt (src.drop p) = true ↔
      p + 4 ≤ src.length ∧ byte 0 = 0x4F ∧ byte 1 = 0x67 ∧ byte 2 = 0x67 ∧ byte 3 = 0x53 ∧
      p + 27 ≤ src.length ∧ byte 4 = 0 ∧ p + 27 + nseg ≤ src.length ∧ p + total ≤ src.length ∧
      (((List.range total).map fun i => if 22 ≤ i ∧ i ≤ 25 then 0 else src.getD (p + i) 0).foldl crcStep 0).toNat =
        ∑ i ∈ Finset.range 4, byte (22 + i) * 256 ^ i

/-- R147, R163 (a): the owner's PFV.NEXT, with the latch clear, accepts the first offset from SRC_POS on at which a valid page
begins, when fewer than SCAN_CAP offsets come before it; x[rd] is that offset, the bytes before it are waste, the page is
marked resync when there are any, and the status is OK, or REG_FULL when the registry had no slot. -/
def Obligations.ScanFindsFirstPage : Prop :=
  ∀ (s : State) (rd : Reg) (imm : Imm) (k : Nat),
    let start := s.srcPos.toNat
    s.lock.held = true → s.lock.owner = imm.setWidth 8 → s.dead = false → k < 65536 →
    (∀ j, j < k → start + j + 4 ≤ s.src.length ∧ pageAt (s.src.drop (start + j)) = false) →
    pageAt (s.src.drop (start + k)) = true →
    let r := s.acceptPage (start + k)
    exec (.pfvNext rd imm) s =
      .next ((r.1.setX rd (BitVec.ofNat 64 (start + k))).ended (if r.2 then 5 else 0)) ∧
    r.1.waste = s.waste + BitVec.ofNat 64 k ∧ r.1.page.valid = true ∧ (r.1.page.resync = true ↔ 0 < k)

/-- R38, R147 to R149: PFV.NEXT without the lock, with the latch set, at the end of the source, and at the cap. -/
def Obligations.ScanWithoutPage : Prop :=
  ∀ (s : State) (rd : Reg) (imm : Imm),
    let start := s.srcPos.toNat
    let noPage (j : Nat) : Prop := start + j + 4 ≤ s.src.length ∧ pageAt (s.src.drop (start + j)) = false
    (¬ (s.lock.held = true ∧ s.lock.owner = imm.setWidth 8) → exec (.pfvNext rd imm) s = .next (s.faulted 18)) ∧
    (s.lock.held = true → s.lock.owner = imm.setWidth 8 →
      (s.dead = true → exec (.pfvNext rd imm) s = .next
        (State.ended (State.setX { s with page := { s.page with valid := false }, flags := s.flags ||| 0x20 }
          rd (BitVec.allOnes 64)) 9)) ∧
      (s.dead = false →
        (∀ k, k < 65536 → (∀ j, j < k → noPage j) → s.src.length < start + k + 4 →
          exec (.pfvNext rd imm) s = .next
            (State.ended (State.setX { s with
              waste := s.waste + BitVec.ofNat 64 (s.src.length - start)
              srcPos := BitVec.ofNat 64 s.src.length
              page := { s.page with valid := false }
              flags := s.flags ||| 0x08 } rd (BitVec.allOnes 64)) 1)) ∧
        ((∀ j, j < 65536 → noPage j) →
          exec (.pfvNext rd imm) s = .next
            (State.ended (State.setX { s with
              waste := s.waste + 65536
              srcPos := BitVec.ofNat 64 (start + 65536)
              dead := true
              page := { s.page with valid := false }
              flags := s.flags ||| 0x20 } rd (BitVec.allOnes 64)) 9))))

/-- R34, R35, R150, R64: what accepting the page at `p` writes into the page record, and where the cursor and the waste count
go. -/
def Obligations.AcceptedPageRecord : Prop :=
  ∀ (s : State) (p : Nat), pageAt (s.src.drop p) = true → s.srcPos.toNat ≤ p →
    let start := s.srcPos.toNat
    let byte (i : Nat) : Nat := (s.src.getD (p + i) 0).toNat
    let field (i n : Nat) : Nat := ∑ j ∈ Finset.range n, byte (i + j) * 256 ^ j
    let nseg := byte 26
    let payLen := ∑ i ∈ Finset.range nseg, byte (27 + i)
    let t := (s.acceptPage p).1
    t.waste = s.waste + BitVec.ofNat 64 (p - start) ∧
    t.page.valid = true ∧
    (t.page.resync = true ↔ p ≠ start) ∧
    t.flags = s.flags ||| (if p ≠ start then 0x04 else 0) ||| (if (s.acceptPage p).2 then 0x40 else 0) ∧
    t.page.offset = BitVec.ofNat 64 p ∧
    t.page.flags.toNat = byte 5 ∧
    t.page.granule.toNat = field 6 8 ∧
    t.page.serial.toNat = field 14 4 ∧
    t.page.seq.toNat = field 18 4 ∧
    t.page.crc.toNat = field 22 4 ∧
    t.page.lace.length = nseg ∧
    (∀ i, i < nseg → (t.page.lace.getD i 0).toNat = byte (27 + i)) ∧
    t.page.payOff = BitVec.ofNat 64 (p + 27 + nseg) ∧
    t.page.payLen.toNat = payLen ∧
    (t.page.lastCont = true ↔ 0 < nseg ∧ byte (27 + nseg - 1) = 255) ∧
    t.srcPos = BitVec.ofNat 64 (p + (27 + nseg + payLen)) ∧
    t.page.packets = packetsFrom t.page.lace (p + 27 + nseg) 0 false ∧
    { t with waste := s.waste, flags := s.flags, srcPos := s.srcPos, page := s.page, streams := s.streams } = s

/-- R151, C3: a run of values 255 closed by a value below 255 is one packet, a run left open is the unfinished last packet;
entries are at most as many as lacing values, the ranges tile the payload and their lengths add up to its length. -/
def Obligations.PacketTable : Prop :=
  (∀ (m : Nat) (v : Byte) (rest : List Byte) (off : Nat), v.toNat < 255 →
    packetsFrom (List.replicate m 255 ++ v :: rest) off 0 false =
      { off := BitVec.ofNat 64 off, len := BitVec.ofNat 16 (255 * m + v.toNat), cont := false } ::
        packetsFrom rest (off + (255 * m + v.toNat)) 0 false) ∧
  (∀ m off : Nat, packetsFrom (List.replicate m 255) off 0 false =
    if m = 0 then [] else [{ off := BitVec.ofNat 64 off, len := BitVec.ofNat 16 (255 * m), cont := true }]) ∧
  ∀ (lace : List Byte) (off : Nat), lace.length ≤ 255 →
    let ps := packetsFrom lace off 0 false
    ps.length ≤ lace.length ∧
    (∀ e, ps.head? = some e → e.off = BitVec.ofNat 64 off) ∧
    (∀ (k : Nat) (e f : Packet), ps[k]? = some e → ps[k + 1]? = some f → f.off = e.off + e.len.setWidth 64) ∧
    (ps.map fun e => e.len.toNat).sum = (lace.map BitVec.toNat).sum ∧
    (∀ (k : Nat) (e : Packet), ps[k]? = some e → (e.cont = true ↔ k + 1 = ps.length ∧ lace.getLast? = some 255))

/-- R37, R152, R153: the page's slot is the lowest valid one with its serial, else the lowest free one, else none, which the
block reports; an end-of-stream page marks its slot; no other slot changes. -/
def Obligations.StreamRegistry : Prop :=
  ∀ (s : State) (p : Nat), s.par.nstream ≤ 255 →
    let r := s.acceptPage p
    let t := r.1
    let eos : Bool := t.page.flags.getLsbD 2
    let has (k : Nat) : Prop := k < s.par.nstream ∧ ∃ e, Table.find s.streams k = some e ∧ e.serial = t.page.serial
    let free (k : Nat) : Prop := k < s.par.nstream ∧ Table.find s.streams k = none
    (∀ k e, has k → (∀ j, j < k → ¬ has j) → Table.find s.streams k = some e →
      t.page.stream = BitVec.ofNat 8 k ∧ t.page.isNew = false ∧ r.2 = false ∧
      Table.find t.streams k = some { serial := e.serial, eos := e.eos || eos } ∧
      ∀ j, j ≠ k → Table.find t.streams j = Table.find s.streams j) ∧
    (∀ k, (∀ j, ¬ has j) → free k → (∀ j, j < k → ¬ free j) →
      t.page.stream = BitVec.ofNat 8 k ∧ t.page.isNew = true ∧ r.2 = false ∧
      Table.find t.streams k = some { serial := t.page.serial, eos := eos } ∧
      ∀ j, j ≠ k → Table.find t.streams j = Table.find s.streams j) ∧
    ((∀ j, ¬ has j) → (∀ j, ¬ free j) →
      t.page.stream = 0xFF ∧ t.page.isNew = false ∧ r.2 = true ∧ t.streams = s.streams)

/-- R163 (c): SRC_POS never decreases in PFV.NEXT, and WASTE plus the bytes of accepted pages grows by the distance SRC_POS
moved. -/
def Obligations.WasteAccounting : Prop :=
  ∀ (s t : State) (rd : Reg) (imm : Imm), s.CursorsInRange → s.src.length < 2 ^ 64 →
    exec (.pfvNext rd imm) s = .next t →
    s.srcPos.toNat ≤ t.srcPos.toNat ∧
    t.waste + (if t.status = 0 ∨ t.status = 5 then
        BitVec.ofNat 64 (27 + t.page.lace.length + t.page.payLen.toNat) else 0) =
      s.waste + (t.srcPos - s.srcPos)

/-- R163 (b): a page with one bit flipped, other than in the segment count or the lacing table, is not accepted at its own
offset. -/
def Obligations.FlippedBitRejected : Prop :=
  ∀ (rest : List Byte) (k j : Nat) (b : Byte), pageAt rest = true → rest[k]? = some b → j < 8 →
    k < totalOf rest → (k < 26 ∨ 27 + (laceOf rest).length ≤ k) →
    pageAt (rest.set k (b ^^^ (1 <<< j))) = false

/-- R157, R158, R159: the three readers, with the faults in the order the rules test them. -/
def Obligations.PageReaders : Prop :=
  ∀ (s : State) (rd rs1 : Reg) (imm : Imm),
    let i := (s.x rs1).toNat
    let sel := imm.toNat % 4
    (254 < i → exec (.pfvLace rd rs1) s = .next (s.faulted 17)) ∧
    (i ≤ 254 →
      (s.page.valid = false → exec (.pfvLace rd rs1) s = .next (s.faulted 21)) ∧
      (s.page.valid = true → exec (.pfvLace rd rs1) s =
        .next ((s.setX rd (if i < s.page.lace.length then (s.page.lace.getD i 0).setWidth 64 else 0)).ended 0))) ∧
    (sel = 3 → exec (.pfvPkt rd rs1 imm) s = .next (s.faulted 17)) ∧
    (sel ≠ 3 →
      (s.page.valid = false → exec (.pfvPkt rd rs1 imm) s = .next (s.faulted 21)) ∧
      (s.page.valid = true →
        (s.page.packets.length ≤ i → exec (.pfvPkt rd rs1 imm) s = .next (s.faulted 17)) ∧
        ∀ e, s.page.packets[i]? = some e →
          (sel = 0 → exec (.pfvPkt rd rs1 imm) s = .next ((s.setX rd e.off).ended 0)) ∧
          (sel = 1 → exec (.pfvPkt rd rs1 imm) s = .next ((s.setX rd (e.len.setWidth 64)).ended 0)) ∧
          (sel = 2 → exec (.pfvPkt rd rs1 imm) s = .next ((s.setX rd (BitVec.ofNat 64
            ((if e.cont then 1 else 0) + (if i = 0 ∧ s.page.flags.getLsbD 0 = true then 2 else 0) +
              (if i + 1 = s.page.packets.length then 4 else 0) +
              (if i = 0 ∧ s.page.resync = true then 8 else 0)))).ended 0)))) ∧
    ((sel = 3 ∨ s.par.nstream ≤ i) → exec (.pfvStrm rd rs1 imm) s = .next (s.faulted 17)) ∧
    (sel ≠ 3 → i < s.par.nstream →
      (Table.find s.streams i = none → exec (.pfvStrm rd rs1 imm) s = .next ((s.setX rd 0).ended 0)) ∧
      ∀ e, Table.find s.streams i = some e →
        (sel = 0 → exec (.pfvStrm rd rs1 imm) s = .next ((s.setX rd 1).ended 0)) ∧
        (sel = 1 → exec (.pfvStrm rd rs1 imm) s = .next ((s.setX rd (e.serial.setWidth 64)).ended 0)) ∧
        (sel = 2 → exec (.pfvStrm rd rs1 imm) s = .next ((s.setX rd (if e.eos then 1 else 0)).ended 0)))

/-! ### Codebooks -/

/-- R172: canonical code assignment. Each used entry, in entry order, gets the numerically lowest codeword of its length that
is free of every codeword given out before it; the build fails exactly when an entry finds none free. -/
def Obligations.CanonicalCodes : Prop :=
  ∀ lens : List Nat,
    let free (cs : List (Option (Nat × Nat))) (e l c : Nat) : Prop :=
      ∀ f ul uc, f < e → cs[f]? = some (some (ul, uc)) → apart c l uc ul
    (∀ cs, canonicalCodes lens = some cs →
      cs.length = lens.length ∧
      ∀ e l, lens[e]? = some l →
        (l = 0 → cs[e]? = some none) ∧
        (0 < l → ∃ c, cs[e]? = some (some (l, c)) ∧ c < 2 ^ l ∧ free cs e l c ∧ ∀ d, d < c → ¬ free cs e l d)) ∧
    (canonicalCodes lens = none ↔
      ∃ (e l : Nat) (cs : List (Option (Nat × Nat))), lens[e]? = some l ∧ 0 < l ∧
        canonicalCodes (lens.take e) = some cs ∧ ∀ c, c < 2 ^ l → ¬ free cs e l c)

/-- R173 to R176: stored codes are the canonical ones bit-reversed; the prefix table has an entry at every index whose low bits
are the entry's code; the chain lists the longer entries by length and stored code. -/
def Obligations.StoredCodesAndTables : Prop :=
  (∀ l c i : Nat, i < l → (reverseBits l c).testBit i = c.testBit (l - 1 - i)) ∧
  (∀ l c : Nat, reverseBits l c < 2 ^ l) ∧
  (∀ (c : Code) (v : Word), c.len ≤ 32 → (c.hits v = true ↔ v.toNat % 2 ^ c.len = c.code.toNat)) ∧
  ∀ (dim : Nat) (lens : List Nat) (b : Codebook) (cs : List (Option (Nat × Nat))),
    (∀ l ∈ lens, l ≤ 32) → canonicalCodes lens = some cs → buildCodebook dim lens = some b →
    b.dim = dim ∧ b.mapType = .noTable ∧ b.entries = lens.length ∧
    (∀ e l c : Nat, cs[e]? = some (some (l, c)) → codeOf b.codes e = some { len := l, code := BitVec.ofNat 32 (reverseBits l c) }) ∧
    (∀ e : Nat, cs[e]? = some none → codeOf b.codes e = none) ∧
    (∀ e, b.len e ≤ maxLenOf b.codes) ∧
    (∀ e c, codeOf b.codes e = some c → minLenOf b.codes ≤ c.len) ∧
    tableBitsOf b.codes = min (maxLenOf b.codes) 10 ∧
    b.prefixes.length = 2 ^ tableBitsOf b.codes ∧
    (∀ i e, i < 2 ^ tableBitsOf b.codes →
      (b.prefixes[i]? = some (some e) ↔
        ∃ c, codeOf b.codes e = some c ∧ c.len ≤ tableBitsOf b.codes ∧ i % 2 ^ c.len = c.code.toNat)) ∧
    (∀ e, e ∈ b.chain ↔ ∃ c, codeOf b.codes e = some c ∧ tableBitsOf b.codes < c.len) ∧
    b.chain.Nodup ∧
    b.chain.Pairwise (fun e f => ∀ c d, codeOf b.codes e = some c → codeOf b.codes f = some d →
      c.len < d.len ∨ (c.len = d.len ∧ c.code.toNat < d.code.toNat))

/-- R181, with R123, R132, R178, R179, R180: what a codeword decode does, stated without the tables, as the whole state after
it. INVALID with fewer bits than the shortest code; else the one used entry whose codeword begins the remaining bits continued
by zeros, and whether its bits were all there; INVALID when there is none. A complete entry consumes its length and leaves
BC_SHORT and FLAGS alone; one longer than the bits left takes the cursor to the end and sets BC_SHORT and FLAGS.SHORT; INVALID
moves nothing. BC_CNT is the count of the last peek: the table's, or the chain's when the table has no entry and there is a
chain. A lookup table that HUF.VQ gave the slot changes nothing here. For a codebook whose codes are all longer than 10 bits
this is the model's reading, log entry 28 (DEDUCED, unsafe): the bits that remain are compared with the shortest code, as R180
and R181 have it, where the pseudocode of R178 and C4 of 90_conflicts.md compare the bits peeked. -/
def Obligations.DecodeByCodewords : Prop :=
  ∀ (s : State) (dim : Nat) (lens : List Nat) (built : Codebook) (cs : List (Option (Nat × Nat)))
      (mapType : MapType) (lut : List Word32),
    (∀ l ∈ lens, l ≤ 32) → canonicalCodes lens = some cs → buildCodebook dim lens = some built →
    s.bc.pos.toNat ≤ s.bcTotal → s.bcTotal < 2 ^ 64 →
    let b : Codebook := { built with mapType := mapType, lut := lut }
    let r := s.bcTotal - s.bc.pos.toNat
    let maxLen := maxLenOf b.codes
    let table := min maxLen 10
    let counted (k : Nat) : BitVec 7 := BitVec.ofNat 7 (min k r)
    let stays (k : Nat) : State := { s with bc := { s.bc with cnt := counted k } }
    (r < minLenOf b.codes → s.hufDecode b = (stays table, .invalid)) ∧
    (minLenOf b.codes ≤ r →
      (∀ e l c : Nat, cs[e]? = some (some (l, c)) → s.codewordAhead l c →
        let cnt := counted (if l ≤ table then table else maxLen)
        (l ≤ r → s.hufDecode b =
          ({ s with bc := { s.bc with pos := BitVec.ofNat 64 (s.bc.pos.toNat + l), cnt := cnt } }, .entry e true)) ∧
        (r < l → s.hufDecode b =
          ({ s with bc := { s.bc with pos := BitVec.ofNat 64 s.bcTotal, short := true, cnt := cnt },
                    flags := s.flags ||| 0x01 }, .entry e false))) ∧
      ((∀ e l c : Nat, cs[e]? = some (some (l, c)) → ¬ s.codewordAhead l c) →
        s.hufDecode b = (stays maxLen, .invalid)))

/-- R192: after a build, (a) no used entry's codeword is a prefix of another's, and (b) a packet whose next bits are an entry's
stored code decodes to that entry and advances by its length. For a codebook whose codes are all longer than 10 bits this is
the model's reading, log entry 28 (DEDUCED, unsafe), against the pseudocode of R178, by which such a decode is INVALID. -/
def Obligations.PrefixFreeRoundTrip : Prop :=
  ∀ (dim : Nat) (lens : List Nat) (b : Codebook),
    (∀ l ∈ lens, l ≤ 32) → buildCodebook dim lens = some b →
    (∀ e f c d, e ≠ f → codeOf b.codes e = some c → codeOf b.codes f = some d → c.len ≤ d.len →
      d.code.toNat % 2 ^ c.len ≠ c.code.toNat) ∧
    (∀ (s : State) (e : Nat) (c : Code), s.bc.pos.toNat ≤ s.bcTotal → s.bcTotal < 2 ^ 64 →
      codeOf b.codes e = some c → c.len ≤ s.bcTotal - s.bc.pos.toNat →
      bitsAt s.bcData s.bc.pos.toNat c.len = c.code.toNat →
      (s.hufDecode b).2 = .entry e true ∧
      (s.hufDecode b).1.bc.pos = BitVec.ofNat 64 (s.bc.pos.toNat + c.len))

/-- R171, R177: HUF.BUILD. The fault checks; then the slot and its dependents are invalid whatever follows; a malformed
descriptor ends MALFORMED_SETUP, a good one fills the slot. -/
def Obligations.CodebookBuild : Prop :=
  ∀ (s : State) (rs1 rs2 : Reg),
    let k := (s.x rs1).toNat
    let a := (s.x rs2).toNat
    let opened : State := { s with books := Table.erase s.books k, residues := s.residues.filter fun c => !c.2.names k }
    let bad : State := { opened with flags := s.flags ||| 0x10, status := 8 }
    (s.par.ncb ≤ k → exec (.hufBuild rs1 rs2) s = .next (s.faulted 17)) ∧
    (k < s.par.ncb → s.par.dmWords ≤ a + 1 → exec (.hufBuild rs1 rs2) s = .next (s.faulted 20)) ∧
    (k < s.par.ncb → a + 1 < s.par.dmWords → s.known a → s.known (a + 1) →
      let entries := s.word a
      let dim := s.word (a + 1)
      (s.par.dmWords < a + 2 + entries → exec (.hufBuild rs1 rs2) s = .next (s.faulted 20)) ∧
      (a + 2 + entries ≤ s.par.dmWords →
        ((entries = 0 ∨ s.par.maxEntries < entries ∨ dim = 0 ∨ s.par.maxDim < dim) →
          exec (.hufBuild rs1 rs2) s = .next bad) ∧
        (entries ≠ 0 → entries ≤ s.par.maxEntries → dim ≠ 0 → dim ≤ s.par.maxDim →
          (∀ e, e < entries → s.known (a + 2 + e)) →
          let lens := (List.range entries).map fun e => s.word (a + 2 + e)
          (((∃ l ∈ lens, 32 < l) ∨ (∀ l ∈ lens, l = 0) ∨ canonicalCodes lens = none) →
            exec (.hufBuild rs1 rs2) s = .next bad) ∧
          ((∀ l ∈ lens, l ≤ 32) → (∃ l ∈ lens, l ≠ 0) → canonicalCodes lens ≠ none →
            ∃ b, buildCodebook dim lens = some b ∧
              exec (.hufBuild rs1 rs2) s =
                .next { opened with books := Table.put (Table.erase s.books k) k b, status := 0 }))))

/-- R182, R188: HUF.DEC and HUF.DECV. On invalid data x[rd] is all ones; on a short symbol the entry is returned and nothing is
stored; HUF.DECV checks readiness, then the destination, before it consumes anything. `t` is the state after the codeword:
INVALID moves nothing and sets no short flag; a short entry, and only it, sets BC_SHORT and FLAGS.SHORT, with the cursor at the
end. DecodeByCodewords gives `t` whole for every slot that HUF.BUILD and HUF.VQ can fill, BC_CNT included. -/
def Obligations.SymbolDecode : Prop :=
  ∀ (s : State) (rd rs1 rs2 : Reg),
    let k := (s.x rs1).toNat
    let dst := (s.x rs2).toNat
    (s.par.ncb ≤ k → exec (.hufDec rd rs1) s = .next (s.faulted 17) ∧
      exec (.hufDecv rd rs1 rs2) s = .next (s.faulted 17)) ∧
    (k < s.par.ncb → Table.find s.books k = none → exec (.hufDec rd rs1) s = .next (s.faulted 21) ∧
      exec (.hufDecv rd rs1 rs2) s = .next (s.faulted 21)) ∧
    (∀ b, k < s.par.ncb → Table.find s.books k = some b →
      let t := (s.hufDecode b).1
      let bad : State := State.ended (State.setX { t with flags := t.flags ||| 0x02 } rd (BitVec.allOnes 64)) 3
      ((s.hufDecode b).2 = .invalid → t = { s with bc := { s.bc with cnt := t.bc.cnt } }) ∧
      (∀ e, (s.hufDecode b).2 = .entry e true →
        t = { s with bc := { s.bc with pos := BitVec.ofNat 64 (s.bc.pos.toNat + b.len e), cnt := t.bc.cnt } }) ∧
      (∀ e, (s.hufDecode b).2 = .entry e false →
        t = { s with bc := { s.bc with pos := BitVec.ofNat 64 s.bcTotal, short := true, cnt := t.bc.cnt },
                     flags := s.flags ||| 0x01 }) ∧
      ((s.hufDecode b).2 = .invalid → exec (.hufDec rd rs1) s = .next bad) ∧
      (∀ e ok, (s.hufDecode b).2 = .entry e ok →
        exec (.hufDec rd rs1) s = .next ((t.setX rd (BitVec.ofNat 64 e)).ended (if ok then 0 else 2))) ∧
      (b.mapType = .noTable → exec (.hufDecv rd rs1 rs2) s = .next (s.faulted 21)) ∧
      (b.mapType ≠ .noTable →
        (s.par.dmWords < dst + b.dim → exec (.hufDecv rd rs1 rs2) s = .next (s.faulted 20)) ∧
        (dst + b.dim ≤ s.par.dmWords →
          ((s.hufDecode b).2 = .invalid → exec (.hufDecv rd rs1 rs2) s = .next bad) ∧
          (∀ e, (s.hufDecode b).2 = .entry e false →
            exec (.hufDecv rd rs1 rs2) s = .next ((t.setX rd (BitVec.ofNat 64 e)).ended 2)) ∧
          (∀ e, (s.hufDecode b).2 = .entry e true →
            exec (.hufDecv rd rs1 rs2) s = .next (State.ended (State.setX
              { t with dm := Memory.writeList s.dm dst ((b.lut.drop (e * b.dim)).take b.dim) }
              rd (BitVec.ofNat 64 e)) 0)))))

/-- R189, R190, R191: the readers of a codebook slot. -/
def Obligations.CodebookReaders : Prop :=
  ∀ (s : State) (rd rs1 rs2 : Reg) (imm : Imm),
    let k := (s.x rs1).toNat
    let e := (s.x rs2).toNat
    let sel := imm.toNat % 16
    ((s.par.ncb ≤ k ∨ 10 ≤ sel) → exec (.hufInfo rd rs1 imm) s = .next (s.faulted 17)) ∧
    (s.par.ncb ≤ k → exec (.hufCode rd rs1 rs2) s = .next (s.faulted 17) ∧
      exec (.hufLut rd rs1 rs2) s = .next (s.faulted 17)) ∧
    (k < s.par.ncb → Table.find s.books k = none →
      (sel = 0 → exec (.hufInfo rd rs1 imm) s = .next ((s.setX rd 0).ended 0)) ∧
      (sel ≠ 0 → sel < 10 → exec (.hufInfo rd rs1 imm) s = .next (s.faulted 21)) ∧
      exec (.hufCode rd rs1 rs2) s = .next (s.faulted 21) ∧
      exec (.hufLut rd rs1 rs2) s = .next (s.faulted 21)) ∧
    (∀ b, k < s.par.ncb → Table.find s.books k = some b →
      let used := b.codes.filterMap id
      (∀ p ∈ [(0, 1), (1, b.codes.length), (2, b.dim), (3, (used.map Code.len).foldl max 0),
          (4, (used.map Code.len).foldl min ((used.map Code.len).foldl max 0)),
          (5, min ((used.map Code.len).foldl max 0) 10), (6, b.chain.length), (7, (b.chain.map b.len).foldl max 0),
          (8, match b.mapType with | .noTable => 0 | .lattice => 1 | .direct => 2), (9, used.length)],
        sel = p.1 → exec (.hufInfo rd rs1 imm) s = .next ((s.setX rd (BitVec.ofNat 64 p.2)).ended 0)) ∧
      (b.codes.length ≤ e → exec (.hufCode rd rs1 rs2) s = .next (s.faulted 17)) ∧
      (∀ c, b.codes[e]? = some (some c) → c.len < 2 ^ 32 → exec (.hufCode rd rs1 rs2) s =
        .next ((s.setX rd (BitVec.ofNat 64 (c.len * 2 ^ 32 + c.code.toNat))).ended 0)) ∧
      (b.codes[e]? = some none → exec (.hufCode rd rs1 rs2) s = .next ((s.setX rd 0).ended 0)) ∧
      (b.mapType = .noTable → exec (.hufLut rd rs1 rs2) s = .next (s.faulted 21)) ∧
      (b.mapType ≠ .noTable →
        (b.codes.length * b.dim ≤ e → exec (.hufLut rd rs1 rs2) s = .next (s.faulted 17)) ∧
        (e < b.codes.length * b.dim → exec (.hufLut rd rs1 rs2) s =
          .next ((s.setX rd ((b.lut.getD e 0).setWidth 64)).ended 0))))

/-- R183, R184, R187: HUF.VQ. The fault checks in order; then the table is taken away and the dependents are invalid; map type 0
ends OK, a malformed descriptor ends MALFORMED_SETUP and leaves the code without a table, a good one fills the table. -/
def Obligations.LookupBuild : Prop :=
  ∀ (s : State) (rs1 rs2 : Reg),
    let k := (s.x rs1).toNat
    let a := (s.x rs2).toNat
    (s.par.ncb ≤ k → exec (.hufVq rs1 rs2) s = .next (s.faulted 17)) ∧
    (k < s.par.ncb → s.par.dmWords ≤ a + 4 → exec (.hufVq rs1 rs2) s = .next (s.faulted 20)) ∧
    (k < s.par.ncb → a + 4 < s.par.dmWords → s.known (a + 4) →
      let nmult := s.word (a + 4)
      (s.par.dmWords < a + 5 + nmult → exec (.hufVq rs1 rs2) s = .next (s.faulted 20)) ∧
      (a + 5 + nmult ≤ s.par.dmWords →
        (Table.find s.books k = none → exec (.hufVq rs1 rs2) s = .next (s.faulted 21)) ∧
        ∀ b, Table.find s.books k = some b →
          let dropped : State := { s with
            books := Table.put s.books k { b with mapType := .noTable, lut := [] }
            residues := s.residues.filter fun c => !c.2.names k }
          let bad : State := { dropped with flags := s.flags ||| 0x10, status := 8 }
          s.known a →
          (s.word a = 0 → exec (.hufVq rs1 rs2) s = .next (dropped.ended 0)) ∧
          ((2 < s.word a ∨ (s.word a = 2 ∧ s.par.mapType2 = false)) → exec (.hufVq rs1 rs2) s = .next bad) ∧
          (s.known (a + 3) → s.word a ≠ 0 →
            (1 < s.word (a + 3) ∨ (s.word a = 1 ∧ nmult ≠ lookup1Values b.entries b.dim) ∨
              (s.word a = 2 ∧ nmult ≠ b.entries * b.dim)) → exec (.hufVq rs1 rs2) s = .next bad) ∧
          ((∀ j, j < 5 + nmult → s.known (a + j)) →
            ∀ lattice : Bool,
              (lattice = true → s.word a = 1 ∧ nmult = lookup1Values b.entries b.dim) →
              (lattice = false → s.word a = 2 ∧ s.par.mapType2 = true ∧ nmult = b.entries * b.dim) →
              s.word (a + 3) ≤ 1 →
              let q : VqSpec :=
                { lattice := lattice
                  minValue := BitVec.ofNat 32 (s.word (a + 1))
                  delta := BitVec.ofNat 32 (s.word (a + 2))
                  sequential := decide (s.word (a + 3) = 1)
                  mult := (List.range nmult).map fun i => BitVec.ofNat 32 (s.word (a + 5 + i)) }
              exec (.hufVq rs1 rs2) s = .next { dropped with
                books := Table.put dropped.books k
                  { b with mapType := (if lattice then .lattice else .direct), lut := q.table b.entries b.dim }
                status := 0 })))

/-- R185, R186: the number of lattice multiplicands is the largest v with v^dim at most the entry count; each table element is
the multiplicand times delta, plus the minimum, plus the element before it (in the sequential case), each rounded. -/
def Obligations.LookupElements : Prop :=
  (∀ entries dim : Nat, 1 ≤ dim → lookup1Values entries dim ^ dim ≤ entries ∧ entries < (lookup1Values entries dim + 1) ^ dim) ∧
  ∀ (q : VqSpec) (entries dim e d : Nat), e < entries → d < dim →
    let lut := q.table entries dim
    let lv := lookup1Values entries dim
    let mi := if q.lattice then (e / lv ^ d) % lv else e * dim + d
    let last : Word32 := if q.sequential = true ∧ 0 < d then lut.getD (e * dim + d - 1) 0 else 0
    lut.length = entries * dim ∧
    lut.getD (e * dim + d) 0 =
      F32.add (F32.add (F32.mul (F32.ofNat (q.mult.getD mi 0).toNat) q.delta) q.minValue) last

/-- R194, R74: a HUF.BUILD or a HUF.VQ on slot k that ends without a fault makes exactly the residue slots that name k invalid;
one that ends with a fault changes none. -/
def Obligations.DependentsInvalid : Prop :=
  ∀ (s t : State) (i : Instr) (rs1 rs2 : Reg), s.Canonical → (i = .hufBuild rs1 rs2 ∨ i = .hufVq rs1 rs2) →
    exec i s = .next t → ∀ r,
      (16 ≤ t.status.toNat → Table.find t.residues r = Table.find s.residues r) ∧
      (t.status.toNat < 16 → Table.find t.residues r =
        match Table.find s.residues r with
        | none => none
        | some res => if res.names (s.x rs1).toNat then none else some res)

/-! ### Residues -/

/-- R201, R202, R204: RES.SETUP. The fault checks; then the slot is invalid; a malformed descriptor, by any cause of R202, ends
MALFORMED_SETUP; a good one fills the slot with its words. `w j` is the descriptor's word j; a stage book's word is looked at
only where its cascade bit is set. -/
def Obligations.ResidueSetup : Prop :=
  ∀ (s : State) (rs1 rs2 : Reg),
    let r := (s.x rs1).toNat
    let a := (s.x rs2).toNat
    let w (j : Nat) : Nat := s.word (a + j)
    let ncls := w 3
    let closed : State := { s with residues := Table.erase s.residues r }
    let stage (c st : Nat) : Prop := c < ncls ∧ st < 8 ∧ (w (5 + c)).testBit st = true
    let bookWord (c st : Nat) : Nat := w (5 + ncls + 8 * c + st)
    (s.par.nres ≤ r → exec (.resSetup rs1 rs2) s = .next (s.faulted 17)) ∧
    (r < s.par.nres → s.par.dmWords ≤ a + 4 → exec (.resSetup rs1 rs2) s = .next (s.faulted 20)) ∧
    (r < s.par.nres → a + 4 < s.par.dmWords → s.known (a + 3) → 1 ≤ ncls → ncls ≤ 64 →
      s.par.dmWords < a + 5 + 9 * ncls → exec (.resSetup rs1 rs2) s = .next (s.faulted 20)) ∧
    (r < s.par.nres → a + 4 < s.par.dmWords → (∀ j, j < 5 → s.known (a + j)) →
      (1 ≤ ncls → ncls ≤ 64 → a + 5 + 9 * ncls ≤ s.par.dmWords ∧ (∀ c, c < ncls → s.known (a + (5 + c))) ∧
        ∀ c st, stage c st → s.known (a + (5 + ncls + 8 * c + st))) →
      let malformed : Prop :=
        w 1 < w 0 ∨ w 2 = 0 ∨ ncls = 0 ∨ 64 < ncls ∨ s.par.ncb ≤ w 4 ∨ Table.find s.books (w 4) = none ∨
        (∃ c, c < ncls ∧ 255 < w (5 + c)) ∨
        ∃ c st, stage c st ∧ (s.par.ncb ≤ bookWord c st ∨ Table.find s.books (bookWord c st) = none ∨
          ∃ b, Table.find s.books (bookWord c st) = some b ∧ b.mapType = .noTable)
      (malformed → exec (.resSetup rs1 rs2) s = .next { closed with flags := s.flags ||| 0x10, status := 8 }) ∧
      (¬ malformed → ∃ res cb, Table.find s.books (w 4) = some cb ∧
        exec (.resSetup rs1 rs2) s =
          .next { closed with residues := Table.put (Table.erase s.residues r) r res, status := 0 } ∧
        res.beginAt.toNat = w 0 ∧ res.endAt.toNat = w 1 ∧ res.psize.toNat = w 2 ∧ res.ncls = ncls ∧
        res.classbook = w 4 ∧ res.cw = cb.dim ∧
        (∀ (c : Nat) (k : Cascade), res.classes[c]? = some k → k.mask.toNat = w (5 + c)) ∧
        (∀ c st, stage c st → res.stageBook c st = some (bookWord c st)) ∧
        (∀ c st, ¬ stage c st → res.stageBook c st = none)))

/-- R203, R206, R207, R208: the decode map (the digits of an index in base `ncls`, most significant first, an index beyond `cw`
digits losing its upper part); the geometry; the order of the pieces: stages, groups, on stage 0 the class codewords in channel
order, then partitions with the channels innermost; the first failed codeword ends the decode. What each piece does is
ResiduePieces, what one vector does VectorAdd. -/
def Obligations.ResidueSchedule : Prop :=
  (∀ (res : Residue) (i : Nat), 0 < res.ncls →
    (∀ pos, res.digit i pos < res.ncls) ∧
    (∀ pos, pos < res.cw → res.digit i pos = (i / res.ncls ^ (res.cw - 1 - pos)) % res.ncls) ∧
    (∑ pos ∈ Finset.range res.cw, res.digit i pos * res.ncls ^ (res.cw - 1 - pos)) = i % res.ncls ^ res.cw) ∧
  ∀ (res : Residue) (job : ResJob) (s : State),
    job.vlen = (if job.interleaved then job.n * job.ch else job.n) ∧
    limEnd res job = min res.endAt.toNat job.vlen ∧
    limBegin res job = min res.beginAt.toNat (limEnd res job) ∧
    nparts res job = (limEnd res job - limBegin res job) / res.psize.toNat ∧
    ((∀ f ∈ job.skip, f = true) → resDecode res job s = .ok { st := s, cnt := 0, cls := [] }) ∧
    ((∃ f ∈ job.skip, f = false) → resDecode res job s =
      loopOver (ResEvent.run res job) (schedule res job) { st := s, cnt := 0, cls := [] })

/-- R207, R208, R209, R211: what the pieces of a residue decode do. A class codeword: INVALID or short, it ends the decode with
no digit stored; else the digits of its entry classify the partitions of the group in that channel, those at or beyond `nparts`
dropped, and every other digit stays. A partition of a channel: nothing where its class has no book at the stage; else
`psize / dim` vectors of the stage book, one after the other from `lim_begin + p * psize` on, the first failure ending it. -/
def Obligations.ResiduePieces : Prop :=
  (∀ (res : Residue) (parts p c : Nat) (r : ResRun) (b : Codebook), Table.find r.st.books res.classbook = some b →
    let t := (r.st.hufDecode b).1
    let run := classify res parts p c r
    ((r.st.hufDecode b).2 = .invalid → run = .error (.invalid { r with st := t })) ∧
    (∀ e, (r.st.hufDecode b).2 = .entry e false → run = .error (.short { r with st := t })) ∧
    (∀ e, (r.st.hufDecode b).2 = .entry e true → ∃ cls, run = .ok { r with st := t, cls := cls } ∧
      (∀ pos, pos < res.cw → p + pos < parts →
        Table.find cls (digitKey parts c (p + pos)) = some (res.digit e pos)) ∧
      (∀ j q, q < parts → ¬ (j = c ∧ p ≤ q ∧ q < p + res.cw) →
        Table.find cls (digitKey parts j q) = Table.find r.cls (digitKey parts j q)))) ∧
  (∀ (res : Residue) (job : ResJob) (st p c cls : Nat) (r : ResRun),
    Table.find r.cls (digitKey (nparts res job) c p) = some cls →
    let off := limBegin res job + p * res.psize.toNat
    (res.stageBook cls st = none → decodeChannel res job st p c r = .ok r) ∧
    (∀ k b, res.stageBook cls st = some k → Table.find r.st.books k = some b →
      decodeChannel res job st p c r =
        (List.range (res.psize.toNat / b.dim)).foldl (fun run t => run.bind (addVector job k c (off + t * b.dim))) (.ok r)))

/-- R209, R210, R211: one vector. A codeword of the stage book is decoded; an INVALID or short one ends the decode with
nothing added; else the entry's `dim` table values are added, each rounded, to the words the variant's address rule gives for
consecutive indices, one more vector is counted, and no other word of DM changes. -/
def Obligations.VectorAdd : Prop :=
  ∀ (job : ResJob) (k c at0 : Nat) (r : ResRun) (b : Codebook), Table.find r.st.books k = some b →
    (∀ j i, j < b.dim → i < b.dim → job.address c (at0 + i) = job.address c (at0 + j) → i = j) →
    (∀ i, i < b.dim → r.st.known (job.address c (at0 + i))) →
    let t := (r.st.hufDecode b).1
    (∀ idx, job.interleaved = false → job.address c idx = job.bufs.getD c 0 + idx) ∧
    (∀ idx, job.interleaved = true → job.address c idx = job.bufs.getD (idx % job.ch) 0 + idx / job.ch) ∧
    ((r.st.hufDecode b).2 = .invalid → addVector job k c at0 r = .error (.invalid { r with st := t })) ∧
    (∀ e, (r.st.hufDecode b).2 = .entry e false → addVector job k c at0 r = .error (.short { r with st := t })) ∧
    (∀ e, (r.st.hufDecode b).2 = .entry e true → ∃ m, addVector job k c at0 r =
        .ok { r with st := { t with dm := m }, cnt := r.cnt + 1 } ∧
      (∀ i w, i < b.dim → Memory.read r.st.dm (job.address c (at0 + i)) = some w →
        Memory.read m (job.address c (at0 + i)) = some (F32.add w (b.lut.getD (e * b.dim + i) 0))) ∧
      (∀ a, (∀ i, i < b.dim → a ≠ job.address c (at0 + i)) → Memory.read m a = Memory.read r.st.dm a))

/-- R205, R211, R212, R213, R215: RES.DEC. The checks in order; overlapping regions are refused (U3); else, with the slot's
codebooks ready and the buffers' words known, it completes, with OK, SHORT or INVALID_DATA, x[rd] the vector count, and it
changes the buffers, BC_POS, BC_SHORT, BC_CNT, x[rd], STATUS and FLAGS alone; with every channel flagged it does nothing. -/
def Obligations.ResidueDecode : Prop :=
  ∀ (s : State) (rd rs1 rs2 : Reg),
    let r := (s.x rs1).toNat
    let a := (s.x rs2).toNat
    let variant := s.word a
    let ch := s.word (a + 1)
    let n := s.word (a + 2)
    let buf (j : Nat) : Nat := s.word (a + 3 + 2 * j)
    let dnd (j : Nat) : Nat := s.word (a + 4 + 2 * j)
    let job : ResJob := { interleaved := decide (variant = 1), n := n, bufs := (List.range ch).map buf,
                          skip := (List.range ch).map fun j => decide (dnd j = 1) }
    (s.par.nres ≤ r → exec (.resDec rd rs1 rs2) s = .next (s.faulted 17)) ∧
    (r < s.par.nres → s.par.dmWords ≤ a + 2 → exec (.resDec rd rs1 rs2) s = .next (s.faulted 20)) ∧
    (r < s.par.nres → a + 2 < s.par.dmWords → s.known a → s.known (a + 1) → s.known (a + 2) →
      ((1 < variant ∨ ch = 0 ∨ s.par.maxCh < ch) → exec (.resDec rd rs1 rs2) s = .next (s.faulted 17)) ∧
      (variant ≤ 1 → 1 ≤ ch → ch ≤ s.par.maxCh →
        (s.par.dmWords < a + 3 + 2 * ch → exec (.resDec rd rs1 rs2) s = .next (s.faulted 20)) ∧
        (a + 3 + 2 * ch ≤ s.par.dmWords → (∀ j, j < 2 * ch → s.known (a + 3 + j)) →
          ((∃ j, j < ch ∧ 1 < dnd j) → exec (.resDec rd rs1 rs2) s = .next (s.faulted 17)) ∧
          ((∀ j, j < ch → dnd j ≤ 1) →
            (Table.find s.residues r = none → exec (.resDec rd rs1 rs2) s = .next (s.faulted 21)) ∧
            ∀ res, Table.find s.residues r = some res →
              ((∃ j, j < ch ∧ s.par.dmWords < buf j + n) → exec (.resDec rd rs1 rs2) s = .next (s.faulted 20)) ∧
              ((∀ j, j < ch → buf j + n ≤ s.par.dmWords) →
                let regions := (a, 3 + 2 * ch) :: (List.range ch).map fun j => (buf j, n)
                (disjointRegions regions = false → exec (.resDec rd rs1 rs2) s = .refused .overlap) ∧
                (disjointRegions regions = true →
                  exec (.resDec rd rs1 rs2) s = endResDec rd (resDecode res job s) ∧
                  ((∀ j, j < ch → dnd j = 1) → exec (.resDec rd rs1 rs2) s = .next ((s.setX rd 0).ended 0)) ∧
                  (s.ResiduesReady → (∀ j i, j < ch → (variant = 1 ∨ dnd j = 0) → i < n → s.known (buf j + i)) →
                  ∃ (cnt : Nat) (m : Memory) (pos : Word) (short : Bool) (cnt' : BitVec 7) (flags status : BitVec 8),
                    exec (.resDec rd rs1 rs2) s = .next (State.setX { s with
                      dm := m, flags := flags, status := status,
                      bc := { ranges := s.bc.ranges, pos := pos, short := short, cnt := cnt' } }
                      rd (BitVec.ofNat 64 cnt)) ∧
                    ((status = 0 ∧ flags = s.flags ∧ short = s.bc.short) ∨
                     (status = 2 ∧ flags = s.flags ||| 0x01 ∧ short = true ∧ pos = BitVec.ofNat 64 s.bcTotal) ∨
                     (status = 3 ∧ flags = s.flags ||| 0x02 ∧ short = s.bc.short)) ∧
                    ∀ b, (∀ j, j < ch → (variant = 1 ∨ dnd j = 0) → ¬ (buf j ≤ b ∧ b < buf j + n)) →
                      Memory.read m b = Memory.read s.dm b)))))))

/-! ### MDCT -/

/-- R220, R221, R222, R224: MDCT.INIT and MDCT.REV. The first n/2 words are the spectrum, all n words are written in place with
the samples of the free function `imdct`, whatever it gives (log entry 6), and no other word changes. -/
def Obligations.MdctCommands : Prop :=
  ∀ (s : State) (rd rs1 : Reg) (slot : Imm),
    let n := (s.x rs1).toNat
    let one : Bool := slot.getLsbD 0
    let size : Nat := if one then s.mdct.n1.toNat else s.mdct.n0.toNat
    ((¬ ∃ j, s.par.blkMinLog2 ≤ j ∧ j ≤ s.par.blkMaxLog2 ∧ n = 2 ^ j) →
      exec (.mdctInit rs1 slot) s = .next (s.faulted 17)) ∧
    (∀ j, s.par.blkMinLog2 ≤ j → j ≤ s.par.blkMaxLog2 → n = 2 ^ j → exec (.mdctInit rs1 slot) s =
      .next { s with
        mdct := (if one then { s.mdct with n1 := BitVec.ofNat 14 n } else { s.mdct with n0 := BitVec.ofNat 14 n }),
        status := 0 }) ∧
    (size = 0 → exec (.mdctRev rd rs1 slot) s = .next (s.faulted 21)) ∧
    (size ≠ 0 → s.par.dmWords < n + size → exec (.mdctRev rd rs1 slot) s = .next (s.faulted 20)) ∧
    (size ≠ 0 → n + size ≤ s.par.dmWords → (∀ k, k < size / 2 → s.known (n + k)) →
      let spectrum : List Word32 := (List.range (size / 2)).map fun k => BitVec.ofNat 32 (s.word (n + k))
      let out := Memory.writeList s.dm n ((List.range size).map (Config.imdct size spectrum))
      exec (.mdctRev rd rs1 slot) s = .next (State.ended (State.setX { s with dm := out } rd (s.x rs1)) 0) ∧
      (∀ i, i < size → Memory.read out (n + i) = some (Config.imdct size spectrum i)) ∧
      (∀ b, b < n ∨ n + size ≤ b → Memory.read out b = Memory.read s.dm b))

/-! ### OLA -/

/-- R230, R231: OLA.CFG. -/
def Obligations.OlaConfigure : Prop :=
  ∀ (s : State) (rs1 rs2 : Reg) (imm : Imm),
    let b0 := (s.x rs1).toNat
    let b1 := (s.x rs2).toNat
    let ch := imm.toNat % 256
    let legal (n : Nat) : Prop := ∃ j, s.par.blkMinLog2 ≤ j ∧ j ≤ s.par.blkMaxLog2 ∧ n = 2 ^ j
    let good : Prop := ch ≠ 0 ∧ ch ≤ s.par.maxCh ∧ legal b0 ∧ legal b1 ∧ b0 ≤ b1
    (¬ good → exec (.olaCfg rs1 rs2 imm) s = .next (s.faulted 17)) ∧
    (good → exec (.olaCfg rs1 rs2 imm) s = .next { s with
      ola := { ch := BitVec.ofNat 8 ch, b0 := BitVec.ofNat 14 b0, b1 := BitVec.ofNat 14 b1, prev := 0 }
      modes := []
      ring := { buf := [], start := 0, valid := 0, endAt := 0, cap := BitVec.ofNat 32 (max s.ring.cap.toNat b1) }
      status := 0 })

/-- R232, R233, R246: OLA.MODE builds one window for a short mode and four for a long one, OLA.WIN reads one value; a window is
zeros, the rising slope, ones, the falling slope mirrored, zeros. The slope is the default sine or, when the launch chose
another, a free value (log entry 5). -/
def Obligations.ModesAndWindows : Prop :=
  (∀ (s : State) (rd rs1 rs2 : Reg) (imm : Imm),
    let m := (s.x rs1).toNat
    let i := (s.x rs2).toNat
    let w := imm.toNat % 4
    let b0 := s.ola.b0.toNat
    let b1 := s.ola.b1.toNat
    let long : Bool := imm.getLsbD 0
    let side (bit : Bool) : Nat := if bit then b1 / 2 else b0 / 2
    (s.par.nmode ≤ m → exec (.olaMode rs1 imm) s = .next (s.faulted 17) ∧
      exec (.olaWin rd rs1 rs2 imm) s = .next (s.faulted 17)) ∧
    (m < s.par.nmode → s.ola.ch = 0 → exec (.olaMode rs1 imm) s = .next (s.faulted 21)) ∧
    (m < s.par.nmode → s.ola.ch ≠ 0 → exec (.olaMode rs1 imm) s = .next { s with
      modes := Table.put s.modes m
        (if long then { long := true, n := b1,
                        windows := (List.range 4).map fun w => window s.par.sine b1 (side (w.testBit 0)) (side (w.testBit 1)) }
         else { long := false, n := b0, windows := [window s.par.sine b0 (b0 / 2) (b0 / 2)] })
      status := 0 }) ∧
    (m < s.par.nmode → Table.find s.modes m = none → exec (.olaWin rd rs1 rs2 imm) s = .next (s.faulted 21)) ∧
    (∀ mode, m < s.par.nmode → Table.find s.modes m = some mode →
      ((mode.windows.length ≤ w ∨ mode.n ≤ i) → exec (.olaWin rd rs1 rs2 imm) s = .next (s.faulted 17)) ∧
      (w < mode.windows.length → i < mode.n → exec (.olaWin rd rs1 rs2 imm) s =
        .next ((s.setX rd (((mode.windows.getD w []).getD i 0).setWidth 64)).ended 0)))) ∧
  ∀ (sine : SineUnit) (n left right i : Nat), i < n →
    let lb := n / 4 - left / 2
    let rb := n - n / 4 - right / 2
    let v := (window sine n left right).getD i 0
    (window sine n left right).length = n ∧
    (i < lb → v = 0) ∧
    (lb ≤ i → i < lb + left → v = slope sine (i - lb) left) ∧
    (lb + left ≤ i → i < rb → v = 0x3F800000) ∧
    (lb + left ≤ i → rb ≤ i → i < rb + right → v = slope sine (right - 1 - (i - rb)) right) ∧
    (lb + left ≤ i → rb + right ≤ i → v = 0)

/-- R236 to R240, R271: OLA.ADD. The checks in order; the block lands by R237; every sample at or above RB_VALID gets the
rounded product added and rounded, those below are dropped, every other sample and all of DM stay; the cursors, the capacity,
the previous size and the finished count. -/
def Obligations.OverlapAdd : Prop :=
  ∀ (s : State) (rd rs1 rs2 : Reg) (imm : Imm),
    let m := (s.x rs1).toNat
    let a := (s.x rs2).toNat
    let w := imm.toNat % 4
    let ch := s.ola.ch.toNat
    let buf (j : Nat) : Nat := s.word (a + 2 * j)
    let energy (j : Nat) : Nat := s.word (a + 2 * j + 1)
    let p := s.ola.prev.toNat
    let V := s.ring.valid
    let cmd : Instr := .olaAdd rd rs1 rs2 imm
    (s.par.nmode ≤ m → exec cmd s = .next (s.faulted 17)) ∧
    (m < s.par.nmode → (ch = 0 ∨ Table.find s.modes m = none) → exec cmd s = .next (s.faulted 21)) ∧
    ∀ mode, m < s.par.nmode → ch ≠ 0 → Table.find s.modes m = some mode →
      let n := mode.n
      let st : Int := if p = 0 then (V : Int) - (n / 2 : Nat) else (V : Int) + (p / 4 : Nat) - (n / 4 : Nat)
      let V' : Nat := if p = 0 then V else V + p / 4 + n / 4
      let need : Int := st + n - s.ring.start
      (mode.long = false → w ≠ 0 → exec cmd s = .next (s.faulted 17)) ∧
      ((mode.long = true ∨ w = 0) →
        (s.par.dmWords < a + 2 * ch → exec cmd s = .next (s.faulted 20)) ∧
        (a + 2 * ch ≤ s.par.dmWords → (∀ j, j < 2 * ch → s.known (a + j)) →
          ((∃ j, j < ch ∧ 1 < energy j) → exec cmd s = .next (s.faulted 17)) ∧
          ((∀ j, j < ch → energy j ≤ 1) →
            ((∃ j, j < ch ∧ energy j = 1 ∧ s.par.dmWords < buf j + n) → exec cmd s = .next (s.faulted 20)) ∧
            ((∀ j, j < ch → energy j = 1 → buf j + n ≤ s.par.dmWords) →
              (s.par.rbMax < need → exec cmd s = .next (s.faulted 24)) ∧
              (need ≤ s.par.rbMax →
                (∀ j i, j < ch → energy j = 1 → i < n → V ≤ st + i → s.known (buf j + i)) →
                ∃ ring : Machine.Ring, exec cmd s = .next (State.ended (State.setX
                    { s with ring := ring, ola := { s.ola with prev := BitVec.ofNat 14 n } }
                    rd (BitVec.ofNat 64 (V' - V))) 0) ∧
                  ring.start = s.ring.start ∧ ring.valid = V' ∧
                  ring.endAt = max s.ring.endAt (st + n).toNat ∧
                  ring.cap = BitVec.ofNat 32 (max s.ring.cap.toNat need.toNat) ∧
                  ∀ c t : Nat, c < 256 → ring.read c t =
                    if c < ch ∧ energy c = 1 ∧ V ≤ t ∧ st ≤ t ∧ (t : Int) < st + n then
                      F32.add (s.ring.read c t)
                        (F32.mul ((mode.windows.getD w []).getD ((t : Int) - st).toNat 0)
                          (BitVec.ofNat 32 (s.word (buf c + ((t : Int) - st).toNat))))
                    else s.ring.read c t)))))

/-- R241, R242, R245: OLA.RD, OLA.DISC and OLA.RESET: the finished frames go out interleaved by channel and become +0.0, the
start cursor passes them; a discard drops them; a reset clears the unfinished samples and forgets the previous block. -/
def Obligations.RingDrain : Prop :=
  ∀ (s : State) (rd rs1 rs2 : Reg),
    let ch := s.ola.ch.toNat
    let dst := (s.x rs1).toNat
    let finished := s.ring.valid - s.ring.start
    let k := min (s.x rs2).toNat finished
    let d := min (s.x rs1).toNat finished
    let dropped (j : Nat) : Machine.Ring := { s.ring.clear s.ring.start (s.ring.start + j) with start := s.ring.start + j }
    let out := Memory.writeList s.dm dst
      ((List.range k).flatMap fun f => (List.range ch).map fun c => s.ring.read c (s.ring.start + f))
    (s.ola.ch = 0 → exec (.olaRd rd rs1 rs2) s = .next (s.faulted 21) ∧
      exec (.olaDisc rd rs1) s = .next (s.faulted 21)) ∧
    (s.ola.ch ≠ 0 →
      (s.par.dmWords < dst + k * ch → exec (.olaRd rd rs1 rs2) s = .next (s.faulted 20)) ∧
      (dst + k * ch ≤ s.par.dmWords →
        exec (.olaRd rd rs1 rs2) s = .next (State.ended (State.setX
          { s with dm := out, ring := dropped k } rd (BitVec.ofNat 64 k)) 0) ∧
        (∀ f c, f < k → c < ch → Memory.read out (dst + f * ch + c) = some (s.ring.read c (s.ring.start + f))) ∧
        (∀ b, b < dst ∨ dst + k * ch ≤ b → Memory.read out b = Memory.read s.dm b)) ∧
      exec (.olaDisc rd rs1) s = .next (State.ended (State.setX
        { s with ring := dropped d } rd (BitVec.ofNat 64 d)) 0)) ∧
    exec .olaReset s = .next { s with
      ring := s.ring.clear s.ring.valid s.ring.endAt, ola := { s.ola with prev := 0 }, status := 0 } ∧
    (∀ lo hi c t, c < 256 → (s.ring.clear lo hi).read c t = if lo ≤ t ∧ t < hi then 0 else s.ring.read c t)

/-- R247, R248: OLA.CPL, and the four cases of the coupling rule with the IEEE comparison; with an angle of zero the result is
(M, M). Overlapping buffers are refused (U3). -/
def Obligations.InverseCoupling : Prop :=
  (∀ (s : State) (rs1 : Reg),
    let a := (s.x rs1).toNat
    let mag := s.word a
    let ang := s.word (a + 1)
    let cnt := s.word (a + 2)
    (s.par.dmWords ≤ a + 2 → exec (.olaCpl rs1) s = .next (s.faulted 20)) ∧
    (a + 2 < s.par.dmWords → s.known a → s.known (a + 1) → s.known (a + 2) →
      ((s.par.dmWords < mag + cnt ∨ s.par.dmWords < ang + cnt) → exec (.olaCpl rs1) s = .next (s.faulted 20)) ∧
      (mag + cnt ≤ s.par.dmWords → ang + cnt ≤ s.par.dmWords →
        (disjointRegions [(a, 3), (mag, cnt), (ang, cnt)] = false → exec (.olaCpl rs1) s = .refused .overlap) ∧
        (disjointRegions [(a, 3), (mag, cnt), (ang, cnt)] = true →
          (∀ i, i < cnt → s.known (mag + i) ∧ s.known (ang + i)) →
          ∃ m, exec (.olaCpl rs1) s = .next { s with dm := m, status := 0 } ∧
            (∀ i M A, i < cnt → Memory.read s.dm (mag + i) = some M → Memory.read s.dm (ang + i) = some A →
              Memory.read m (mag + i) = some (uncouple M A).1 ∧ Memory.read m (ang + i) = some (uncouple M A).2) ∧
            (∀ b, ¬ (mag ≤ b ∧ b < mag + cnt) → ¬ (ang ≤ b ∧ b < ang + cnt) →
              Memory.read m b = Memory.read s.dm b))))) ∧
  (∀ a : Word32, F32.gtZero a = true ↔
    F32.decode a = .inf false ∨ (F32.isFinite a = true ∧ 0 < F32.value a)) ∧
  (∀ M A : Word32,
    (F32.gtZero M = true → F32.gtZero A = true → uncouple M A = (M, F32.sub M A)) ∧
    (F32.gtZero M = true → F32.gtZero A = false → uncouple M A = (F32.add M A, M)) ∧
    (F32.gtZero M = false → F32.gtZero A = true → uncouple M A = (M, F32.add M A)) ∧
    (F32.gtZero M = false → F32.gtZero A = false → uncouple M A = (F32.sub M A, M)) ∧
    (F32.isFinite M = true → F32.isFinite A = true → F32.value A = 0 →
      F32.value (uncouple M A).1 = F32.value M ∧ (uncouple M A).2 = M))

/-! ### Rules about the whole machine -/

/-- R262, R280, R282: a command that ends with a fault has changed nothing except STATUS, which has the code, and FLAGS.FAULT. -/
def Obligations.FaultsChangeNothing : Prop :=
  ∀ (i : Instr) (s t : State), exec i s = .next t → 16 ≤ t.status.toNat → t = s.faulted t.status

/-- R25, R26, R260: every command ends with one of the listed codes; a fault code sets FLAGS.FAULT and nothing else there; a
condition with a sticky bit has set it; only SYS.RESET and SYS.CSRW clear sticky bits, and a command sets only its own. -/
def Obligations.StatusAndFlags : Prop :=
  ∀ (i : Instr) (s t : State), exec i s = .next t →
    t.status.toNat ∈ [0, 1, 2, 3, 4, 5, 8, 9, 16, 17, 18, 19, 20, 21, 24, 25] ∧
    (16 ≤ t.status.toNat → t.flags = s.flags ||| 0x80) ∧
    (i.clearsFlags = false → s.flags &&& t.flags = s.flags) ∧
    (i.clearsFlags = false → t.status.toNat < 16 → t.flags &&& ~~~ s.flags &&& ~~~ i.flagsSet = 0) ∧
    (t.status = 1 → t.flags &&& 0x08 = 0x08) ∧ (t.status = 2 → t.flags &&& 0x01 = 0x01) ∧
    (t.status = 3 → t.flags &&& 0x02 = 0x02) ∧ (t.status = 5 → t.flags &&& 0x40 = 0x40) ∧
    (t.status = 8 → t.flags &&& 0x10 = 0x10) ∧ (t.status = 9 → t.flags &&& 0x20 = 0x20)

/-- R20, R61: a command writes no register but the rd its rule says it writes (SYS.RESET apart, which clears them all), and no
command changes SRC, the launch parameters or what the host has pending. -/
def Obligations.RegisterFrame : Prop :=
  ∀ (i : Instr) (s t : State), exec i s = .next t →
    t.src = s.src ∧ t.par = s.par ∧ t.port = s.port ∧
    (i.isReset = false → ∀ r, i.dest ≠ some r → t.x r = s.x r)

/-- R132: who moves the bit cursor. BC_POS is changed only by BC.CLR, BC.RESET, BC.SKIP, BC.READ, BC.RDVF, HUF.DEC, HUF.DECV and
RES.DEC, and by a reset; the ranges only by BC.CLR, BC.ADDR and a reset. -/
def Obligations.BitCursorMovers : Prop :=
  ∀ (i : Instr) (s t : State), exec i s = .next t →
    (i.movesBits = false → t.bc.pos = s.bc.pos ∧ t.bc.short = s.bc.short) ∧
    (i.bindsRanges = false → t.bc.ranges = s.bc.ranges) ∧
    (i.movesBits = false → (∀ rd rs1 imm, i ≠ .bcPeek rd rs1 imm) → t.bc.cnt = s.bc.cnt)

/-- R28, R31, R34 to R48, R146, R243: each table memory and each cursor is changed only by its own unit's commands and by a
reset: CRC_ACC, SRC_POS with the latch, WASTE, the lock, the page record with the registry, codebooks, residues, MDCT slots, OLA
configuration with modes, ring. -/
def Obligations.UnitFrames : Prop :=
  ∀ (i : Instr) (s t : State), exec i s = .next t →
    (i.writesCrc = false → t.crcAcc = s.crcAcc) ∧
    (i.movesSource = false → t.srcPos = s.srcPos ∧ t.dead = s.dead) ∧
    (i.writesPage = false → (∀ rs1 csr, i ≠ .sysCsrw rs1 csr) → t.waste = s.waste) ∧
    (i.writesLock = false → t.lock = s.lock) ∧
    (i.writesPage = false → t.page = s.page ∧ t.streams = s.streams) ∧
    (i.writesBooks = false → t.books = s.books) ∧
    (i.writesResidues = false → t.residues = s.residues) ∧
    (i.writesMdct = false → t.mdct = s.mdct) ∧
    (i.writesOla = false → t.ola = s.ola ∧ t.modes = s.modes) ∧
    (i.writesRing = false → t.ring = s.ring)

/-- R62, R107, R188, R212, R222, R241, R247: the DM frame. A command changes no word outside the regions it stores to, computed
as its meaning computes them; most commands store to none. -/
def Obligations.DmFrame : Prop :=
  ∀ (i : Instr) (s t : State), exec i s = .next t →
    (i.storesDm = false → t.dm = s.dm) ∧
    ∀ b, (∀ r ∈ s.storeRegions i, ¬ (r.1 ≤ b ∧ b < r.1 + r.2)) → Memory.read t.dm b = Memory.read s.dm b

/-- R62, R269, R61: a command stops outside the rules only on a DM word below DM_WORDS that nothing has written (U2), or where
the spec refuses (U3, U4); a residue setup never meets a codebook slot that is not valid (R194, R202). -/
def Obligations.StopsAreNamed : Prop :=
  ∀ (i : Instr) (s : State), s.ResiduesReady →
    (∀ f, exec i s = .fault f → ∃ a, f = .dmUnwritten a ∧ a < s.par.dmWords ∧ Memory.read s.dm a = none) ∧
    (∀ f, exec i s = .refused f →
      (f = .overlap ∧ ((∃ rd rs1 rs2, i = .resDec rd rs1 rs2) ∨ ∃ rs1, i = .olaCpl rs1)) ∨
      (f = .bitTotal ∧ ∃ rs1 rs2, i = .bcAddr rs1 rs2))

/-- R140, R141, R297: while one consumer holds the lock, no command of another consumer, and no command that carries no consumer
number, moves SRC_POS, changes the page record or the registry, or takes the lock away; only a reset does. -/
def Obligations.LockProtectsCursor : Prop :=
  ∀ (i : Instr) (s t : State), s.lock.held = true → i.isReset = false → i.cid ≠ some s.lock.owner →
    exec i s = .next t →
    t.lock = s.lock ∧ t.srcPos = s.srcPos ∧ t.dead = s.dead ∧ t.page = s.page ∧ t.streams = s.streams

/-- R47, R243: each ring cursor only grows, but in OLA.CFG and a reset, and a finished frame that is not yet drained keeps its
samples. -/
def Obligations.FinishedFramesFinal : Prop :=
  ∀ (i : Instr) (s t : State), i.isReset = false → (∀ rs1 rs2 imm, i ≠ .olaCfg rs1 rs2 imm) → exec i s = .next t →
    s.ring.start ≤ t.ring.start ∧ s.ring.valid ≤ t.ring.valid ∧ s.ring.endAt ≤ t.ring.endAt ∧
    ∀ c p, c < 256 → t.ring.start ≤ p → p < s.ring.valid → t.ring.read c p = s.ring.read c p

/-! ### Invariants -/

/-- The invariants hold after reset. -/
def Obligations.InvariantsAtReset : Prop :=
  State.reset.Canonical ∧ State.reset.CursorsInRange ∧ State.reset.LockConsistent ∧ State.reset.RangesInside ∧
  State.reset.RingInvariant ∧ State.reset.ResiduesReady ∧ State.reset.PageBounded ∧
  State.reset.par.Legal State.reset.src.length

/-- Every step keeps DM and every sparse store in its one canonical form (the model's, log entry 4). -/
def Obligations.CanonicalKept : Prop := ∀ s t : State, s.Canonical → step s = .next t → t.Canonical

/-- R22, R29, R31, R33, R35, R36: `BC_POS <= BC_TOTAL` and `SRC_POS <= SRC_LEN` always hold, the bound ranges stay inside SRC
and at most MAXRANGES; the lock is free with owner and depth 0 or held with a depth of 1 to 255; the page tables stay within
their 255 entries. -/
def Obligations.CursorsLockPageKept : Prop :=
  ∀ s t : State, s.CursorsInRange → s.RangesInside → s.LockConsistent → s.PageBounded → step s = .next t →
    t.CursorsInRange ∧ t.RangesInside ∧ t.LockConsistent ∧ t.PageBounded

/-- R47: `RB_START <= RB_VALID <= RB_END`, `RB_END - RB_START <= RB_CAP <= RB_MAX`, and every sample outside is +0.0. -/
def Obligations.RingInvariantKept : Prop := ∀ s t : State, s.RingInvariant → step s = .next t → t.RingInvariant

/-- R74, R194, R202: a valid residue setup always names valid codebooks, its stage books with a lookup table. -/
def Obligations.ResiduesReadyKept : Prop := ∀ s t : State, s.ResiduesReady → step s = .next t → t.ResiduesReady
end

