-- ==== Sys2Proof/Laws/Table.lean ====
section
/-! SUPPORT. The sparse tables: reading back what was written, and that every operation keeps the canonical form. -/

namespace Sys2Proof.Machine

namespace Table

variable {α : Type}

theorem wf_cons {c : Nat × α} {t : Table α} : wf (c :: t) ↔ (∀ d ∈ t, c.1 < d.1) ∧ wf t := List.pairwise_cons

@[simp] theorem find_nil (k : Nat) : find ([] : Table α) k = none := rfl

@[simp] theorem find_put_same (t : Table α) (k : Nat) (v : α) : find (put t k v) k = some v := by
  induction t with
  | nil => simp [put, find]
  | cons c t ih =>
    simp only [put]
    split
    · simp [find]
    · split
      · simp [find]
      · simp [find, *]

theorem find_put_other (t : Table α) {k j : Nat} (v : α) (h : j ≠ k) : find (put t k v) j = find t j := by
  have h' : k ≠ j := fun e => h e.symm
  induction t with
  | nil => simp [put, find, h']
  | cons c t ih =>
    simp only [put]
    split
    · simp [find, h']
    · split
      · rename_i e; simp [find, e, h']
      · simp [find, ih]

theorem find_put (t : Table α) (k j : Nat) (v : α) : find (put t k v) j = if j = k then some v else find t j := by
  split
  · subst_vars; simp
  · exact find_put_other t v ‹_›

@[simp] theorem find_erase_same (t : Table α) (k : Nat) : find (erase t k) k = none := by
  induction t with
  | nil => rfl
  | cons c t ih =>
    simp only [erase, List.filter_cons] at ih ⊢
    split
    · rename_i h; simp only [find]; rw [if_neg (by simpa using h)]; exact ih
    · exact ih

theorem find_erase_other (t : Table α) {k j : Nat} (h : j ≠ k) : find (erase t k) j = find t j := by
  induction t with
  | nil => rfl
  | cons c t ih =>
    simp only [erase, List.filter_cons] at ih ⊢
    split
    · simp [find, ih]
    · rename_i e
      have hc : c.1 ≠ j := fun e' => h (by simpa [← e'] using e)
      simp [find, hc, ih]

/-- A listed value is a member. -/
theorem mem_of_find {t : Table α} {k : Nat} {v : α} (h : find t k = some v) : (k, v) ∈ t := by
  induction t with
  | nil => cases h
  | cons c t ih =>
    simp only [find] at h
    split at h
    · cases h; subst_vars; exact List.mem_cons_self ..
    · exact List.mem_cons_of_mem _ (ih h)

/-- In a canonical table a member is what its number reads as. -/
theorem find_of_mem {t : Table α} (hw : wf t) {c : Nat × α} (h : c ∈ t) : find t c.1 = some c.2 := by
  induction t with
  | nil => cases h
  | cons d t ih =>
    rw [wf_cons] at hw
    rcases List.mem_cons.1 h with rfl | h'
    · simp [find]
    · have := hw.1 c h'
      rw [find, if_neg (by omega)]
      exact ih hw.2 h'

/-- Whatever `put` leaves was there or is the new entry. -/
theorem mem_put {t : Table α} {k : Nat} {v : α} {c : Nat × α} (h : c ∈ put t k v) : c ∈ t ∨ c = (k, v) := by
  induction t with
  | nil => simp [put] at h; exact .inr h
  | cons d t ih =>
    simp only [put] at h
    split at h
    · rcases List.mem_cons.1 h with rfl | h'
      · exact .inr rfl
      · exact .inl h'
    · split at h
      · rcases List.mem_cons.1 h with rfl | h'
        · exact .inr rfl
        · exact .inl (List.mem_cons_of_mem _ h')
      · rcases List.mem_cons.1 h with rfl | h'
        · exact .inl (List.mem_cons_self ..)
        · exact (ih h').imp (List.mem_cons_of_mem _) id

theorem mem_erase {t : Table α} {k : Nat} {c : Nat × α} : c ∈ erase t k ↔ c ∈ t ∧ c.1 ≠ k := by
  simp [erase, List.mem_filter]

theorem wf_put {t : Table α} (hw : wf t) (k : Nat) (v : α) : wf (put t k v) := by
  induction t with
  | nil => simp [put]
  | cons d t ih =>
    rw [wf_cons] at hw
    simp only [put]
    split
    · rename_i h
      rw [wf_cons, wf_cons]
      refine ⟨fun c hc => ?_, hw⟩
      rcases List.mem_cons.1 hc with rfl | hc'
      · exact h
      · exact Nat.lt_trans h (hw.1 c hc')
    · split
      · rename_i h
        rw [wf_cons]
        exact ⟨fun c hc => h ▸ hw.1 c hc, hw.2⟩
      · rw [wf_cons]
        refine ⟨fun c hc => ?_, ih hw.2⟩
        rcases mem_put hc with hc' | rfl
        · exact hw.1 c hc'
        · show d.1 < k; omega

theorem wf_filter {t : Table α} (hw : wf t) (p : Nat × α → Bool) : wf (t.filter p) := List.Pairwise.filter p hw

theorem wf_erase {t : Table α} (hw : wf t) (k : Nat) : wf (erase t k) := wf_filter hw _

/-- Two canonical tables that read alike are the same data. -/
theorem ext_of_find {t u : Table α} (ht : wf t) (hu : wf u) (h : ∀ k, find t k = find u k) : t = u := by
  induction t generalizing u with
  | nil =>
    cases u with
    | nil => rfl
    | cons d u => have := h d.1; simp [find] at this
  | cons c t ih =>
    cases u with
    | nil => have := h c.1; simp [find] at this
    | cons d u =>
      have key : c.1 = d.1 := by
        have hc := mem_of_find ((h c.1).symm.trans (by simp [find]) : find (d :: u) c.1 = some c.2)
        have hd := mem_of_find ((h d.1).trans (by simp [find]) : find (c :: t) d.1 = some d.2)
        rw [wf_cons] at ht hu
        rcases List.mem_cons.1 hc with e | hc'
        · exact congrArg Prod.fst e
        · rcases List.mem_cons.1 hd with e | hd'
          · exact (congrArg Prod.fst e).symm
          · have h1 := hu.1 _ hc'; have h2 := ht.1 _ hd'; simp only at h1 h2; omega
      have val : c.2 = d.2 := by have := h c.1; simpa [find, key] using this
      have hcd : c = d := Prod.ext key val
      subst hcd
      have := ht; have := hu
      rw [wf_cons] at ht hu
      congr 1
      refine ih ht.2 hu.2 fun k => ?_
      by_cases hk : c.1 = k
      · subst hk
        have n1 : find t c.1 = none := by
          cases e : find t c.1 with
          | none => rfl
          | some v => have := ht.1 _ (mem_of_find e); simp only at this; omega
        have n2 : find u c.1 = none := by
          cases e : find u c.1 with
          | none => rfl
          | some v => have := hu.1 _ (mem_of_find e); simp only at this; omega
        rw [n1, n2]
      · have := h k; simpa [find, hk] using this

end Table

/-! ### Memory -/

namespace Memory

theorem read_write (m : Memory) (a b : Nat) (v : Word32) :
    read (write m a v) b = if b = a then some v else read m b := Table.find_put m a b v

@[simp] theorem read_write_same (m : Memory) (a : Nat) (v : Word32) : read (write m a v) a = some v :=
  Table.find_put_same m a v

theorem wf_write {m : Memory} (h : wf m) (a : Nat) (v : Word32) : wf (write m a v) := Table.wf_put h a v

theorem wf_writeList {m : Memory} (h : wf m) (a : Nat) (vs : List Word32) : wf (writeList m a vs) := by
  induction vs generalizing m a with
  | nil => exact h
  | cons v vs ih => exact ih (wf_write h a v) (a + 1)

/-- Consecutive words: inside the region the new word, outside it the old one. -/
theorem read_writeList (m : Memory) (a : Nat) (vs : List Word32) (b : Nat) :
    read (writeList m a vs) b = if a ≤ b ∧ b < a + vs.length then vs[b - a]? else read m b := by
  induction vs generalizing m a with
  | nil => simp only [writeList, List.length_nil]; rw [if_neg (by omega)]
  | cons v vs ih =>
    rw [writeList, ih, read_write]
    by_cases h1 : b = a
    · subst h1; simp
    · by_cases h2 : a ≤ b ∧ b < a + (v :: vs).length
      · have h3 : a + 1 ≤ b ∧ b < a + 1 + vs.length := by simp only [List.length_cons] at h2; omega
        have h4 : b - a = (b - (a + 1)) + 1 := by omega
        rw [if_pos h2, if_pos h3, h4]; simp
      · have h3 : ¬ (a + 1 ≤ b ∧ b < a + 1 + vs.length) := by simp only [List.length_cons] at h2; omega
        rw [if_neg h2, if_neg h3, if_neg h1]

/-- What a read of consecutive words answers: the words, one for one, or the first address without a known word. -/
theorem readList_ok {m : Memory} {a n : Nat} {ws : List Word32} (h : readList m a n = .ok ws) :
    ws.length = n ∧ ∀ i, i < n → read m (a + i) = ws[i]? := by
  induction n generalizing a ws with
  | zero => cases h; simp
  | succ n ih =>
    simp only [readList] at h
    split at h
    · cases h
    · rename_i w hw
      split at h
      · cases h
      · rename_i us hus
        cases h
        obtain ⟨h1, h2⟩ := ih hus
        refine ⟨by simp [h1], fun i hi => ?_⟩
        cases i with
        | zero => simpa using hw
        | succ i => rw [show a + (i + 1) = a + 1 + i by omega, h2 i (by omega)]; simp

theorem readList_error {m : Memory} {a n b : Nat} (h : readList m a n = .error b) :
    a ≤ b ∧ b < a + n ∧ read m b = none := by
  induction n generalizing a with
  | zero => cases h
  | succ n ih =>
    simp only [readList] at h
    split at h
    · cases h; exact ⟨by omega, by omega, ‹_›⟩
    · split at h
      · rename_i e; cases h
        obtain ⟨h1, h2, h3⟩ := ih e
        exact ⟨by omega, by omega, h3⟩
      · cases h

/-- Reading succeeds exactly when every word is known. -/
theorem readList_of_known {m : Memory} {a n : Nat} (h : ∀ i, i < n → (read m (a + i)).isSome) :
    ∃ ws, readList m a n = .ok ws := by
  cases e : readList m a n with
  | ok ws => exact ⟨ws, rfl⟩
  | error b =>
    obtain ⟨h1, h2, h3⟩ := readList_error e
    have := h (b - a) (by omega)
    rw [show a + (b - a) = b by omega, h3] at this
    cases this

end Memory

/-! ### Ring buffer -/

namespace Ring

theorem ringKey_inj {c t c' t' : Nat} (hc : c < 256) (hc' : c' < 256) (h : ringKey c t = ringKey c' t') :
    c = c' ∧ t = t' := by unfold ringKey at h; omega

theorem read_write (r : Ring) {c t c' t' : Nat} (v : Word32) (hc : c < 256) (hc' : c' < 256) :
    (r.write c t v).read c' t' = if c' = c ∧ t' = t then v else r.read c' t' := by
  by_cases h : c' = c ∧ t' = t
  · obtain ⟨rfl, rfl⟩ := h
    unfold read write
    dsimp only
    split
    · subst_vars; simp
    · simp
  · have hk : ringKey c' t' ≠ ringKey c t := fun e => h (ringKey_inj hc' hc e)
    rw [if_neg h]
    unfold read write
    dsimp only
    split
    · rw [Table.find_erase_other _ hk]
    · rw [Table.find_put_other _ v hk]

@[simp] theorem write_start (r : Ring) (c t : Nat) (v : Word32) : (r.write c t v).start = r.start := rfl
@[simp] theorem write_valid (r : Ring) (c t : Nat) (v : Word32) : (r.write c t v).valid = r.valid := rfl
@[simp] theorem write_endAt (r : Ring) (c t : Nat) (v : Word32) : (r.write c t v).endAt = r.endAt := rfl
@[simp] theorem write_cap (r : Ring) (c t : Nat) (v : Word32) : (r.write c t v).cap = r.cap := rfl
@[simp] theorem clear_start (r : Ring) (lo hi : Nat) : (r.clear lo hi).start = r.start := rfl
@[simp] theorem clear_valid (r : Ring) (lo hi : Nat) : (r.clear lo hi).valid = r.valid := rfl
@[simp] theorem clear_endAt (r : Ring) (lo hi : Nat) : (r.clear lo hi).endAt = r.endAt := rfl
@[simp] theorem clear_cap (r : Ring) (lo hi : Nat) : (r.clear lo hi).cap = r.cap := rfl

theorem wf_write {r : Ring} (h : Table.wf r.buf) (c t : Nat) (v : Word32) : Table.wf (r.write c t v).buf := by
  unfold write
  split
  · exact Table.wf_erase h _
  · exact Table.wf_put h _ _

theorem noZero_write {r : Ring} (h : ∀ c ∈ r.buf, c.2 ≠ 0) (c t : Nat) (v : Word32) :
    ∀ d ∈ (r.write c t v).buf, d.2 ≠ 0 := by
  intro d hd
  unfold write at hd
  dsimp only at hd
  split at hd
  · exact h d (Table.mem_erase.1 hd).1
  · rcases Table.mem_put hd with hd' | rfl
    · exact h d hd'
    · assumption

theorem wf_clear {r : Ring} (h : Table.wf r.buf) (lo hi : Nat) : Table.wf (r.clear lo hi).buf := Table.wf_filter h _

theorem mem_clear {r : Ring} {lo hi : Nat} {c : Nat × Word32} :
    c ∈ (r.clear lo hi).buf ↔ c ∈ r.buf ∧ ¬ (lo ≤ c.1 / 256 ∧ c.1 / 256 < hi) := by
  unfold clear
  simp only [List.mem_filter, Bool.not_eq_true', Bool.and_eq_false_iff, decide_eq_false_iff_not, not_and_or]

theorem read_clear (r : Ring) {lo hi c t : Nat} (hc : c < 256) :
    (r.clear lo hi).read c t = if lo ≤ t ∧ t < hi then 0 else r.read c t := by
  have key : ringKey c t / 256 = t := by unfold ringKey; omega
  unfold read clear
  dsimp only
  generalize hb : r.buf = b
  clear hb
  induction b with
  | nil => split <;> rfl
  | cons d b ih =>
    simp only [List.filter_cons]
    split
    · rename_i hd
      simp only [Table.find]
      by_cases hk : d.1 = ringKey c t
      · rw [if_pos hk, if_pos hk, if_neg]
        rw [hk, key] at hd
        simp only [Bool.not_eq_true', Bool.and_eq_false_iff, decide_eq_false_iff_not] at hd
        omega
      · rw [if_neg hk, if_neg hk]; exact ih
    · rename_i hd
      rw [ih]
      by_cases hk : d.1 = ringKey c t
      · rw [hk, key] at hd
        have : lo ≤ t ∧ t < hi := by simpa using hd
        rw [if_pos this, if_pos this]
      · simp [Table.find, hk]

end Ring

end Sys2Proof.Machine
end

