-- ==== Sys2Proof/Laws/State.lean ====
section
/-! SUPPORT. One lemma per field per shared update of the state, so that no later proof unfolds a record update. -/

namespace Sys2Proof.Machine

namespace State


/-! ### Writing a register -/

@[simp] theorem setX_port (s : State) (r : Reg) (v : Word) : (s.setX r v).port = s.port := by
  unfold setX; split <;> rfl
@[simp] theorem setX_par (s : State) (r : Reg) (v : Word) : (s.setX r v).par = s.par := by
  unfold setX; split <;> rfl
@[simp] theorem setX_src (s : State) (r : Reg) (v : Word) : (s.setX r v).src = s.src := by
  unfold setX; split <;> rfl
@[simp] theorem setX_dm (s : State) (r : Reg) (v : Word) : (s.setX r v).dm = s.dm := by
  unfold setX; split <;> rfl
@[simp] theorem setX_status (s : State) (r : Reg) (v : Word) : (s.setX r v).status = s.status := by
  unfold setX; split <;> rfl
@[simp] theorem setX_flags (s : State) (r : Reg) (v : Word) : (s.setX r v).flags = s.flags := by
  unfold setX; split <;> rfl
@[simp] theorem setX_crcAcc (s : State) (r : Reg) (v : Word) : (s.setX r v).crcAcc = s.crcAcc := by
  unfold setX; split <;> rfl
@[simp] theorem setX_bc (s : State) (r : Reg) (v : Word) : (s.setX r v).bc = s.bc := by
  unfold setX; split <;> rfl
@[simp] theorem setX_srcPos (s : State) (r : Reg) (v : Word) : (s.setX r v).srcPos = s.srcPos := by
  unfold setX; split <;> rfl
@[simp] theorem setX_waste (s : State) (r : Reg) (v : Word) : (s.setX r v).waste = s.waste := by
  unfold setX; split <;> rfl
@[simp] theorem setX_lock (s : State) (r : Reg) (v : Word) : (s.setX r v).lock = s.lock := by
  unfold setX; split <;> rfl
@[simp] theorem setX_dead (s : State) (r : Reg) (v : Word) : (s.setX r v).dead = s.dead := by
  unfold setX; split <;> rfl
@[simp] theorem setX_page (s : State) (r : Reg) (v : Word) : (s.setX r v).page = s.page := by
  unfold setX; split <;> rfl
@[simp] theorem setX_streams (s : State) (r : Reg) (v : Word) : (s.setX r v).streams = s.streams := by
  unfold setX; split <;> rfl
@[simp] theorem setX_books (s : State) (r : Reg) (v : Word) : (s.setX r v).books = s.books := by
  unfold setX; split <;> rfl
@[simp] theorem setX_residues (s : State) (r : Reg) (v : Word) : (s.setX r v).residues = s.residues := by
  unfold setX; split <;> rfl
@[simp] theorem setX_mdct (s : State) (r : Reg) (v : Word) : (s.setX r v).mdct = s.mdct := by
  unfold setX; split <;> rfl
@[simp] theorem setX_ola (s : State) (r : Reg) (v : Word) : (s.setX r v).ola = s.ola := by
  unfold setX; split <;> rfl
@[simp] theorem setX_modes (s : State) (r : Reg) (v : Word) : (s.setX r v).modes = s.modes := by
  unfold setX; split <;> rfl
@[simp] theorem setX_ring (s : State) (r : Reg) (v : Word) : (s.setX r v).ring = s.ring := by
  unfold setX; split <;> rfl

/-! ### Setting a sticky bit -/

@[simp] theorem setFlag_port (s : State) (g : Flag) : (s.setFlag g).port = s.port := rfl
@[simp] theorem setFlag_par (s : State) (g : Flag) : (s.setFlag g).par = s.par := rfl
@[simp] theorem setFlag_src (s : State) (g : Flag) : (s.setFlag g).src = s.src := rfl
@[simp] theorem setFlag_dm (s : State) (g : Flag) : (s.setFlag g).dm = s.dm := rfl
@[simp] theorem setFlag_regs (s : State) (g : Flag) : (s.setFlag g).regs = s.regs := rfl
@[simp] theorem setFlag_status (s : State) (g : Flag) : (s.setFlag g).status = s.status := rfl
@[simp] theorem setFlag_crcAcc (s : State) (g : Flag) : (s.setFlag g).crcAcc = s.crcAcc := rfl
@[simp] theorem setFlag_bc (s : State) (g : Flag) : (s.setFlag g).bc = s.bc := rfl
@[simp] theorem setFlag_srcPos (s : State) (g : Flag) : (s.setFlag g).srcPos = s.srcPos := rfl
@[simp] theorem setFlag_waste (s : State) (g : Flag) : (s.setFlag g).waste = s.waste := rfl
@[simp] theorem setFlag_lock (s : State) (g : Flag) : (s.setFlag g).lock = s.lock := rfl
@[simp] theorem setFlag_dead (s : State) (g : Flag) : (s.setFlag g).dead = s.dead := rfl
@[simp] theorem setFlag_page (s : State) (g : Flag) : (s.setFlag g).page = s.page := rfl
@[simp] theorem setFlag_streams (s : State) (g : Flag) : (s.setFlag g).streams = s.streams := rfl
@[simp] theorem setFlag_books (s : State) (g : Flag) : (s.setFlag g).books = s.books := rfl
@[simp] theorem setFlag_residues (s : State) (g : Flag) : (s.setFlag g).residues = s.residues := rfl
@[simp] theorem setFlag_mdct (s : State) (g : Flag) : (s.setFlag g).mdct = s.mdct := rfl
@[simp] theorem setFlag_ola (s : State) (g : Flag) : (s.setFlag g).ola = s.ola := rfl
@[simp] theorem setFlag_modes (s : State) (g : Flag) : (s.setFlag g).modes = s.modes := rfl
@[simp] theorem setFlag_ring (s : State) (g : Flag) : (s.setFlag g).ring = s.ring := rfl
@[simp] theorem setFlag_flags (s : State) (g : Flag) : (s.setFlag g).flags = s.flags ||| g.mask := rfl
@[simp] theorem setFlagIf_port (s : State) (b : Bool) (g : Flag) : (s.setFlagIf b g).port = s.port := by
  unfold setFlagIf; split <;> rfl
@[simp] theorem setFlagIf_par (s : State) (b : Bool) (g : Flag) : (s.setFlagIf b g).par = s.par := by
  unfold setFlagIf; split <;> rfl
@[simp] theorem setFlagIf_src (s : State) (b : Bool) (g : Flag) : (s.setFlagIf b g).src = s.src := by
  unfold setFlagIf; split <;> rfl
@[simp] theorem setFlagIf_dm (s : State) (b : Bool) (g : Flag) : (s.setFlagIf b g).dm = s.dm := by
  unfold setFlagIf; split <;> rfl
@[simp] theorem setFlagIf_regs (s : State) (b : Bool) (g : Flag) : (s.setFlagIf b g).regs = s.regs := by
  unfold setFlagIf; split <;> rfl
@[simp] theorem setFlagIf_status (s : State) (b : Bool) (g : Flag) : (s.setFlagIf b g).status = s.status := by
  unfold setFlagIf; split <;> rfl
@[simp] theorem setFlagIf_crcAcc (s : State) (b : Bool) (g : Flag) : (s.setFlagIf b g).crcAcc = s.crcAcc := by
  unfold setFlagIf; split <;> rfl
@[simp] theorem setFlagIf_bc (s : State) (b : Bool) (g : Flag) : (s.setFlagIf b g).bc = s.bc := by
  unfold setFlagIf; split <;> rfl
@[simp] theorem setFlagIf_srcPos (s : State) (b : Bool) (g : Flag) : (s.setFlagIf b g).srcPos = s.srcPos := by
  unfold setFlagIf; split <;> rfl
@[simp] theorem setFlagIf_waste (s : State) (b : Bool) (g : Flag) : (s.setFlagIf b g).waste = s.waste := by
  unfold setFlagIf; split <;> rfl
@[simp] theorem setFlagIf_lock (s : State) (b : Bool) (g : Flag) : (s.setFlagIf b g).lock = s.lock := by
  unfold setFlagIf; split <;> rfl
@[simp] theorem setFlagIf_dead (s : State) (b : Bool) (g : Flag) : (s.setFlagIf b g).dead = s.dead := by
  unfold setFlagIf; split <;> rfl
@[simp] theorem setFlagIf_page (s : State) (b : Bool) (g : Flag) : (s.setFlagIf b g).page = s.page := by
  unfold setFlagIf; split <;> rfl
@[simp] theorem setFlagIf_streams (s : State) (b : Bool) (g : Flag) : (s.setFlagIf b g).streams = s.streams := by
  unfold setFlagIf; split <;> rfl
@[simp] theorem setFlagIf_books (s : State) (b : Bool) (g : Flag) : (s.setFlagIf b g).books = s.books := by
  unfold setFlagIf; split <;> rfl
@[simp] theorem setFlagIf_residues (s : State) (b : Bool) (g : Flag) : (s.setFlagIf b g).residues = s.residues := by
  unfold setFlagIf; split <;> rfl
@[simp] theorem setFlagIf_mdct (s : State) (b : Bool) (g : Flag) : (s.setFlagIf b g).mdct = s.mdct := by
  unfold setFlagIf; split <;> rfl
@[simp] theorem setFlagIf_ola (s : State) (b : Bool) (g : Flag) : (s.setFlagIf b g).ola = s.ola := by
  unfold setFlagIf; split <;> rfl
@[simp] theorem setFlagIf_modes (s : State) (b : Bool) (g : Flag) : (s.setFlagIf b g).modes = s.modes := by
  unfold setFlagIf; split <;> rfl
@[simp] theorem setFlagIf_ring (s : State) (b : Bool) (g : Flag) : (s.setFlagIf b g).ring = s.ring := by
  unfold setFlagIf; split <;> rfl
@[simp] theorem setFlagIf_flags (s : State) (b : Bool) (g : Flag) :
    (s.setFlagIf b g).flags = if b then s.flags ||| g.mask else s.flags := by
  unfold setFlagIf; split <;> rfl

/-! ### Writing DM -/

@[simp] theorem dmWrite_port (s : State) (a : Nat) (v : Word32) : (s.dmWrite a v).port = s.port := rfl
@[simp] theorem dmWrite_par (s : State) (a : Nat) (v : Word32) : (s.dmWrite a v).par = s.par := rfl
@[simp] theorem dmWrite_src (s : State) (a : Nat) (v : Word32) : (s.dmWrite a v).src = s.src := rfl
@[simp] theorem dmWrite_regs (s : State) (a : Nat) (v : Word32) : (s.dmWrite a v).regs = s.regs := rfl
@[simp] theorem dmWrite_status (s : State) (a : Nat) (v : Word32) : (s.dmWrite a v).status = s.status := rfl
@[simp] theorem dmWrite_flags (s : State) (a : Nat) (v : Word32) : (s.dmWrite a v).flags = s.flags := rfl
@[simp] theorem dmWrite_crcAcc (s : State) (a : Nat) (v : Word32) : (s.dmWrite a v).crcAcc = s.crcAcc := rfl
@[simp] theorem dmWrite_bc (s : State) (a : Nat) (v : Word32) : (s.dmWrite a v).bc = s.bc := rfl
@[simp] theorem dmWrite_srcPos (s : State) (a : Nat) (v : Word32) : (s.dmWrite a v).srcPos = s.srcPos := rfl
@[simp] theorem dmWrite_waste (s : State) (a : Nat) (v : Word32) : (s.dmWrite a v).waste = s.waste := rfl
@[simp] theorem dmWrite_lock (s : State) (a : Nat) (v : Word32) : (s.dmWrite a v).lock = s.lock := rfl
@[simp] theorem dmWrite_dead (s : State) (a : Nat) (v : Word32) : (s.dmWrite a v).dead = s.dead := rfl
@[simp] theorem dmWrite_page (s : State) (a : Nat) (v : Word32) : (s.dmWrite a v).page = s.page := rfl
@[simp] theorem dmWrite_streams (s : State) (a : Nat) (v : Word32) : (s.dmWrite a v).streams = s.streams := rfl
@[simp] theorem dmWrite_books (s : State) (a : Nat) (v : Word32) : (s.dmWrite a v).books = s.books := rfl
@[simp] theorem dmWrite_residues (s : State) (a : Nat) (v : Word32) : (s.dmWrite a v).residues = s.residues := rfl
@[simp] theorem dmWrite_mdct (s : State) (a : Nat) (v : Word32) : (s.dmWrite a v).mdct = s.mdct := rfl
@[simp] theorem dmWrite_ola (s : State) (a : Nat) (v : Word32) : (s.dmWrite a v).ola = s.ola := rfl
@[simp] theorem dmWrite_modes (s : State) (a : Nat) (v : Word32) : (s.dmWrite a v).modes = s.modes := rfl
@[simp] theorem dmWrite_ring (s : State) (a : Nat) (v : Word32) : (s.dmWrite a v).ring = s.ring := rfl
@[simp] theorem dmWrite_dm (s : State) (a : Nat) (v : Word32) : (s.dmWrite a v).dm = Memory.write s.dm a v := rfl
@[simp] theorem dmWriteList_port (s : State) (a : Nat) (vs : List Word32) : (s.dmWriteList a vs).port = s.port := rfl
@[simp] theorem dmWriteList_par (s : State) (a : Nat) (vs : List Word32) : (s.dmWriteList a vs).par = s.par := rfl
@[simp] theorem dmWriteList_src (s : State) (a : Nat) (vs : List Word32) : (s.dmWriteList a vs).src = s.src := rfl
@[simp] theorem dmWriteList_regs (s : State) (a : Nat) (vs : List Word32) : (s.dmWriteList a vs).regs = s.regs := rfl
@[simp] theorem dmWriteList_status (s : State) (a : Nat) (vs : List Word32) : (s.dmWriteList a vs).status = s.status := rfl
@[simp] theorem dmWriteList_flags (s : State) (a : Nat) (vs : List Word32) : (s.dmWriteList a vs).flags = s.flags := rfl
@[simp] theorem dmWriteList_crcAcc (s : State) (a : Nat) (vs : List Word32) : (s.dmWriteList a vs).crcAcc = s.crcAcc := rfl
@[simp] theorem dmWriteList_bc (s : State) (a : Nat) (vs : List Word32) : (s.dmWriteList a vs).bc = s.bc := rfl
@[simp] theorem dmWriteList_srcPos (s : State) (a : Nat) (vs : List Word32) : (s.dmWriteList a vs).srcPos = s.srcPos := rfl
@[simp] theorem dmWriteList_waste (s : State) (a : Nat) (vs : List Word32) : (s.dmWriteList a vs).waste = s.waste := rfl
@[simp] theorem dmWriteList_lock (s : State) (a : Nat) (vs : List Word32) : (s.dmWriteList a vs).lock = s.lock := rfl
@[simp] theorem dmWriteList_dead (s : State) (a : Nat) (vs : List Word32) : (s.dmWriteList a vs).dead = s.dead := rfl
@[simp] theorem dmWriteList_page (s : State) (a : Nat) (vs : List Word32) : (s.dmWriteList a vs).page = s.page := rfl
@[simp] theorem dmWriteList_streams (s : State) (a : Nat) (vs : List Word32) : (s.dmWriteList a vs).streams = s.streams := rfl
@[simp] theorem dmWriteList_books (s : State) (a : Nat) (vs : List Word32) : (s.dmWriteList a vs).books = s.books := rfl
@[simp] theorem dmWriteList_residues (s : State) (a : Nat) (vs : List Word32) : (s.dmWriteList a vs).residues = s.residues := rfl
@[simp] theorem dmWriteList_mdct (s : State) (a : Nat) (vs : List Word32) : (s.dmWriteList a vs).mdct = s.mdct := rfl
@[simp] theorem dmWriteList_ola (s : State) (a : Nat) (vs : List Word32) : (s.dmWriteList a vs).ola = s.ola := rfl
@[simp] theorem dmWriteList_modes (s : State) (a : Nat) (vs : List Word32) : (s.dmWriteList a vs).modes = s.modes := rfl
@[simp] theorem dmWriteList_ring (s : State) (a : Nat) (vs : List Word32) : (s.dmWriteList a vs).ring = s.ring := rfl
@[simp] theorem dmWriteList_dm (s : State) (a : Nat) (vs : List Word32) :
    (s.dmWriteList a vs).dm = Memory.writeList s.dm a vs := rfl

/-! ### A peek changes the count alone -/

@[simp] theorem bcPeek_port (s : State) (n : Nat) : (s.bcPeek n).1.port = s.port := rfl
@[simp] theorem bcPeek_par (s : State) (n : Nat) : (s.bcPeek n).1.par = s.par := rfl
@[simp] theorem bcPeek_src (s : State) (n : Nat) : (s.bcPeek n).1.src = s.src := rfl
@[simp] theorem bcPeek_dm (s : State) (n : Nat) : (s.bcPeek n).1.dm = s.dm := rfl
@[simp] theorem bcPeek_regs (s : State) (n : Nat) : (s.bcPeek n).1.regs = s.regs := rfl
@[simp] theorem bcPeek_status (s : State) (n : Nat) : (s.bcPeek n).1.status = s.status := rfl
@[simp] theorem bcPeek_flags (s : State) (n : Nat) : (s.bcPeek n).1.flags = s.flags := rfl
@[simp] theorem bcPeek_crcAcc (s : State) (n : Nat) : (s.bcPeek n).1.crcAcc = s.crcAcc := rfl
@[simp] theorem bcPeek_srcPos (s : State) (n : Nat) : (s.bcPeek n).1.srcPos = s.srcPos := rfl
@[simp] theorem bcPeek_waste (s : State) (n : Nat) : (s.bcPeek n).1.waste = s.waste := rfl
@[simp] theorem bcPeek_lock (s : State) (n : Nat) : (s.bcPeek n).1.lock = s.lock := rfl
@[simp] theorem bcPeek_dead (s : State) (n : Nat) : (s.bcPeek n).1.dead = s.dead := rfl
@[simp] theorem bcPeek_page (s : State) (n : Nat) : (s.bcPeek n).1.page = s.page := rfl
@[simp] theorem bcPeek_streams (s : State) (n : Nat) : (s.bcPeek n).1.streams = s.streams := rfl
@[simp] theorem bcPeek_books (s : State) (n : Nat) : (s.bcPeek n).1.books = s.books := rfl
@[simp] theorem bcPeek_residues (s : State) (n : Nat) : (s.bcPeek n).1.residues = s.residues := rfl
@[simp] theorem bcPeek_mdct (s : State) (n : Nat) : (s.bcPeek n).1.mdct = s.mdct := rfl
@[simp] theorem bcPeek_ola (s : State) (n : Nat) : (s.bcPeek n).1.ola = s.ola := rfl
@[simp] theorem bcPeek_modes (s : State) (n : Nat) : (s.bcPeek n).1.modes = s.modes := rfl
@[simp] theorem bcPeek_ring (s : State) (n : Nat) : (s.bcPeek n).1.ring = s.ring := rfl
@[simp] theorem bcPeek_bc_ranges (s : State) (n : Nat) : (s.bcPeek n).1.bc.ranges = s.bc.ranges := rfl
@[simp] theorem bcPeek_bc_pos (s : State) (n : Nat) : (s.bcPeek n).1.bc.pos = s.bc.pos := rfl
@[simp] theorem bcPeek_bc_short (s : State) (n : Nat) : (s.bcPeek n).1.bc.short = s.bc.short := rfl
@[simp] theorem bcPeek_bc_cnt (s : State) (n : Nat) : (s.bcPeek n).1.bc.cnt = BitVec.ofNat 7 (min n s.bcAvail) := rfl

/-! ### A skip changes the position, the short flag and its sticky bit -/

@[simp] theorem bcSkip_port (s : State) (n : Nat) : (s.bcSkip n).1.port = s.port := by
  unfold bcSkip; split <;> rfl
@[simp] theorem bcSkip_par (s : State) (n : Nat) : (s.bcSkip n).1.par = s.par := by
  unfold bcSkip; split <;> rfl
@[simp] theorem bcSkip_src (s : State) (n : Nat) : (s.bcSkip n).1.src = s.src := by
  unfold bcSkip; split <;> rfl
@[simp] theorem bcSkip_dm (s : State) (n : Nat) : (s.bcSkip n).1.dm = s.dm := by
  unfold bcSkip; split <;> rfl
@[simp] theorem bcSkip_regs (s : State) (n : Nat) : (s.bcSkip n).1.regs = s.regs := by
  unfold bcSkip; split <;> rfl
@[simp] theorem bcSkip_status (s : State) (n : Nat) : (s.bcSkip n).1.status = s.status := by
  unfold bcSkip; split <;> rfl
@[simp] theorem bcSkip_crcAcc (s : State) (n : Nat) : (s.bcSkip n).1.crcAcc = s.crcAcc := by
  unfold bcSkip; split <;> rfl
@[simp] theorem bcSkip_srcPos (s : State) (n : Nat) : (s.bcSkip n).1.srcPos = s.srcPos := by
  unfold bcSkip; split <;> rfl
@[simp] theorem bcSkip_waste (s : State) (n : Nat) : (s.bcSkip n).1.waste = s.waste := by
  unfold bcSkip; split <;> rfl
@[simp] theorem bcSkip_lock (s : State) (n : Nat) : (s.bcSkip n).1.lock = s.lock := by
  unfold bcSkip; split <;> rfl
@[simp] theorem bcSkip_dead (s : State) (n : Nat) : (s.bcSkip n).1.dead = s.dead := by
  unfold bcSkip; split <;> rfl
@[simp] theorem bcSkip_page (s : State) (n : Nat) : (s.bcSkip n).1.page = s.page := by
  unfold bcSkip; split <;> rfl
@[simp] theorem bcSkip_streams (s : State) (n : Nat) : (s.bcSkip n).1.streams = s.streams := by
  unfold bcSkip; split <;> rfl
@[simp] theorem bcSkip_books (s : State) (n : Nat) : (s.bcSkip n).1.books = s.books := by
  unfold bcSkip; split <;> rfl
@[simp] theorem bcSkip_residues (s : State) (n : Nat) : (s.bcSkip n).1.residues = s.residues := by
  unfold bcSkip; split <;> rfl
@[simp] theorem bcSkip_mdct (s : State) (n : Nat) : (s.bcSkip n).1.mdct = s.mdct := by
  unfold bcSkip; split <;> rfl
@[simp] theorem bcSkip_ola (s : State) (n : Nat) : (s.bcSkip n).1.ola = s.ola := by
  unfold bcSkip; split <;> rfl
@[simp] theorem bcSkip_modes (s : State) (n : Nat) : (s.bcSkip n).1.modes = s.modes := by
  unfold bcSkip; split <;> rfl
@[simp] theorem bcSkip_ring (s : State) (n : Nat) : (s.bcSkip n).1.ring = s.ring := by
  unfold bcSkip; split <;> rfl
@[simp] theorem bcSkip_bc_ranges (s : State) (n : Nat) : (s.bcSkip n).1.bc.ranges = s.bc.ranges := by
  unfold bcSkip; split <;> rfl
@[simp] theorem bcSkip_bc_cnt (s : State) (n : Nat) : (s.bcSkip n).1.bc.cnt = s.bc.cnt := by
  unfold bcSkip; split <;> rfl

/-! ### Dropping the dependents of a codebook slot -/

@[simp] theorem dropDependents_port (s : State) (k : Nat) : (s.dropDependents k).port = s.port := rfl
@[simp] theorem dropDependents_par (s : State) (k : Nat) : (s.dropDependents k).par = s.par := rfl
@[simp] theorem dropDependents_src (s : State) (k : Nat) : (s.dropDependents k).src = s.src := rfl
@[simp] theorem dropDependents_dm (s : State) (k : Nat) : (s.dropDependents k).dm = s.dm := rfl
@[simp] theorem dropDependents_regs (s : State) (k : Nat) : (s.dropDependents k).regs = s.regs := rfl
@[simp] theorem dropDependents_status (s : State) (k : Nat) : (s.dropDependents k).status = s.status := rfl
@[simp] theorem dropDependents_flags (s : State) (k : Nat) : (s.dropDependents k).flags = s.flags := rfl
@[simp] theorem dropDependents_crcAcc (s : State) (k : Nat) : (s.dropDependents k).crcAcc = s.crcAcc := rfl
@[simp] theorem dropDependents_bc (s : State) (k : Nat) : (s.dropDependents k).bc = s.bc := rfl
@[simp] theorem dropDependents_srcPos (s : State) (k : Nat) : (s.dropDependents k).srcPos = s.srcPos := rfl
@[simp] theorem dropDependents_waste (s : State) (k : Nat) : (s.dropDependents k).waste = s.waste := rfl
@[simp] theorem dropDependents_lock (s : State) (k : Nat) : (s.dropDependents k).lock = s.lock := rfl
@[simp] theorem dropDependents_dead (s : State) (k : Nat) : (s.dropDependents k).dead = s.dead := rfl
@[simp] theorem dropDependents_page (s : State) (k : Nat) : (s.dropDependents k).page = s.page := rfl
@[simp] theorem dropDependents_streams (s : State) (k : Nat) : (s.dropDependents k).streams = s.streams := rfl
@[simp] theorem dropDependents_books (s : State) (k : Nat) : (s.dropDependents k).books = s.books := rfl
@[simp] theorem dropDependents_mdct (s : State) (k : Nat) : (s.dropDependents k).mdct = s.mdct := rfl
@[simp] theorem dropDependents_ola (s : State) (k : Nat) : (s.dropDependents k).ola = s.ola := rfl
@[simp] theorem dropDependents_modes (s : State) (k : Nat) : (s.dropDependents k).modes = s.modes := rfl
@[simp] theorem dropDependents_ring (s : State) (k : Nat) : (s.dropDependents k).ring = s.ring := rfl
@[simp] theorem openSlot_port (s : State) (k : Nat) : (s.openSlot k).port = s.port := rfl
@[simp] theorem dropTable_port (s : State) (k : Nat) (b : Codebook) : (s.dropTable k b).port = s.port := rfl
@[simp] theorem openSlot_par (s : State) (k : Nat) : (s.openSlot k).par = s.par := rfl
@[simp] theorem dropTable_par (s : State) (k : Nat) (b : Codebook) : (s.dropTable k b).par = s.par := rfl
@[simp] theorem openSlot_src (s : State) (k : Nat) : (s.openSlot k).src = s.src := rfl
@[simp] theorem dropTable_src (s : State) (k : Nat) (b : Codebook) : (s.dropTable k b).src = s.src := rfl
@[simp] theorem openSlot_dm (s : State) (k : Nat) : (s.openSlot k).dm = s.dm := rfl
@[simp] theorem dropTable_dm (s : State) (k : Nat) (b : Codebook) : (s.dropTable k b).dm = s.dm := rfl
@[simp] theorem openSlot_regs (s : State) (k : Nat) : (s.openSlot k).regs = s.regs := rfl
@[simp] theorem dropTable_regs (s : State) (k : Nat) (b : Codebook) : (s.dropTable k b).regs = s.regs := rfl
@[simp] theorem openSlot_status (s : State) (k : Nat) : (s.openSlot k).status = s.status := rfl
@[simp] theorem dropTable_status (s : State) (k : Nat) (b : Codebook) : (s.dropTable k b).status = s.status := rfl
@[simp] theorem openSlot_flags (s : State) (k : Nat) : (s.openSlot k).flags = s.flags := rfl
@[simp] theorem dropTable_flags (s : State) (k : Nat) (b : Codebook) : (s.dropTable k b).flags = s.flags := rfl
@[simp] theorem openSlot_crcAcc (s : State) (k : Nat) : (s.openSlot k).crcAcc = s.crcAcc := rfl
@[simp] theorem dropTable_crcAcc (s : State) (k : Nat) (b : Codebook) : (s.dropTable k b).crcAcc = s.crcAcc := rfl
@[simp] theorem openSlot_bc (s : State) (k : Nat) : (s.openSlot k).bc = s.bc := rfl
@[simp] theorem dropTable_bc (s : State) (k : Nat) (b : Codebook) : (s.dropTable k b).bc = s.bc := rfl
@[simp] theorem openSlot_srcPos (s : State) (k : Nat) : (s.openSlot k).srcPos = s.srcPos := rfl
@[simp] theorem dropTable_srcPos (s : State) (k : Nat) (b : Codebook) : (s.dropTable k b).srcPos = s.srcPos := rfl
@[simp] theorem openSlot_waste (s : State) (k : Nat) : (s.openSlot k).waste = s.waste := rfl
@[simp] theorem dropTable_waste (s : State) (k : Nat) (b : Codebook) : (s.dropTable k b).waste = s.waste := rfl
@[simp] theorem openSlot_lock (s : State) (k : Nat) : (s.openSlot k).lock = s.lock := rfl
@[simp] theorem dropTable_lock (s : State) (k : Nat) (b : Codebook) : (s.dropTable k b).lock = s.lock := rfl
@[simp] theorem openSlot_dead (s : State) (k : Nat) : (s.openSlot k).dead = s.dead := rfl
@[simp] theorem dropTable_dead (s : State) (k : Nat) (b : Codebook) : (s.dropTable k b).dead = s.dead := rfl
@[simp] theorem openSlot_page (s : State) (k : Nat) : (s.openSlot k).page = s.page := rfl
@[simp] theorem dropTable_page (s : State) (k : Nat) (b : Codebook) : (s.dropTable k b).page = s.page := rfl
@[simp] theorem openSlot_streams (s : State) (k : Nat) : (s.openSlot k).streams = s.streams := rfl
@[simp] theorem dropTable_streams (s : State) (k : Nat) (b : Codebook) : (s.dropTable k b).streams = s.streams := rfl
@[simp] theorem openSlot_mdct (s : State) (k : Nat) : (s.openSlot k).mdct = s.mdct := rfl
@[simp] theorem dropTable_mdct (s : State) (k : Nat) (b : Codebook) : (s.dropTable k b).mdct = s.mdct := rfl
@[simp] theorem openSlot_ola (s : State) (k : Nat) : (s.openSlot k).ola = s.ola := rfl
@[simp] theorem dropTable_ola (s : State) (k : Nat) (b : Codebook) : (s.dropTable k b).ola = s.ola := rfl
@[simp] theorem openSlot_modes (s : State) (k : Nat) : (s.openSlot k).modes = s.modes := rfl
@[simp] theorem dropTable_modes (s : State) (k : Nat) (b : Codebook) : (s.dropTable k b).modes = s.modes := rfl
@[simp] theorem openSlot_ring (s : State) (k : Nat) : (s.openSlot k).ring = s.ring := rfl
@[simp] theorem dropTable_ring (s : State) (k : Nat) (b : Codebook) : (s.dropTable k b).ring = s.ring := rfl
@[simp] theorem openSlot_books (s : State) (k : Nat) : (s.openSlot k).books = Table.erase s.books k := rfl
@[simp] theorem dropTable_books (s : State) (k : Nat) (b : Codebook) :
    (s.dropTable k b).books = Table.put s.books k b.withoutTable := rfl

/-! ### A scan without a page -/

@[simp] theorem noPage_port (s : State) (r : Reg) (p : Nat) : (s.noPage r p).port = s.port := by
  unfold noPage; rw [setX_port]
@[simp] theorem noPage_par (s : State) (r : Reg) (p : Nat) : (s.noPage r p).par = s.par := by
  unfold noPage; rw [setX_par]
@[simp] theorem noPage_src (s : State) (r : Reg) (p : Nat) : (s.noPage r p).src = s.src := by
  unfold noPage; rw [setX_src]
@[simp] theorem noPage_dm (s : State) (r : Reg) (p : Nat) : (s.noPage r p).dm = s.dm := by
  unfold noPage; rw [setX_dm]
@[simp] theorem noPage_status (s : State) (r : Reg) (p : Nat) : (s.noPage r p).status = s.status := by
  unfold noPage; rw [setX_status]
@[simp] theorem noPage_flags (s : State) (r : Reg) (p : Nat) : (s.noPage r p).flags = s.flags := by
  unfold noPage; rw [setX_flags]
@[simp] theorem noPage_crcAcc (s : State) (r : Reg) (p : Nat) : (s.noPage r p).crcAcc = s.crcAcc := by
  unfold noPage; rw [setX_crcAcc]
@[simp] theorem noPage_bc (s : State) (r : Reg) (p : Nat) : (s.noPage r p).bc = s.bc := by
  unfold noPage; rw [setX_bc]
@[simp] theorem noPage_lock (s : State) (r : Reg) (p : Nat) : (s.noPage r p).lock = s.lock := by
  unfold noPage; rw [setX_lock]
@[simp] theorem noPage_dead (s : State) (r : Reg) (p : Nat) : (s.noPage r p).dead = s.dead := by
  unfold noPage; rw [setX_dead]
@[simp] theorem noPage_streams (s : State) (r : Reg) (p : Nat) : (s.noPage r p).streams = s.streams := by
  unfold noPage; rw [setX_streams]
@[simp] theorem noPage_books (s : State) (r : Reg) (p : Nat) : (s.noPage r p).books = s.books := by
  unfold noPage; rw [setX_books]
@[simp] theorem noPage_residues (s : State) (r : Reg) (p : Nat) : (s.noPage r p).residues = s.residues := by
  unfold noPage; rw [setX_residues]
@[simp] theorem noPage_mdct (s : State) (r : Reg) (p : Nat) : (s.noPage r p).mdct = s.mdct := by
  unfold noPage; rw [setX_mdct]
@[simp] theorem noPage_ola (s : State) (r : Reg) (p : Nat) : (s.noPage r p).ola = s.ola := by
  unfold noPage; rw [setX_ola]
@[simp] theorem noPage_modes (s : State) (r : Reg) (p : Nat) : (s.noPage r p).modes = s.modes := by
  unfold noPage; rw [setX_modes]
@[simp] theorem noPage_ring (s : State) (r : Reg) (p : Nat) : (s.noPage r p).ring = s.ring := by
  unfold noPage; rw [setX_ring]

/-! ### Accepting a page -/

@[simp] theorem acceptPage_port (s : State) (p : Nat) : (s.acceptPage p).1.port = s.port := by
  unfold acceptPage; simp only [setFlagIf_port]
@[simp] theorem acceptPage_par (s : State) (p : Nat) : (s.acceptPage p).1.par = s.par := by
  unfold acceptPage; simp only [setFlagIf_par]
@[simp] theorem acceptPage_src (s : State) (p : Nat) : (s.acceptPage p).1.src = s.src := by
  unfold acceptPage; simp only [setFlagIf_src]
@[simp] theorem acceptPage_dm (s : State) (p : Nat) : (s.acceptPage p).1.dm = s.dm := by
  unfold acceptPage; simp only [setFlagIf_dm]
@[simp] theorem acceptPage_regs (s : State) (p : Nat) : (s.acceptPage p).1.regs = s.regs := by
  unfold acceptPage; simp only [setFlagIf_regs]
@[simp] theorem acceptPage_status (s : State) (p : Nat) : (s.acceptPage p).1.status = s.status := by
  unfold acceptPage; simp only [setFlagIf_status]
@[simp] theorem acceptPage_crcAcc (s : State) (p : Nat) : (s.acceptPage p).1.crcAcc = s.crcAcc := by
  unfold acceptPage; simp only [setFlagIf_crcAcc]
@[simp] theorem acceptPage_bc (s : State) (p : Nat) : (s.acceptPage p).1.bc = s.bc := by
  unfold acceptPage; simp only [setFlagIf_bc]
@[simp] theorem acceptPage_lock (s : State) (p : Nat) : (s.acceptPage p).1.lock = s.lock := by
  unfold acceptPage; simp only [setFlagIf_lock]
@[simp] theorem acceptPage_dead (s : State) (p : Nat) : (s.acceptPage p).1.dead = s.dead := by
  unfold acceptPage; simp only [setFlagIf_dead]
@[simp] theorem acceptPage_books (s : State) (p : Nat) : (s.acceptPage p).1.books = s.books := by
  unfold acceptPage; simp only [setFlagIf_books]
@[simp] theorem acceptPage_residues (s : State) (p : Nat) : (s.acceptPage p).1.residues = s.residues := by
  unfold acceptPage; simp only [setFlagIf_residues]
@[simp] theorem acceptPage_mdct (s : State) (p : Nat) : (s.acceptPage p).1.mdct = s.mdct := by
  unfold acceptPage; simp only [setFlagIf_mdct]
@[simp] theorem acceptPage_ola (s : State) (p : Nat) : (s.acceptPage p).1.ola = s.ola := by
  unfold acceptPage; simp only [setFlagIf_ola]
@[simp] theorem acceptPage_modes (s : State) (p : Nat) : (s.acceptPage p).1.modes = s.modes := by
  unfold acceptPage; simp only [setFlagIf_modes]
@[simp] theorem acceptPage_ring (s : State) (p : Nat) : (s.acceptPage p).1.ring = s.ring := by
  unfold acceptPage; simp only [setFlagIf_ring]

/-! ### How a command ends -/

@[simp] theorem ended_port (s : State) (c : BitVec 8) : (s.ended c).port = s.port := rfl
@[simp] theorem ended_par (s : State) (c : BitVec 8) : (s.ended c).par = s.par := rfl
@[simp] theorem ended_src (s : State) (c : BitVec 8) : (s.ended c).src = s.src := rfl
@[simp] theorem ended_dm (s : State) (c : BitVec 8) : (s.ended c).dm = s.dm := rfl
@[simp] theorem ended_regs (s : State) (c : BitVec 8) : (s.ended c).regs = s.regs := rfl
@[simp] theorem ended_flags (s : State) (c : BitVec 8) : (s.ended c).flags = s.flags := rfl
@[simp] theorem ended_crcAcc (s : State) (c : BitVec 8) : (s.ended c).crcAcc = s.crcAcc := rfl
@[simp] theorem ended_bc (s : State) (c : BitVec 8) : (s.ended c).bc = s.bc := rfl
@[simp] theorem ended_srcPos (s : State) (c : BitVec 8) : (s.ended c).srcPos = s.srcPos := rfl
@[simp] theorem ended_waste (s : State) (c : BitVec 8) : (s.ended c).waste = s.waste := rfl
@[simp] theorem ended_lock (s : State) (c : BitVec 8) : (s.ended c).lock = s.lock := rfl
@[simp] theorem ended_dead (s : State) (c : BitVec 8) : (s.ended c).dead = s.dead := rfl
@[simp] theorem ended_page (s : State) (c : BitVec 8) : (s.ended c).page = s.page := rfl
@[simp] theorem ended_streams (s : State) (c : BitVec 8) : (s.ended c).streams = s.streams := rfl
@[simp] theorem ended_books (s : State) (c : BitVec 8) : (s.ended c).books = s.books := rfl
@[simp] theorem ended_residues (s : State) (c : BitVec 8) : (s.ended c).residues = s.residues := rfl
@[simp] theorem ended_mdct (s : State) (c : BitVec 8) : (s.ended c).mdct = s.mdct := rfl
@[simp] theorem ended_ola (s : State) (c : BitVec 8) : (s.ended c).ola = s.ola := rfl
@[simp] theorem ended_modes (s : State) (c : BitVec 8) : (s.ended c).modes = s.modes := rfl
@[simp] theorem ended_ring (s : State) (c : BitVec 8) : (s.ended c).ring = s.ring := rfl
@[simp] theorem ended_status (s : State) (c : BitVec 8) : (s.ended c).status = c := rfl
@[simp] theorem faulted_port (s : State) (c : BitVec 8) : (s.faulted c).port = s.port := rfl
@[simp] theorem faulted_par (s : State) (c : BitVec 8) : (s.faulted c).par = s.par := rfl
@[simp] theorem faulted_src (s : State) (c : BitVec 8) : (s.faulted c).src = s.src := rfl
@[simp] theorem faulted_dm (s : State) (c : BitVec 8) : (s.faulted c).dm = s.dm := rfl
@[simp] theorem faulted_regs (s : State) (c : BitVec 8) : (s.faulted c).regs = s.regs := rfl
@[simp] theorem faulted_crcAcc (s : State) (c : BitVec 8) : (s.faulted c).crcAcc = s.crcAcc := rfl
@[simp] theorem faulted_bc (s : State) (c : BitVec 8) : (s.faulted c).bc = s.bc := rfl
@[simp] theorem faulted_srcPos (s : State) (c : BitVec 8) : (s.faulted c).srcPos = s.srcPos := rfl
@[simp] theorem faulted_waste (s : State) (c : BitVec 8) : (s.faulted c).waste = s.waste := rfl
@[simp] theorem faulted_lock (s : State) (c : BitVec 8) : (s.faulted c).lock = s.lock := rfl
@[simp] theorem faulted_dead (s : State) (c : BitVec 8) : (s.faulted c).dead = s.dead := rfl
@[simp] theorem faulted_page (s : State) (c : BitVec 8) : (s.faulted c).page = s.page := rfl
@[simp] theorem faulted_streams (s : State) (c : BitVec 8) : (s.faulted c).streams = s.streams := rfl
@[simp] theorem faulted_books (s : State) (c : BitVec 8) : (s.faulted c).books = s.books := rfl
@[simp] theorem faulted_residues (s : State) (c : BitVec 8) : (s.faulted c).residues = s.residues := rfl
@[simp] theorem faulted_mdct (s : State) (c : BitVec 8) : (s.faulted c).mdct = s.mdct := rfl
@[simp] theorem faulted_ola (s : State) (c : BitVec 8) : (s.faulted c).ola = s.ola := rfl
@[simp] theorem faulted_modes (s : State) (c : BitVec 8) : (s.faulted c).modes = s.modes := rfl
@[simp] theorem faulted_ring (s : State) (c : BitVec 8) : (s.faulted c).ring = s.ring := rfl
@[simp] theorem faulted_status (s : State) (c : BitVec 8) : (s.faulted c).status = c := rfl
@[simp] theorem faulted_flags (s : State) (c : BitVec 8) : (s.faulted c).flags = s.flags ||| 0x80 := rfl

/-! ### Registers -/

@[simp] theorem x_zero (s : State) : s.x 0#4 = 0 := rfl

/-- What a register reads after a write (R20, R21). -/
theorem x_setX (s : State) (r q : Reg) (v : Word) :
    (s.setX r v).x q = if q = 0 then 0 else if q = r then v else s.x q := by
  unfold setX x
  by_cases hq : q = 0
  · rw [if_pos hq, if_pos hq]
  · rw [if_neg hq, if_neg hq]
    by_cases hr : r = 0
    · rw [if_pos hr, if_neg (fun e => hq (e.trans hr)), if_neg hq]
    · rw [if_neg hr, if_neg hq]
      dsimp only
      rw [Vector.getElem_set]
      by_cases e : q = r
      · rw [if_pos e, if_pos (by rw [e])]
      · rw [if_neg e, if_neg (fun h => e (BitVec.eq_of_toNat_eq h.symm))]

theorem x_of_regs {s t : State} (h : t.regs = s.regs) (r : Reg) : t.x r = s.x r := by unfold x; rw [h]

@[simp] theorem setFlag_x (s : State) (g : Flag) (r : Reg) : (s.setFlag g).x r = s.x r := rfl
@[simp] theorem dmWrite_x (s : State) (a : Nat) (v : Word32) (r : Reg) : (s.dmWrite a v).x r = s.x r := rfl
@[simp] theorem dmWriteList_x (s : State) (a : Nat) (vs : List Word32) (r : Reg) : (s.dmWriteList a vs).x r = s.x r := rfl
@[simp] theorem bcPeek_x (s : State) (n : Nat) (r : Reg) : ((s.bcPeek n).1).x r = s.x r := rfl
@[simp] theorem ended_x (s : State) (c : BitVec 8) (r : Reg) : (s.ended c).x r = s.x r := rfl
@[simp] theorem faulted_x (s : State) (c : BitVec 8) (r : Reg) : (s.faulted c).x r = s.x r := rfl
@[simp] theorem setFlagIf_x (s : State) (b : Bool) (g : Flag) (r : Reg) : (s.setFlagIf b g).x r = s.x r :=
  x_of_regs (setFlagIf_regs s b g) r
@[simp] theorem bcSkip_x (s : State) (n : Nat) (r : Reg) : (s.bcSkip n).1.x r = s.x r := x_of_regs (bcSkip_regs s n) r

end State

/-! ### The two ends, in the words of the claims -/

theorem finish_eq (s : State) (c : Cond) : s.finish c = .next (s.ended c.code) := rfl

theorem raise_eq (s : State) (t : Trap) : s.raise t = .next (s.faulted t.code) := rfl

end Sys2Proof.Machine
end

