-- ==== Sys2Proof/Laws/Ops.lean ====
section
/-! SUPPORT. For each shared operation, one lemma that says once everything it can do. -/

namespace Sys2Proof.Machine

/-! ### Reading DM inside a command -/

theorem withWord_next {s t : State} {a : Nat} {k : Word32 → Result} :
    s.withWord a k = .next t ↔ ∃ w, Memory.read s.dm a = some w ∧ k w = .next t := by
  unfold State.withWord
  split
  · rename_i w h; constructor
    · exact fun e => ⟨w, h, e⟩
    · rintro ⟨w', h', e⟩; rw [h] at h'; cases h'; exact e
  · rename_i h; constructor
    · intro e; cases e
    · rintro ⟨w', h', _⟩; rw [h] at h'; cases h'

theorem withWord_fault {s : State} {a : Nat} {k : Word32 → Result} {f : Fault} :
    s.withWord a k = .fault f ↔
      (Memory.read s.dm a = none ∧ f = .dmUnwritten a) ∨ ∃ w, Memory.read s.dm a = some w ∧ k w = .fault f := by
  unfold State.withWord
  split
  · rename_i w h; constructor
    · exact fun e => .inr ⟨w, h, e⟩
    · rintro (⟨h', _⟩ | ⟨w', h', e⟩)
      · rw [h] at h'; cases h'
      · rw [h] at h'; cases h'; exact e
  · rename_i h; constructor
    · intro e; cases e; exact .inl ⟨h, rfl⟩
    · rintro (⟨_, rfl⟩ | ⟨w', h', _⟩)
      · rfl
      · rw [h] at h'; cases h'

theorem withWord_of_read {s : State} {a : Nat} {w : Word32} (h : Memory.read s.dm a = some w) (k : Word32 → Result) :
    s.withWord a k = k w := by unfold State.withWord; rw [h]

theorem withWords_next {s t : State} {a n : Nat} {k : List Word32 → Result} :
    s.withWords a n k = .next t ↔ ∃ ws, Memory.readList s.dm a n = .ok ws ∧ k ws = .next t := by
  unfold State.withWords
  split
  · rename_i ws h; constructor
    · exact fun e => ⟨ws, h, e⟩
    · rintro ⟨w', h', e⟩; rw [h] at h'; cases h'; exact e
  · rename_i h; constructor
    · intro e; cases e
    · rintro ⟨w', h', _⟩; rw [h] at h'; cases h'

theorem withWords_fault {s : State} {a n : Nat} {k : List Word32 → Result} {f : Fault} :
    s.withWords a n k = .fault f ↔
      (∃ b, Memory.readList s.dm a n = .error b ∧ f = .dmUnwritten b) ∨
        ∃ ws, Memory.readList s.dm a n = .ok ws ∧ k ws = .fault f := by
  unfold State.withWords
  split
  · rename_i w h; constructor
    · exact fun e => .inr ⟨w, h, e⟩
    · rintro (⟨b, h', _⟩ | ⟨w', h', e⟩)
      · rw [h] at h'; cases h'
      · rw [h] at h'; cases h'; exact e
  · rename_i b h; constructor
    · intro e; cases e; exact .inl ⟨b, h, rfl⟩
    · rintro (⟨b', h', rfl⟩ | ⟨w', h', _⟩)
      · rw [h] at h'; cases h'; rfl
      · rw [h] at h'; cases h'

theorem withWords_of_read {s : State} {a n : Nat} {ws : List Word32} (h : Memory.readList s.dm a n = .ok ws)
    (k : List Word32 → Result) : s.withWords a n k = k ws := by unfold State.withWords; rw [h]

/-! ### Bits -/

theorem bitAt_lt (bs : List Byte) (k : Nat) : bitAt bs k < 2 := Nat.mod_lt _ (by decide)

theorem bitsAt_lt (bs : List Byte) (q n : Nat) : bitsAt bs q n < 2 ^ n := by
  induction n generalizing q with
  | zero => simp [bitsAt]
  | succ n ih => have := ih (q + 1); have := bitAt_lt bs q; simp only [bitsAt, Nat.pow_succ]; omega

/-- A skip answers true and moves on, or false and stands at the end with both short flags set (R123). -/
theorem bcSkip_cases (s : State) (n : Nat) :
    (n ≤ s.bcAvail ∧ s.bcSkip n =
      ({ s with bc := { s.bc with pos := BitVec.ofNat 64 (s.bc.pos.toNat + n) } }, true)) ∨
    (s.bcAvail < n ∧ s.bcSkip n =
      ({ s with bc := { s.bc with pos := BitVec.ofNat 64 s.bcTotal, short := true },
                flags := s.flags ||| 0x01 }, false)) := by
  by_cases h : n ≤ s.bcAvail
  · exact .inl ⟨h, by unfold State.bcSkip; rw [if_pos h]⟩
  · exact .inr ⟨by omega, by unfold State.bcSkip; rw [if_neg h]; rfl⟩

/-! ### Symbols (R178) -/

/-- Where the shortest code is no longer than the table is wide, the test of `hufDecode` on the bits that remain is R178's test
on the bits the first peek returned (log entry 28). -/
theorem shortTest_iff {s : State} {b : Codebook} (h : minLenOf b.codes ≤ tableBitsOf b.codes) :
    s.bcAvail < minLenOf b.codes ↔ (s.bcPeek (tableBitsOf b.codes)).2.2 < minLenOf b.codes := by
  show _ ↔ min (tableBitsOf b.codes) s.bcAvail < _
  omega

/-- Everything a codeword decode can do: peek once or twice, then either stop with nothing consumed, or take one entry. -/
theorem hufDecode_cases (s : State) (b : Codebook) :
    (∃ n, s.hufDecode b = ((s.bcPeek n).1, .invalid)) ∨
    (∃ n e, s.hufDecode b = (((s.bcPeek n).1.bcSkip (b.len e)).1,
      .entry e ((s.bcPeek n).1.bcSkip (b.len e)).2)) := by
  unfold State.hufDecode State.takeSymbol
  dsimp only
  split
  · exact .inl ⟨_, rfl⟩
  · split
    · exact .inr ⟨_, _, rfl⟩
    · split
      · exact .inl ⟨_, rfl⟩
      · split
        · exact .inr ⟨_, _, rfl⟩
        · exact .inl ⟨_, rfl⟩

/-- A codeword decode touches the bit cursor and FLAGS.SHORT alone. -/
theorem hufDecode_frame (s : State) (b : Codebook) :
    ∃ pos short cnt f, (s.hufDecode b).1 =
        { s with bc := { ranges := s.bc.ranges, pos := pos, short := short, cnt := cnt }, flags := f } ∧
      (f = s.flags ∨ f = s.flags ||| 0x01) := by
  rcases hufDecode_cases s b with ⟨n, h⟩ | ⟨n, e, h⟩
  · rw [h]; exact ⟨_, _, _, s.flags, rfl, .inl rfl⟩
  · rw [h]
    rcases bcSkip_cases (s.bcPeek n).1 (b.len e) with ⟨_, h'⟩ | ⟨_, h'⟩
    · rw [h']; exact ⟨_, _, _, s.flags, rfl, .inl rfl⟩
    · rw [h']; exact ⟨_, _, _, s.flags ||| 0x01, rfl, .inr rfl⟩

/-- An INVALID decode consumes nothing and sets nothing (R180). -/
theorem hufDecode_invalid {s : State} {b : Codebook} (h : (s.hufDecode b).2 = .invalid) :
    ∃ n, (s.hufDecode b).1 = (s.bcPeek n).1 := by
  rcases hufDecode_cases s b with ⟨n, e⟩ | ⟨n, e, e'⟩
  · exact ⟨n, by rw [e]⟩
  · rw [e'] at h; cases h

/-! ### Loops -/

/-- What every turn of a counted loop keeps, the whole loop keeps. -/
theorem loopFrom_keeps {σ ε : Type} {body : Nat → σ → Except ε σ} {P : σ → Prop} {E : ε → Prop} {n i : Nat} {r : σ}
    (h0 : P r) (hok : ∀ j, i ≤ j → j < i + n → ∀ r r', P r → body j r = .ok r' → P r')
    (herr : ∀ j, i ≤ j → j < i + n → ∀ r e, P r → body j r = .error e → E e) :
    (∀ r', loopFrom body n i r = .ok r' → P r') ∧ (∀ e, loopFrom body n i r = .error e → E e) := by
  induction n generalizing i r with
  | zero => exact ⟨fun r' e => by cases e; exact h0, fun e h => by cases h⟩
  | succ n ih =>
    rw [loopFrom]
    cases hb : body i r with
    | ok r1 =>
      exact ih (hok i (by omega) (by omega) r r1 h0 hb)
        (fun j h1 h2 => hok j (by omega) (by omega)) (fun j h1 h2 => herr j (by omega) (by omega))
    | error e => exact ⟨(fun r' h => by cases h), (fun e' h => by cases h; exact herr i (by omega) (by omega) r e h0 hb)⟩

/-- What every turn of a loop over a list keeps, the whole loop keeps. -/
theorem loopOver_keeps {α σ ε : Type} {body : α → σ → Except ε σ} {P : σ → Prop} {E : ε → Prop} {xs : List α} {r : σ}
    (h0 : P r) (hok : ∀ x ∈ xs, ∀ r r', P r → body x r = .ok r' → P r')
    (herr : ∀ x ∈ xs, ∀ r e, P r → body x r = .error e → E e) :
    (∀ r', loopOver body xs r = .ok r' → P r') ∧ (∀ e, loopOver body xs r = .error e → E e) := by
  induction xs generalizing r with
  | nil => exact ⟨fun r' e => by cases e; exact h0, fun e h => by cases h⟩
  | cons x xs ih =>
    rw [loopOver]
    cases hb : body x r with
    | ok r1 =>
      exact ih (hok x List.mem_cons_self r r1 h0 hb) (fun y hy => hok y (List.mem_cons_of_mem _ hy))
        (fun y hy => herr y (List.mem_cons_of_mem _ hy))
    | error e => exact ⟨(fun r' h => by cases h), (fun e' h => by cases h; exact herr x List.mem_cons_self r e h0 hb)⟩

/-! ### The scan (R147 to R149) -/

theorem fewerThanFour_iff (rest : List Byte) : fewerThanFour rest = true ↔ rest.length < 4 := by
  unfold fewerThanFour
  split
  · simp
  · rename_i h
    constructor
    · intro _
      match rest, h with
      | [], _ => simp
      | [_], _ => simp
      | [_, _], _ => simp
      | [_, _, _], _ => simp
      | a :: b :: c :: d :: r, h => exact absurd rfl (h a b c d r)
    · exact fun _ => rfl

/-- Everything a scan can answer: the offsets before its answer all have 4 bytes left and hold no page. -/
theorem scanFrom_cases (fuel p : Nat) (rest : List Byte) :
    ∃ k, (∀ j, j < k → 4 ≤ rest.length - j ∧ pageAt (rest.drop j) = false) ∧
      ((k < fuel ∧ 4 ≤ rest.length - k ∧ pageAt (rest.drop k) = true ∧ scanFrom fuel p rest = .found (p + k)) ∨
       (k < fuel ∧ rest.length - k < 4 ∧ scanFrom fuel p rest = .ended) ∨
       (k = fuel ∧ scanFrom fuel p rest = .capped (p + fuel))) := by
  induction fuel generalizing p rest with
  | zero => exact ⟨0, fun j h => absurd h (by omega), .inr (.inr ⟨rfl, rfl⟩)⟩
  | succ fuel ih =>
    rw [scanFrom]
    by_cases h4 : fewerThanFour rest = true
    · rw [if_pos h4]
      rw [fewerThanFour_iff] at h4
      exact ⟨0, fun j h => absurd h (by omega), .inr (.inl ⟨by omega, by omega, rfl⟩)⟩
    · rw [if_neg h4]
      rw [fewerThanFour_iff] at h4
      by_cases hp : pageAt rest = true
      · rw [if_pos hp]
        exact ⟨0, fun j h => absurd h (by omega), .inl ⟨by omega, by omega, by simpa using hp, rfl⟩⟩
      · rw [if_neg hp]
        obtain ⟨k, hk, hc⟩ := ih (p + 1) rest.tail
        have hl : rest.tail.length = rest.length - 1 := List.length_tail
        have hd : ∀ j, rest.tail.drop j = rest.drop (j + 1) := fun j => by rw [List.drop_tail]
        refine ⟨k + 1, fun j hj => ?_, ?_⟩
        · cases j with
          | zero => exact ⟨by omega, by simpa using hp⟩
          | succ j =>
            have := hk j (by omega)
            rw [hd, hl] at this
            exact ⟨by omega, this.2⟩
        · rw [hl, hd] at hc
          rcases hc with ⟨h1, h2, h3, h4⟩ | ⟨h1, h2, h3⟩ | ⟨h1, h2⟩
          · exact .inl ⟨by omega, by omega, h3, by rw [h4]; congr 1; omega⟩
          · exact .inr (.inl ⟨by omega, by omega, h3⟩)
          · exact .inr (.inr ⟨by omega, by rw [h2]; congr 1; omega⟩)

/-! ### Codewords (R172) -/

/-- What giving out a codeword can do: the codeword has the length asked for. -/
theorem alloc_lt {l : Nat} {t t' : CodeTree} {c : Nat} (h : CodeTree.alloc l t = some (c, t')) : c < 2 ^ l := by
  induction l generalizing t t' c with
  | zero =>
    cases t <;> simp [CodeTree.alloc] at h
    omega
  | succ l ih =>
    have hp : 2 ^ (l + 1) = 2 ^ l + 2 ^ l := by omega
    cases t with
    | full => simp [CodeTree.alloc] at h
    | free =>
      simp only [CodeTree.alloc] at h
      split at h
      · rename_i e; cases h; have := ih e; omega
      · cases h
    | node zero one =>
      simp only [CodeTree.alloc] at h
      split at h
      · rename_i e; cases h; have := ih e; omega
      · split at h
        · rename_i e; cases h; have := ih e; omega
        · cases h

end Sys2Proof.Machine
end

