-- ==== Sys2Proof/Laws/Cases.lean ====
section
/-! SUPPORT. One inversion lemma per command: when the command answers a next state, either it faulted and changed nothing, or
its state has the form the lemma gives. Proofs about the whole machine split on these and never unfold a meaning. -/

namespace Sys2Proof.Machine

/-- The command ended with a fault. -/
abbrev Trapped (s t : State) : Prop := ∃ c : Trap, t = s.faulted c.code

theorem trapped_of_raise {s t : State} {c : Trap} (h : s.raise c = .next t) : Trapped s t := by
  cases h; exact ⟨c, rfl⟩

theorem of_finish {s t : State} {c : Cond} (h : s.finish c = .next t) : t = s.ended c.code := by cases h; rfl

/-! ### SYS and CRC -/

theorem sysNop_next {s t : State} (h : exec .sysNop s = .next t) : t = s.ended 0 := of_finish h

theorem sysReset_next {s t : State} (h : exec .sysReset s = .next t) : t = s.resetBlock.ended 0 := of_finish h

theorem sysLi_next {rd : Reg} {imm : Imm} {s t : State} (h : exec (.sysLi rd imm) s = .next t) :
    ∃ v, t = (s.setX rd v).ended 0 := ⟨_, of_finish h⟩

theorem sysLis_next {rd rs1 : Reg} {imm : Imm} {s t : State} (h : exec (.sysLis rd rs1 imm) s = .next t) :
    ∃ v, t = (s.setX rd v).ended 0 := ⟨_, of_finish h⟩

theorem sysCsrr_next {rd : Reg} {csr : Imm} {s t : State} (h : exec (.sysCsrr rd csr) s = .next t) :
    Trapped s t ∨ ∃ v, s.csrRead csr.toNat = some v ∧ t = (s.setX rd v).ended 0 := by
  simp only [exec, execSysCsrr] at h
  split at h
  · exact .inl (trapped_of_raise h)
  · exact .inr ⟨_, ‹_›, of_finish h⟩

theorem sysCsrw_next {rs1 : Reg} {csr : Imm} {s t : State} (h : exec (.sysCsrw rs1 csr) s = .next t) :
    Trapped s t ∨ (∃ m, t = State.ended { s with flags := clearFlags s.flags m } 0) ∨
      (∃ v, t = State.ended { s with crcAcc := v } 0) ∨ ∃ v, t = State.ended { s with waste := v } 0 := by
  simp only [exec, execSysCsrw] at h
  split at h
  · exact .inr (.inl ⟨_, of_finish h⟩)
  · split at h
    · exact .inr (.inr (.inl ⟨_, of_finish h⟩))
    · split at h
      · exact .inr (.inr (.inr ⟨_, of_finish h⟩))
      · exact .inl (trapped_of_raise h)

theorem sysLdw_next {rd rs1 : Reg} {imm : Imm} {s t : State} (h : exec (.sysLdw rd rs1 imm) s = .next t) :
    Trapped s t ∨ ∃ v, t = (s.setX rd v).ended 0 := by
  simp only [exec, execSysLdw] at h
  split at h
  · exact .inl (trapped_of_raise h)
  · obtain ⟨w, _, h⟩ := withWord_next.1 h
    exact .inr ⟨_, of_finish h⟩

theorem sysStw_next {rs1 rs2 : Reg} {imm : Imm} {s t : State} (h : exec (.sysStw rs1 rs2 imm) s = .next t) :
    Trapped s t ∨ ∃ v, t = (s.dmWrite (s.offset rs1 imm) v).ended 0 := by
  simp only [exec, execSysStw] at h
  split at h
  · exact .inl (trapped_of_raise h)
  · exact .inr ⟨_, of_finish h⟩

theorem crcClr_next {s t : State} (h : exec .crcClr s = .next t) : ∃ v, t = State.ended { s with crcAcc := v } 0 :=
  ⟨_, of_finish h⟩

theorem crcUpd_next {rs1 : Reg} {imm : Imm} {s t : State} (h : exec (.crcUpd rs1 imm) s = .next t) :
    ∃ v, t = State.ended { s with crcAcc := v } 0 := ⟨_, of_finish h⟩

theorem crcSrc_next {rs1 rs2 : Reg} {s t : State} (h : exec (.crcSrc rs1 rs2) s = .next t) :
    Trapped s t ∨ ∃ v, t = State.ended { s with crcAcc := v } 0 := by
  simp only [exec, execCrcSrc] at h
  split at h
  · exact .inl (trapped_of_raise h)
  · exact .inr ⟨_, of_finish h⟩

theorem crcGet_next {rd : Reg} {s t : State} (h : exec (.crcGet rd) s = .next t) : ∃ v, t = (s.setX rd v).ended 0 :=
  ⟨_, of_finish h⟩

/-! ### BC -/

theorem endRead_next {r : State × Bool} {t : State} (h : endRead r = .next t) :
    t = r.1.ended (if r.2 then 0 else 2) := by
  obtain ⟨s, b⟩ := r
  cases b <;> exact of_finish h

theorem bcClr_next {s t : State} (h : exec .bcClr s = .next t) :
    t = State.ended { s with bc := { ranges := [], pos := 0, short := false, cnt := 0 } } 0 := of_finish h

theorem bcReset_next {s t : State} (h : exec .bcReset s = .next t) :
    t = State.ended { s with bc := { s.bc with pos := 0, short := false, cnt := 0 } } 0 := of_finish h

theorem bcAddr_next {rs1 rs2 : Reg} {s t : State} (h : exec (.bcAddr rs1 rs2) s = .next t) :
    Trapped s t ∨ ∃ off len : Word, s.bc.ranges.length ≠ s.par.maxRanges ∧ off.toNat + len.toNat ≤ s.srcLen ∧
      t = State.ended { s with bc := { s.bc with ranges := s.bc.ranges ++ [{ off := off, len := len }] } } 0 := by
  simp only [exec, execBcAddr] at h
  split at h
  · exact .inl (trapped_of_raise h)
  · split at h
    · exact .inl (trapped_of_raise h)
    · split at h
      · cases h
      · exact .inr ⟨s.x rs1, s.x rs2, ‹_›, Nat.not_lt.1 ‹_›, of_finish h⟩

theorem bcPeek_next {rd rs1 : Reg} {imm : Imm} {s t : State} (h : exec (.bcPeek rd rs1 imm) s = .next t) :
    Trapped s t ∨ ∃ n v, t = ((s.bcPeek n).1.setX rd v).ended 0 := by
  simp only [exec, execBcPeek] at h
  split at h
  · exact .inl (trapped_of_raise h)
  · exact .inr ⟨_, _, of_finish h⟩

theorem bcSkip_next {rs1 : Reg} {imm : Imm} {s t : State} (h : exec (.bcSkip rs1 imm) s = .next t) :
    ∃ n, t = (s.bcSkip n).1.ended (if (s.bcSkip n).2 then 0 else 2) := ⟨_, endRead_next h⟩

theorem bcRead_next {rd rs1 : Reg} {imm : Imm} {s t : State} (h : exec (.bcRead rd rs1 imm) s = .next t) :
    Trapped s t ∨ ∃ n v, t = (((s.bcPeek n).1.setX rd v).bcSkip n).1.ended
      (if (((s.bcPeek n).1.setX rd v).bcSkip n).2 then 0 else 2) := by
  simp only [exec, execBcRead] at h
  split at h
  · exact .inl (trapped_of_raise h)
  · exact .inr ⟨_, _, endRead_next h⟩

theorem bcRdvf_next {rd : Reg} {s t : State} (h : exec (.bcRdvf rd) s = .next t) :
    ∃ n v, t = (((s.bcPeek n).1.setX rd v).bcSkip n).1.ended
      (if (((s.bcPeek n).1.setX rd v).bcSkip n).2 then 0 else 2) := ⟨_, _, endRead_next h⟩

/-! ### PFV -/

theorem pfvLock_next {imm : Imm} {s t : State} (h : exec (.pfvLock imm) s = .next t) :
    Trapped s t ∨
    (s.lock.held = false ∧ t = State.ended { s with lock := { held := true, owner := consumer imm, depth := 1 } } 0) ∨
    (s.lock.held = true ∧ s.lock.owner = consumer imm ∧ s.lock.depth ≠ 255 ∧
      t = State.ended { s with lock := { s.lock with depth := s.lock.depth + 1 } } 0) ∨
    (s.lock.held = true ∧ s.lock.owner ≠ consumer imm ∧ t = s.ended 4) := by
  simp only [exec, execPfvLock] at h
  split at h
  · exact .inr (.inl ⟨‹_›, of_finish h⟩)
  · have hh : s.lock.held = true := by simpa using ‹¬ s.lock.held = false›
    split at h
    · split at h
      · exact .inl (trapped_of_raise h)
      · exact .inr (.inr (.inl ⟨hh, ‹_›, ‹_›, of_finish h⟩))
    · exact .inr (.inr (.inr ⟨hh, ‹_›, of_finish h⟩))

theorem pfvRel_next {imm : Imm} {s t : State} (h : exec (.pfvRel imm) s = .next t) :
    Trapped s t ∨ (s.holdsLock (consumer imm) = true ∧
      (t = State.ended { s with lock := { held := false, owner := 0, depth := 0 } } 0 ∨
       (s.lock.depth - 1 ≠ 0 ∧ t = State.ended { s with lock := { s.lock with depth := s.lock.depth - 1 } } 0))) := by
  simp only [exec, execPfvRel] at h
  split at h
  · exact .inl (trapped_of_raise h)
  · have hh : s.holdsLock (consumer imm) = true := by simpa using ‹¬ s.holdsLock (consumer imm) = false›
    split at h
    · exact .inr ⟨hh, .inl (of_finish h)⟩
    · exact .inr ⟨hh, .inr ⟨‹_›, of_finish h⟩⟩

theorem pfvSeek_next {rs1 : Reg} {imm : Imm} {s t : State} (h : exec (.pfvSeek rs1 imm) s = .next t) :
    Trapped s t ∨ ∃ p : Word, s.holdsLock (consumer imm) = true ∧ p.toNat ≤ s.srcLen ∧
      t = State.ended { s with srcPos := p, dead := false } 0 := by
  simp only [exec, execPfvSeek] at h
  split at h
  · exact .inl (trapped_of_raise h)
  · split at h
    · exact .inl (trapped_of_raise h)
    · exact .inr ⟨s.x rs1, by simpa using ‹¬ s.holdsLock (consumer imm) = false›, Nat.not_lt.1 ‹_›, of_finish h⟩

theorem pfvNext_next {rd : Reg} {imm : Imm} {s t : State} (h : exec (.pfvNext rd imm) s = .next t) :
    Trapped s t ∨ (s.holdsLock (consumer imm) = true ∧
      (t = ((State.setX { s with page := { s.page with valid := false } } rd noResult).setFlag .unrec).ended 9 ∨
       (∃ p, s.scan = .capped p ∧
          t = State.ended { (s.noPage rd p).setFlag .unrec with dead := true } 9) ∨
       (s.scan = .ended ∧ t = ((s.noPage rd s.srcLen).setFlag .eos).ended 1) ∨
       (∃ p v, s.scan = .found p ∧
          t = ((s.acceptPage p).1.setX rd v).ended (if (s.acceptPage p).2 then 5 else 0)))) := by
  simp only [exec, execPfvNext] at h
  split at h
  · exact .inl (trapped_of_raise h)
  · refine .inr ⟨by simpa using ‹¬ s.holdsLock (consumer imm) = false›, ?_⟩
    split at h
    · exact .inl (of_finish h)
    · split at h
      · exact .inr (.inl ⟨_, ‹_›, of_finish h⟩)
      · exact .inr (.inr (.inl ⟨‹_›, of_finish h⟩))
      · rename_i p hp
        refine .inr (.inr (.inr ⟨p, BitVec.ofNat 64 p, hp, ?_⟩))
        cases hf : (s.acceptPage p).2 <;> (simp only [hf] at h; exact of_finish h)

theorem pfvLace_next {rd rs1 : Reg} {s t : State} (h : exec (.pfvLace rd rs1) s = .next t) :
    Trapped s t ∨ ∃ v, t = (s.setX rd v).ended 0 := by
  simp only [exec, execPfvLace] at h
  split at h
  · exact .inl (trapped_of_raise h)
  · split at h
    · exact .inl (trapped_of_raise h)
    · exact .inr ⟨_, of_finish h⟩

theorem pfvPkt_next {rd rs1 : Reg} {imm : Imm} {s t : State} (h : exec (.pfvPkt rd rs1 imm) s = .next t) :
    Trapped s t ∨ ∃ v, t = (s.setX rd v).ended 0 := by
  simp only [exec, execPfvPkt] at h
  split at h
  · exact .inl (trapped_of_raise h)
  · split at h
    · exact .inl (trapped_of_raise h)
    · split at h
      · exact .inl (trapped_of_raise h)
      · exact .inr ⟨_, of_finish h⟩

theorem pfvStrm_next {rd rs1 : Reg} {imm : Imm} {s t : State} (h : exec (.pfvStrm rd rs1 imm) s = .next t) :
    Trapped s t ∨ ∃ v, t = (s.setX rd v).ended 0 := by
  simp only [exec, execPfvStrm] at h
  split at h
  · exact .inl (trapped_of_raise h)
  · exact .inr ⟨_, of_finish h⟩

/-! ### HUF -/

theorem malformed_next {s t : State} (h : s.malformed = .next t) : t = (s.setFlag .malformed).ended 8 := of_finish h

theorem hufBuild_next {rs1 rs2 : Reg} {s t : State} (h : exec (.hufBuild rs1 rs2) s = .next t) :
    Trapped s t ∨ t = ((s.openSlot (s.xNat rs1)).setFlag .malformed).ended 8 ∨
      ∃ b, t = State.ended { s.openSlot (s.xNat rs1) with
        books := Table.put (s.openSlot (s.xNat rs1)).books (s.xNat rs1) b } 0 := by
  simp only [exec, execHufBuild] at h
  split at h
  · exact .inl (trapped_of_raise h)
  · split at h
    · exact .inl (trapped_of_raise h)
    · obtain ⟨w, _, h⟩ := withWord_next.1 h
      obtain ⟨d, _, h⟩ := withWord_next.1 h
      split at h
      · exact .inl (trapped_of_raise h)
      · split at h
        · exact .inr (.inl (malformed_next h))
        · obtain ⟨ws, _, h⟩ := withWords_next.1 h
          split at h
          · exact .inr (.inl (malformed_next h))
          · split at h
            · exact .inr (.inl (malformed_next h))
            · split at h
              · exact .inr (.inl (malformed_next h))
              · exact .inr (.inr ⟨_, of_finish h⟩)

theorem hufVq_next {rs1 rs2 : Reg} {s t : State} (h : exec (.hufVq rs1 rs2) s = .next t) :
    Trapped s t ∨ ∃ b, Table.find s.books (s.xNat rs1) = some b ∧
      (t = (s.dropTable (s.xNat rs1) b).ended 0 ∨
       t = ((s.dropTable (s.xNat rs1) b).setFlag .malformed).ended 8 ∨
       ∃ b1, t = State.ended { s.dropTable (s.xNat rs1) b with
         books := Table.put (s.dropTable (s.xNat rs1) b).books (s.xNat rs1) b1 } 0) := by
  simp only [exec, execHufVq] at h
  split at h
  · exact .inl (trapped_of_raise h)
  · split at h
    · exact .inl (trapped_of_raise h)
    · obtain ⟨w, _, h⟩ := withWord_next.1 h
      split at h
      · exact .inl (trapped_of_raise h)
      · split at h
        · exact .inl (trapped_of_raise h)
        · rename_i b hb
          refine .inr ⟨b, hb, ?_⟩
          obtain ⟨mw, _, h⟩ := withWord_next.1 h
          split at h
          · exact .inl (of_finish h)
          · split at h
            · exact .inr (.inl (malformed_next h))
            · obtain ⟨sw, _, h⟩ := withWord_next.1 h
              split at h
              · exact .inr (.inl (malformed_next h))
              · split at h
                · exact .inr (.inl (malformed_next h))
                · split at h
                  · exact .inr (.inl (malformed_next h))
                  · obtain ⟨m, _, h⟩ := withWord_next.1 h
                    obtain ⟨d, _, h⟩ := withWord_next.1 h
                    obtain ⟨ms, _, h⟩ := withWords_next.1 h
                    exact .inr (.inr ⟨_, of_finish h⟩)

theorem hufDec_next {rd rs1 : Reg} {s t : State} (h : exec (.hufDec rd rs1) s = .next t) :
    Trapped s t ∨ ∃ b, Table.find s.books (s.xNat rs1) = some b ∧
      (((s.hufDecode b).2 = .invalid ∧ t = (((s.hufDecode b).1.setX rd noResult).setFlag .invalid).ended 3) ∨
       ∃ e ok, (s.hufDecode b).2 = .entry e ok ∧
         t = ((s.hufDecode b).1.setX rd (BitVec.ofNat 64 e)).ended (if ok then 0 else 2)) := by
  simp only [exec, execHufDec] at h
  split at h
  · exact .inl (trapped_of_raise h)
  · split at h
    · exact .inl (trapped_of_raise h)
    · rename_i b hb
      refine .inr ⟨b, hb, ?_⟩
      split at h
      · rename_i s1 e
        rw [e]; exact .inl ⟨rfl, of_finish h⟩
      · rename_i s1 x ok e
        rw [e]; refine .inr ⟨x, ok, rfl, ?_⟩
        cases ok <;> exact of_finish h

theorem hufDecv_next {rd rs1 rs2 : Reg} {s t : State} (h : exec (.hufDecv rd rs1 rs2) s = .next t) :
    Trapped s t ∨ ∃ b, Table.find s.books (s.xNat rs1) = some b ∧
      (((s.hufDecode b).2 = .invalid ∧ t = (((s.hufDecode b).1.setX rd noResult).setFlag .invalid).ended 3) ∨
       (∃ e, (s.hufDecode b).2 = .entry e false ∧ t = ((s.hufDecode b).1.setX rd (BitVec.ofNat 64 e)).ended 2) ∨
       (∃ e, (s.hufDecode b).2 = .entry e true ∧
         t = (((s.hufDecode b).1.setX rd (BitVec.ofNat 64 e)).dmWriteList (s.xNat rs2) (b.vector e)).ended 0)) := by
  simp only [exec, execHufDecv] at h
  split at h
  · exact .inl (trapped_of_raise h)
  · split at h
    · exact .inl (trapped_of_raise h)
    · rename_i b hb
      split at h
      · exact .inl (trapped_of_raise h)
      · split at h
        · exact .inl (trapped_of_raise h)
        · refine .inr ⟨b, hb, ?_⟩
          split at h
          · rename_i s1 e
            rw [e]; exact .inl ⟨rfl, of_finish h⟩
          · rename_i s1 x ok e
            rw [e]
            cases ok
            · exact .inr (.inl ⟨x, rfl, of_finish h⟩)
            · exact .inr (.inr ⟨x, rfl, of_finish h⟩)

theorem hufInfo_next {rd rs1 : Reg} {imm : Imm} {s t : State} (h : exec (.hufInfo rd rs1 imm) s = .next t) :
    Trapped s t ∨ ∃ v, t = (s.setX rd v).ended 0 := by
  simp only [exec, execHufInfo] at h
  split at h
  · exact .inl (trapped_of_raise h)
  · split at h
    · split at h
      · exact .inr ⟨_, of_finish h⟩
      · exact .inl (trapped_of_raise h)
    · exact .inr ⟨_, of_finish h⟩

theorem hufCode_next {rd rs1 rs2 : Reg} {s t : State} (h : exec (.hufCode rd rs1 rs2) s = .next t) :
    Trapped s t ∨ ∃ v, t = (s.setX rd v).ended 0 := by
  simp only [exec, execHufCode] at h
  split at h
  · exact .inl (trapped_of_raise h)
  · split at h
    · exact .inl (trapped_of_raise h)
    · split at h
      · exact .inl (trapped_of_raise h)
      · exact .inr ⟨_, of_finish h⟩

theorem hufLut_next {rd rs1 rs2 : Reg} {s t : State} (h : exec (.hufLut rd rs1 rs2) s = .next t) :
    Trapped s t ∨ ∃ v, t = (s.setX rd v).ended 0 := by
  simp only [exec, execHufLut] at h
  split at h
  · exact .inl (trapped_of_raise h)
  · split at h
    · exact .inl (trapped_of_raise h)
    · split at h
      · exact .inl (trapped_of_raise h)
      · split at h
        · exact .inl (trapped_of_raise h)
        · exact .inr ⟨_, of_finish h⟩

/-! ### RES -/

theorem resSetup_next {rs1 rs2 : Reg} {s t : State} (h : exec (.resSetup rs1 rs2) s = .next t) :
    Trapped s t ∨
    t = (State.setFlag { s with residues := Table.erase s.residues (s.xNat rs1) } .malformed).ended 8 ∨
    ∃ res, (∃ b, Table.find s.books res.classbook = some b) ∧ s.stagesReady res.classes = true ∧
      t = State.ended { s with residues := Table.put (Table.erase s.residues (s.xNat rs1)) (s.xNat rs1) res } 0 := by
  simp only [exec, execResSetup] at h
  split at h
  · exact .inl (trapped_of_raise h)
  · split at h
    · exact .inl (trapped_of_raise h)
    · obtain ⟨nw, _, h⟩ := withWord_next.1 h
      split at h
      · exact .inl (trapped_of_raise h)
      · obtain ⟨bw, _, h⟩ := withWord_next.1 h
        obtain ⟨ew, _, h⟩ := withWord_next.1 h
        obtain ⟨pw, _, h⟩ := withWord_next.1 h
        refine .inr ?_
        split at h
        · exact .inl (malformed_next h)
        · split at h
          · exact .inl (malformed_next h)
          · split at h
            · exact .inl (malformed_next h)
            · obtain ⟨cw, _, h⟩ := withWord_next.1 h
              split at h
              · exact .inl (malformed_next h)
              · rename_i cb hcb
                split at h
                · exact .inl (malformed_next h)
                · obtain ⟨ms, _, h⟩ := withWords_next.1 h
                  split at h
                  · exact .inl (malformed_next h)
                  · split at h
                    · cases h
                    · split at h
                      · exact .inl (malformed_next h)
                      · refine .inr ⟨_, ⟨cb, hcb⟩, ?_, of_finish h⟩
                        simpa using ‹¬ s.stagesReady _ = false›

/-- How `RES.DEC` can end, of a run that ended. -/
theorem endResDec_next {rd : Reg} {x : Except ResHalt ResRun} {t : State} (h : endResDec rd x = .next t) :
    ∃ r : ResRun, (x = .ok r ∧ t = (r.st.setX rd (BitVec.ofNat 64 r.cnt)).ended 0) ∨
      (x = .error (.short r) ∧ t = (r.st.setX rd (BitVec.ofNat 64 r.cnt)).ended 2) ∨
      (x = .error (.invalid r) ∧ t = ((r.st.setX rd (BitVec.ofNat 64 r.cnt)).setFlag .invalid).ended 3) := by
  unfold endResDec at h
  split at h
  · exact ⟨_, .inl ⟨rfl, of_finish h⟩⟩
  · exact ⟨_, .inr (.inl ⟨rfl, of_finish h⟩)⟩
  · exact ⟨_, .inr (.inr ⟨rfl, of_finish h⟩)⟩
  · cases h

theorem resDec_next {rd rs1 rs2 : Reg} {s t : State} (h : exec (.resDec rd rs1 rs2) s = .next t) :
    Trapped s t ∨ ∃ (res : Residue) (words : List Word32) (vw nw : Word32),
      Table.find s.residues (s.xNat rs1) = some res ∧
      Memory.read s.dm (s.xNat rs2) = some vw ∧ Memory.read s.dm (s.xNat rs2 + 2) = some nw ∧
      (∃ cw, Memory.read s.dm (s.xNat rs2 + 1) = some cw ∧ 0 < cw.toNat ∧
        Memory.readList s.dm (s.xNat rs2 + 3) (2 * cw.toNat) = .ok words) ∧
      endResDec rd (resDecode res
        { interleaved := vw.toNat == 1, n := nw.toNat, bufs := (evenWords words).map BitVec.toNat,
          skip := ((oddWords words).map BitVec.toNat).map (fun d => d == 1) } s) = .next t := by
  simp only [exec, execResDec] at h
  split at h
  · exact .inl (trapped_of_raise h)
  · split at h
    · exact .inl (trapped_of_raise h)
    · obtain ⟨vw, hv, h⟩ := withWord_next.1 h
      obtain ⟨cw, hc, h⟩ := withWord_next.1 h
      obtain ⟨nw, hn, h⟩ := withWord_next.1 h
      split at h
      · exact .inl (trapped_of_raise h)
      · rename_i hcond
        split at h
        · exact .inl (trapped_of_raise h)
        · obtain ⟨ws, hw, h⟩ := withWords_next.1 h
          split at h
          · exact .inl (trapped_of_raise h)
          · split at h
            · exact .inl (trapped_of_raise h)
            · rename_i res hres
              split at h
              · exact .inl (trapped_of_raise h)
              · split at h
                · cases h
                · exact .inr ⟨res, ws, vw, nw, hres, hv, hn, ⟨cw, hc, by omega, hw⟩, h⟩

/-! ### MDCT and OLA -/

theorem mdctInit_next {rs1 : Reg} {imm : Imm} {s t : State} (h : exec (.mdctInit rs1 imm) s = .next t) :
    Trapped s t ∨ ∃ m, t = State.ended { s with mdct := m } 0 := by
  simp only [exec, execMdctInit] at h
  split at h
  · exact .inl (trapped_of_raise h)
  · exact .inr ⟨_, of_finish h⟩

theorem mdctRev_next {rd rs1 : Reg} {imm : Imm} {s t : State} (h : exec (.mdctRev rd rs1 imm) s = .next t) :
    Trapped s t ∨ ∃ v vs, vs.length = s.mdctSize imm ∧
      t = ((s.dmWriteList (s.xNat rs1) vs).setX rd v).ended 0 := by
  simp only [exec, execMdctRev] at h
  split at h
  · exact .inl (trapped_of_raise h)
  · split at h
    · exact .inl (trapped_of_raise h)
    · obtain ⟨ws, _, h⟩ := withWords_next.1 h
      exact .inr ⟨_, _, by simp [imdctBlock], of_finish h⟩

theorem isBlockSize_le {p : Params} {n : Nat} (h : isBlockSize p n = true) : n ≤ 2 ^ p.blkMaxLog2 := by
  simp only [isBlockSize, Bool.and_eq_true, beq_iff_eq, decide_eq_true_eq] at h
  rw [h.1.1]
  exact Nat.pow_le_pow_right (by decide) h.2

theorem olaCfg_next {rs1 rs2 : Reg} {imm : Imm} {s t : State} (h : exec (.olaCfg rs1 rs2 imm) s = .next t) :
    Trapped s t ∨ ∃ o b1, b1 ≤ 2 ^ s.par.blkMaxLog2 ∧
      t = State.ended { s with
        ola := o, modes := [],
        ring := { buf := [], start := 0, valid := 0, endAt := 0, cap := BitVec.ofNat 32 (max s.ring.cap.toNat b1) } } 0 := by
  simp only [exec, execOlaCfg] at h
  split at h
  · exact .inl (trapped_of_raise h)
  · split at h
    · exact .inl (trapped_of_raise h)
    · rename_i hb
      refine .inr ⟨_, s.xNat rs2, isBlockSize_le ?_, of_finish h⟩
      cases e : isBlockSize s.par (s.xNat rs2)
      · exact absurd (.inr (.inl e)) hb
      · rfl

theorem olaMode_next {rs1 : Reg} {imm : Imm} {s t : State} (h : exec (.olaMode rs1 imm) s = .next t) :
    Trapped s t ∨ ∃ m, t = State.ended { s with modes := Table.put s.modes (s.xNat rs1) m } 0 := by
  simp only [exec, execOlaMode] at h
  split at h
  · exact .inl (trapped_of_raise h)
  · split at h
    · exact .inl (trapped_of_raise h)
    · exact .inr ⟨_, of_finish h⟩

theorem olaWin_next {rd rs1 rs2 : Reg} {imm : Imm} {s t : State} (h : exec (.olaWin rd rs1 rs2 imm) s = .next t) :
    Trapped s t ∨ ∃ v, t = (s.setX rd v).ended 0 := by
  simp only [exec, execOlaWin] at h
  split at h
  · exact .inl (trapped_of_raise h)
  · split at h
    · exact .inl (trapped_of_raise h)
    · split at h
      · exact .inl (trapped_of_raise h)
      · exact .inr ⟨_, of_finish h⟩

theorem olaAdd_next {rd rs1 rs2 : Reg} {imm : Imm} {s t : State} (h : exec (.olaAdd rd rs1 rs2 imm) s = .next t) :
    Trapped s t ∨ ∃ (mode : Mode) (words : List Word32) (r : Ring) (v : Word),
      Table.find s.modes (s.xNat rs1) = some mode ∧
      Memory.readList s.dm (s.xNat rs2) (2 * s.ola.ch.toNat) = .ok words ∧
      framesNeeded s.ola.prev.toNat mode.n s.ring ≤ (s.par.rbMax : Int) ∧
      loopOver (addChannel s.dm (mode.windows.getD (selector 2 imm) []) mode.n
        (landing s.ola.prev.toNat mode.n s.ring.valid) s.ring.valid) (blockChannels 0 words) s.ring = .ok r ∧
      t = (State.setX { s with
        ring := { r with
          valid := validAfter s.ola.prev.toNat mode.n s.ring.valid
          endAt := max s.ring.endAt (landing s.ola.prev.toNat mode.n s.ring.valid + (mode.n : Int)).toNat
          cap := BitVec.ofNat 32 (max s.ring.cap.toNat (framesNeeded s.ola.prev.toNat mode.n s.ring).toNat) }
        ola := { s.ola with prev := BitVec.ofNat 14 mode.n } } rd v).ended 0 := by
  simp only [exec, execOlaAdd] at h
  split at h
  · exact .inl (trapped_of_raise h)
  · split at h
    · exact .inl (trapped_of_raise h)
    · split at h
      · exact .inl (trapped_of_raise h)
      · rename_i mode hm
        split at h
        · exact .inl (trapped_of_raise h)
        · split at h
          · exact .inl (trapped_of_raise h)
          · obtain ⟨ws, hw, h⟩ := withWords_next.1 h
            split at h
            · exact .inl (trapped_of_raise h)
            · split at h
              · exact .inl (trapped_of_raise h)
              · split at h
                · exact .inl (trapped_of_raise h)
                · split at h
                  · cases h
                  · exact .inr ⟨mode, ws, _, _, hm, hw, Int.not_lt.1 ‹_›, ‹_›, of_finish h⟩

theorem olaRd_next {rd rs1 rs2 : Reg} {s t : State} (h : exec (.olaRd rd rs1 rs2) s = .next t) :
    Trapped s t ∨ ∃ v vs, ∃ k, k = min (s.xNat rs2) (s.ring.valid - s.ring.start) ∧
      vs.length = k * s.ola.ch.toNat ∧
      t = (State.setX { s.dmWriteList (s.xNat rs1) vs with ring := s.ring.drop k } rd v).ended 0 := by
  simp only [exec, execOlaRd] at h
  split at h
  · exact .inl (trapped_of_raise h)
  · split at h
    · exact .inl (trapped_of_raise h)
    · refine .inr ⟨_, _, _, rfl, ?_, of_finish h⟩
      simp [drainWords]

theorem olaDisc_next {rd rs1 : Reg} {s t : State} (h : exec (.olaDisc rd rs1) s = .next t) :
    Trapped s t ∨ ∃ v k, k ≤ s.ring.valid - s.ring.start ∧
      t = (State.setX { s with ring := s.ring.drop k } rd v).ended 0 := by
  simp only [exec, execOlaDisc] at h
  split at h
  · exact .inl (trapped_of_raise h)
  · exact .inr ⟨_, _, Nat.min_le_right _ _, of_finish h⟩

theorem olaReset_next {s t : State} (h : exec .olaReset s = .next t) :
    t = State.ended { s with ring := s.ring.clear s.ring.valid s.ring.endAt, ola := { s.ola with prev := 0 } } 0 :=
  of_finish h

theorem olaCpl_next {rs1 : Reg} {s t : State} (h : exec (.olaCpl rs1) s = .next t) :
    Trapped s t ∨ ∃ (mw aw cw : Word32) (ms as : List Word32),
      Memory.read s.dm (s.xNat rs1) = some mw ∧ Memory.read s.dm (s.xNat rs1 + 1) = some aw ∧
      Memory.read s.dm (s.xNat rs1 + 2) = some cw ∧ ms.length = cw.toNat ∧ as.length = cw.toNat ∧
      t = ((s.dmWriteList mw.toNat ms).dmWriteList aw.toNat as).ended 0 := by
  simp only [exec, execOlaCpl] at h
  split at h
  · exact .inl (trapped_of_raise h)
  · obtain ⟨mw, hm, h⟩ := withWord_next.1 h
    obtain ⟨aw, ha, h⟩ := withWord_next.1 h
    obtain ⟨cw, hc, h⟩ := withWord_next.1 h
    split at h
    · exact .inl (trapped_of_raise h)
    · split at h
      · exact .inl (trapped_of_raise h)
      · split at h
        · cases h
        · obtain ⟨xs, hx, h⟩ := withWords_next.1 h
          obtain ⟨ys, hy, h⟩ := withWords_next.1 h
          have e1 := (Memory.readList_ok hx).1
          have e2 := (Memory.readList_ok hy).1
          exact .inr ⟨mw, aw, cw, _, _, hm, ha, hc, by simp [e1, e2], by simp [e1, e2], of_finish h⟩

end Sys2Proof.Machine
end

