-- ==== Sys2Proof/Laws/Residue.lean ====
section
/-! SUPPORT. Everything a residue decode can do, whatever it decodes: it touches the buffers, the bit cursor and FLAGS.SHORT
alone, it never forgets a DM word, and it stops only on a missing codebook or an unwritten word of a buffer. -/

namespace Sys2Proof.Machine

/-- `u` is `s` after part of a residue decode whose stores go to addresses in `W`. -/
structure Ran (s : State) (W : Nat → Prop) (u : State) : Prop where
  form : ∃ dm pos cnt, u = { s with dm := dm, bc := { ranges := s.bc.ranges, pos := pos, short := s.bc.short, cnt := cnt } } ∧
    (s.bc.pos.toNat ≤ s.bcTotal → pos.toNat ≤ s.bcTotal)
  wf : Memory.wf s.dm → Memory.wf u.dm
  outside : ∀ a, ¬ W a → Memory.read u.dm a = Memory.read s.dm a
  unknown : ∀ a, Memory.read u.dm a = none → Memory.read s.dm a = none

/-- How such a decode may stop early. -/
def Halted (s : State) (W : Nat → Prop) : ResHalt → Prop
  | .invalid r => Ran s W r.st
  | .short r => ∃ u, Ran s W u ∧
      r.st = { u with bc := { u.bc with pos := BitVec.ofNat 64 s.bcTotal, short := true }, flags := s.flags ||| 0x01 }
  | .fault f => (∃ a, W a ∧ f = .dmUnwritten a ∧ Memory.read s.dm a = none) ∨
      ∃ k, f = .bookAbsent k ∧ Table.find s.books k = none

theorem Ran.refl (s : State) (W : Nat → Prop) : Ran s W s :=
  ⟨⟨s.dm, s.bc.pos, s.bc.cnt, rfl, id⟩, id, fun _ _ => rfl, fun _ h => h⟩

theorem Ran.books {s u : State} {W : Nat → Prop} (h : Ran s W u) : u.books = s.books := by
  obtain ⟨⟨dm, pos, cnt, rfl, _⟩, _⟩ := h; rfl

theorem Ran.flags {s u : State} {W : Nat → Prop} (h : Ran s W u) : u.flags = s.flags := by
  obtain ⟨⟨dm, pos, cnt, rfl, _⟩, _⟩ := h; rfl

theorem Ran.bcTotal {s u : State} {W : Nat → Prop} (h : Ran s W u) : u.bcTotal = s.bcTotal := by
  obtain ⟨⟨dm, pos, cnt, rfl, _⟩, _⟩ := h; rfl

/-- A peek keeps the form. -/
theorem Ran.peek {s u : State} {W : Nat → Prop} (h : Ran s W u) (n : Nat) : Ran s W (u.bcPeek n).1 := by
  obtain ⟨⟨dm, pos, cnt, rfl, hp⟩, h2, h3, h4⟩ := h
  exact ⟨⟨dm, pos, _, rfl, hp⟩, h2, h3, h4⟩

/-- A skip that had its bits keeps the form. -/
theorem Ran.skip {s u : State} {W : Nat → Prop} (h : Ran s W u) (n : Nat) (hn : n ≤ u.bcAvail) :
    Ran s W (u.bcSkip n).1 := by
  rcases bcSkip_cases u n with ⟨h0, e⟩ | ⟨h0, e⟩
  · rw [e]
    unfold State.bcAvail at h0
    rw [h.bcTotal] at h0
    obtain ⟨⟨dm, pos, cnt, rfl, hp⟩, h2, h3, h4⟩ := h
    refine ⟨⟨dm, _, cnt, rfl, fun hs => ?_⟩, h2, h3, h4⟩
    have := hp hs
    simp only [BitVec.toNat_ofNat]
    have := Nat.mod_le (pos.toNat + n) (2 ^ 64)
    dsimp only at h0
    omega
  · omega

/-- A stored sum keeps the form. -/
theorem Ran.write {s u : State} {W : Nat → Prop} (h : Ran s W u) {a : Nat} (ha : W a) (v : Word32) :
    Ran s W (u.dmWrite a v) := by
  obtain ⟨⟨dm, pos, cnt, rfl, hp⟩, h2, h3, h4⟩ := h
  refine ⟨⟨_, pos, cnt, rfl, hp⟩, fun hw => Memory.wf_write (h2 hw) a v, fun b hb => ?_, fun b hb => h4 b ?_⟩
  · rw [State.dmWrite_dm, Memory.read_write, if_neg (fun e => hb (by rw [e]; exact ha))]; exact h3 b hb
  · rw [State.dmWrite_dm, Memory.read_write] at hb
    split at hb
    · cases hb
    · exact hb

theorem symbol_ran {s : State} {W : Nat → Prop} {r : ResRun} {k : Nat} (h : Ran s W r.st) :
    (∀ r' b e, r.symbol k = .ok (r', b, e) →
      Ran s W r'.st ∧ Table.find s.books k = some b ∧ r'.cnt = r.cnt ∧ r'.cls = r.cls) ∧
    (∀ x, r.symbol k = .error x → Halted s W x) := by
  unfold ResRun.symbol
  rw [h.books]
  cases hb : Table.find s.books k with
  | none =>
    refine ⟨fun _ _ _ e => by simp at e, fun x e => ?_⟩
    simp at e; subst e
    exact .inr ⟨k, rfl, hb⟩
  | some b =>
    dsimp only
    rcases hufDecode_cases r.st b with ⟨n, e⟩ | ⟨n, e', e⟩
    · rw [e]
      refine ⟨fun _ _ _ e => by simp at e, fun x e => ?_⟩
      simp at e; subst e
      exact h.peek n
    · rw [e]
      rcases bcSkip_cases (r.st.bcPeek n).1 (b.len e') with ⟨h0, e1⟩ | ⟨h0, e1⟩
      · have hs := (h.peek n).skip _ h0
        rw [e1] at hs ⊢
        refine ⟨fun r' b' e'' e => ?_, fun x e => by simp at e⟩
        simp at e
        obtain ⟨rfl, rfl, rfl⟩ := e
        exact ⟨hs, rfl, rfl, rfl⟩
      · rw [e1]
        refine ⟨fun r' b' e'' e => by simp at e, fun x e => ?_⟩
        simp at e; subst e
        refine ⟨(r.st.bcPeek n).1, h.peek n, ?_⟩
        have e2 : (r.st.bcPeek n).1.bcTotal = s.bcTotal := (h.peek n).bcTotal
        have e3 : (r.st.bcPeek n).1.flags = s.flags := (h.peek n).flags
        rw [← e2, ← e3]; rfl

theorem addSample_ran {s : State} {W : Nat → Prop} {r : ResRun} {job : ResJob} {c idx : Nat} {v : Word32}
    (h : Ran s W r.st) (hw : W (job.address c idx)) :
    (∀ r', addSample job c idx v r = .ok r' → Ran s W r'.st) ∧ (∀ x, addSample job c idx v r = .error x → Halted s W x) := by
  unfold addSample
  dsimp only
  cases hm : Memory.read r.st.dm (job.address c idx) with
  | none =>
    refine ⟨fun _ e => by simp at e, fun x e => ?_⟩
    simp at e; subst e
    exact .inl ⟨_, hw, rfl, h.unknown _ hm⟩
  | some w =>
    refine ⟨fun r' e => ?_, fun x e => by simp at e⟩
    simp at e; subst e
    exact h.write hw _

theorem addVector_ran {s : State} {W : Nat → Prop} {r : ResRun} {job : ResJob} {k c at0 : Nat}
    (h : Ran s W r.st)
    (hw : ∀ b q, Table.find s.books k = some b → q < b.dim → W (job.address c (at0 + q))) :
    (∀ r', addVector job k c at0 r = .ok r' → Ran s W r'.st) ∧ (∀ x, addVector job k c at0 r = .error x → Halted s W x) := by
  unfold addVector
  have hs := symbol_ran (k := k) h
  cases e : r.symbol k with
  | error x => exact ⟨fun _ h' => by simp at h', fun y h' => by simp at h'; subst h'; exact hs.2 _ e⟩
  | ok p =>
    obtain ⟨r1, b, n⟩ := p
    obtain ⟨h1, h2, _⟩ := hs.1 _ _ _ e
    have hl := loopFrom_keeps (body := fun q => addSample job c (at0 + q) (b.lut.getD (n * b.dim + q) 0))
      (P := fun r => Ran s W r.st) (E := Halted s W) (n := b.dim) (i := 0) (r := r1) h1
      (fun j _ hj r r' hr he => (addSample_ran hr (hw b j h2 (by omega))).1 _ he)
      (fun j _ hj r x hr he => (addSample_ran hr (hw b j h2 (by omega))).2 _ he)
    dsimp only
    cases e2 : loopFrom (fun q => addSample job c (at0 + q) (b.lut.getD (n * b.dim + q) 0)) b.dim 0 r1 with
    | error x => exact ⟨fun _ h' => by simp at h', fun y h' => by simp at h'; subst h'; exact hl.2 _ e2⟩
    | ok r2 => exact ⟨fun _ h' => by simp at h'; subst h'; exact hl.1 r2 e2, fun y h' => by simp at h'⟩

/-- The addresses a decode may add to: those of the participating channels, for indices inside the vector. -/
def ResJob.touches (job : ResJob) (a : Nat) : Prop := ∃ c ∈ job.chans, ∃ idx, idx < job.vlen ∧ a = job.address c idx

theorem decodePartition_ran {s : State} {r : ResRun} {res : Residue} {job : ResJob} {k c p : Nat}
    (h : Ran s job.touches r.st) (hc : c ∈ job.chans) (hp : p < nparts res job) :
    (∀ r', decodePartition res job k c p r = .ok r' → Ran s job.touches r'.st) ∧
    (∀ x, decodePartition res job k c p r = .error x → Halted s job.touches x) := by
  unfold decodePartition
  rw [h.books]
  cases hb : Table.find s.books k with
  | none =>
    refine ⟨fun _ e => by simp at e, fun x e => ?_⟩
    simp at e; subst e
    exact .inr ⟨k, rfl, hb⟩
  | some b =>
    dsimp only
    have inside : ∀ t q, t < res.psize.toNat / b.dim → q < b.dim →
        limBegin res job + p * res.psize.toNat + t * b.dim + q < job.vlen := by
      intro t q ht hq
      have h1 : (t + 1) * b.dim ≤ res.psize.toNat :=
        Nat.le_trans (Nat.mul_le_mul_right _ ht) (Nat.div_mul_le_self _ _)
      have h2 : (p + 1) * res.psize.toNat ≤ limEnd res job - limBegin res job :=
        Nat.le_trans (Nat.mul_le_mul_right _ hp) (Nat.div_mul_le_self _ _)
      have h3 : limEnd res job ≤ job.vlen := Nat.min_le_right _ _
      rw [Nat.succ_mul] at h1 h2
      omega
    exact loopFrom_keeps (P := fun r : ResRun => Ran s job.touches r.st) (E := Halted s job.touches) h
      (fun t _ ht r r' hr he => (addVector_ran hr fun b' q hb' hq =>
        ⟨c, hc, _, inside t q (by simpa using ht) (by rw [hb] at hb'; cases hb'; exact hq), rfl⟩).1 _ he)
      (fun t _ ht r x hr he => (addVector_ran hr fun b' q hb' hq =>
        ⟨c, hc, _, inside t q (by simpa using ht) (by rw [hb] at hb'; cases hb'; exact hq), rfl⟩).2 _ he)

theorem decodeChannel_ran {s : State} {r : ResRun} {res : Residue} {job : ResJob} {st p c : Nat}
    (h : Ran s job.touches r.st) (hc : c ∈ job.chans) (hp : p < nparts res job) :
    (∀ r', decodeChannel res job st p c r = .ok r' → Ran s job.touches r'.st) ∧
    (∀ x, decodeChannel res job st p c r = .error x → Halted s job.touches x) := by
  unfold decodeChannel
  split
  · exact ⟨fun _ e => by cases e; exact h, fun _ e => by cases e⟩
  · split
    · exact ⟨fun _ e => by cases e; exact h, fun _ e => by cases e⟩
    · exact decodePartition_ran h hc hp

theorem classify_ran {s : State} {W : Nat → Prop} {r : ResRun} {res : Residue} {parts p c : Nat} (h : Ran s W r.st) :
    (∀ r', classify res parts p c r = .ok r' → Ran s W r'.st) ∧ (∀ x, classify res parts p c r = .error x → Halted s W x) := by
  unfold classify
  have hs := symbol_ran (k := res.classbook) h
  cases e : r.symbol res.classbook with
  | error x => exact ⟨fun _ h' => by simp at h', fun y h' => by simp at h'; subst h'; exact hs.2 _ e⟩
  | ok q =>
    obtain ⟨r1, b, n⟩ := q
    exact ⟨fun _ h' => by simp at h'; subst h'; exact (hs.1 _ _ _ e).1, fun y h' => by simp at h'⟩

theorem decodeGroup_ran {s : State} {r : ResRun} {res : Residue} {job : ResJob} {st g : Nat}
    (h : Ran s job.touches r.st) :
    (∀ r', decodeGroup res job st g r = .ok r' → Ran s job.touches r'.st) ∧
    (∀ x, decodeGroup res job st g r = .error x → Halted s job.touches x) := by
  unfold decodeGroup
  dsimp only
  have h1 : (∀ r', (if st = 0 then loopOver (classify res (nparts res job) (g * res.cw)) job.chans r else .ok r) = .ok r' →
        Ran s job.touches r'.st) ∧
      (∀ x, (if st = 0 then loopOver (classify res (nparts res job) (g * res.cw)) job.chans r else .ok r) = .error x →
        Halted s job.touches x) := by
    split
    · exact loopOver_keeps (P := fun r : ResRun => Ran s job.touches r.st) (E := Halted s job.touches) h
        (fun c _ r r' hr he => (classify_ran hr).1 _ he) (fun c _ r x hr he => (classify_ran hr).2 _ he)
    · exact ⟨fun _ e => by cases e; exact h, fun _ e => by cases e⟩
  split
  · rename_i x e
    exact ⟨fun _ h' => by simp at h', fun y h' => by simp at h'; subst h'; exact h1.2 _ e⟩
  · rename_i r1 e
    refine loopFrom_keeps (P := fun r : ResRun => Ran s job.touches r.st) (E := Halted s job.touches) (h1.1 _ e)
      (fun i _ hi r r' hr he => ?_) (fun i _ hi r x hr he => ?_)
    · exact (loopOver_keeps (P := fun r : ResRun => Ran s job.touches r.st) (E := Halted s job.touches) hr
        (fun c hc r r' hr he => (decodeChannel_ran hr hc (by omega)).1 _ he)
        (fun c hc r x hr he => (decodeChannel_ran hr hc (by omega)).2 _ he)).1 _ he
    · exact (loopOver_keeps (P := fun r : ResRun => Ran s job.touches r.st) (E := Halted s job.touches) hr
        (fun c hc r r' hr he => (decodeChannel_ran hr hc (by omega)).1 _ he)
        (fun c hc r x hr he => (decodeChannel_ran hr hc (by omega)).2 _ he)).2 _ he

/-- Everything a residue decode can do. -/
theorem resDecode_ran (res : Residue) (job : ResJob) (s : State) :
    (∀ r, resDecode res job s = .ok r → Ran s job.touches r.st) ∧
    (∀ x, resDecode res job s = .error x → Halted s job.touches x) := by
  unfold resDecode
  dsimp only
  split
  · exact ⟨fun _ e => by cases e; exact Ran.refl _ _, fun _ e => by cases e⟩
  · refine loopFrom_keeps (P := fun r : ResRun => Ran s job.touches r.st) (E := Halted s job.touches) (Ran.refl _ _)
      (fun st _ _ r r' hr he => ?_) (fun st _ _ r x hr he => ?_)
    · exact (loopFrom_keeps (P := fun r : ResRun => Ran s job.touches r.st) (E := Halted s job.touches) hr
        (fun g _ _ r r' hr he => (decodeGroup_ran hr).1 _ he) (fun g _ _ r x hr he => (decodeGroup_ran hr).2 _ he)).1 _ he
    · exact (loopFrom_keeps (P := fun r : ResRun => Ran s job.touches r.st) (E := Halted s job.touches) hr
        (fun g _ _ r r' hr he => (decodeGroup_ran hr).1 _ he) (fun g _ _ r x hr he => (decodeGroup_ran hr).2 _ he)).2 _ he

end Sys2Proof.Machine
end

