-- ==== Sys2Proof/Tests/Slice0.lean ====
section
/-! SUPPORT. The model's own tests, all with results taken from spec/ (the examples of the rules and 95_test_vectors.md), each
about one step on a small state. The witnesses of the statements' hypotheses stand in Witnesses.lean. -/

namespace Sys2Proof.Tests

set_option Elab.async false

open Sys2Proof Sys2Proof.Machine

/-! ### Helpers -/

/-- The reset state with registers and DM words written and a byte source. -/
def at0 (src : List Nat) (regs : List (Reg × Word)) (dm : List (Nat × List Nat)) : State :=
  let s1 := regs.foldl (fun s p => s.setX p.1 p.2) { State.reset with src := src.map (BitVec.ofNat 8) }
  dm.foldl (fun s p => s.dmWriteList p.1 (p.2.map (BitVec.ofNat 32))) s1

/-- The next state of a command, or the state itself where it has none. -/
def after (i : Instr) (s : State) : State :=
  match exec i s with
  | .next t => t
  | _ => s

/-- The command answers a next state. -/
def completes (i : Instr) (s : State) : Bool :=
  match exec i s with
  | .next _ => true
  | _ => false

/-- The packet made of the whole byte source, bound to the bit cursor. -/
def bound (src : List Nat) : State :=
  { at0 src [] [] with bc := { ranges := [⟨0, BitVec.ofNat 64 src.length⟩], pos := 0, short := false, cnt := 0 } }

/-! ### WellFormed refuses an immediate that is too wide, once for each width -/

theorem test_wf_refuses_cid : (Instr.pfvLock 0x100).wf = false ∧ (Instr.pfvRel 0x100).wf = false ∧
    (Instr.pfvSeek 1 0x100).wf = false ∧ (Instr.pfvNext 1 0x100).wf = false := by decide
theorem test_wf_refuses_selector : (Instr.pfvPkt 1 2 4).wf = false ∧ (Instr.pfvStrm 1 2 4).wf = false ∧
    (Instr.hufInfo 1 2 16).wf = false := by decide
theorem test_wf_refuses_slot : (Instr.mdctInit 1 2).wf = false ∧ (Instr.mdctRev 1 2 2).wf = false := by decide
theorem test_wf_refuses_flags : (Instr.olaMode 1 2).wf = false ∧ (Instr.olaAdd 1 2 3 4).wf = false ∧
    (Instr.olaWin 1 2 3 4).wf = false ∧ (Instr.olaCfg 1 2 0x100).wf = false := by decide
theorem test_wf_accepts : (Instr.pfvLock 0xFF).wf = true ∧ (Instr.hufInfo 15 15 15).wf = true ∧
    (Instr.olaAdd 15 15 15 3).wf = true ∧ (Instr.sysLi 15 0xFFF).wf = true := by decide

/-! ### Decoding: each command's word, by R81 and the opcode bytes of R84 -/

theorem test_decode_sys_crc : ∀ p ∈ ([(0x00000000, .sysNop), (0x01000000, .sysReset), (0x02100123, .sysLi 1 0x123),
    (0x03110FFF, .sysLis 1 1 0xFFF), (0x04500032, .sysCsrr 5 0x032), (0x05010002, .sysCsrw 1 2),
    (0x06950080, .sysLdw 9 5 0x80), (0x07012004, .sysStw 1 2 4), (0x10000000, .crcClr), (0x11000001, .crcUpd 0 1),
    (0x12034000, .crcSrc 3 4), (0x13500000, .crcGet 5)] : List (BitVec 32 × Instr)), decode p.1 = .ok p.2 := by decide
theorem test_decode_bc_pfv : ∀ p ∈ ([(0x20000000, .bcClr), (0x21067000, .bcAddr 6 7), (0x22000000, .bcReset),
    (0x23100003, .bcPeek 1 0 3), (0x24000001, .bcSkip 0 1), (0x2570000A, .bcRead 7 0 10), (0x26100000, .bcRdvf 1),
    (0x30000001, .pfvLock 1), (0x31000001, .pfvRel 1), (0x32000001, .pfvSeek 0 1), (0x33200001, .pfvNext 2 1),
    (0x34100000, .pfvLace 1 0), (0x35600001, .pfvPkt 6 0 1), (0x36100001, .pfvStrm 1 0 1)] :
    List (BitVec 32 × Instr)), decode p.1 = .ok p.2 := by decide
theorem test_decode_huf_res_mdct : ∀ p ∈ ([(0x40031000, .hufBuild 3 1), (0x41012000, .hufVq 1 2), (0x42630000, .hufDec 6 3),
    (0x43123000, .hufDecv 1 2 3), (0x44430005, .hufInfo 4 3 5), (0x45F3F000, .hufCode 15 3 15),
    (0x46312000, .hufLut 3 1 2), (0x50032000, .resSetup 3 2), (0x51635000, .resDec 6 3 5), (0x60010000, .mdctInit 1 0),
    (0x61120001, .mdctRev 1 2 1)] : List (BitVec 32 × Instr)), decode p.1 = .ok p.2 := by decide
theorem test_decode_ola : ∀ p ∈ ([(0x70012001, .olaCfg 1 2 1), (0x71000000, .olaMode 0 0), (0x72123003, .olaAdd 1 2 3 3),
    (0x73A89000, .olaRd 10 8 9), (0x74210000, .olaDisc 2 1), (0x75000000, .olaReset), (0x76B00000, .olaWin 11 0 0 0),
    (0x77090000, .olaCpl 9)] : List (BitVec 32 × Instr)), decode p.1 = .ok p.2 := by decide
theorem test_decode_illegal : decode 0x08000000 = .error .reservedOpcode ∧ decode 0x80000000 = .error .reservedOpcode ∧
    decode 0xFFFFFFFF = .error .reservedOpcode ∧ decode 0x00100000 = .error .unusedField ∧
    decode 0x30000100 = .error .immediateWidth ∧ decode 0x61120002 = .error .immediateWidth := by decide
/-- The masks and matches of spec/opcode_table.json, one row of each format. -/
theorem test_row_masks : (rows.map fun r => (r.pattern.toNat, r.mask.toNat)).filter (fun p => p.1 ∈
    [0x00000000, 0x13000000, 0x77000000, 0x30000000, 0x33000000, 0x71000000, 0x74000000, 0x40000000, 0x44000000, 0x70000000,
     0x73000000, 0x72000000]) =
    [(0x00000000, 0xFFFFFFFF), (0x13000000, 0xFF0FFFFF), (0x30000000, 0xFFFFFF00), (0x33000000, 0xFF0FFF00),
     (0x40000000, 0xFFF00FFF), (0x44000000, 0xFF00FFF0), (0x70000000, 0xFFF00F00), (0x71000000, 0xFFF0FFFE),
     (0x72000000, 0xFF000FFC), (0x73000000, 0xFF000FFF), (0x74000000, 0xFF00FFFF), (0x77000000, 0xFFF0FFFF)] := by decide
theorem test_table_word : decodeTableWord 32 0x33200001 = some (.pfvNext 2 1) ∧ decodeTableWord 32 0x08000000 = none := by
  decide
theorem test_step_from_reset : step (State.reset.withFetchWord 32 0x02100123) = .next ((State.reset.setX 1 0x123).ended 0) := by
  rfl
theorem test_step_illegal : step (State.reset.withFetchWord 32 0x00100000) = .next (State.reset.faulted 16) := by
  rfl

/-! ### SYS (40_sys.md, the examples of R102 to R107) -/

theorem test_li_x0 : after (.sysLi 0 5) State.reset = State.reset := by decide +kernel
theorem test_lis : (after (.sysLis 1 1 0x07F) (at0 [] [(1, 0x4E5600)] [])).x 1 = 0x4E560007F := by decide +kernel
theorem test_csrr_id : (after (.sysCsrr 1 0) State.reset).x 1 = 0x4E560007 := by decide +kernel
theorem test_csrr_unknown : after (.sysCsrr 1 3) (at0 [] [(1, 9)] []) = (at0 [] [(1, 9)] []).faulted 17 := by decide +kernel
theorem test_csrw_flags : (after (.sysCsrw 1 2) { at0 [] [(1, 0x80)] [] with flags := 0x84 }).flags = 0x04 := by
  decide +kernel
theorem test_csrw_read_only : (after (.sysCsrw 1 0) State.reset).status = 17 := by decide +kernel
theorem test_ldw : (after (.sysLdw 9 5 0x80) (at0 [] [(5, 0x280)] [(0x300, [0x3FE00000])])).x 9 = 0x3FE00000 := by
  decide +kernel
theorem test_ldw_range : (after (.sysLdw 2 1 0) (at0 [] [(1, 0xFFFFFF), (2, 7)] [])).x 2 = 7 := by decide +kernel
theorem test_stw_low_half : Memory.read (after (.sysStw 1 2 0) (at0 [] [(1, 0x100), (2, 0x1FFFFFFFF)] [])).dm 0x100 =
    some 0xFFFFFFFF := by decide +kernel
theorem test_reset_keeps_dm_src :
    (after .sysReset { at0 [0xDE] [(1, 3)] [(5, [6])] with waste := 3, flags := 4 }) = at0 [0xDE] [] [(5, [6])] := by
  decide +kernel

/-! ### CRC (41_crc.md, R112 to R118) -/

theorem test_crc_upd : (after (.crcUpd 0 1) State.reset).crcAcc = 0x04C11DB7 := by decide +kernel
theorem test_crc_upd_index : (after (.crcUpd 0 0) { State.reset with crcAcc := 0x04C11DB7 }).crcAcc = 0xD219C1DC := by
  decide +kernel
theorem test_crc_src : (after (.crcSrc 1 2) (at0 [0x4F, 0x67, 0x67, 0x53] [(2, 4)] [])).crcAcc = 0x5FB0A94F := by
  decide +kernel
theorem test_crc_src_range : (after (.crcSrc 0 2) (at0 [] [(2, 1)] [])).status = 25 := by decide +kernel
theorem test_crc_clr : (after .crcClr { State.reset with crcAcc := 0x04C11DB7 }).crcAcc = 0 := by decide +kernel
theorem test_crc_get : (after (.crcGet 5) { State.reset with crcAcc := 0xBDFD477C }).x 5 = 0xBDFD477C := by decide +kernel
theorem test_crc_check_string : crcBytes 0 [0x31, 0x32, 0x33, 0x34, 0x35, 0x36, 0x37, 0x38, 0x39] = 0x89A1897F := by
  decide +kernel

/-! ### BC (42_bitcursor.md, R124 to R131) -/

/-- The packet B5 3C 0F 81 at a bit position. -/
def packetAt (q : Nat) : State :=
  let s := bound [0xB5, 0x3C, 0x0F, 0x81]
  { s with bc := { s.bc with pos := BitVec.ofNat 64 q } }

theorem test_bc_clr : (after .bcClr (packetAt 8)).bc = { ranges := [], pos := 0, short := false, cnt := 0 } := by
  decide +kernel
theorem test_bc_addr : (after (.bcAddr 6 7) (at0 (List.replicate 30 0) [(6, 25), (7, 4)] [])).bcTotal = 32 := by
  decide +kernel
theorem test_bc_reset : after .bcReset { packetAt 32 with flags := 1 } = { packetAt 0 with flags := 1 } := by decide +kernel
theorem test_bc_peek : (after (.bcPeek 1 0 3) (packetAt 0)).x 1 = 5 ∧ (after (.bcPeek 1 0 3) (packetAt 0)).bc.pos = 0 := by
  decide +kernel
theorem test_bc_peek_short : (after (.bcPeek 1 0 64) (packetAt 13)).x 1 = 0x40879 ∧
    (after (.bcPeek 1 0 64) (packetAt 13)).bc.cnt = 19 ∧ (after (.bcPeek 1 0 64) (packetAt 13)).status = 0 := by
  decide +kernel
theorem test_bc_skip : (after (.bcSkip 0 30) (packetAt 0)).bc.pos = 30 := by decide +kernel
theorem test_bc_skip_short : (after (.bcSkip 0 1) (packetAt 32)).bc.short = true ∧
    (after (.bcSkip 0 1) (packetAt 32)).status = 2 := by decide +kernel
theorem test_bc_read : (after (.bcRead 8 0 32) (packetAt 0)).x 8 = 0x810F3CB5 := by decide +kernel
theorem test_bc_read_short : (after (.bcRead 8 0 5) (packetAt 30)).x 8 = 2 ∧ (after (.bcRead 8 0 5) (packetAt 30)).status = 2 := by
  decide +kernel
theorem test_bc_rdvf : (after (.bcRdvf 1) (bound [0x01, 0x00, 0x80, 0x62])).x 1 = 0x3F800000 := by decide +kernel
/-- 95_test_vectors.md section 3: overflow, the smallest subnormal, the tie that goes to zero, minus zero. -/
theorem test_vorbis_float : F32.ofVorbis 0x72800001 = 0x7F800000 ∧ F32.ofVorbis 0x4FE00001 = 0x00000001 ∧
    F32.ofVorbis 0x4FC00001 = 0x00000000 ∧ F32.ofVorbis 0x80000000 = 0x80000000 := by decide +kernel

/-! ### PFV (43_pfv.md) -/

/-- Page A of 95_test_vectors.md. -/
def pageA : List Nat := [0x4F, 0x67, 0x67, 0x53, 0x00, 0x02, 0, 0, 0, 0, 0, 0, 0, 0, 0x04, 0x03, 0x02, 0x01, 0, 0, 0, 0,
  0x7C, 0x47, 0xFD, 0xBD, 0x01, 0x03, 0x11, 0x22, 0x33]
/-- Page E of 95_test_vectors.md, which has no segment. -/
def pageE : List Nat := [0x4F, 0x67, 0x67, 0x53, 0, 0, 5, 0, 0, 0, 0, 0, 0, 0, 0xDD, 0xCC, 0xBB, 0xAA, 7, 0, 0, 0, 0xF5, 0xCE,
  0xE3, 0x6C, 0]
/-- A source, with consumer 1 holding the lock. -/
def owned (src : List Nat) : State :=
  { at0 src [] [] with lock := { held := true, owner := 1, depth := 1 } }

theorem test_lock : (after (.pfvLock 1) State.reset).csrLock = 0x10101 ∧
    (after (.pfvLock 1) (owned [])).csrLock = 0x10102 ∧ (after (.pfvLock 2) (owned [])) = (owned []).ended 4 := by
  decide +kernel
theorem test_rel : (after (.pfvRel 1) (owned [])).csrLock = 0 ∧ (after (.pfvRel 2) (owned [])).status = 19 ∧
    (after (.pfvRel 1) State.reset).status = 19 := by decide +kernel
theorem test_seek : (after (.pfvSeek 0 1) { owned pageA with srcPos := 31, dead := true }) = (owned pageA) := by
  decide +kernel
/-- The example of R147: three bytes of garbage, then page A. -/
theorem test_next_resync : (after (.pfvNext 1 1) (owned ([0xDE, 0xAD, 0xBE] ++ pageA))).page =
    { valid := true, resync := true, lastCont := false, isNew := true, offset := 3, serial := 0x01020304, seq := 0,
      granule := 0, flags := 2, crc := 0xBDFD477C, payOff := 31, payLen := 3, lace := [3], packets := [⟨31, 3, false⟩],
      stream := 0 } := by decide +kernel
theorem test_next_cursor : (after (.pfvNext 1 1) (owned ([0xDE, 0xAD, 0xBE] ++ pageA))).srcPos = 34 ∧
    (after (.pfvNext 1 1) (owned ([0xDE, 0xAD, 0xBE] ++ pageA))).waste = 3 ∧
    (after (.pfvNext 1 1) (owned ([0xDE, 0xAD, 0xBE] ++ pageA))).flags = 0x04 := by decide +kernel
theorem test_page_bit_flip : pageAt (pageE.map (BitVec.ofNat 8)) = true ∧
    pageAt ((pageE.set 6 4).map (BitVec.ofNat 8)) = false := by decide +kernel

/-- Page A accepted at offset 3 after garbage. -/
def acceptedA : State := after (.pfvNext 1 1) (owned ([0xDE, 0xAD, 0xBE] ++ pageA))

theorem test_lace : (after (.pfvLace 1 0) acceptedA).x 1 = 3 ∧
    (after (.pfvLace 1 2) (acceptedA.setX 2 5)).x 1 = 0 ∧ (after (.pfvLace 1 0) State.reset).status = 21 := by decide +kernel
theorem test_pkt : (after (.pfvPkt 5 0 0) acceptedA).x 5 = 31 ∧ (after (.pfvPkt 6 0 1) acceptedA).x 6 = 3 ∧
    (after (.pfvPkt 7 0 2) acceptedA).x 7 = 12 := by decide +kernel
theorem test_strm : (after (.pfvStrm 1 0 1) acceptedA).x 1 = 0x01020304 ∧ (after (.pfvStrm 1 0 0) acceptedA).x 1 = 1 ∧
    (after (.pfvStrm 1 0 2) acceptedA).x 1 = 0 := by decide +kernel
/-- R151: 255 then 10 is one packet of 265 bytes, a lone 0 an empty packet, a last 255 an unfinished one. -/
theorem test_packets : packetsFrom [255, 10, 0, 255] 100 0 false =
    [⟨100, 265, false⟩, ⟨365, 0, false⟩, ⟨365, 255, true⟩] := by decide +kernel

/-! ### HUF (44_huffman.md) -/

/-- Codebook H1 of 95_test_vectors.md: its code lengths. -/
def h1 : List Nat := [2, 4, 4, 4, 4, 2, 3, 3]
/-- H1 built in slot 5, with the packet C7 1A bound. -/
def builtH1 : State :=
  let s := { at0 [0xC7, 0x1A] [(3, 5), (1, 0x100)] [(0x100, [8, 1] ++ h1)] with
    bc := { ranges := [⟨0, 2⟩], pos := 0, short := false, cnt := 0 } }
  after (.hufBuild 3 1) s

theorem test_build : (Table.find builtH1.books 5).map (fun b => (b.prefixes, b.chain)) =
    some (([0, 5, 1, 6, 0, 5, 3, 7, 0, 5, 2, 6, 0, 5, 4, 7].map some), []) := by decide +kernel
theorem test_build_overpopulated :
    (after (.hufBuild 3 1) (at0 [] [(1, 0x100)] [(0x100, [3, 1, 1, 1, 1])])).status = 8 := by decide +kernel
theorem test_dec : (after (.hufDec 6 3) builtH1).x 6 = 7 ∧ (after (.hufDec 6 3) builtH1).bc.pos = 3 := by decide +kernel
theorem test_dec_at_end : let t := after (.hufDec 6 3) { builtH1 with bc := { builtH1.bc with pos := 16 } }
    t.x 6 = 0xFFFFFFFFFFFFFFFF ∧ t.status = 3 ∧ t.bc.pos = 16 := by decide +kernel
theorem test_info : (after (.hufInfo 4 3 5) builtH1).x 4 = 4 ∧ (after (.hufInfo 4 3 1) builtH1).x 4 = 8 ∧
    (after (.hufInfo 4 3 6) builtH1).x 4 = 0 ∧ (after (.hufInfo 4 0 0) builtH1).x 4 = 0 := by decide +kernel
theorem test_code : (after (.hufCode 15 3 15) (builtH1.setX 15 6)).x 15 = 0x300000003 := by decide +kernel
/-- R172: an underpopulated list is accepted, and codes are the lowest free ones. -/
theorem test_canonical : canonicalCodes [2, 0, 2, 3] = some [some (2, 0), none, some (2, 1), some (3, 4)] ∧
    canonicalCodes [1, 1, 1] = none ∧ canonicalCodes [1] = some [some (1, 0)] := by decide +kernel

/-- The codebook and the table of the example of R187 in slot 1, with the one-byte packet 07. -/
def lattice : State :=
  let s := { at0 [0x07] [(1, 1), (2, 0x210), (3, 0x300)]
      [(0x210, [4, 2, 1, 2, 3, 3]), (0x220, [1, 0xBF800000, 0x3F000000, 0, 2, 1, 3])] with
    bc := { ranges := [⟨0, 1⟩], pos := 0, short := false, cnt := 0 } }
  after (.hufVq 1 2) ((after (.hufBuild 1 2) s).setX 2 0x220)

theorem test_vq : (Table.find lattice.books 1).map Codebook.lut =
    some [0xBF000000, 0xBF000000, 0x3F000000, 0xBF000000, 0xBF000000, 0x3F000000, 0x3F000000, 0x3F000000] := by
  decide +kernel
theorem test_decv : let t := after (.hufDecv 4 1 3) lattice
    t.x 4 = 3 ∧ Memory.readList t.dm 0x300 2 = .ok [0x3F000000, 0x3F000000] ∧ t.bc.pos = 3 := by decide +kernel
theorem test_lut : (after (.hufLut 4 1 5) (lattice.setX 5 2)).x 4 = 0x3F000000 ∧
    (after (.hufLut 4 1 5) (lattice.setX 5 3)).x 4 = 0xBF000000 ∧
    (after (.hufLut 4 1 5) (lattice.setX 5 8)).status = 17 := by decide +kernel
/-- The examples of R185. -/
theorem test_lookup1 : lookup1Values 4 2 = 2 ∧ lookup1Values 9 2 = 3 ∧ lookup1Values 8 2 = 2 ∧ lookup1Values 8 3 = 2 ∧
    lookup1Values 27 3 = 3 ∧ lookup1Values 26 3 = 2 ∧ lookup1Values 1 1 = 1 ∧ lookup1Values 100 1 = 100 ∧
    lookup1Values 5 4 = 1 := by decide +kernel

/-! ### RES (program P4 of 95_test_vectors.md) -/

/-- The state before step 16 of P4, with the packet bound and the buffers at zero. -/
def beforeP4 : State :=
  let s := { at0 [0xF9, 0xC6, 0x72, 0x00] []
      [(0x200, [4, 2, 2, 2, 2, 2]), (0x210, [4, 2, 1, 2, 3, 3]), (0x220, [1, 0xBF800000, 0x3F000000, 0, 2, 1, 3]),
       (0x230, [2, 1, 1, 1]), (0x240, [2, 0x3E000000, 0x3E000000, 0, 2, 0, 2]),
       (0x250, [0, 8, 2, 2, 0, 0, 5, 0, 0, 0, 0, 0, 0, 0, 0, 1, 0, 2, 0, 0, 0, 0, 0]),
       (0x280, [0, 2, 8, 0x300, 0, 0x308, 0]), (0x300, List.replicate 16 0)] with
    bc := { ranges := [⟨0, 4⟩], pos := 0, short := false, cnt := 0 } }
  let build (slot desc : Nat) (s : State) : State :=
    after (.hufBuild 1 2) ((s.setX 1 (BitVec.ofNat 64 slot)).setX 2 (BitVec.ofNat 64 desc))
  let vq (slot desc : Nat) (s : State) : State :=
    after (.hufVq 1 2) ((s.setX 1 (BitVec.ofNat 64 slot)).setX 2 (BitVec.ofNat 64 desc))
  ((vq 2 0x240 (build 2 0x230 (vq 1 0x220 (build 1 0x210 (build 0 0x200 s))))).setX 2 0x250).setX 5 0x280

theorem test_res_setup : (after (.resSetup 3 2) beforeP4).status = 0 ∧
    (Table.find (after (.resSetup 3 2) beforeP4).residues 0).isSome = true := by decide +kernel
theorem test_res_setup_no_table :
    let s := beforeP4.dmWrite 0x267 0
    (after (.resSetup 3 2) (after (.hufVq 6 7) ((s.setX 6 1).setX 7 0x300))).status = 8 := by decide +kernel
theorem test_res_dec : let t := after (.resDec 6 3 5) (after (.resSetup 3 2) beforeP4)
    t.x 6 = 12 ∧ t.bc.pos = 25 ∧ Memory.readList t.dm 0x300 16 =
      .ok [0x3F600000, 0x3F200000, 0, 0, 0xBE000000, 0xBE000000, 0xBEC00000, 0x3F200000, 0, 0, 0x3F200000, 0xBE000000,
        0, 0, 0, 0] := by decide +kernel
/-- R211: the same decode with the packet cut to two bytes. -/
theorem test_res_dec_short :
    let s := after (.resSetup 3 2) beforeP4
    let t := after (.resDec 6 3 5) { s with bc := { s.bc with ranges := [⟨0, 2⟩] } }
    t.status = 2 ∧ t.bc.pos = 16 ∧ Memory.readList t.dm 0x300 8 =
      .ok [0x3F000000, 0x3F000000, 0, 0, 0xBF000000, 0xBF000000, 0, 0] := by decide +kernel

/-! ### MDCT and OLA -/

theorem test_mdct_init : (after (.mdctInit 1 0) (at0 [] [(1, 8)] [])).mdct = { n0 := 8, n1 := 0 } ∧
    (after (.mdctInit 1 0) (at0 [] [(1, 12)] [])).status = 17 ∧ (after (.mdctInit 1 0) (at0 [] [(1, 4)] [])).status = 17 ∧
    (after (.mdctInit 1 0) (at0 [] [(1, 16384)] [])).status = 17 := by decide +kernel
theorem test_mdct_rev_needs_init : after (.mdctRev 5 4 0) State.reset = State.reset.faulted 21 := by decide +kernel

/-- The example of R231, then a short mode in slot 0. -/
def configured : State := after (.olaMode 0 0) (after (.olaCfg 1 2 1) (at0 [] [(1, 8), (2, 16)] []))

theorem test_cfg : (after (.olaCfg 1 2 1) (at0 [] [(1, 8), (2, 16)] [])).ola = { ch := 1, b0 := 8, b1 := 16, prev := 0 } ∧
    (after (.olaCfg 1 2 1) (at0 [] [(1, 8), (2, 16)] [])).ring.cap = 16 ∧
    (after (.olaCfg 1 2 1) (at0 [] [(1, 16), (2, 8)] [])).status = 17 := by decide +kernel
theorem test_mode_win : (after (.olaWin 11 0 0 0) configured).x 11 = 0x3D74BBA6 ∧
    (after (.olaWin 11 0 0 1) configured).status = 17 := by decide +kernel
/-- A block of eight ones: the first one finishes nothing, the second four samples (R238, program P5 steps 9 and 10). -/
def blocks : State :=
  let s := (configured.dmWriteList 0x310 (List.replicate 8 F32.one)).dmWriteList 0x340 [0x310, 1]
  after (.olaAdd 6 0 3 0) (s.setX 3 0x340)
theorem test_add_first : blocks.x 6 = 0 ∧ blocks.ring.endAt = 4 ∧ blocks.ola.prev = 8 := by decide +kernel
theorem test_add_second : (after (.olaAdd 7 0 3 0) blocks).x 7 = 4 ∧ (after (.olaAdd 7 0 3 0) blocks).ring.valid = 4 ∧
    (after (.olaAdd 7 0 3 0) blocks).ring.endAt = 8 := by decide +kernel
theorem test_rd : let t := after (.olaRd 10 8 9) (((after (.olaAdd 7 0 3 0) blocks).setX 8 0x320).setX 9 100)
    t.x 10 = 4 ∧ t.ring.start = 4 ∧ (Memory.read t.dm 0x323).isSome = true ∧ Memory.read t.dm 0x324 = none := by
  decide +kernel
theorem test_disc : let s := { configured with ring := { configured.ring with valid := 16, endAt := 16 } }
    let t := after (.olaDisc 2 1) (s.setX 1 10)
    t.x 2 = 10 ∧ t.ring.start = 10 ∧ (after (.olaDisc 2 1) (t.setX 1 10)).x 2 = 6 := by decide +kernel
theorem test_ola_reset : let t := after .olaReset (after (.olaAdd 7 0 3 0) blocks)
    t.ring.read 0 5 = 0 ∧ t.ring.read 0 3 ≠ 0 ∧ t.ring.endAt = 8 ∧ t.ola.prev = 0 := by decide +kernel
/-- The example of R247. -/
theorem test_cpl : let t := after (.olaCpl 1) (at0 [] [(1, 0x400)] [(0x400, [0x410, 0x420, 1]), (0x410, [0x40400000]),
      (0x420, [0x3F800000])])
    Memory.read t.dm 0x410 = some 0x40400000 ∧ Memory.read t.dm 0x420 = some 0x40000000 := by decide +kernel
theorem test_cpl_overlap : exec (.olaCpl 1) (at0 [] [(1, 0x400)] [(0x400, [0x410, 0x410, 1])]) = .refused .overlap := by
  rfl
theorem test_slope : F32.slopeDefault 0 4 = 0x3D74BBA6 := by decide +kernel

end Sys2Proof.Tests
end

