-- ==== Sys2Proof/Tests/Witnesses.lean ====
section
/-! SUPPORT. For every statement with hypotheses, a state and operands that meet them, clause by clause, at the ends of the
ranges the clauses name. The theorem `witness_<statement>` belongs to `Obligations.<Statement>`. -/

namespace Sys2Proof.Tests

open Sys2Proof Sys2Proof.Machine

set_option Elab.async false

/-- A source given as bytes. -/
def bytes (src : List Nat) : List Byte := src.map (BitVec.ofNat 8)
/-- A state with its source position moved. -/
def atByte (p : Nat) (s : State) : State := { s with srcPos := BitVec.ofNat 64 p }
/-- A state with its bit position moved. -/
def atBit (q : Nat) (s : State) : State := { s with bc := { s.bc with pos := BitVec.ofNat 64 q } }
/-- The step answers a next state. -/
def stepsOn (s : State) : Bool :=
  match step s with
  | .next _ => true
  | _ => false
/-- Why a command stops, where it does. -/
def stops (i : Instr) (s : State) : Option (Fault ⊕ Refusal) :=
  match exec i s with
  | .next _ => none
  | .fault f => some (.inl f)
  | .refused r => some (.inr r)
/-- The codebook in a slot, or one without entries. -/
def bookIn (s : State) (k : Nat) : Codebook :=
  (Table.find s.books k).getD { dim := 1, codes := [], prefixes := [], chain := [], mapType := .noTable, lut := [] }

/-! ### Encoding, step, reset, registers -/

theorem witness_encodeThenDecode : (Instr.olaAdd 15 15 15 3).wf = true ∧ (Instr.sysLis 15 15 0xFFF).wf = true := by decide
theorem witness_oneMeaningPerWord : decode 0x61120001 = .ok (.mdctRev 1 2 1) ∧ decode 0x08000000 = .error .reservedOpcode ∧
    decode 0x00100000 = .error .unusedField ∧ decode 0x61120002 = .error .immediateWidth ∧
    (∃ r ∈ rows, (0x61120001#32) &&& r.mask = r.pattern) := by decide
theorem witness_stepRunsCommand :
    let s (a : HostAction) : State := { State.reset with port := [a, .command 0] }
    (s (.command 0x02100123)).port = [.command 0x02100123, .command 0] ∧ decode 0x02100123 = .ok (.sysLi 1 0x123) ∧
    decode 0x00100000 = .error .unusedField ∧ decode (BitVec.ofNat 32 0x02100123) = .ok (.sysLi 1 0x123) ∧
    State.reset.port = [] ∧ (s (.writeReg 1 5)).port = [.writeReg 1 5, .command 0] ∧
    (s (.writeDm 1048575 7)).port = [.writeDm 1048575 7, .command 0] ∧ 1048575 < (s (.writeDm 1048575 7)).par.dmWords ∧
    (s (.writeDm 1048576 7)).par.dmWords ≤ 1048576 := by decide +kernel
theorem witness_resetState : ∃ t, exec .sysReset acceptedA = .next t := ⟨_, rfl⟩
theorem witness_controlRegisters : (0x077 : Imm).toNat = 0x077 ∧
    (∀ p ∈ [0x000, 0x001, 0x002, 0x010, 0x020, 0x021, 0x022, 0x023, 0x024, 0x030, 0x031, 0x032, 0x033, 0x034, 0x035, 0x036,
        0x037, 0x038, 0x039, 0x03A, 0x03B, 0x03C, 0x03D, 0x03E, 0x03F, 0x060, 0x061, 0x070, 0x071, 0x072, 0x073, 0x074,
        0x075, 0x076, 0x077], (0x078 : Imm).toNat ≠ p) ∧
    (0x011 : Imm) ≠ 0x002 ∧ (0x011 : Imm) ≠ 0x010 ∧ (0x011 : Imm) ≠ 0x032 := by decide
theorem witness_dmLoadStore :
    let s := at0 [] [(1, 1048575)] [(1048575, [7])]
    s.par.dmWords ≤ (s.x 1).toNat + (1 : Imm).toNat ∧ (s.x 1).toNat + (0 : Imm).toNat < s.par.dmWords ∧
    Memory.read s.dm ((s.x 1).toNat + (0 : Imm).toNat) = some 7 ∧
    Memory.read s.dm ((s.x 0).toNat + (0 : Imm).toNat) = none := by decide +kernel

/-! ### CRC -/

theorem witness_crcCommands :
    let s := at0 [1, 2, 3] [(1, 2), (2, 1), (3, 3), (4, 4)] []
    s.src.length < (s.x 4).toNat + (s.x 0).toNat ∧ (s.x 1).toNat + (s.x 2).toNat ≤ s.src.length ∧
    (s.x 3).toNat + (s.x 0).toNat ≤ s.src.length := by decide +kernel
theorem witness_crcProperties : (bytes [1, 2, 3]).length = (bytes [4, 5, 6]).length ∧ (bytes [1, 2, 3])[2]? = some 3 ∧
    (7 < 8) := by decide

/-! ### Bit cursor -/

theorem witness_bitStream : (packetAt 0).RangesInside ∧
    (25 : Word).toNat + (4 : Word).toNat ≤ (at0 (List.replicate 29 1) [] []).src.length ∧
    (bytes [0xB5, 0x3C])[15 / 8]? = some 0x3C :=
  ⟨⟨by decide +kernel, by decide +kernel⟩, by decide +kernel, by decide⟩
theorem witness_bitCursorBinding :
    let s := at0 [1, 2, 3] [(1, 1), (2, 2), (3, 3)] []
    let full : State := { s with par := { s.par with maxRanges := 0 } }
    let long : State := { s with bc := { s.bc with ranges := [⟨0, 0x1FFFFFFFFFFFFFFE⟩] } }
    full.bc.ranges.length = full.par.maxRanges ∧ s.bc.ranges.length ≠ s.par.maxRanges ∧
    s.src.length < (s.x 1).toNat + (s.x 3).toNat ∧ (s.x 1).toNat + (s.x 2).toNat ≤ s.src.length ∧
    s.bcTotal + 8 * (s.x 2).toNat < 2 ^ 64 ∧ 2 ^ 64 ≤ long.bcTotal + 8 * (long.x 2).toNat ∧
    long.bcTotal + 8 * 1 < 2 ^ 64 := by decide +kernel
theorem witness_bitReads :
    let n (imm : Imm) : Nat := ((packetAt 0).x 0).toNat + imm.toNat
    n 0 < 1 ∧ 64 < n 65 ∧ 1 ≤ n 1 ∧ n 64 ≤ 64 ∧
    n 32 ≤ (packetAt 0).bcTotal - (packetAt 0).bc.pos.toNat ∧ (packetAt 1).bcTotal - (packetAt 1).bc.pos.toNat < n 32 ∧
    32 ≤ (packetAt 0).bcTotal - (packetAt 0).bc.pos.toNat ∧ (packetAt 1).bcTotal - (packetAt 1).bc.pos.toNat < 32 := by
  decide +kernel
theorem witness_floatArithmetic : F32.isFinite 0x7F7FFFFF = true ∧ F32.isFinite 0x00000001 = true ∧
    F32.decode 0x7F800001 = .nan ∧ F32.isFinite 0x80000000 = true := by decide +kernel

/-! ### Page-frame validator -/

theorem witness_lockAndSeek :
    let held (d : BitVec 8) : State := { owned [1, 2] with lock := { held := true, owner := 1, depth := d } }
    let s := (held 1).setX 1 2
    State.reset.lock.held = false ∧
    ((held 255).lock.held = true ∧ (held 255).lock.owner = (1 : Imm).setWidth 8 ∧ (held 255).lock.depth = 255) ∧
    (held 254).lock.depth ≠ 255 ∧ (held 1).lock.owner ≠ (2 : Imm).setWidth 8 ∧
    ¬ ((held 1).lock.held = true ∧ (held 1).lock.owner = (2 : Imm).setWidth 8) ∧ (held 1).lock.depth = 1 ∧
    (held 2).lock.depth ≠ 1 ∧ s.src.length < ((s.setX 1 3).x 1).toNat ∧ (s.x 1).toNat ≤ s.src.length ∧
    s.lock.held = true ∧ s.lock.owner = (1 : Imm).setWidth 8 := by decide +kernel

/-- A source whose next byte is not the first of the capture pattern holds no page there. -/
theorem noPage_of_head (b : Byte) (rest : List Byte) (h : b ≠ 0x4F) : pageAt (b :: rest) = false := by
  unfold pageAt
  split
  · rfl
  · have : (b :: rest).take 4 ≠ capturePattern := by
      intro e; exact h (List.cons.inj (by simpa [capturePattern] using e)).1
    rw [if_pos this]
/-- A run of zeros before the rest of the source holds no page. -/
theorem noPage_in_zeros (n j : Nat) (rest : List Byte) (h : j < n) :
    pageAt ((List.replicate n 0 ++ rest).drop j) = false := by
  rw [List.drop_append_of_le_length (by simp; omega), List.drop_replicate]
  obtain ⟨m, hm⟩ : ∃ m, n - j = m + 1 := ⟨n - j - 1, by omega⟩
  rw [hm, List.replicate_succ, List.cons_append]
  exact noPage_of_head 0 _ (by decide)
/-- A source of `n` zero bytes and then page E, with consumer 1 holding the lock. -/
def zerosThenE (n : Nat) : State := { owned [] with src := List.replicate n 0 ++ bytes pageE }

theorem witness_scanFindsFirstPage (k : Nat) (_ : k = 0 ∨ k = 1 ∨ k = 65535) :
    let s := zerosThenE k
    s.lock.held = true ∧ s.lock.owner = (1 : Imm).setWidth 8 ∧ s.dead = false ∧ k < 65536 ∧
    (∀ j, j < k → s.srcPos.toNat + j + 4 ≤ s.src.length ∧ pageAt (s.src.drop (s.srcPos.toNat + j)) = false) ∧
    pageAt (s.src.drop (s.srcPos.toNat + k)) = true := by
  have z : (zerosThenE k).srcPos.toNat = 0 := rfl
  have e : (zerosThenE k).src = List.replicate k 0 ++ bytes pageE := rfl
  have l : (bytes pageE).length = 27 := by decide
  refine ⟨rfl, rfl, rfl, by omega, fun j hj => ?_, ?_⟩
  · rw [z, e, Nat.zero_add]
    exact ⟨by simp [l]; omega, noPage_in_zeros k j _ hj⟩
  · rw [z, e, Nat.zero_add, List.drop_left' (by simp)]
    decide +kernel

theorem witness_scanWithoutPage :
    let s (n : Nat) : State := { owned [] with src := List.replicate n 0 }
    ¬ (State.reset.lock.held = true ∧ State.reset.lock.owner = (1 : Imm).setWidth 8) ∧
    { s 0 with dead := true }.dead = true ∧
    ((s 3).lock.held = true ∧ (s 3).lock.owner = (1 : Imm).setWidth 8 ∧ (s 3).dead = false ∧
      (s 3).src.length < (s 3).srcPos.toNat + 0 + 4) ∧
    (∀ k, k ≤ 65536 → (∀ j, j < k → (s (k + 3)).srcPos.toNat + j + 4 ≤ (s (k + 3)).src.length ∧
      pageAt ((s (k + 3)).src.drop ((s (k + 3)).srcPos.toNat + j)) = false) ∧
      (s (k + 3)).src.length < (s (k + 3)).srcPos.toNat + k + 4) := by
  refine ⟨by decide +kernel, rfl, by decide +kernel, fun k _ => ?_⟩
  have z : ({ owned [] with src := List.replicate (k + 3) 0 } : State).srcPos.toNat = 0 := rfl
  refine ⟨fun j hj => ?_, ?_⟩
  · have := noPage_in_zeros (k + 3) j [] (by omega)
    rw [z, Nat.zero_add]
    exact ⟨by simp; omega, by simpa using this⟩
  · rw [z]; simp
theorem witness_acceptedPageRecord :
    pageAt ((bytes pageA).drop 0) = true ∧ (owned pageA).srcPos.toNat ≤ 0 ∧
    pageAt ((bytes ([0xDE] ++ pageA)).drop 1) = true ∧ (owned ([0xDE] ++ pageA)).srcPos.toNat ≤ 1 := by decide +kernel
theorem witness_packetTable : (10 : Byte).toNat < 255 ∧ (254 : Byte).toNat < 255 ∧
    (List.replicate 255 (255 : Byte)).length ≤ 255 ∧
    (packetsFrom [1, 2] 100 0 false)[0]? = some ⟨100, 1, false⟩ ∧ (packetsFrom [1, 2] 100 0 false)[0 + 1]? = some ⟨101, 2, false⟩ := by
  decide +kernel

/-- The registry of `s` with its free slots counted from `n` slots. -/
def registry (n : Nat) (ss : Table Stream) : State :=
  { owned pageA with par := { (owned pageA).par with nstream := n }, streams := ss }
theorem witness_streamRegistry :
    let serial : State → BitVec 32 := fun s => (s.acceptPage 0).1.page.serial
    let known := registry 2 [(1, ⟨0x01020304, false⟩)]
    let new := registry 2 [(0, ⟨5, true⟩)]
    let full := registry 1 [(0, ⟨5, true⟩)]
    known.par.nstream ≤ 255 ∧
    (1 < known.par.nstream ∧ Table.find known.streams 1 = some ⟨0x01020304, false⟩ ∧ serial known = 0x01020304 ∧
      Table.find known.streams 0 = none) ∧
    (Table.find new.streams 0 = some ⟨5, true⟩ ∧ serial new ≠ 5 ∧ 1 < new.par.nstream ∧ Table.find new.streams 1 = none) ∧
    (full.par.nstream = 1 ∧ Table.find full.streams 0 = some ⟨5, true⟩ ∧ serial full ≠ 5) := by decide +kernel
theorem witness_wasteAccounting : acceptedA.CursorsInRange ∧ acceptedA.src.length < 2 ^ 64 ∧
    completes (.pfvNext 1 1) acceptedA = true :=
  ⟨⟨by decide +kernel, by decide +kernel⟩, by decide +kernel, by decide +kernel⟩
theorem witness_flippedBitRejected : pageAt (bytes pageA) = true ∧ (bytes pageA)[25]? = some 0xBD ∧
    (bytes pageA)[30]? = some 0x33 ∧ 30 < totalOf (bytes pageA) ∧ 27 + (laceOf (bytes pageA)).length ≤ 28 ∧
    (bytes pageA)[28]? = some 0x11 := by decide +kernel
theorem witness_pageReaders :
    let s := (acceptedA.setX 2 254).setX 3 255
    254 < (s.x 3).toNat ∧ (s.x 2).toNat ≤ 254 ∧ State.reset.page.valid = false ∧ s.page.valid = true ∧
    (3 : Imm).toNat % 4 = 3 ∧ (2 : Imm).toNat % 4 ≠ 3 ∧ s.page.packets.length ≤ ((s.setX 1 1).x 1).toNat ∧
    s.page.packets[(s.x 0).toNat]? = some ⟨31, 3, false⟩ ∧ s.par.nstream ≤ ((s.setX 1 16).x 1).toNat ∧
    ((s.setX 1 15).x 1).toNat < s.par.nstream ∧ Table.find s.streams 15 = none ∧
    Table.find s.streams (s.x 0).toNat = some ⟨0x01020304, false⟩ := by decide +kernel

/-! ### Codebooks -/

theorem witness_canonicalCodes : canonicalCodes [2, 0, 2, 3] = some [some (2, 0), none, some (2, 1), some (3, 4)] ∧
    [2, 0, 2, 3][1]? = some 0 ∧ [2, 0, 2, 3][3]? = some 3 ∧ canonicalCodes [1, 1, 1] = none := by decide +kernel
/-- Code lengths with an unused entry and codes longer than the prefix table is wide, which leave codewords free. -/
def longLens : List Nat := [1, 0, 12, 12]
theorem witness_storedCodesAndTables : (0 < 12) ∧ (∀ l ∈ longLens, l ≤ 32) ∧
    canonicalCodes longLens = some [some (1, 0), none, some (12, 2048), some (12, 2049)] ∧
    (∃ b, buildCodebook 1 longLens = some b ∧ b.chain.length = 2) :=
  ⟨by decide, by decide, by decide +kernel, _, rfl, by decide +kernel⟩
theorem witness_decodeByCodewords :
    let book : Codebook := (buildCodebook 1 longLens).getD (bookIn State.reset 0)
    let s (src : List Nat) (q : Nat) : State := atBit q (bound src)
    (∀ l ∈ longLens, l ≤ 32) ∧ buildCodebook 1 longLens = some book ∧
    (s [1] 8).bc.pos.toNat ≤ (s [1] 8).bcTotal ∧ (s [1] 8).bcTotal < 2 ^ 64 ∧
    (s [1] 8).bcTotal - (s [1] 8).bc.pos.toNat < minLenOf book.codes ∧
    minLenOf book.codes ≤ (s [1] 7).bcTotal - (s [1] 7).bc.pos.toNat ∧
    (s [1] 7).codewordAhead 1 0 ∧ 1 ≤ (s [1] 7).bcTotal - (s [1] 7).bc.pos.toNat ∧
    (s [1] 0).codewordAhead 12 2048 ∧ (s [1] 0).bcTotal - (s [1] 0).bc.pos.toNat < 12 ∧
    (s [1, 0] 4).codewordAhead 1 0 ∧ (s [1, 0] 0).codewordAhead 12 2048 ∧
    12 ≤ (s [1, 0] 0).bcTotal - (s [1, 0] 0).bc.pos.toNat ∧
    (¬ (s [3] 0).codewordAhead 1 0 ∧ ¬ (s [3] 0).codewordAhead 12 2048 ∧ ¬ (s [3] 0).codewordAhead 12 2049) ∧
    (State.hufDecode (s [3] 0) book).2 = .invalid := by
  unfold State.codewordAhead
  refine ⟨by decide, rfl, ?_⟩
  decide +kernel
/-- Code lengths all above the width of the prefix table (log entry 28). -/
def overlongLens : List Nat := [11, 0, 12]
theorem witness_decodeByCodewords_overlong :
    let book : Codebook := (buildCodebook 1 overlongLens).getD (bookIn State.reset 0)
    let s (src : List Nat) (q : Nat) : State := atBit q (bound src)
    (∀ l ∈ overlongLens, l ≤ 32) ∧ canonicalCodes overlongLens = some [some (11, 0), none, some (12, 2)] ∧
    buildCodebook 1 overlongLens = some book ∧ minLenOf book.codes = 11 ∧
    (s [0, 0] 6).bcTotal - (s [0, 0] 6).bc.pos.toNat = 10 ∧ (s [0, 0] 5).bcTotal - (s [0, 0] 5).bc.pos.toNat = 11 ∧
    (s [0, 0] 5).codewordAhead 11 0 ∧ (s [0, 4] 0).codewordAhead 12 2 ∧ (s [0, 0x80] 5).codewordAhead 12 2 ∧
    (¬ (s [1, 0] 0).codewordAhead 11 0 ∧ ¬ (s [1, 0] 0).codewordAhead 12 2) := by
  unfold State.codewordAhead
  refine ⟨by decide, by decide +kernel, rfl, ?_⟩
  decide +kernel
theorem witness_prefixFreeRoundTrip_overlong :
    let b : Codebook := (buildCodebook 1 overlongLens).getD (bookIn State.reset 0)
    let s : State := bound [0, 4]
    (∀ l ∈ overlongLens, l ≤ 32) ∧ buildCodebook 1 overlongLens = some b ∧ codeOf b.codes 0 = some ⟨11, 0⟩ ∧
    codeOf b.codes 2 = some ⟨12, 1024⟩ ∧ s.bc.pos.toNat ≤ s.bcTotal ∧ s.bcTotal < 2 ^ 64 ∧
    12 ≤ s.bcTotal - s.bc.pos.toNat ∧ bitsAt s.bcData s.bc.pos.toNat 12 = (1024 : BitVec 32).toNat :=
  ⟨by decide, rfl, by decide +kernel, by decide +kernel, by decide +kernel, by decide +kernel, by decide +kernel,
    by decide +kernel⟩
theorem witness_prefixFreeRoundTrip :
    let b := bookIn builtH1 5
    (∀ l ∈ h1, l ≤ 32) ∧ buildCodebook 1 h1 = some b ∧ codeOf b.codes 7 = some ⟨3, 7⟩ ∧ codeOf b.codes 6 = some ⟨3, 3⟩ ∧
    builtH1.bc.pos.toNat ≤ builtH1.bcTotal ∧ builtH1.bcTotal < 2 ^ 64 ∧ (3 ≤ builtH1.bcTotal - builtH1.bc.pos.toNat) ∧
    bitsAt builtH1.bcData builtH1.bc.pos.toNat 3 = (7 : BitVec 32).toNat := by decide +kernel
theorem witness_codebookBuild :
    let at1 (a : Nat) (ws : List Nat) : State := at0 [] [(1, 255), (2, BitVec.ofNat 64 a)] [(a, ws)]
    let lens (s : State) (n : Nat) : List Nat := (List.range n).map fun e => s.word ((s.x 2).toNat + 2 + e)
    let good := at1 1048571 [3, 1, 1, 2, 2]
    (((good.setX 1 256).x 1).toNat ≥ good.par.ncb ∧ (good.x 1).toNat < good.par.ncb) ∧
    good.par.dmWords ≤ ((good.setX 2 1048575).x 2).toNat + 1 ∧ (good.x 2).toNat + 1 < good.par.dmWords ∧
    (good.known 1048571 ∧ good.known 1048572 ∧ ∀ e, e < 3 → good.known ((good.x 2).toNat + 2 + e)) ∧
    (good.x 2).toNat + 2 + good.word 1048571 ≤ good.par.dmWords ∧
    good.par.dmWords < 1048571 + 2 + (at1 1048571 [4, 1]).word 1048571 ∧
    (at1 0 [0, 1]).word 0 = 0 ∧ (at1 0 [1, 0]).word 1 = 0 ∧ (at1 0 [1, 65536]).par.maxDim < (at1 0 [1, 65536]).word 1 ∧
    ({ (at1 0 [2, 1]).par with maxEntries := 1 }.maxEntries < (at1 0 [2, 1]).word 0) ∧
    (∃ l ∈ lens (at1 0 [1, 1, 33]) 1, 32 < l) ∧ (∀ l ∈ lens (at1 0 [1, 1, 0]) 1, l = 0) ∧
    canonicalCodes (lens (at1 0 [3, 1, 1, 1, 1]) 3) = none ∧
    ((∀ l ∈ lens good 3, l ≤ 32) ∧ (∃ l ∈ lens good 3, l ≠ 0) ∧ canonicalCodes (lens good 3) ≠ none) := by
  decide +kernel
theorem witness_symbolDecode :
    let b := bookIn lattice 1
    let cut (q : Nat) : State := atBit q { lattice with src := [0xC0] }
    let s := lattice.setX 3 1048574
    (lattice.par.ncb ≤ ((lattice.setX 1 256).x 1).toNat ∧ (lattice.x 1).toNat < lattice.par.ncb) ∧
    Table.find lattice.books ((lattice.setX 1 2).x 1).toNat = none ∧ Table.find lattice.books (lattice.x 1).toNat = some b ∧
    ((cut 8).hufDecode b).2 = .invalid ∧ ((cut 6).hufDecode b).2 = .entry 2 false ∧ (lattice.hufDecode b).2 = .entry 3 true ∧
    (bookIn builtH1 5).mapType = .noTable ∧ b.mapType ≠ .noTable ∧ (s.x 3).toNat + b.dim ≤ s.par.dmWords ∧
    s.par.dmWords < ((s.setX 3 1048575).x 3).toNat + b.dim := by decide +kernel
theorem witness_codebookReaders :
    let b := bookIn builtH1 5
    let q := bookIn lattice 1
    builtH1.par.ncb ≤ ((builtH1.setX 3 256).x 3).toNat ∧ (10 ≤ (10 : Imm).toNat % 16) ∧ ((9 : Imm).toNat % 16 < 10) ∧
    (builtH1.x 3).toNat < builtH1.par.ncb ∧ Table.find builtH1.books (builtH1.x 0).toNat = none ∧
    Table.find builtH1.books (builtH1.x 3).toNat = some b ∧ b.codes.length ≤ 8 ∧ b.codes[7]? = some (some ⟨3, 7⟩) ∧
    ((buildCodebook 1 longLens).getD b).codes[1]? = some none ∧ b.mapType = .noTable ∧ q.mapType ≠ .noTable ∧
    q.codes.length * q.dim = 8 := by decide +kernel
theorem witness_lookupBuild :
    let desc (ws : List Nat) : State := (lattice.setX 2 1048568).dmWriteList 1048568 (ws.map (BitVec.ofNat 32))
    let good := desc [1, 0xBF800000, 0x3F000000, 1, 2, 1, 3]
    let direct := desc [2, 0, 0, 0, 3, 1, 2, 3]
    let b := bookIn lattice 1
    lattice.par.ncb ≤ ((lattice.setX 1 256).x 1).toNat ∧ (lattice.x 1).toNat < lattice.par.ncb ∧
    good.par.dmWords ≤ ((good.setX 2 1048572).x 2).toNat + 4 ∧ (good.x 2).toNat + 4 < good.par.dmWords ∧
    good.known ((good.x 2).toNat + 4) ∧
    good.par.dmWords < 1048568 + 5 + (desc [1, 0, 0, 0, 4]).word 1048572 ∧
    direct.word 1048572 + 1048568 + 5 = direct.par.dmWords ∧
    Table.find lattice.books ((lattice.setX 1 2).x 1).toNat = none ∧ Table.find lattice.books (lattice.x 1).toNat = some b ∧
    (∀ j, j < 5 + 2 → good.known ((good.x 2).toNat + j)) ∧ (∀ j, j < 5 + 0 → (desc [0, 0, 0, 0, 0]).known (1048568 + j)) ∧
    (desc [0, 0, 0, 0, 0]).word 1048568 = 0 ∧ 2 < (desc [3, 0, 0, 0, 0]).word 1048568 ∧
    (direct.word 1048568 = 2 ∧ { direct.par with mapType2 := false }.mapType2 = false) ∧
    (good.word 1048568 ≠ 0 ∧ 1 < (desc [1, 0, 0, 2, 0]).word 1048571) ∧
    ((desc [1, 0, 0, 0, 1]).word 1048572 ≠ lookup1Values b.entries b.dim) ∧ direct.word 1048572 ≠ b.entries * b.dim ∧
    (good.word 1048568 = 1 ∧ good.word 1048572 = lookup1Values b.entries b.dim ∧ good.word 1048571 ≤ 1) := by
  decide +kernel
/-- The other map type: eight multiplicands for four entries of two dimensions. -/
theorem witness_lookupBuild_direct :
    let s := (lattice.setX 2 0x400).dmWriteList 0x400 ((2 :: 0 :: 0 :: 0 :: 8 :: List.range 8).map (BitVec.ofNat 32))
    let b := bookIn lattice 1
    s.word 0x400 = 2 ∧ s.par.mapType2 = true ∧ s.word 0x404 = b.entries * b.dim ∧ s.word 0x403 ≤ 1 ∧
    (∀ j, j < 5 + 8 → s.known (0x400 + j)) ∧ Table.find s.books (s.x 1).toNat = some b := by decide +kernel
theorem witness_lookupElements : 1 ≤ 2 ∧ (3 < 4) ∧ (1 < 2) ∧ (0 < 1) := by decide

/-- Program P4 with its residue set up in slot 0. -/
def ready : State := after (.resSetup 3 2) beforeP4

theorem canonical_ready : ready.Canonical :=
  ⟨by decide +kernel, by decide +kernel, by decide +kernel, by decide +kernel, by decide +kernel, by decide +kernel,
    by decide +kernel⟩
theorem witness_dependentsInvalid :
    let s := (ready.setX 6 1).setX 7 0x210
    ready.Canonical ∧ completes (.hufBuild 6 7) s = true ∧ (after (.hufBuild 6 7) s).status = 0 ∧
    (after (.hufBuild 6 0) (s.setX 6 256)).status = 17 ∧
    ((Table.find s.residues 0).map fun r => (r.names 1, r.names 3)) = some (true, false) :=
  ⟨canonical_ready, by decide +kernel, by decide +kernel, by decide +kernel, by decide +kernel⟩

/-! ### Residues -/

/-- The hypotheses of `Obligations.ResidueSetup` on a descriptor of two classifications at 0x250. -/
def setupKnown (s : State) : Prop :=
  (s.x 2).toNat = 0x250 ∧ (∀ j, j < 5 → s.known (0x250 + j)) ∧ s.word 0x253 = 2 ∧ (0x250 + 5 + 9 * 2 ≤ s.par.dmWords) ∧
  (∀ c, c < 2 → s.known (0x250 + (5 + c))) ∧ ∀ j, j < 16 → s.known (0x250 + (5 + 2 + j))
theorem witness_residueSetup :
    let s := beforeP4
    let edit (j v : Nat) : State := s.dmWrite (0x250 + j) (BitVec.ofNat 32 v)
    (s.par.nres ≤ ((s.setX 3 64).x 3).toNat ∧ (s.x 3).toNat < s.par.nres) ∧
    s.par.dmWords ≤ ((s.setX 2 1048572).x 2).toNat + 4 ∧ (s.x 2).toNat + 4 < s.par.dmWords ∧
    (1 ≤ (edit 3 64).word 0x253 ∧ (edit 3 64).word 0x253 ≤ 64 ∧ (edit 3 64).known 0x253 ∧
      ({ s.par with dmWords := 0x250 + 5 + 9 * 64 - 1 }).dmWords < 0x250 + 5 + 9 * 64) ∧
    setupKnown s ∧ (edit 0 9).word 0x251 < (edit 0 9).word 0x250 ∧ (edit 2 0).word 0x252 = 0 ∧
    (edit 3 0).word 0x253 = 0 ∧ 64 < (edit 3 65).word 0x253 ∧ s.par.ncb ≤ (edit 4 256).word 0x254 ∧
    Table.find s.books ((edit 4 3).word 0x254) = none ∧ 255 < (edit 5 256).word 0x255 ∧
    ((s.word 0x256).testBit 2 = true ∧ s.par.ncb ≤ (edit 17 256).word (0x250 + 5 + 2 + 8 * 1 + 2) ∧
      Table.find s.books ((edit 17 3).word 0x261) = none ∧ (bookIn s ((edit 17 0).word 0x261)).mapType = .noTable) := by
  unfold setupKnown
  decide +kernel
/-- The good descriptor: none of the causes of R202. -/
theorem witness_residueSetup_good :
    let s := beforeP4
    let w (j : Nat) : Nat := s.word (0x250 + j)
    setupKnown s ∧ ¬ (w 1 < w 0) ∧ w 2 ≠ 0 ∧ w 3 = 2 ∧ w 4 < s.par.ncb ∧ Table.find s.books (w 4) ≠ none ∧
    (∀ c, c < 2 → w (5 + c) ≤ 255) ∧
    (∀ c, c < 2 → ∀ st, st < 8 → (w (5 + c)).testBit st = true →
      w (7 + 8 * c + st) < s.par.ncb ∧ Table.find s.books (w (7 + 8 * c + st)) ≠ none ∧
      (bookIn s (w (7 + 8 * c + st))).mapType ≠ .noTable) := by
  unfold setupKnown
  decide +kernel
/-- The residue of P4. -/
def res0 : Residue :=
  (Table.find ready.residues 0).getD { beginAt := 0, endAt := 0, psize := 0, classbook := 0, classes := [], cw := 0 }
theorem witness_residueSchedule : 0 < res0.ncls ∧ (0 < res0.cw) ∧
    (∀ f ∈ ({ interleaved := false, n := 8, bufs := [0x300], skip := [true] } : ResJob).skip, f = true) ∧
    (∃ f ∈ ({ interleaved := false, n := 8, bufs := [0x300, 0x308], skip := [true, false] } : ResJob).skip, f = false) := by
  decide +kernel
theorem witness_vectorAdd :
    let r (s : State) : ResRun := { st := s, cnt := 0, cls := [] }
    let job (b : Bool) : ResJob := { interleaved := b, n := 8, bufs := [0x300, 0x308], skip := [false, false] }
    let b := bookIn ready 2
    let cut (q : Nat) : State := atBit q ready
    Table.find (r ready).st.books 2 = some b ∧
    (∀ f : Bool, ∀ j, j < b.dim → ∀ i, i < b.dim → (job f).address 1 (4 + i) = (job f).address 1 (4 + j) → i = j) ∧
    (∀ f : Bool, ∀ i, i < b.dim → (r ready).st.known ((job f).address 1 (4 + i))) ∧
    ((cut 32).hufDecode b).2 = .invalid ∧ ((atBit 7 { ready with src := [0x80], bc := { ready.bc with ranges := [⟨0, 1⟩] } }).hufDecode
      (bookIn ready 1)).2 = .entry 1 false ∧ (ready.hufDecode b).2 = .entry 1 true := by decide +kernel
theorem witness_residuePieces :
    let r (s : State) : ResRun := { st := s, cnt := 0, cls := [(digitKey 4 1 0, 0), (digitKey 4 1 3, 1)] }
    let job : ResJob := { interleaved := false, n := 8, bufs := [0x300, 0x308], skip := [false, false] }
    let classes := bookIn ready res0.classbook
    let cut : State := atBit 7 { ready with src := [0x80], bc := { ready.bc with ranges := [⟨0, 1⟩] } }
    (Table.find (r ready).st.books res0.classbook = some classes ∧
      Table.find (r cut).st.books ({ res0 with classbook := 1 } : Residue).classbook = some (bookIn ready 1)) ∧
    ((atBit 32 ready).hufDecode classes).2 = .invalid ∧ (cut.hufDecode (bookIn ready 1)).2 = .entry 1 false ∧
    (ready.hufDecode classes).2 = .entry 2 true ∧ nparts res0 job = 4 ∧
    (1 < res0.cw ∧ 2 + 1 < 4 ∧ ¬ (3 + 1 < 4)) ∧ (¬ (0 = 1 ∧ 2 ≤ 3 ∧ 3 < 2 + res0.cw) ∧ ¬ (1 = 1 ∧ 2 ≤ 1 ∧ 1 < 2 + res0.cw)) ∧
    Table.find (r ready).cls (digitKey (nparts res0 job) 1 0) = some 0 ∧
    Table.find (r ready).cls (digitKey (nparts res0 job) 1 3) = some 1 ∧ res0.stageBook 0 0 = none ∧
    res0.stageBook 1 1 = none ∧ res0.stageBook 1 0 = some 1 ∧ res0.stageBook 1 2 = some 2 ∧
    Table.find (r ready).st.books 1 = some (bookIn ready 1) ∧ Table.find (r ready).st.books 2 = some (bookIn ready 2) := by
  decide +kernel
/-- P4's descriptor with one word changed. -/
def jobWord (j v : Nat) : State := ready.dmWrite (0x280 + j) (BitVec.ofNat 32 v)
theorem witness_residueDecode_traps :
    let s := ready
    (s.par.nres ≤ ((s.setX 3 64).x 3).toNat ∧ (s.x 3).toNat < s.par.nres) ∧
    s.par.dmWords ≤ ((s.setX 5 1048574).x 5).toNat + 2 ∧ (s.x 5).toNat + 2 < s.par.dmWords ∧
    (s.known 0x280 ∧ s.known 0x281 ∧ s.known 0x282) ∧
    1 < (jobWord 0 2).word 0x280 ∧ (jobWord 1 0).word 0x281 = 0 ∧ s.par.maxCh < (jobWord 1 256).word 0x281 ∧
    ({ s.par with dmWords := 0x280 + 6 }).dmWords < 0x280 + 3 + 2 * s.word 0x281 ∧
    (∀ j, j < 2 * 2 → s.known (0x280 + 3 + j)) ∧ 1 < (jobWord 4 2).word (0x280 + 4 + 2 * 0) ∧
    Table.find s.residues ((s.setX 3 1).x 3).toNat = none ∧
    (jobWord 3 1048569).par.dmWords < (jobWord 3 1048569).word 0x283 + 8 ∧
    disjointRegions ((0x280, 7) :: (List.range 2).map fun j => ((jobWord 5 0x307).word (0x280 + 3 + 2 * j), 8)) = false := by
  decide +kernel
theorem residuesReady_ready : ready.ResiduesReady := by
  have h : ∀ c ∈ ready.residues, (Table.find ready.books c.2.classbook).isSome = true ∧
      ∀ k ∈ c.2.classes, ∀ j ∈ k.books, ∀ n ∈ j, (Table.find ready.books n).isSome = true ∧
        (bookIn ready n).mapType ≠ .noTable := by decide +kernel
  intro c hc
  refine ⟨Option.isSome_iff_exists.1 (h c hc).1, fun k hk j hj n e => ?_⟩
  obtain ⟨hs, hm⟩ := (h c hc).2 k hk j hj n e
  obtain ⟨b, hb⟩ := Option.isSome_iff_exists.1 hs
  exact ⟨b, hb, by simpa [bookIn, hb] using hm⟩
theorem witness_residueDecode :
    let s := ready
    (s.word 0x280 ≤ 1 ∧ s.word 0x281 = 2 ∧ 2 ≤ s.par.maxCh ∧ 0x280 + 3 + 2 * 2 ≤ s.par.dmWords) ∧
    (∀ j, j < 2 → s.word (0x280 + 4 + 2 * j) ≤ 1 ∧ s.word (0x280 + 3 + 2 * j) + 8 ≤ s.par.dmWords) ∧
    Table.find s.residues (s.x 3).toNat = some res0 ∧
    disjointRegions ((0x280, 7) :: (List.range 2).map fun j => (s.word (0x280 + 3 + 2 * j), 8)) = true ∧
    (∀ j, j < 2 → ((jobWord 4 1).dmWrite 0x286 1).word (0x280 + 4 + 2 * j) = 1) ∧
    s.ResiduesReady ∧ (∀ j, j < 2 → ∀ i, i < 8 → s.known (s.word (0x280 + 3 + 2 * j) + i)) :=
  ⟨by decide +kernel, by decide +kernel, by decide +kernel, by decide +kernel, by decide +kernel, residuesReady_ready,
    by decide +kernel⟩

/-! ### MDCT and OLA -/

theorem witness_mdctCommands :
    let s := (after (.mdctInit 1 0) (at0 [] [(1, 8)] [(1048568, [1, 2, 3, 4])])).setX 2 1048568
    (¬ ∃ j, s.par.blkMinLog2 ≤ j ∧ j ≤ s.par.blkMaxLog2 ∧ (4 : Word).toNat = 2 ^ j) ∧
    (s.par.blkMinLog2 ≤ 3 ∧ (8 : Word).toNat = 2 ^ 3) ∧ (13 ≤ s.par.blkMaxLog2 ∧ (8192 : Word).toNat = 2 ^ 13) ∧
    s.mdct.n1.toNat = 0 ∧ s.mdct.n0.toNat ≠ 0 ∧ s.par.dmWords < ((s.setX 2 1048569).x 2).toNat + s.mdct.n0.toNat ∧
    (s.x 2).toNat + s.mdct.n0.toNat ≤ s.par.dmWords ∧ ∀ k, k < s.mdct.n0.toNat / 2 → s.known ((s.x 2).toNat + k) := by
  refine ⟨?_, by decide +kernel⟩
  rintro ⟨j, h3, _, e⟩
  have h3 : 3 ≤ j := h3
  have : 2 ^ 3 ≤ 2 ^ j := Nat.pow_le_pow_right (by decide) h3
  have e : 4 = 2 ^ j := e
  omega
theorem witness_olaConfigure :
    let s := at0 [] [(1, 8), (2, 8192), (3, 12)] []
    let legal (n : Nat) : Prop := ∃ j, s.par.blkMinLog2 ≤ j ∧ j ≤ s.par.blkMaxLog2 ∧ n = 2 ^ j
    ((255 : Imm).toNat % 256 ≠ 0 ∧ (255 : Imm).toNat % 256 ≤ s.par.maxCh ∧ legal (s.x 1).toNat ∧ legal (s.x 2).toNat ∧
      (s.x 1).toNat ≤ (s.x 2).toNat) ∧ ¬ ((0 : Imm).toNat % 256 ≠ 0) ∧ ¬ ((s.x 2).toNat ≤ (s.x 1).toNat) :=
  ⟨⟨by decide, by decide, ⟨3, by decide +kernel⟩, ⟨13, by decide +kernel⟩, by decide +kernel⟩, by decide, by decide +kernel⟩
theorem witness_modesAndWindows :
    let s := configured
    s.par.nmode ≤ ((s.setX 3 64).x 3).toNat ∧ ((s.setX 3 63).x 3).toNat < s.par.nmode ∧ State.reset.ola.ch = 0 ∧ s.ola.ch ≠ 0 ∧
    Table.find s.modes ((s.setX 3 63).x 3).toNat = none ∧
    ((Table.find s.modes (s.x 0).toNat).map fun m => (m.windows.length, m.n)) = some (1, 8) ∧
    (1 ≤ (1 : Imm).toNat % 4) ∧ ((0 : Imm).toNat % 4 < 1) := by decide +kernel
/-- A long window of 16 with a short left slope of 4 and a long right slope of 8: every clause of the shape. -/
theorem witness_windowShape : let lb := 16 / 4 - 4 / 2; let rb := 16 - 16 / 4 - 8 / 2
    (1 < lb) ∧ (lb ≤ 2 ∧ 5 < lb + 4) ∧ (lb + 4 ≤ 6 ∧ 7 < rb) ∧ (lb + 4 ≤ 8 ∧ rb ≤ 8 ∧ 15 < rb + 8 ∧ 15 < 16) ∧
    (8 / 4 - 4 / 2 + 4 ≤ 8 - 8 / 4 - 4 / 2 + 4) := by decide
/-- A short right slope leaves zeros at the end of the window. -/
theorem witness_windowTail : let rb := 16 - 16 / 4 - 4 / 2
    (16 / 4 - 4 / 2 + 4 ≤ 14) ∧ (rb + 4 ≤ 14) ∧ 14 < 16 := by decide
/-- The block of `blocks`, with its descriptor in x3 and slot 0 in x0. -/
def addReady : State :=
  ((configured.dmWriteList 0x310 (List.replicate 8 F32.one)).dmWriteList 0x340 [0x310, 1]).setX 3 0x340
theorem witness_overlapAdd :
    let s := addReady
    let cap (n : Nat) : State := { s with par := { s.par with rbMax := n } }
    s.par.nmode ≤ ((s.setX 1 64).x 1).toNat ∧ (s.x 0).toNat < s.par.nmode ∧ State.reset.ola.ch.toNat = 0 ∧
    Table.find s.modes ((s.setX 1 1).x 1).toNat = none ∧ s.ola.ch.toNat = 1 ∧
    ((Table.find s.modes (s.x 0).toNat).map fun m => (m.long, m.n)) = some (false, 8) ∧ (1 : Imm).toNat % 4 ≠ 0 ∧
    s.par.dmWords < ((s.setX 3 1048575).x 3).toNat + 2 * 1 ∧ (s.x 3).toNat + 2 * 1 ≤ s.par.dmWords ∧
    (∀ j, j < 2 * 1 → s.known (0x340 + j)) ∧ 1 < (s.dmWrite 0x341 2).word 0x341 ∧ s.word 0x341 = 1 ∧
    s.par.dmWords < (s.dmWrite 0x340 1048569).word 0x340 + 8 ∧ s.word 0x340 + 8 ≤ s.par.dmWords ∧
    (s.ola.prev.toNat = 0 ∧ s.ring.valid = 0 ∧ s.ring.start = 0) ∧
    (((cap 3).par.rbMax : Int) < 0 - (8 / 2 : Nat) + 8 - 0 ∧ (0 : Int) - (8 / 2 : Nat) + 8 - 0 ≤ (cap 4).par.rbMax) ∧
    (∀ i, i < 8 → s.known (0x310 + i)) ∧ blocks.ola.prev.toNat = 8 ∧ (3 < 256) := by decide +kernel
/-- Four finished frames, ready to be drained. -/
def finishedFrames : State := after (.olaAdd 7 0 3 0) blocks
theorem witness_ringDrain :
    let s := finishedFrames
    State.reset.ola.ch = 0 ∧ s.ola.ch ≠ 0 ∧ s.ring.valid - s.ring.start = 4 ∧
    s.par.dmWords < ((s.setX 8 1048573).x 8).toNat + min ((s.setX 9 4).x 9).toNat 4 * s.ola.ch.toNat ∧
    ((s.setX 8 1048572).x 8).toNat + min ((s.setX 9 5).x 9).toNat 4 * s.ola.ch.toNat ≤ s.par.dmWords := by decide +kernel
theorem witness_inverseCoupling :
    let s (m a c : Nat) : State := at0 [] [(1, 1048573)] [(1048573, [m, a, c]), (0x410, [0x40400000]), (0x420, [0x3F800000])]
    (s 0 0 0).par.dmWords ≤ (((s 0 0 0).setX 1 1048574).x 1).toNat + 2 ∧ ((s 0 0 0).x 1).toNat + 2 < (s 0 0 0).par.dmWords ∧
    ((s 1 1 0).known 1048573 ∧ (s 1 1 0).known 1048574 ∧ (s 1 1 0).known 1048575) ∧
    (s 1048576 0 1).par.dmWords < (s 1048576 0 1).word 1048573 + (s 1048576 0 1).word 1048575 ∧
    disjointRegions [(1048573, 3), (0x410, 2), (0x411, 2)] = false ∧
    disjointRegions [(1048573, 3), (0x410, 1), (0x420, 1)] = true ∧
    (∀ i, i < 1 → (s 0x410 0x420 1).known (0x410 + i) ∧ (s 0x410 0x420 1).known (0x420 + i)) ∧
    (F32.gtZero 0x00000001 = true ∧ F32.gtZero 0x80000000 = false ∧ F32.gtZero 0x7FC00000 = false ∧
      F32.isFinite 0x80000000 = true) := by decide +kernel
theorem witness_coupling_zeroAngle : F32.value 0x80000000 = 0 := by
  have h : F32.decode 0x80000000 = .fin true 0 (-149) := by decide +kernel
  unfold F32.value
  rw [h]
  simp

/-! ### The whole machine -/

theorem witness_faultsChangeNothing : completes (.pfvRel 2) (owned []) = true ∧
    16 ≤ (after (.pfvRel 2) (owned [])).status.toNat := by decide +kernel
theorem witness_statusAndFlags :
    let st (i : Instr) (s : State) : Nat := if completes i s then (after i s).status.toNat else 255
    st .sysNop State.reset = 0 ∧ st (.pfvNext 1 1) (owned []) = 1 ∧ st (.bcSkip 0 1) State.reset = 2 ∧
    st (.hufDec 6 3) (atBit 16 builtH1) = 3 ∧ st (.pfvLock 2) (owned []) = 4 ∧
    st (.pfvNext 1 1) (registry 0 []) = 5 ∧ st (.hufBuild 0 1) (at0 [] [] [(0, [0, 0])]) = 8 ∧
    st (.pfvNext 1 1) { owned [] with dead := true } = 9 ∧ st (.pfvRel 1) State.reset = 19 ∧
    (Instr.pfvNext 1 1).clearsFlags = false := by decide +kernel
theorem witness_registerFrame : completes (.sysLi 1 5) acceptedA = true ∧ (Instr.sysLi 1 5).isReset = false ∧
    (Instr.sysLi 1 5).dest ≠ some 2 ∧ (Instr.sysNop).dest ≠ some 0 := by decide +kernel
theorem witness_bitCursorMovers : completes (.bcPeek 1 0 3) (packetAt 0) = true ∧ (Instr.bcPeek 1 0 3).movesBits = false ∧
    (Instr.bcPeek 1 0 3).bindsRanges = false ∧ (Instr.sysNop).movesBits = false := by decide +kernel
theorem witness_unitFrames : completes .crcClr acceptedA = true ∧ (Instr.crcClr).movesSource = false ∧
    (Instr.crcClr).writesPage = false ∧ (Instr.crcClr).writesLock = false ∧ (Instr.crcClr).writesBooks = false ∧
    (Instr.crcClr).writesResidues = false ∧ (Instr.crcClr).writesMdct = false ∧ (Instr.crcClr).writesOla = false ∧
    (Instr.crcClr).writesRing = false ∧ (Instr.sysNop).writesCrc = false := by decide +kernel
theorem witness_dmFrame : completes (.hufDecv 4 1 3) lattice = true ∧ lattice.storeRegions (.hufDecv 4 1 3) = [(0x300, 2)] ∧
    (Instr.crcClr).storesDm = false ∧ (∀ r ∈ lattice.storeRegions (.hufDecv 4 1 3), ¬ (r.1 ≤ 0x302 ∧ 0x302 < r.1 + r.2)) := by
  decide +kernel
theorem witness_stopsAreNamed : ready.ResiduesReady ∧ stops (.sysLdw 1 0 0) ready = some (.inl (.dmUnwritten 0)) ∧
    stops (.olaCpl 1) (at0 [] [(1, 0x400)] [(0x400, [0x410, 0x410, 1])]) = some (.inr .overlap) :=
  ⟨residuesReady_ready, by decide +kernel, by decide +kernel⟩
theorem witness_lockProtectsCursor : (owned pageA).lock.held = true ∧ (Instr.pfvLock 2).isReset = false ∧
    (Instr.pfvLock 2).cid ≠ some (owned pageA).lock.owner ∧ (Instr.sysNop).cid ≠ some (owned pageA).lock.owner ∧
    completes (.pfvLock 2) (owned pageA) = true := by decide +kernel
theorem witness_finishedFramesFinal : (Instr.olaDisc 2 1).isReset = false ∧
    completes (.olaDisc 2 1) (finishedFrames.setX 1 2) = true ∧
    (after (.olaDisc 2 1) (finishedFrames.setX 1 2)).ring.start = 2 ∧ 2 < (finishedFrames.setX 1 2).ring.valid := by
  decide +kernel
/-- A state with one command presented. -/
def running (s : State) (c : BitVec 32) : State := { s with port := [.command c] }
theorem canonical_running {s : State} (h : s.Canonical) (c : BitVec 32) : (running s c).Canonical :=
  ⟨h.dm, h.streams, h.books, h.residues, h.modes, h.ring, h.noZero⟩
theorem residuesReady_running {s : State} (h : s.ResiduesReady) (c : BitVec 32) : (running s c).ResiduesReady := h
theorem witness_canonicalKept : (running ready 0x51635000).Canonical ∧ stepsOn (running ready 0x51635000) = true :=
  ⟨canonical_running canonical_ready _, by decide +kernel⟩
theorem witness_cursorsLockPageKept :
    (running acceptedA 0x33100001).CursorsInRange ∧ (running acceptedA 0x33100001).RangesInside ∧
    (running acceptedA 0x33100001).LockConsistent ∧ (running acceptedA 0x33100001).PageBounded ∧
    stepsOn (running acceptedA 0x33100001) = true :=
  ⟨⟨by decide +kernel, by decide +kernel⟩, ⟨by decide +kernel, by decide +kernel⟩, ⟨by decide +kernel, by decide +kernel⟩,
    ⟨by decide +kernel, by decide +kernel⟩, by decide +kernel⟩
theorem witness_ringInvariantKept : (running finishedFrames 0x74200000).RingInvariant ∧
    stepsOn (running finishedFrames 0x74200000) = true :=
  ⟨⟨by decide +kernel, by decide +kernel, by decide +kernel, by decide +kernel, by decide +kernel⟩, by decide +kernel⟩
theorem witness_residuesReadyKept : (running ready 0x50032000).ResiduesReady ∧ stepsOn (running ready 0x50032000) = true :=
  ⟨residuesReady_running residuesReady_ready _, by decide +kernel⟩

end Sys2Proof.Tests
end

section
/-! SUPPORT. A step by the action at the head of the host's port (R10, R76), and what StepRunsCommand says of it. -/

namespace Sys2Proof.Machine

theorem execWord_of_decode_ok {c : BitVec 32} {i : Instr} (h : decode c = .ok i) (s : State) :
    execWord c s = exec i s := by
  simp only [execWord, h]

theorem execWord_of_decode_error {c : BitVec 32} {e : DecodeError} (h : decode c = .error e) (s : State) :
    execWord c s = .next (s.faulted 16) := by
  simp only [execWord, h]
  exact raise_eq s .illegalCmd

theorem step_of_port_nil {s : State} (h : s.port = []) : step s = .next s := by
  simp only [step, h]

theorem step_of_port_command {s : State} {c : BitVec 32} {rest : List HostAction} (h : s.port = .command c :: rest) :
    step s = execWord c { s with port := rest } := by
  simp only [step, h]

theorem step_of_port_writeReg {s : State} {r : Reg} {v : Word} {rest : List HostAction}
    (h : s.port = .writeReg r v :: rest) : step s = .next (State.setX { s with port := rest } r v) := by
  simp only [step, h, State.hostStep]

theorem step_of_port_writeDm {s : State} {a : Nat} {v : Word32} {rest : List HostAction}
    (h : s.port = .writeDm a v :: rest) : step s =
      if a < s.par.dmWords then .next (State.dmWrite { s with port := rest } a v) else .fault (.hostDmAddress a) := by
  simp only [step, h, State.hostStep]

/-- Settles O4: one case per kind of action at the head of the port. -/
theorem stepRunsCommand : Obligations.StepRunsCommand := by
  unfold Obligations.StepRunsCommand
  refine ⟨fun s c rest hport => ⟨fun i hi => ?_, fun e he => ?_⟩, fun s w i hi => ?_, fun s => step_of_port_nil,
    fun s r v rest => step_of_port_writeReg, fun s a v rest hport => ⟨fun ha => ?_, fun ha => ?_⟩⟩
  · rw [step_of_port_command hport, execWord_of_decode_ok hi]
  · rw [step_of_port_command hport, execWord_of_decode_error he]
  · exact (step_of_port_command (s := s.withFetchWord 32 w) rfl).trans (execWord_of_decode_ok hi s)
  · rw [step_of_port_writeDm hport, if_pos ha]
    rfl
  · rw [step_of_port_writeDm hport, if_neg ha.not_gt]

end Sys2Proof.Machine
end

section
/-! SUPPORT. Rounding a rational to the nearest integer, ties to even: the idea of `F32.shiftNearest` and of R9. -/

namespace Sys2Proof.Machine.F32

/-- `r` is an integer nearest to `t`, and the even one when two are. -/
structure NearestEven (t : ℚ) (r : ℕ) : Prop where
  close : |(r : ℚ) - t| ≤ 1 / 2
  even : |(r : ℚ) - t| = 1 / 2 → r % 2 = 0

namespace NearestEven

theorem natCast (n : ℕ) : NearestEven n n := by
  constructor <;> simp

theorem shiftNearest (m k : ℕ) : NearestEven ((m : ℚ) / 2 ^ k) (shiftNearest m k) := by
  obtain ⟨d, hd⟩ : ∃ d, d = m / 2 ^ k := ⟨_, rfl⟩
  obtain ⟨ρ, hρ⟩ : ∃ ρ, ρ = m % 2 ^ k := ⟨_, rfl⟩
  have hpos : (0 : ℚ) < 2 ^ k := by positivity
  have hρlt : (ρ : ℚ) < 2 ^ k := by exact_mod_cast hρ ▸ Nat.mod_lt m (by positivity)
  have htarget : (m : ℚ) / 2 ^ k = d + ρ / 2 ^ k := by
    have hm : (2 : ℚ) ^ k * d + ρ = m := by exact_mod_cast hd ▸ hρ ▸ Nat.div_add_mod m (2 ^ k)
    field_simp
    linarith
  have hfrac : 0 ≤ (ρ : ℚ) / 2 ^ k := by positivity
  simp only [F32.shiftNearest, Nat.shiftRight_eq_div_pow, ← hd, ← hρ, htarget]
  split
  next hup =>
    have habs : |((d + 1 : ℕ) : ℚ) - (d + ρ / 2 ^ k)| = 1 - ρ / 2 ^ k := by
      have : (ρ : ℚ) / 2 ^ k < 1 := (div_lt_one hpos).2 hρlt
      rw [abs_of_nonneg (by push_cast; linarith)]
      push_cast
      ring
    have hhalf : 2 ^ k ≤ 2 * ρ := by omega
    refine ⟨?_, fun h => ?_⟩
    · have : 1 / 2 ≤ (ρ : ℚ) / 2 ^ k := by
        rw [div_le_div_iff₀ two_pos hpos]
        exact_mod_cast (by omega : 1 * 2 ^ k ≤ ρ * 2)
      linarith
    · have : (ρ : ℚ) / 2 ^ k = 1 / 2 := by linarith
      rw [div_eq_div_iff hpos.ne' two_ne_zero] at this
      have : ρ * 2 = 1 * 2 ^ k := by exact_mod_cast this
      omega
  next hdown =>
    have habs : |((d : ℕ) : ℚ) - (d + ρ / 2 ^ k)| = ρ / 2 ^ k := by
      rw [sub_add_cancel_left, abs_neg, abs_of_nonneg hfrac]
    refine ⟨?_, fun h => ?_⟩
    · rw [habs, div_le_div_iff₀ hpos two_pos]
      exact_mod_cast (by omega : ρ * 2 ≤ 1 * 2 ^ k)
    · rw [habs, div_eq_div_iff hpos.ne' two_ne_zero] at h
      have : ρ * 2 = 1 * 2 ^ k := by exact_mod_cast h
      omega

variable {t : ℚ} {r : ℕ} (h : NearestEven t r)
include h

theorem le_of_natCast_le {n : ℕ} (hn : (n : ℚ) ≤ t) : n ≤ r := by
  by_contra hlt
  have : (r : ℚ) + 1 ≤ n := by exact_mod_cast Nat.lt_of_not_le hlt
  linarith [(abs_le.1 h.close).1]

theorem le_of_le_natCast {n : ℕ} (hn : t ≤ n) : r ≤ n := by
  by_contra hlt
  have : (n : ℚ) + 1 ≤ r := by exact_mod_cast Nat.lt_of_not_le hlt
  linarith [(abs_le.1 h.close).2]

/-- Two different integers are at least 1 apart, so any other integer is at least half away. -/
theorem half_le_of_ne {k : ℤ} (hk : k ≠ r) : 1 / 2 ≤ |(k : ℚ) - t| := by
  have hapart : (1 : ℚ) ≤ |(k : ℚ) - r| := by exact_mod_cast Int.one_le_abs (sub_ne_zero.2 hk)
  linarith [abs_sub_le (k : ℚ) t r, abs_sub_comm t r, h.close]

theorem abs_sub_le_int (k : ℤ) : |(r : ℚ) - t| ≤ |(k : ℚ) - t| := by
  obtain rfl | hk := eq_or_ne k r
  · rfl
  · exact h.close.trans (h.half_le_of_ne hk)

theorem even_of_tie {k : ℤ} (hk : k ≠ r) (htie : |(r : ℚ) - t| = |(k : ℚ) - t|) : r % 2 = 0 :=
  h.even (h.close.antisymm (htie ▸ h.half_le_of_ne hk))

end NearestEven

end Sys2Proof.Machine.F32
end

section
/-! SUPPORT. binary32 patterns: their fields, and the rational value of a finite pattern. -/

namespace Sys2Proof.Machine.F32

/-! ### Sign and value -/

/-- The factor of a sign. -/
def sgn (neg : Bool) : ℚ := if neg then -1 else 1

@[simp] theorem sgn_true : sgn true = -1 := rfl
@[simp] theorem sgn_false : sgn false = 1 := rfl
theorem sgn_ne_zero (s : Bool) : sgn s ≠ 0 := by cases s <;> norm_num
@[simp] theorem abs_sgn (s : Bool) : |sgn s| = 1 := by cases s <;> norm_num
theorem sgn_xor (s t : Bool) : sgn (s ^^ t) = sgn s * sgn t := by cases s <;> cases t <;> norm_num
theorem sgn_not (s : Bool) : sgn (!s) = -sgn s := by cases s <;> norm_num

theorem sgn_mul_lt_zero {s : Bool} {u : ℚ} (hu : 0 < u) : decide (sgn s * u < 0) = s := by
  cases s
  · simpa using hu.le
  · simpa using hu

theorem sgn_mul_natAbs (z : ℤ) : sgn (decide (z < 0)) * (z.natAbs : ℚ) = z := by
  rw [Nat.cast_natAbs, Int.cast_abs]
  by_cases hz : z < 0
  · have : (z : ℚ) < 0 := by exact_mod_cast hz
    simp [hz, abs_of_neg this]
  · have : (0 : ℚ) ≤ z := by exact_mod_cast not_lt.1 hz
    simp [hz, abs_of_nonneg this]

theorem value_of_decode {w : Word32} {s : Bool} {m : ℕ} {e : ℤ} (h : decode w = .fin s m e) :
    value w = sgn s * m * 2 ^ e := by
  simp only [value, h, sgn]

theorem isFinite_iff {w : Word32} : isFinite w = true ↔ ∃ s m e, decode w = .fin s m e := by
  unfold isFinite
  cases decode w <;> simp

theorem isFinite_of_decode {w : Word32} {s : Bool} {m : ℕ} {e : ℤ} (h : decode w = .fin s m e) :
    isFinite w = true := isFinite_iff.2 ⟨s, m, e, h⟩

theorem value_eq_zero_iff {w : Word32} {s : Bool} {m : ℕ} {e : ℤ} (h : decode w = .fin s m e) :
    value w = 0 ↔ m = 0 := by
  have : (2 : ℚ) ^ e ≠ 0 := by positivity
  simp [value_of_decode h, sgn_ne_zero, this]

/-! ### The fields of a pattern -/

theorem getLsbD_31_eq (w : Word32) : w.getLsbD 31 = decide (2 ^ 31 ≤ w.toNat) := by
  rw [BitVec.getLsbD, Nat.testBit_eq_decide_div_mod_eq]
  have := w.isLt
  exact decide_eq_decide.2 (by omega)

theorem exponent_toNat (w : Word32) : (w.extractLsb' 23 8).toNat = w.toNat / 2 ^ 23 % 2 ^ 8 := by
  rw [BitVec.extractLsb'_toNat, Nat.shiftRight_eq_div_pow]

theorem fraction_toNat (w : Word32) : (w.extractLsb' 0 23).toNat = w.toNat % 2 ^ 23 := by
  rw [BitVec.extractLsb'_toNat, Nat.shiftRight_zero]

/-- What a finite pattern can be: its sign is bit 31, its significand has 24 bits, its last place is at least 2^-149. -/
theorem decode_fin_bounds {w : Word32} {s : Bool} {m : ℕ} {e : ℤ} (h : decode w = .fin s m e) :
    s = w.getLsbD 31 ∧ m < 2 ^ 24 ∧ -149 ≤ e := by
  have hfrac := fraction_toNat w
  simp only [decode] at h
  split at h
  next => split at h <;> cases h
  next =>
    split at h
    next =>
      cases h
      exact ⟨rfl, by omega, le_rfl⟩
    next =>
      cases h
      exact ⟨rfl, by omega, by omega⟩

/-! ### The pattern of a sign and a magnitude -/

/-- A sign and the 31 bits below it. -/
def pack (neg : Bool) (b : ℕ) : Word32 := signBit neg ||| BitVec.ofNat 32 b

theorem toNat_pack {b : ℕ} (hb : b < 2 ^ 31) (neg : Bool) : (pack neg b).toNat = (if neg then 2 ^ 31 else 0) + b := by
  have hmod : b % 2 ^ 32 = b := Nat.mod_eq_of_lt (by omega)
  cases neg
  · rw [pack, BitVec.toNat_or, BitVec.toNat_ofNat, hmod]
    simp [signBit]
  · rw [pack, BitVec.toNat_or, BitVec.toNat_ofNat, hmod]
    exact (Nat.two_pow_add_eq_or_of_lt hb 1).symm

theorem pack_getLsbD_31 {b : ℕ} (hb : b < 2 ^ 31) (neg : Bool) : (pack neg b).getLsbD 31 = neg := by
  rw [getLsbD_31_eq, toNat_pack hb]
  cases neg
  · simpa using hb
  · simp

theorem pack_getLsbD_zero {b : ℕ} (hb : b < 2 ^ 31) (heven : b % 2 = 0) (neg : Bool) :
    (pack neg b).getLsbD 0 = false := by
  rw [BitVec.getLsbD, toNat_pack hb, Nat.testBit_zero]
  split <;> exact decide_eq_false (by omega)

theorem decode_pack {b : ℕ} (hb : b < 0x7F800000) (neg : Bool) : decode (pack neg b) =
    if b / 2 ^ 23 = 0 then .fin neg (b % 2 ^ 23) (-149)
    else .fin neg (b % 2 ^ 23 + 2 ^ 23) ((b / 2 ^ 23 : ℕ) - 150) := by
  have hbound : b < 2 ^ 31 := by omega
  have hexp : (pack neg b).toNat / 2 ^ 23 % 2 ^ 8 = b / 2 ^ 23 := by
    rw [toNat_pack hbound]
    split <;> omega
  have hfrac : (pack neg b).toNat % 2 ^ 23 = b % 2 ^ 23 := by
    rw [toNat_pack hbound]
    split <;> omega
  have hnot : b / 2 ^ 23 ≠ 255 := by omega
  simp only [decode, exponent_toNat, fraction_toNat, hexp, hfrac, pack_getLsbD_31 hbound, if_neg hnot]

@[simp] theorem decode_infinity (neg : Bool) : decode (infinity neg) = .inf neg := by
  cases neg <;> decide

/-- A significand of 24 bits, or 2^24 itself, added to a shifted exponent field stands for that many last places: the carry
out of the fraction goes into the exponent. -/
theorem value_pack {p r : ℕ} (hb : p * 2 ^ 23 + r < 0x7F800000) (hr : r ≤ 2 ^ 24) (hnormal : p ≠ 0 → 2 ^ 23 ≤ r)
    (neg : Bool) : value (pack neg (p * 2 ^ 23 + r)) = sgn neg * r * 2 ^ ((p : ℤ) - 149) := by
  have hdecode := decode_pack hb neg
  split at hdecode
  next hzero =>
    have hp : p = 0 := by omega
    have hrest : (p * 2 ^ 23 + r) % 2 ^ 23 = r := by omega
    rw [value_of_decode hdecode, hrest, hp]
    norm_num
  next hnz =>
    rw [value_of_decode hdecode]
    obtain rfl | hlt := hr.eq_or_lt
    · have hexp : (p * 2 ^ 23 + 2 ^ 24) / 2 ^ 23 = p + 2 := by omega
      have hrest : (p * 2 ^ 23 + 2 ^ 24) % 2 ^ 23 = 0 := by omega
      have hplace : (((p + 2 : ℕ) : ℤ) - 150) = ((p : ℤ) - 149) + 1 := by push_cast; ring
      rw [hexp, hrest, hplace, zpow_add_one₀ two_ne_zero]
      push_cast
      ring
    · have hexp : (p * 2 ^ 23 + r) / 2 ^ 23 = p + 1 := by omega
      have hrest : (p * 2 ^ 23 + r) % 2 ^ 23 + 2 ^ 23 = r := by omega
      have hplace : (((p + 1 : ℕ) : ℤ) - 150) = (p : ℤ) - 149 := by push_cast; ring
      rw [hexp, hrest, hplace]

theorem isFinite_pack {b : ℕ} (hb : b < 0x7F800000) (neg : Bool) : isFinite (pack neg b) = true := by
  have hdecode := decode_pack hb neg
  split at hdecode <;> exact isFinite_of_decode hdecode

end Sys2Proof.Machine.F32
end

section
/-! SUPPORT. `F32.round` is correct rounding (R9). Every finite value is a whole number of last places of the result, or lies
below the binade of the exact value; so the integer nearest to the exact significand is the nearest significand. -/

namespace Sys2Proof.Machine.F32

/-! ### The finite values on the grid of a last place -/

theorem exists_int_sgn_mul (s neg : Bool) (n : ℕ) : ∃ k : ℤ, sgn s * n = sgn neg * k := by
  obtain rfl | h := eq_or_ne s neg
  · exact ⟨n, by push_cast; rfl⟩
  · obtain rfl : s = !neg := Bool.eq_not.2 h
    exact ⟨-n, by rw [sgn_not]; push_cast; ring⟩

theorem value_on_grid_or_below {x : Word32} (hx : isFinite x = true) (neg : Bool) (p : ℕ) :
    (∃ k : ℤ, value x = sgn neg * k * 2 ^ ((p : ℤ) - 149)) ∨
      p ≠ 0 ∧ |value x| < 2 ^ 23 * 2 ^ ((p : ℤ) - 149) := by
  obtain ⟨s, m, e, hdecode⟩ := isFinite_iff.1 hx
  obtain ⟨-, hm, he⟩ := decode_fin_bounds hdecode
  rw [value_of_decode hdecode]
  by_cases hle : (p : ℤ) - 149 ≤ e
  · left
    obtain ⟨j, hj⟩ := Int.le.dest hle
    obtain ⟨k, hk⟩ := exists_int_sgn_mul s neg (m * 2 ^ j)
    refine ⟨k, ?_⟩
    rw [← hk, ← hj, zpow_add₀ two_ne_zero, zpow_natCast]
    push_cast
    ring
  · right
    refine ⟨by omega, ?_⟩
    have habs : |sgn s * m * (2 : ℚ) ^ e| = m * 2 ^ e := by simp [abs_mul]
    have hplace : (2 : ℚ) ^ ((p : ℤ) - 149) = 2 ^ ((p : ℤ) - 149 - 1) * 2 := by
      rw [← zpow_add_one₀ two_ne_zero, sub_add_cancel]
    calc |sgn s * m * (2 : ℚ) ^ e| = m * 2 ^ e := habs
      _ < 2 ^ 24 * 2 ^ e := by gcongr; exact_mod_cast hm
      _ ≤ 2 ^ 24 * 2 ^ ((p : ℤ) - 149 - 1) := by gcongr <;> [norm_num; omega]
      _ = 2 ^ 23 * 2 ^ ((p : ℤ) - 149) := by rw [hplace]; ring

/-! ### A significand and its rounding -/

theorem abs_sgn_mul_zpow_sub (neg : Bool) (k t : ℚ) (q : ℤ) :
    |sgn neg * k * 2 ^ q - sgn neg * t * 2 ^ q| = |k - t| * 2 ^ q := by
  rw [← sub_mul, ← mul_sub, abs_mul, abs_mul, abs_sgn, one_mul, abs_of_pos (by positivity : (0 : ℚ) < 2 ^ q)]

/-- `t` last places of size `2^(p - 149)` with `t` a significand of the exponent field `p`, and `r` its rounding. -/
structure RoundsTo (t : ℚ) (p r : ℕ) : Prop where
  near : NearestEven t r
  pos : 0 < t
  lt : t < 2 ^ 24
  normal : p ≠ 0 → 2 ^ 23 ≤ t

namespace RoundsTo

variable {t : ℚ} {p r : ℕ} (h : RoundsTo t p r)
include h

theorem le_two_pow : r ≤ 2 ^ 24 := h.near.le_of_le_natCast (by exact_mod_cast h.lt.le)

theorem two_pow_le (hp : p ≠ 0) : 2 ^ 23 ≤ r := h.near.le_of_natCast_le (by exact_mod_cast h.normal hp)

/-- At the largest exponent the bound is half a last place below `2^24`, a tie between an odd and an even significand. -/
theorem two_pow_le_iff : 2 ^ 24 ≤ r ↔ 2 ^ 24 - 1 / 2 ≤ t := by
  obtain ⟨hlo, hhi⟩ := abs_le.1 h.near.close
  constructor
  · intro hr
    have : (2 : ℚ) ^ 24 ≤ r := by exact_mod_cast hr
    linarith
  · intro ht
    have hpred : 2 ^ 24 - 1 ≤ r := h.near.le_of_natCast_le (by push_cast; linarith)
    by_contra hlt
    obtain rfl : r = 2 ^ 24 - 1 := by omega
    have htie : t = ((2 ^ 24 - 1 : ℕ) : ℚ) + 1 / 2 := by
      refine le_antisymm (by linarith) ?_
      push_cast
      linarith
    have := h.near.even (by rw [htie, sub_add_cancel_left, abs_neg]; norm_num)
    omega

theorem overflow_iff : overflowBound ≤ t * 2 ^ ((p : ℤ) - 149) ↔ 0x7F800000 ≤ p * 2 ^ 23 + r := by
  have hr := h.le_two_pow
  obtain hp | rfl | hp := lt_trichotomy p 253
  · have hsmall : t * 2 ^ ((p : ℤ) - 149) < overflowBound :=
      calc t * 2 ^ ((p : ℤ) - 149) < 2 ^ 24 * 2 ^ ((p : ℤ) - 149) := by gcongr; exact h.lt
        _ ≤ 2 ^ 24 * 2 ^ (103 : ℤ) := by gcongr <;> [norm_num; omega]
        _ ≤ overflowBound := by norm_num [overflowBound]
    exact iff_of_false (not_le.2 hsmall) (by omega)
  · have hplace : overflowBound = (2 ^ 24 - 1 / 2) * 2 ^ (((253 : ℕ) : ℤ) - 149) := by norm_num [overflowBound]
    rw [hplace, mul_le_mul_iff_left₀ (by positivity), ← h.two_pow_le_iff]
    omega
  · have hlarge : overflowBound ≤ t * 2 ^ ((p : ℤ) - 149) :=
      calc overflowBound ≤ 2 ^ 23 * 2 ^ (105 : ℤ) := by norm_num [overflowBound]
        _ ≤ 2 ^ 23 * 2 ^ ((p : ℤ) - 149) := by gcongr <;> [norm_num; omega]
        _ ≤ t * 2 ^ ((p : ℤ) - 149) := by gcongr; exact h.normal (by omega)
    have := h.two_pow_le (by omega)
    exact iff_of_true hlarge (by omega)

theorem abs_exact (neg : Bool) : |sgn neg * t * 2 ^ ((p : ℤ) - 149)| = t * 2 ^ ((p : ℤ) - 149) := by
  simp [abs_mul, abs_of_pos h.pos]

theorem exact_neg_iff (neg : Bool) : decide (sgn neg * t * 2 ^ ((p : ℤ) - 149) < 0) = neg := by
  rw [mul_assoc]
  exact sgn_mul_lt_zero (mul_pos h.pos (by positivity))

/-- A value below the exact value's binade is farther from it than the least significand of the binade is. -/
theorem far_of_below (neg : Bool) (hp : p ≠ 0) {y : ℚ} (hy : |y| < 2 ^ 23 * 2 ^ ((p : ℤ) - 149)) :
    |(r : ℚ) - t| * 2 ^ ((p : ℤ) - 149) < |y - sgn neg * t * 2 ^ ((p : ℤ) - 149)| := by
  have hnear : |(r : ℚ) - t| ≤ t - 2 ^ 23 :=
    calc |(r : ℚ) - t| ≤ |((2 ^ 23 : ℤ) : ℚ) - t| := h.near.abs_sub_le_int _
      _ = |(2 ^ 23 : ℚ) - t| := by push_cast; rfl
      _ = t - 2 ^ 23 := by rw [abs_sub_comm, abs_of_nonneg (sub_nonneg.2 (h.normal hp))]
  calc |(r : ℚ) - t| * 2 ^ ((p : ℤ) - 149)
      ≤ (t - 2 ^ 23) * 2 ^ ((p : ℤ) - 149) := by gcongr
    _ = t * 2 ^ ((p : ℤ) - 149) - 2 ^ 23 * 2 ^ ((p : ℤ) - 149) := sub_mul _ _ _
    _ < |sgn neg * t * 2 ^ ((p : ℤ) - 149)| - |y| := by rw [h.abs_exact]; gcongr
    _ ≤ |y - sgn neg * t * 2 ^ ((p : ℤ) - 149)| := by rw [abs_sub_comm]; exact abs_sub_abs_le_abs_sub _ _

/-- Against every finite value: strictly nearer, or that value is a whole number `k` of last places. -/
theorem nearer_or_on_grid (neg : Bool) {x : Word32} (hx : isFinite x = true) :
    |(r : ℚ) - t| * 2 ^ ((p : ℤ) - 149) < |value x - sgn neg * t * 2 ^ ((p : ℤ) - 149)| ∨
      ∃ k : ℤ, value x = sgn neg * k * 2 ^ ((p : ℤ) - 149) ∧
        |value x - sgn neg * t * 2 ^ ((p : ℤ) - 149)| = |(k : ℚ) - t| * 2 ^ ((p : ℤ) - 149) := by
  obtain ⟨k, hk⟩ | ⟨hp, hbelow⟩ := value_on_grid_or_below hx neg p
  · exact .inr ⟨k, hk, hk ▸ abs_sgn_mul_zpow_sub neg k t _⟩
  · exact .inl (h.far_of_below neg hp hbelow)

theorem isRounded_pack (neg : Bool) (hb : p * 2 ^ 23 + r < 0x7F800000) :
    IsRounded (sgn neg * t * 2 ^ ((p : ℤ) - 149)) (pack neg (p * 2 ^ 23 + r)) := by
  have hvalue := value_pack hb h.le_two_pow h.two_pow_le neg
  have hdistance := hvalue ▸ abs_sgn_mul_zpow_sub neg r t ((p : ℤ) - 149)
  refine ⟨fun hover => ?overflow, fun _ => isFinite_pack hb neg, fun _ _ => ?sign, fun _ x hx => ?nearest,
    fun _ x hx htie hne => ?tie⟩
  case overflow =>
    rw [h.abs_exact, h.overflow_iff] at hover
    omega
  case sign => rw [pack_getLsbD_31 (by omega), h.exact_neg_iff]
  case nearest =>
    rw [hdistance]
    obtain hfar | ⟨k, -, hk⟩ := h.nearer_or_on_grid neg hx
    · exact hfar.le
    · rw [hk]
      exact mul_le_mul_of_nonneg_right (h.near.abs_sub_le_int k) (by positivity)
  case tie =>
    rw [hdistance] at htie
    obtain hfar | ⟨k, hx, hk⟩ := h.nearer_or_on_grid neg hx
    · exact absurd htie hfar.ne
    · have hkr : k ≠ r := by
        rintro rfl
        exact hne (by rw [hx, hvalue]; push_cast; rfl)
      have heven := h.near.even_of_tie hkr (mul_right_cancel₀ (by positivity) (htie.trans hk))
      exact pack_getLsbD_zero (by omega) (by omega) neg

theorem isRounded_infinity (neg : Bool) (hb : 0x7F800000 ≤ p * 2 ^ 23 + r) :
    IsRounded (sgn neg * t * 2 ^ ((p : ℤ) - 149)) (infinity neg) := by
  have hover : overflowBound ≤ |sgn neg * t * 2 ^ ((p : ℤ) - 149)| := by rwa [h.abs_exact, h.overflow_iff]
  exact ⟨fun _ => by rw [h.exact_neg_iff], fun hlt => absurd hover hlt.not_ge, fun hlt => absurd hover hlt.not_ge,
    fun hlt => absurd hover hlt.not_ge, fun hlt => absurd hover hlt.not_ge⟩

end RoundsTo

/-! ### What `round` computes -/

/-- The exponent of the result's last place. -/
def lastPlace (m : ℕ) (e : ℤ) : ℤ := max ((m.log2 : ℤ) + e - 23) (-149)

/-- The significand before the carry into the exponent. -/
def significand (m : ℕ) (e : ℤ) : ℕ :=
  if lastPlace m e ≤ e then m <<< (e - lastPlace m e).toNat else shiftNearest m (lastPlace m e - e).toNat

/-- The exponent field for that last place. -/
def exponentField (m : ℕ) (e : ℤ) : ℕ := (lastPlace m e + 149).toNat

theorem round_zero (neg : Bool) (e : ℤ) : round neg 0 e = signBit neg := rfl

theorem round_of_ne_zero {m : ℕ} (hm : m ≠ 0) (neg : Bool) (e : ℤ) : round neg m e =
    if 0x7F800000 ≤ exponentField m e * 2 ^ 23 + significand m e then infinity neg
    else pack neg (exponentField m e * 2 ^ 23 + significand m e) := by
  rw [← Nat.shiftLeft_eq, round, if_neg hm]
  rfl

theorem exponentField_sub (m : ℕ) (e : ℤ) : (exponentField m e : ℤ) - 149 = lastPlace m e := by
  have : -149 ≤ lastPlace m e := le_max_right _ _
  unfold exponentField
  omega

theorem nearestEven_significand (m : ℕ) (e : ℤ) :
    NearestEven (m * 2 ^ (e - lastPlace m e)) (significand m e) := by
  unfold significand
  split
  next hle =>
    obtain ⟨j, hj⟩ := Int.le.dest hle
    obtain hj : e - lastPlace m e = j := by omega
    rw [hj, Int.toNat_natCast, Nat.shiftLeft_eq, zpow_natCast]
    exact_mod_cast NearestEven.natCast (m * 2 ^ j)
  next hlt =>
    obtain ⟨j, hj⟩ := Int.le.dest (not_le.1 hlt).le
    have hneg : e - lastPlace m e = -(j : ℤ) := by omega
    have hpos : lastPlace m e - e = j := by omega
    rw [hneg, hpos, Int.toNat_natCast, zpow_neg, zpow_natCast, ← div_eq_mul_inv]
    exact NearestEven.shiftNearest m j

theorem roundsTo_significand {m : ℕ} (hm : m ≠ 0) (e : ℤ) :
    RoundsTo (m * 2 ^ (e - lastPlace m e)) (exponentField m e) (significand m e) where
  near := nearestEven_significand m e
  pos := by positivity
  lt := by
    have hplace : (m.log2 : ℤ) + e - 23 ≤ lastPlace m e := le_max_left _ _
    have hm : (m : ℚ) < 2 ^ ((m.log2 : ℤ) + 1) := by exact_mod_cast Nat.lt_log2_self (n := m)
    calc (m : ℚ) * 2 ^ (e - lastPlace m e) < 2 ^ ((m.log2 : ℤ) + 1) * 2 ^ (e - lastPlace m e) := by gcongr
      _ = 2 ^ ((m.log2 : ℤ) + 1 + (e - lastPlace m e)) := (zpow_add₀ two_ne_zero _ _).symm
      _ ≤ 2 ^ (24 : ℤ) := by gcongr <;> [norm_num; omega]
      _ = 2 ^ 24 := by norm_num
  normal := by
    intro hp
    have hplace : lastPlace m e = (m.log2 : ℤ) + e - 23 := by
      have := exponentField_sub m e
      refine (max_choice _ _).resolve_right fun hmin => hp ?_
      have : lastPlace m e = -149 := hmin
      omega
    have hm : (2 : ℚ) ^ (m.log2 : ℤ) ≤ m := by exact_mod_cast Nat.log2_self_le hm
    calc (2 : ℚ) ^ 23 = 2 ^ ((m.log2 : ℤ) + (e - lastPlace m e)) := by
          rw [hplace, show (m.log2 : ℤ) + (e - (m.log2 + e - 23)) = 23 by ring]; norm_num
      _ = 2 ^ (m.log2 : ℤ) * 2 ^ (e - lastPlace m e) := zpow_add₀ two_ne_zero _ _
      _ ≤ m * 2 ^ (e - lastPlace m e) := by gcongr

theorem value_signBit (neg : Bool) : value (signBit neg) = 0 := by
  have hdecode : decode (signBit neg) = .fin neg 0 (-149) := by cases neg <;> decide
  exact (value_eq_zero_iff hdecode).2 rfl

theorem isRounded_zero (neg : Bool) : IsRounded 0 (signBit neg) where
  overflow h := absurd h (by norm_num [overflowBound])
  finite _ := by cases neg <;> decide
  sign _ h := absurd rfl h
  nearest _ x _ := by simp [value_signBit]
  tie _ x _ _ _ := by cases neg <;> decide

theorem isRounded_round (neg : Bool) (m : ℕ) (e : ℤ) : IsRounded (sgn neg * m * 2 ^ e) (round neg m e) := by
  obtain rfl | hm := eq_or_ne m 0
  · simpa [round_zero] using isRounded_zero neg
  · have hrounds := roundsTo_significand hm e
    have hexact : sgn neg * m * (2 : ℚ) ^ e =
        sgn neg * (m * 2 ^ (e - lastPlace m e)) * 2 ^ ((exponentField m e : ℤ) - 149) := by
      rw [exponentField_sub, mul_assoc, mul_assoc, mul_assoc, ← zpow_add₀ two_ne_zero, sub_add_cancel]
    rw [hexact, round_of_ne_zero hm]
    split
    next hover => exact hrounds.isRounded_infinity neg hover
    next hfits => exact hrounds.isRounded_pack neg (not_le.1 hfits)

end Sys2Proof.Machine.F32
end

section
/-! SUPPORT. `fadd`, `fsub`, `fmul` and `u2f` (R9, R6), case by case on what the operands stand for, and O15. -/

namespace Sys2Proof.Machine.F32

/-! ### Turning the sign -/

theorem neg_getLsbD_31 (w : Word32) : (neg w).getLsbD 31 = !w.getLsbD 31 := by
  simp [neg]

/-- What a pattern stands for, with its sign turned. -/
def turned : F32Val → F32Val
  | .nan => .nan
  | .inf s => .inf (!s)
  | .fin s m e => .fin (!s) m e

theorem decode_neg (w : Word32) : decode (neg w) = turned (decode w) := by
  have hexp : (neg w).extractLsb' 23 8 = w.extractLsb' 23 8 := by
    rw [neg, BitVec.extractLsb'_xor]
    exact BitVec.xor_zero
  have hfrac : (neg w).extractLsb' 0 23 = w.extractLsb' 0 23 := by
    rw [neg, BitVec.extractLsb'_xor]
    exact BitVec.xor_zero
  simp only [decode, hexp, hfrac, neg_getLsbD_31]
  split_ifs <;> rfl

theorem decode_neg_of_fin {w : Word32} {s : Bool} {m : ℕ} {e : ℤ} (h : decode w = .fin s m e) :
    decode (neg w) = .fin (!s) m e := by
  rw [decode_neg, h, turned]

theorem decode_neg_of_nan {w : Word32} (h : decode w = .nan) : decode (neg w) = .nan := by
  rw [decode_neg, h, turned]

theorem neg_infinity (s : Bool) : neg (infinity s) = infinity (!s) := by cases s <;> rfl

theorem isFinite_neg {w : Word32} (h : isFinite w = true) : isFinite (neg w) = true := by
  obtain ⟨s, m, e, hdecode⟩ := isFinite_iff.1 h
  exact isFinite_of_decode (decode_neg_of_fin hdecode)

theorem value_neg {w : Word32} (h : isFinite w = true) : value (neg w) = -value w := by
  obtain ⟨s, m, e, hdecode⟩ := isFinite_iff.1 h
  rw [value_of_decode hdecode, value_of_decode (decode_neg_of_fin hdecode), sgn_not, neg_mul, neg_mul]

/-! ### A NaN operand -/

theorem add_of_nan {a b : Word32} (h : decode a = .nan ∨ decode b = .nan) : add a b = defaultNaN := by
  obtain h | h := h
  · simp only [add, h]
  · unfold add
    cases decode a <;> simp only [h]

theorem sub_of_nan {a b : Word32} (h : decode a = .nan ∨ decode b = .nan) : sub a b = defaultNaN :=
  add_of_nan (h.imp_right decode_neg_of_nan)

theorem mul_of_nan {a b : Word32} (h : decode a = .nan ∨ decode b = .nan) : mul a b = defaultNaN := by
  obtain h | h := h
  · simp only [mul, h]
  · unfold mul
    cases decode a <;> simp only [h]

/-! ### Infinities -/

theorem add_infinity_infinity (s t : Bool) :
    add (infinity s) (infinity t) = if s = t then infinity s else defaultNaN := by
  simp only [add, decode_infinity]

theorem sub_infinity_infinity (s t : Bool) :
    sub (infinity s) (infinity t) = if s = t then defaultNaN else infinity s := by
  rw [sub, neg_infinity, add_infinity_infinity]
  cases s <;> cases t <;> rfl

theorem mul_infinity_infinity (s t : Bool) : mul (infinity s) (infinity t) = infinity (s ^^ t) := by
  simp only [mul, decode_infinity]

theorem add_infinity_finite (s : Bool) {a : Word32} (h : isFinite a = true) : add (infinity s) a = infinity s := by
  obtain ⟨t, m, e, hdecode⟩ := isFinite_iff.1 h
  simp only [add, decode_infinity, hdecode]

theorem add_finite_infinity (s : Bool) {a : Word32} (h : isFinite a = true) : add a (infinity s) = infinity s := by
  obtain ⟨t, m, e, hdecode⟩ := isFinite_iff.1 h
  simp only [add, decode_infinity, hdecode]

theorem sub_infinity_finite (s : Bool) {a : Word32} (h : isFinite a = true) : sub (infinity s) a = infinity s :=
  add_infinity_finite s (isFinite_neg h)

theorem sub_finite_infinity (s : Bool) {a : Word32} (h : isFinite a = true) :
    sub a (infinity s) = infinity (!s) := by
  rw [sub, neg_infinity, add_finite_infinity _ h]

theorem mul_infinity_finite (s : Bool) {a : Word32} (h : isFinite a = true) :
    mul (infinity s) a = if value a = 0 then defaultNaN else infinity (s ^^ a.getLsbD 31) := by
  obtain ⟨t, m, e, hdecode⟩ := isFinite_iff.1 h
  obtain ⟨rfl, -⟩ := decode_fin_bounds hdecode
  simp only [mul, decode_infinity, hdecode, value_eq_zero_iff hdecode]

theorem mul_finite_infinity (s : Bool) {a : Word32} (h : isFinite a = true) :
    mul a (infinity s) = mul (infinity s) a := by
  obtain ⟨t, m, e, hdecode⟩ := isFinite_iff.1 h
  simp only [mul, decode_infinity, hdecode, Bool.xor_comm]

/-! ### Finite operands -/

theorem scaled_mul_zpow (s : Bool) (m : ℕ) {e g : ℤ} (h : g ≤ e) :
    (scaled s m e g : ℚ) * 2 ^ g = sgn s * m * 2 ^ e := by
  obtain ⟨j, rfl⟩ := Int.le.dest h
  have hscaled : (scaled s m (g + j) g : ℚ) = sgn s * (m * 2 ^ j) := by
    rw [scaled, add_sub_cancel_left, Int.toNat_natCast, Nat.shiftLeft_eq]
    cases s <;> simp
  rw [hscaled, zpow_add₀ two_ne_zero, zpow_natCast]
  ring

/-- The exact sum of two finite operands, in units of `2 ^ min e f`. -/
def exactSum (s : Bool) (m : ℕ) (e : ℤ) (t : Bool) (n : ℕ) (f : ℤ) : ℤ :=
  scaled s m e (min e f) + scaled t n f (min e f)

section Finite

variable {a b : Word32} {s t : Bool} {m n : ℕ} {e f : ℤ} (ha : decode a = .fin s m e) (hb : decode b = .fin t n f)
include ha hb

theorem add_of_fin : add a b = if exactSum s m e t n f = 0 then signBit (s && t)
    else round (decide (exactSum s m e t n f < 0)) (exactSum s m e t n f).natAbs (min e f) := by
  simp only [add, ha, hb]
  rfl

theorem mul_of_fin : mul a b = round (s ^^ t) (m * n) (e + f) := by
  simp only [mul, ha, hb]

theorem value_add_value : value a + value b = exactSum s m e t n f * 2 ^ min e f := by
  rw [value_of_decode ha, value_of_decode hb, exactSum, Int.cast_add, add_mul, scaled_mul_zpow _ _ (min_le_left e f),
    scaled_mul_zpow _ _ (min_le_right e f)]

theorem value_mul_value : value a * value b = sgn (s ^^ t) * (m * n : ℕ) * 2 ^ (e + f) := by
  rw [value_of_decode ha, value_of_decode hb, sgn_xor, zpow_add₀ two_ne_zero]
  push_cast
  ring

theorem value_add_eq_zero_iff : value a + value b = 0 ↔ exactSum s m e t n f = 0 := by
  have : (2 : ℚ) ^ min e f ≠ 0 := by positivity
  simp [value_add_value ha hb, this]

end Finite

section FiniteOperands

variable {a b : Word32} (ha : isFinite a = true) (hb : isFinite b = true)
include ha hb

theorem isRounded_add : IsRounded (value a + value b) (add a b) := by
  obtain ⟨s, m, e, ha⟩ := isFinite_iff.1 ha
  obtain ⟨t, n, f, hb⟩ := isFinite_iff.1 hb
  rw [value_add_value ha hb, add_of_fin ha hb]
  split
  next hzero =>
    rw [hzero, Int.cast_zero, zero_mul]
    exact isRounded_zero _
  next =>
    have := isRounded_round (decide (exactSum s m e t n f < 0)) (exactSum s m e t n f).natAbs (min e f)
    rwa [sgn_mul_natAbs] at this

theorem isRounded_sub : IsRounded (value a - value b) (sub a b) := by
  rw [sub_eq_add_neg, ← value_neg hb]
  exact isRounded_add ha (isFinite_neg hb)

theorem isRounded_mul : IsRounded (value a * value b) (mul a b) := by
  obtain ⟨s, m, e, ha⟩ := isFinite_iff.1 ha
  obtain ⟨t, n, f, hb⟩ := isFinite_iff.1 hb
  rw [value_mul_value ha hb, mul_of_fin ha hb]
  exact isRounded_round _ _ _

theorem add_of_value_add_eq_zero (h : value a + value b = 0) :
    add a b = signBit (a.getLsbD 31 && b.getLsbD 31) := by
  obtain ⟨s, m, e, ha⟩ := isFinite_iff.1 ha
  obtain ⟨t, n, f, hb⟩ := isFinite_iff.1 hb
  obtain ⟨rfl, -⟩ := decode_fin_bounds ha
  obtain ⟨rfl, -⟩ := decode_fin_bounds hb
  rw [add_of_fin ha hb, if_pos ((value_add_eq_zero_iff ha hb).1 h)]

theorem sub_of_value_sub_eq_zero (h : value a - value b = 0) :
    sub a b = signBit (a.getLsbD 31 && !b.getLsbD 31) := by
  rw [sub_eq_add_neg, ← value_neg hb] at h
  rw [sub, add_of_value_add_eq_zero ha (isFinite_neg hb) h, neg_getLsbD_31]

theorem mul_of_value_mul_eq_zero (h : value a * value b = 0) :
    mul a b = signBit (a.getLsbD 31 ^^ b.getLsbD 31) := by
  obtain ⟨s, m, e, ha⟩ := isFinite_iff.1 ha
  obtain ⟨t, n, f, hb⟩ := isFinite_iff.1 hb
  obtain ⟨rfl, -⟩ := decode_fin_bounds ha
  obtain ⟨rfl, -⟩ := decode_fin_bounds hb
  rw [mul_eq_zero, value_eq_zero_iff ha, value_eq_zero_iff hb, ← mul_eq_zero] at h
  rw [mul_of_fin ha hb, h, round_zero]

end FiniteOperands

theorem isRounded_ofNat (n : ℕ) : IsRounded n (ofNat n) := by
  simpa [ofNat] using isRounded_round false n 0

/-- Settles O15: `round` rounds correctly (`isRounded_round`), and every operation is `round` of the exact result or one of
the special cases of R9. -/
theorem floatArithmetic : Obligations.FloatArithmetic := by
  unfold Obligations.FloatArithmetic
  refine ⟨fun a b ha hb => ?finite, fun a b h => ?nan, fun s t => ?infinities, fun s a ha => ?infinity, isRounded_ofNat⟩
  case finite =>
    exact ⟨isRounded_add ha hb, isRounded_sub ha hb, isRounded_mul ha hb, add_of_value_add_eq_zero ha hb,
      sub_of_value_sub_eq_zero ha hb, mul_of_value_mul_eq_zero ha hb⟩
  case nan => exact ⟨add_of_nan h, sub_of_nan h, mul_of_nan h⟩
  case infinities => exact ⟨add_infinity_infinity s t, sub_infinity_infinity s t, mul_infinity_infinity s t⟩
  case infinity =>
    exact ⟨add_infinity_finite s ha, add_finite_infinity s ha, sub_infinity_finite s ha, sub_finite_infinity s ha,
      mul_finite_infinity s ha, fun hzero => (mul_infinity_finite s ha).trans (if_pos hzero),
      fun hne => (mul_infinity_finite s ha).trans (if_neg hne)⟩

end Sys2Proof.Machine.F32
end

section
/-! SUPPORT. The footprint of every command (R20, R28 to R48, R61, R132, R146, R243), proved once over the 45 commands: which
parts of the state it leaves as they were. RegisterFrame and UnitFrames are read off it, and an invariant's step lemma
needs a case only for the commands that may write what the invariant speaks of. -/

namespace Sys2Proof.Machine

/-- Every part of `t` that command `i` has no business writing is as in `s`. -/
structure Framed (i : Instr) (s t : State) : Prop where
  src : t.src = s.src
  par : t.par = s.par
  port : t.port = s.port
  reg : i.isReset = false → ∀ r, i.dest ≠ some r → t.x r = s.x r
  dm : i.storesDm = false → t.dm = s.dm
  crc : i.writesCrc = false → t.crcAcc = s.crcAcc
  bits : i.movesBits = false → t.bc.pos = s.bc.pos ∧ t.bc.short = s.bc.short
  ranges : i.bindsRanges = false → t.bc.ranges = s.bc.ranges
  count : i.movesBits = false → (∀ rd rs1 imm, i ≠ .bcPeek rd rs1 imm) → t.bc.cnt = s.bc.cnt
  source : i.movesSource = false → t.srcPos = s.srcPos ∧ t.dead = s.dead
  waste : i.writesPage = false → (∀ rs1 csr, i ≠ .sysCsrw rs1 csr) → t.waste = s.waste
  lock : i.writesLock = false → t.lock = s.lock
  page : i.writesPage = false → t.page = s.page ∧ t.streams = s.streams
  books : i.writesBooks = false → t.books = s.books
  residues : i.writesResidues = false → t.residues = s.residues
  mdct : i.writesMdct = false → t.mdct = s.mdct
  ola : i.writesOla = false → t.ola = s.ola ∧ t.modes = s.modes
  ring : i.writesRing = false → t.ring = s.ring

namespace Framed

variable {i : Instr} {s t u : State}

theorem refl (i : Instr) (s : State) : Framed i s s where
  src := rfl
  par := rfl
  port := rfl
  reg _ _ _ := rfl
  dm _ := rfl
  crc _ := rfl
  bits _ := ⟨rfl, rfl⟩
  ranges _ := rfl
  count _ _ := rfl
  source _ := ⟨rfl, rfl⟩
  waste _ _ := rfl
  lock _ := rfl
  page _ := ⟨rfl, rfl⟩
  books _ := rfl
  residues _ := rfl
  mdct _ := rfl
  ola _ := ⟨rfl, rfl⟩
  ring _ := rfl

/-! Each shared update keeps the frame of a command that may make it. -/

theorem ended (h : Framed i s u) (c : BitVec 8) : Framed i s (u.ended c) := { h with }

theorem setFlag (h : Framed i s u) (g : Flag) : Framed i s (u.setFlag g) := { h with }

theorem of_trapped (h : Trapped s t) : Framed i s t := by
  obtain ⟨c, rfl⟩ := h
  exact { refl i s with }

theorem setX (h : Framed i s u) {rd : Reg} (hd : i.dest = some rd) (v : Word) : Framed i s (u.setX rd v) := by
  have hreg (hi : i.isReset = false) (r : Reg) (hr : i.dest ≠ some r) : (u.setX rd v).x r = s.x r := by
    have hne : r ≠ rd := fun e => hr (e ▸ hd)
    rw [State.x_setX, if_neg hne, ← h.reg hi r hr]
    split
    · next h0 => rw [h0]; rfl
    · rfl
  by_cases h0 : rd = 0
  · rw [State.setX, if_pos h0]
    exact h
  · rw [State.setX, if_neg h0] at hreg ⊢
    exact { h with reg := hreg }

theorem bcPeek (h : Framed i s u) (n : Nat) (hi : i.movesBits = true ∨ ∃ rd rs1 imm, i = .bcPeek rd rs1 imm) :
    Framed i s (u.bcPeek n).1 :=
  { h with
    count := fun hm hp => by
      rcases hi with hi | ⟨rd, rs1, imm, rfl⟩
      · rw [hi] at hm; cases hm
      · exact absurd rfl (hp rd rs1 imm) }

theorem moveBits (h : Framed i s u) (hi : i.movesBits = true) (pos : Word) (short : Bool) (cnt : BitVec 7)
    (flags : BitVec 8) :
    Framed i s { u with bc := { ranges := u.bc.ranges, pos := pos, short := short, cnt := cnt }, flags := flags } :=
  { h with
    bits := fun hm => by rw [hi] at hm; cases hm
    count := fun hm => by rw [hi] at hm; cases hm }

theorem bcSkip (h : Framed i s u) (n : Nat) (hi : i.movesBits = true) : Framed i s (u.bcSkip n).1 := by
  rcases bcSkip_cases u n with ⟨_, e⟩ | ⟨_, e⟩
  · rw [e]; exact h.moveBits hi _ _ _ u.flags
  · rw [e]; exact h.moveBits hi _ _ _ _

theorem hufDecode (h : Framed i s u) (b : Codebook) (hi : i.movesBits = true) : Framed i s (u.hufDecode b).1 := by
  obtain ⟨pos, short, cnt, f, e, _⟩ := hufDecode_frame u b
  rw [e]
  exact h.moveBits hi pos short cnt f

theorem dmWriteList (h : Framed i s u) (hi : i.storesDm = true) (a : Nat) (vs : List Word32) :
    Framed i s (u.dmWriteList a vs) :=
  { h with dm := fun hd => by rw [hi] at hd; cases hd }

theorem ran {W : Nat → Prop} (h : Ran s W u) (hd : i.storesDm = true) (hb : i.movesBits = true) : Framed i s u := by
  obtain ⟨dm, pos, cnt, rfl, _⟩ := h.form
  exact { (refl i s).moveBits hb pos s.bc.short cnt s.flags with dm := fun hn => by rw [hd] at hn; cases hn }

/-- A command that only computes a result for its register. -/
theorem of_result {rd : Reg} (hd : i.dest = some rd) (h : Trapped s t ∨ ∃ v, t = (s.setX rd v).ended 0) :
    Framed i s t := by
  rcases h with h | ⟨v, rfl⟩
  · exact of_trapped h
  · exact ((refl i s).setX hd v).ended 0

theorem pfvNext {rd : Reg} {imm : Imm} (h : exec (.pfvNext rd imm) s = .next t) : Framed (.pfvNext rd imm) s t := by
  have hnoPage (p : Nat) : Framed (.pfvNext rd imm) s (s.noPage rd p) := by
    have hscanned : Framed (.pfvNext rd imm) s { s with
        waste := s.waste + BitVec.ofNat 64 (p - s.srcPos.toNat), srcPos := BitVec.ofNat 64 p,
        page := { s.page with valid := false } } :=
      { refl _ s with source := nofun, waste := nofun, page := nofun }
    exact hscanned.setX rfl noResult
  rcases pfvNext_next h with h | ⟨_, rfl | ⟨p, _, rfl⟩ | ⟨_, rfl⟩ | ⟨p, v, _, rfl⟩⟩
  · exact of_trapped h
  · have hinvalid : Framed (.pfvNext rd imm) s { s with page := { s.page with valid := false } } :=
      { refl _ s with page := nofun }
    exact ((hinvalid.setX rfl noResult).setFlag .unrec).ended 9
  · exact { (hnoPage p).setFlag .unrec with source := nofun }
  · exact ((hnoPage s.srcLen).setFlag .eos).ended 1
  · have haccept : Framed (.pfvNext rd imm) s (s.acceptPage p).1 := by
      constructor <;> simp [Instr.movesSource, Instr.writesPage, State.x_of_regs (State.acceptPage_regs s p)]
    exact (haccept.setX rfl v).ended _

theorem hufDec {rd rs1 : Reg} (h : exec (.hufDec rd rs1) s = .next t) : Framed (.hufDec rd rs1) s t := by
  rcases hufDec_next h with h | ⟨b, _, ⟨_, rfl⟩ | ⟨e, ok, _, rfl⟩⟩
  · exact of_trapped h
  · exact ((((refl _ s).hufDecode b rfl).setX rfl noResult).setFlag .invalid).ended 3
  · exact (((refl _ s).hufDecode b rfl).setX rfl _).ended _

theorem hufDecv {rd rs1 rs2 : Reg} (h : exec (.hufDecv rd rs1 rs2) s = .next t) : Framed (.hufDecv rd rs1 rs2) s t := by
  rcases hufDecv_next h with h | ⟨b, _, ⟨_, rfl⟩ | ⟨e, _, rfl⟩ | ⟨e, _, rfl⟩⟩
  · exact of_trapped h
  · exact ((((refl _ s).hufDecode b rfl).setX rfl noResult).setFlag .invalid).ended 3
  · exact (((refl _ s).hufDecode b rfl).setX rfl _).ended 2
  · exact ((((refl _ s).hufDecode b rfl).setX rfl _).dmWriteList rfl _ _).ended 0

theorem hufBuild {rs1 rs2 : Reg} (h : exec (.hufBuild rs1 rs2) s = .next t) : Framed (.hufBuild rs1 rs2) s t := by
  have hopen : Framed (.hufBuild rs1 rs2) s (s.openSlot (s.xNat rs1)) :=
    { refl _ s with books := nofun, residues := nofun }
  rcases hufBuild_next h with h | rfl | ⟨b, rfl⟩
  · exact of_trapped h
  · exact (hopen.setFlag .malformed).ended 8
  · exact { hopen with books := nofun }

theorem hufVq {rs1 rs2 : Reg} (h : exec (.hufVq rs1 rs2) s = .next t) : Framed (.hufVq rs1 rs2) s t := by
  rcases hufVq_next h with h | ⟨b, _, h⟩
  · exact of_trapped h
  · have hdrop : Framed (.hufVq rs1 rs2) s (s.dropTable (s.xNat rs1) b) :=
      { refl _ s with books := nofun, residues := nofun }
    rcases h with rfl | rfl | ⟨b1, rfl⟩
    · exact hdrop.ended 0
    · exact (hdrop.setFlag .malformed).ended 8
    · exact { hdrop with books := nofun }

theorem resDec {rd rs1 rs2 : Reg} (h : exec (.resDec rd rs1 rs2) s = .next t) : Framed (.resDec rd rs1 rs2) s t := by
  rcases resDec_next h with h | ⟨res, words, vw, nw, _, _, _, _, h⟩
  · exact of_trapped h
  · obtain ⟨r, ⟨e, rfl⟩ | ⟨e, rfl⟩ | ⟨e, rfl⟩⟩ := endResDec_next h
    · have hran := (resDecode_ran res _ s).1 r e
      exact ((ran hran rfl rfl).setX rfl _).ended 0
    · obtain ⟨u, hran, e⟩ := (resDecode_ran res _ s).2 _ e
      rw [e]
      exact (((ran hran rfl rfl).moveBits rfl _ _ _ _).setX rfl _).ended 2
    · have hran := (resDecode_ran res _ s).2 _ e
      exact (((ran hran rfl rfl).setX rfl _).setFlag .invalid).ended 3

end Framed

/-- A command writes only what it may. -/
theorem exec_framed {i : Instr} {s t : State} (h : exec i s = .next t) : Framed i s t := by
  have base := Framed.refl i s
  cases i with
  | sysNop => cases sysNop_next h; exact base.ended 0
  | sysReset =>
    cases sysReset_next h
    exact { base with
      reg := nofun, crc := nofun, bits := nofun, ranges := nofun, count := nofun, source := nofun, waste := nofun,
      lock := nofun, page := nofun, books := nofun, residues := nofun, mdct := nofun, ola := nofun, ring := nofun }
  | sysLi rd imm => exact .of_result rfl (.inr (sysLi_next h))
  | sysLis rd rs1 imm => exact .of_result rfl (.inr (sysLis_next h))
  | sysCsrr rd csr => exact .of_result rfl ((sysCsrr_next h).imp_right fun ⟨v, _, e⟩ => ⟨v, e⟩)
  | sysCsrw rs1 csr =>
    rcases sysCsrw_next h with h | ⟨m, rfl⟩ | ⟨v, rfl⟩ | ⟨v, rfl⟩
    · exact .of_trapped h
    · exact { base with }
    · exact { base with crc := nofun }
    · exact { base with waste := fun _ hne => absurd rfl (hne rs1 csr) }
  | sysLdw rd rs1 imm => exact .of_result rfl (sysLdw_next h)
  | sysStw rs1 rs2 imm =>
    rcases sysStw_next h with h | ⟨v, rfl⟩
    · exact .of_trapped h
    · exact { base with dm := nofun }
  | crcClr => obtain ⟨v, rfl⟩ := crcClr_next h; exact { base with crc := nofun }
  | crcUpd rs1 imm => obtain ⟨v, rfl⟩ := crcUpd_next h; exact { base with crc := nofun }
  | crcSrc rs1 rs2 =>
    rcases crcSrc_next h with h | ⟨v, rfl⟩
    · exact .of_trapped h
    · exact { base with crc := nofun }
  | crcGet rd => exact .of_result rfl (.inr (crcGet_next h))
  | bcClr => cases bcClr_next h; exact { base with bits := nofun, ranges := nofun, count := nofun }
  | bcAddr rs1 rs2 =>
    rcases bcAddr_next h with h | ⟨off, len, _, _, rfl⟩
    · exact .of_trapped h
    · exact { base with ranges := nofun }
  | bcReset => cases bcReset_next h; exact { base with bits := nofun, count := nofun }
  | bcPeek rd rs1 imm =>
    rcases bcPeek_next h with h | ⟨n, v, rfl⟩
    · exact .of_trapped h
    · exact ((base.bcPeek n (.inr ⟨rd, rs1, imm, rfl⟩)).setX rfl v).ended 0
  | bcSkip rs1 imm => obtain ⟨n, rfl⟩ := bcSkip_next h; exact (base.bcSkip n rfl).ended _
  | bcRead rd rs1 imm =>
    rcases bcRead_next h with h | ⟨n, v, rfl⟩
    · exact .of_trapped h
    · exact (((base.bcPeek n (.inl rfl)).setX rfl v).bcSkip n rfl).ended _
  | bcRdvf rd =>
    obtain ⟨n, v, rfl⟩ := bcRdvf_next h
    exact (((base.bcPeek n (.inl rfl)).setX rfl v).bcSkip n rfl).ended _
  | pfvLock imm =>
    rcases pfvLock_next h with h | ⟨_, rfl⟩ | ⟨_, _, _, rfl⟩ | ⟨_, _, rfl⟩
    · exact .of_trapped h
    · exact { base with lock := nofun }
    · exact { base with lock := nofun }
    · exact base.ended 4
  | pfvRel imm =>
    rcases pfvRel_next h with h | ⟨_, rfl | ⟨_, rfl⟩⟩
    · exact .of_trapped h
    · exact { base with lock := nofun }
    · exact { base with lock := nofun }
  | pfvSeek rs1 imm =>
    rcases pfvSeek_next h with h | ⟨p, _, _, rfl⟩
    · exact .of_trapped h
    · exact { base with source := nofun }
  | pfvNext rd imm => exact .pfvNext h
  | pfvLace rd rs1 => exact .of_result rfl (pfvLace_next h)
  | pfvPkt rd rs1 sel => exact .of_result rfl (pfvPkt_next h)
  | pfvStrm rd rs1 sel => exact .of_result rfl (pfvStrm_next h)
  | hufBuild rs1 rs2 => exact .hufBuild h
  | hufVq rs1 rs2 => exact .hufVq h
  | hufDec rd rs1 => exact .hufDec h
  | hufDecv rd rs1 rs2 => exact .hufDecv h
  | hufInfo rd rs1 sel => exact .of_result rfl (hufInfo_next h)
  | hufCode rd rs1 rs2 => exact .of_result rfl (hufCode_next h)
  | hufLut rd rs1 rs2 => exact .of_result rfl (hufLut_next h)
  | resSetup rs1 rs2 =>
    rcases resSetup_next h with h | rfl | ⟨res, _, _, rfl⟩
    · exact .of_trapped h
    · exact { base with residues := nofun }
    · exact { base with residues := nofun }
  | resDec rd rs1 rs2 => exact .resDec h
  | mdctInit rs1 slot =>
    rcases mdctInit_next h with h | ⟨m, rfl⟩
    · exact .of_trapped h
    · exact { base with mdct := nofun }
  | mdctRev rd rs1 slot =>
    rcases mdctRev_next h with h | ⟨v, vs, _, rfl⟩
    · exact .of_trapped h
    · exact ((base.dmWriteList rfl _ vs).setX rfl v).ended 0
  | olaCfg rs1 rs2 ch =>
    rcases olaCfg_next h with h | ⟨o, b1, _, rfl⟩
    · exact .of_trapped h
    · exact { base with ola := nofun, ring := nofun }
  | olaMode rs1 flag =>
    rcases olaMode_next h with h | ⟨m, rfl⟩
    · exact .of_trapped h
    · exact { base with ola := nofun }
  | olaAdd rd rs1 rs2 flags =>
    rcases olaAdd_next h with h | ⟨mode, words, r, v, _, _, _, _, rfl⟩
    · exact .of_trapped h
    · have hadd : ∀ ring ola, Framed (.olaAdd rd rs1 rs2 flags) s { s with ring := ring, ola := ola } :=
        fun ring ola => { base with ola := nofun, ring := nofun }
      exact ((hadd _ _).setX rfl v).ended 0
  | olaRd rd rs1 rs2 =>
    rcases olaRd_next h with h | ⟨v, vs, k, _, _, rfl⟩
    · exact .of_trapped h
    · have hdrain : Framed (.olaRd rd rs1 rs2) s { s.dmWriteList (s.xNat rs1) vs with ring := s.ring.drop k } :=
        { base with dm := nofun, ring := nofun }
      exact (hdrain.setX rfl v).ended 0
  | olaDisc rd rs1 =>
    rcases olaDisc_next h with h | ⟨v, k, _, rfl⟩
    · exact .of_trapped h
    · have hdrop : Framed (.olaDisc rd rs1) s { s with ring := s.ring.drop k } := { base with ring := nofun }
      exact (hdrop.setX rfl v).ended 0
  | olaReset => cases olaReset_next h; exact { base with ola := nofun, ring := nofun }
  | olaWin rd rs1 rs2 w => exact .of_result rfl (olaWin_next h)
  | olaCpl rs1 =>
    rcases olaCpl_next h with h | ⟨mw, aw, cw, ms, as, _, _, _, _, _, rfl⟩
    · exact .of_trapped h
    · exact ((base.dmWriteList rfl _ ms).dmWriteList rfl _ as).ended 0

/-- Settles O48: the register, source, parameter and port parts of the footprint. -/
theorem registerFrame : Obligations.RegisterFrame := by
  unfold Obligations.RegisterFrame
  intro i s t h
  have frame := exec_framed h
  exact ⟨frame.src, frame.par, frame.port, frame.reg⟩

/-- Settles O50: the units' parts of the footprint. -/
theorem unitFrames : Obligations.UnitFrames := by
  unfold Obligations.UnitFrames
  intro i s t h
  have frame := exec_framed h
  exact ⟨frame.crc, frame.source, frame.waste, frame.lock, frame.page, frame.books, frame.residues, frame.mdct, frame.ola,
    frame.ring⟩

end Sys2Proof.Machine
end

section
/-! SUPPORT. How every command ends (R25, R26, R260 to R262): with a fault, or with OK or a condition and the sticky bits it
set. -/

namespace Sys2Proof.Machine

/-- The sticky bit that goes with a condition (R261); OK and BUSY have none. -/
def Cond.sticky : Cond → BitVec 8
  | .eos => Flag.eos.mask
  | .short => Flag.short.mask
  | .invalidData => Flag.invalid.mask
  | .regFull => Flag.regFull.mask
  | .malformedSetup => Flag.malformed.mask
  | .unrecoverable => Flag.unrec.mask
  | .ok | .busy => 0

/-- Command `i` ended with condition `c` and set the sticky bits `m`: bits of its own, that of `c` among them. -/
structure Completed (i : Instr) (s t : State) (c : Cond) (m : BitVec 8) : Prop where
  status : t.status = c.code
  flags : t.flags = s.flags ||| m
  own : m &&& i.flagsSet = m
  sticky : m &&& c.sticky = c.sticky

/-- The ways a command can end. -/
inductive Ends (i : Instr) (s t : State) : Prop
  | trapped (h : Trapped s t)
  | cleared (hi : i.clearsFlags = true) (h : t.status = Cond.ok.code)
  | completed (c : Cond) (m : BitVec 8) (h : Completed i s t c m)

namespace Ends

variable {i : Instr} {s t u : State}

theorem quiet (h : u.flags = s.flags) : Ends i s (u.ended 0) :=
  .completed .ok 0 ⟨rfl, by simpa using h, by simp, rfl⟩

theorem of_result {rd : Reg} (h : Trapped s t ∨ ∃ v, t = (s.setX rd v).ended 0) : Ends i s t := by
  rcases h with h | ⟨v, rfl⟩
  · exact .trapped h
  · exact quiet (by simp)

theorem bcSkip (h : u.flags = s.flags) (n : Nat) (hi : 0x01 &&& i.flagsSet = 0x01) :
    Ends i s ((u.bcSkip n).1.ended (if (u.bcSkip n).2 then 0 else 2)) := by
  rcases bcSkip_cases u n with ⟨_, e⟩ | ⟨_, e⟩
  · rw [e]; exact quiet h
  · rw [e]; exact .completed .short 0x01 ⟨rfl, by simp [h], hi, rfl⟩

end Ends

theorem hufDecode_invalid_flags {s : State} {b : Codebook} (h : (s.hufDecode b).2 = .invalid) :
    (s.hufDecode b).1.flags = s.flags := by
  obtain ⟨n, e⟩ := hufDecode_invalid h
  rw [e, State.bcPeek_flags]

theorem hufDecode_entry_flags {s : State} {b : Codebook} {e : Nat} {ok : Bool} (h : (s.hufDecode b).2 = .entry e ok) :
    (s.hufDecode b).1.flags = s.flags ||| (if ok then 0 else 0x01) := by
  rcases hufDecode_cases s b with ⟨n, hd⟩ | ⟨n, e', hd⟩
  · rw [hd] at h; cases h
  · rw [hd] at h ⊢
    cases h
    rcases bcSkip_cases (s.bcPeek n).1 (b.len e) with ⟨_, hs⟩ | ⟨_, hs⟩
    · rw [hs]; simp
    · rw [hs]; simp

theorem acceptPage_flags (s : State) (p : Nat) :
    (s.acceptPage p).1.flags = s.flags ||| (if p != s.srcPos.toNat then 0x04 else 0) |||
      (if (s.acceptPage p).2 then 0x40 else 0) := by
  unfold State.acceptPage
  simp only [State.setFlagIf_flags, Flag.mask]
  split <;> split <;> simp

namespace Ends

variable {s t : State}

theorem pfvNext {rd : Reg} {imm : Imm} (h : exec (.pfvNext rd imm) s = .next t) : Ends (.pfvNext rd imm) s t := by
  rcases pfvNext_next h with h | ⟨_, rfl | ⟨p, _, rfl⟩ | ⟨_, rfl⟩ | ⟨p, v, _, rfl⟩⟩
  · exact .trapped h
  · exact .completed .unrecoverable 0x20 ⟨rfl, by simp [Flag.mask], by simp [Instr.flagsSet], rfl⟩
  · exact .completed .unrecoverable 0x20 ⟨rfl, by simp [Flag.mask], by simp [Instr.flagsSet], rfl⟩
  · exact .completed .eos 0x08 ⟨rfl, by simp [Flag.mask], by simp [Instr.flagsSet], rfl⟩
  · have hflags := acceptPage_flags s p
    rw [BitVec.or_assoc] at hflags
    cases hfull : (s.acceptPage p).2 with
    | true =>
      refine .completed .regFull _ ⟨rfl, by simpa [hfull] using hflags, ?_, ?_⟩
      · split <;> simp [Instr.flagsSet]
      · split <;> rfl
    | false =>
      refine .completed .ok _ ⟨rfl, by simpa [hfull] using hflags, ?_, by simp [Cond.sticky]⟩
      split <;> simp [Instr.flagsSet]

theorem hufDec {rd rs1 : Reg} (h : exec (.hufDec rd rs1) s = .next t) : Ends (.hufDec rd rs1) s t := by
  rcases hufDec_next h with h | ⟨b, _, ⟨hinv, rfl⟩ | ⟨e, ok, hentry, rfl⟩⟩
  · exact .trapped h
  · exact .completed .invalidData 0x02 ⟨rfl, by simp [hufDecode_invalid_flags hinv, Flag.mask], by simp [Instr.flagsSet], rfl⟩
  · have hflags := hufDecode_entry_flags hentry
    cases ok with
    | true => exact quiet (by simpa using hflags)
    | false => exact .completed .short 0x01 ⟨rfl, by simpa using hflags, by simp [Instr.flagsSet], rfl⟩

theorem hufDecv {rd rs1 rs2 : Reg} (h : exec (.hufDecv rd rs1 rs2) s = .next t) : Ends (.hufDecv rd rs1 rs2) s t := by
  rcases hufDecv_next h with h | ⟨b, _, ⟨hinv, rfl⟩ | ⟨e, hentry, rfl⟩ | ⟨e, hentry, rfl⟩⟩
  · exact .trapped h
  · exact .completed .invalidData 0x02 ⟨rfl, by simp [hufDecode_invalid_flags hinv, Flag.mask], by simp [Instr.flagsSet], rfl⟩
  · exact .completed .short 0x01 ⟨rfl, by simpa using hufDecode_entry_flags hentry, by simp [Instr.flagsSet], rfl⟩
  · exact quiet (by simpa using hufDecode_entry_flags hentry)

theorem hufBuild {rs1 rs2 : Reg} (h : exec (.hufBuild rs1 rs2) s = .next t) : Ends (.hufBuild rs1 rs2) s t := by
  rcases hufBuild_next h with h | rfl | ⟨b, rfl⟩
  · exact .trapped h
  · exact .completed .malformedSetup 0x10 ⟨rfl, rfl, by simp [Instr.flagsSet], rfl⟩
  · exact quiet rfl

theorem hufVq {rs1 rs2 : Reg} (h : exec (.hufVq rs1 rs2) s = .next t) : Ends (.hufVq rs1 rs2) s t := by
  rcases hufVq_next h with h | ⟨b, _, rfl | rfl | ⟨b1, rfl⟩⟩
  · exact .trapped h
  · exact quiet rfl
  · exact .completed .malformedSetup 0x10 ⟨rfl, rfl, by simp [Instr.flagsSet], rfl⟩
  · exact quiet rfl

theorem resSetup {rs1 rs2 : Reg} (h : exec (.resSetup rs1 rs2) s = .next t) : Ends (.resSetup rs1 rs2) s t := by
  rcases resSetup_next h with h | rfl | ⟨res, _, _, rfl⟩
  · exact .trapped h
  · exact .completed .malformedSetup 0x10 ⟨rfl, rfl, by simp [Instr.flagsSet], rfl⟩
  · exact quiet rfl

theorem resDec {rd rs1 rs2 : Reg} (h : exec (.resDec rd rs1 rs2) s = .next t) : Ends (.resDec rd rs1 rs2) s t := by
  rcases resDec_next h with h | ⟨res, words, vw, nw, _, _, _, _, h⟩
  · exact .trapped h
  · obtain ⟨r, ⟨e, rfl⟩ | ⟨e, rfl⟩ | ⟨e, rfl⟩⟩ := endResDec_next h
    · have hran := (resDecode_ran res _ s).1 r e
      exact quiet (by simp [hran.flags])
    · obtain ⟨u, _, e⟩ := (resDecode_ran res _ s).2 _ e
      exact .completed .short 0x01 ⟨rfl, by simp [e], by simp [Instr.flagsSet], rfl⟩
    · have hran := (resDecode_ran res _ s).2 _ e
      exact .completed .invalidData 0x02 ⟨rfl, by simp [Ran.flags hran, Flag.mask], by simp [Instr.flagsSet], rfl⟩

end Ends

/-- Every command ends with a fault, or with OK or a condition and sticky bits of its own. -/
theorem exec_ends {i : Instr} {s t : State} (h : exec i s = .next t) : Ends i s t := by
  cases i with
  | sysNop => cases sysNop_next h; exact .quiet rfl
  | sysReset => cases sysReset_next h; exact .cleared rfl rfl
  | sysLi rd imm => exact .of_result (.inr (sysLi_next h))
  | sysLis rd rs1 imm => exact .of_result (.inr (sysLis_next h))
  | sysCsrr rd csr => exact .of_result ((sysCsrr_next h).imp_right fun ⟨v, _, e⟩ => ⟨v, e⟩)
  | sysCsrw rs1 csr =>
    rcases sysCsrw_next h with h | ⟨m, rfl⟩ | ⟨v, rfl⟩ | ⟨v, rfl⟩
    · exact .trapped h
    · exact .cleared rfl rfl
    · exact .cleared rfl rfl
    · exact .cleared rfl rfl
  | sysLdw rd rs1 imm => exact .of_result (sysLdw_next h)
  | sysStw rs1 rs2 imm =>
    rcases sysStw_next h with h | ⟨v, rfl⟩
    · exact .trapped h
    · exact .quiet rfl
  | crcClr => obtain ⟨v, rfl⟩ := crcClr_next h; exact .quiet rfl
  | crcUpd rs1 imm => obtain ⟨v, rfl⟩ := crcUpd_next h; exact .quiet rfl
  | crcSrc rs1 rs2 =>
    rcases crcSrc_next h with h | ⟨v, rfl⟩
    · exact .trapped h
    · exact .quiet rfl
  | crcGet rd => exact .of_result (.inr (crcGet_next h))
  | bcClr => cases bcClr_next h; exact .quiet rfl
  | bcAddr rs1 rs2 =>
    rcases bcAddr_next h with h | ⟨off, len, _, _, rfl⟩
    · exact .trapped h
    · exact .quiet rfl
  | bcReset => cases bcReset_next h; exact .quiet rfl
  | bcPeek rd rs1 imm =>
    rcases bcPeek_next h with h | ⟨n, v, rfl⟩
    · exact .trapped h
    · exact .quiet (by simp)
  | bcSkip rs1 imm => obtain ⟨n, rfl⟩ := bcSkip_next h; exact .bcSkip rfl n (by simp [Instr.flagsSet])
  | bcRead rd rs1 imm =>
    rcases bcRead_next h with h | ⟨n, v, rfl⟩
    · exact .trapped h
    · exact .bcSkip (by simp) n (by simp [Instr.flagsSet])
  | bcRdvf rd => obtain ⟨n, v, rfl⟩ := bcRdvf_next h; exact .bcSkip (by simp) n (by simp [Instr.flagsSet])
  | pfvLock imm =>
    rcases pfvLock_next h with h | ⟨_, rfl⟩ | ⟨_, _, _, rfl⟩ | ⟨_, _, rfl⟩
    · exact .trapped h
    · exact .quiet rfl
    · exact .quiet rfl
    · exact .completed .busy 0 ⟨rfl, by simp, by simp [Instr.flagsSet], rfl⟩
  | pfvRel imm =>
    rcases pfvRel_next h with h | ⟨_, rfl | ⟨_, rfl⟩⟩
    · exact .trapped h
    · exact .quiet rfl
    · exact .quiet rfl
  | pfvSeek rs1 imm =>
    rcases pfvSeek_next h with h | ⟨p, _, _, rfl⟩
    · exact .trapped h
    · exact .quiet rfl
  | pfvNext rd imm => exact .pfvNext h
  | pfvLace rd rs1 => exact .of_result (pfvLace_next h)
  | pfvPkt rd rs1 sel => exact .of_result (pfvPkt_next h)
  | pfvStrm rd rs1 sel => exact .of_result (pfvStrm_next h)
  | hufBuild rs1 rs2 => exact .hufBuild h
  | hufVq rs1 rs2 => exact .hufVq h
  | hufDec rd rs1 => exact .hufDec h
  | hufDecv rd rs1 rs2 => exact .hufDecv h
  | hufInfo rd rs1 sel => exact .of_result (hufInfo_next h)
  | hufCode rd rs1 rs2 => exact .of_result (hufCode_next h)
  | hufLut rd rs1 rs2 => exact .of_result (hufLut_next h)
  | resSetup rs1 rs2 => exact .resSetup h
  | resDec rd rs1 rs2 => exact .resDec h
  | mdctInit rs1 slot =>
    rcases mdctInit_next h with h | ⟨m, rfl⟩
    · exact .trapped h
    · exact .quiet rfl
  | mdctRev rd rs1 slot =>
    rcases mdctRev_next h with h | ⟨v, vs, _, rfl⟩
    · exact .trapped h
    · exact .quiet (by simp)
  | olaCfg rs1 rs2 ch =>
    rcases olaCfg_next h with h | ⟨o, b1, _, rfl⟩
    · exact .trapped h
    · exact .quiet rfl
  | olaMode rs1 flag =>
    rcases olaMode_next h with h | ⟨m, rfl⟩
    · exact .trapped h
    · exact .quiet rfl
  | olaAdd rd rs1 rs2 flags =>
    rcases olaAdd_next h with h | ⟨mode, words, r, v, _, _, _, _, rfl⟩
    · exact .trapped h
    · exact .quiet (by simp)
  | olaRd rd rs1 rs2 =>
    rcases olaRd_next h with h | ⟨v, vs, k, _, _, rfl⟩
    · exact .trapped h
    · exact .quiet (by simp)
  | olaDisc rd rs1 =>
    rcases olaDisc_next h with h | ⟨v, k, _, rfl⟩
    · exact .trapped h
    · exact .quiet (by simp)
  | olaReset => cases olaReset_next h; exact .quiet rfl
  | olaWin rd rs1 rs2 w => exact .of_result (olaWin_next h)
  | olaCpl rs1 =>
    rcases olaCpl_next h with h | ⟨mw, aw, cw, ms, as, _, _, _, _, _, rfl⟩
    · exact .trapped h
    · exact .quiet rfl

/-! ### What setting bits does to a byte of flags -/

theorem flags_and_or (a m : BitVec 8) : a &&& (a ||| m) = a := by
  ext k
  simpa using Or.inl

theorem newly_set_flags_own {a m own : BitVec 8} (h : m &&& own = m) : (a ||| m) &&& ~~~ a &&& ~~~ own = 0 := by
  rw [← h]
  ext k hk
  simp only [BitVec.getElem_and, BitVec.getElem_or, BitVec.getElem_not]
  cases a[k] <;> cases own[k] <;> simp

theorem or_flags_and_sticky {a m k : BitVec 8} (h : m &&& k = k) : (a ||| m) &&& k = k := by
  rw [← h]
  ext j
  simpa using fun hm _ => Or.inr hm

theorem Cond.code_lt (c : Cond) : c.code.toNat < 16 := by cases c <;> decide

theorem Trap.code_ge (c : Trap) : 16 ≤ c.code.toNat := by cases c <;> decide

/-- The codes of R260. -/
def statusCodes : List Nat := [0, 1, 2, 3, 4, 5, 8, 9, 16, 17, 18, 19, 20, 21, 24, 25]

theorem Cond.code_listed (c : Cond) : c.code.toNat ∈ statusCodes := by cases c <;> decide

theorem Trap.code_listed (c : Trap) : c.code.toNat ∈ statusCodes := by cases c <;> decide

/-- Settles O47: a fault, a clearing command and a condition each give the ten clauses at once. -/
theorem statusAndFlags : Obligations.StatusAndFlags := by
  unfold Obligations.StatusAndFlags
  intro i s t h
  rcases exec_ends h with ⟨c, rfl⟩ | ⟨hi, hstatus⟩ | ⟨c, m, hstatus, hflags, hown, hsticky⟩
  case trapped =>
    refine ⟨c.code_listed, fun _ => rfl, fun _ => flags_and_or _ _, fun _ hlt => ?_, ?_⟩
    · exact absurd c.code_ge (Nat.not_le.2 hlt)
    · cases c <;> simp [Trap.code]
  case cleared => simp [hi, hstatus, Cond.code]
  case completed =>
    have hbits : t.flags &&& c.sticky = c.sticky := hflags ▸ or_flags_and_sticky hsticky
    rw [hstatus]
    refine ⟨c.code_listed, fun hge => absurd c.code_lt (Nat.not_lt.2 hge), fun _ => hflags ▸ flags_and_or _ _,
      fun _ _ => hflags ▸ newly_set_flags_own hown, ?_⟩
    cases c <;> simp [Cond.code] <;> exact hbits

end Sys2Proof.Machine
end

section
/-! SUPPORT. An invariant of the block, once for every kind of step (R10, R76). -/

namespace Sys2Proof.Machine

/-- What the host's actions, an illegal command word and every command keep, every step keeps. -/
theorem step_keeps {P : State → Prop} (hport : ∀ s rest, P s → P { s with port := rest })
    (hreg : ∀ s r v, P s → P (s.setX r v)) (hdm : ∀ s a v, P s → P (s.dmWrite a v))
    (hillegal : ∀ s, P s → P (s.faulted 16)) (hexec : ∀ i s t, P s → exec i s = .next t → P t)
    {s t : State} (hs : P s) (h : step s = .next t) : P t := by
  cases hp : s.port with
  | nil =>
    rw [step_of_port_nil hp] at h
    cases h
    exact hs
  | cons action rest =>
    have hs' := hport s rest hs
    cases action with
    | command c =>
      rw [step_of_port_command hp] at h
      cases hc : decode c with
      | ok i =>
        rw [execWord_of_decode_ok hc] at h
        exact hexec i _ t hs' h
      | error e =>
        rw [execWord_of_decode_error hc] at h
        cases h
        exact hillegal _ hs'
    | writeReg r v =>
      rw [step_of_port_writeReg hp] at h
      cases h
      exact hreg _ r v hs'
    | writeDm a v =>
      rw [step_of_port_writeDm hp] at h
      split at h
      · cases h
        exact hdm _ a v hs'
      · cases h

end Sys2Proof.Machine
end

section
/-! SUPPORT. The ring buffer under the OLA commands (R47, R236 to R245): which samples each can change, and how the cursors
move. O58 and O54 follow. -/

namespace Sys2Proof.Machine

theorem ringKey_div {c : Nat} (hc : c < 256) (t : Nat) : ringKey c t / 256 = t := by
  unfold ringKey
  omega

namespace Ring

theorem mem_write {r : Ring} {c t : Nat} {v : Word32} {d : Nat × Word32} (h : d ∈ (r.write c t v).buf) :
    d ∈ r.buf ∨ d.1 = ringKey c t := by
  unfold write at h
  split at h
  · exact .inl (Table.mem_erase.1 h).1
  · exact (Table.mem_put h).imp_right (congrArg Prod.fst)

@[simp] theorem drop_start (r : Ring) (k : Nat) : (r.drop k).start = r.start + k := rfl
@[simp] theorem drop_valid (r : Ring) (k : Nat) : (r.drop k).valid = r.valid := rfl
@[simp] theorem drop_endAt (r : Ring) (k : Nat) : (r.drop k).endAt = r.endAt := rfl
@[simp] theorem drop_cap (r : Ring) (k : Nat) : (r.drop k).cap = r.cap := rfl

theorem mem_drop {r : Ring} {k : Nat} {d : Nat × Word32} :
    d ∈ (r.drop k).buf ↔ d ∈ r.buf ∧ ¬ (r.start ≤ d.1 / 256 ∧ d.1 / 256 < r.start + k) := mem_clear

/-- `r'` is `r` after part of an overlap-add into the frames from `lo` up to, not including, `hi`. -/
structure Added (lo hi : Nat) (r r' : Ring) : Prop where
  start : r'.start = r.start
  cells : ∀ d ∈ r'.buf, d ∈ r.buf ∨ (lo ≤ d.1 / 256 ∧ d.1 / 256 < hi)
  below : ∀ c p, c < 256 → p < lo → r'.read c p = r.read c p

theorem Added.refl (lo hi : Nat) (r : Ring) : Added lo hi r r := ⟨rfl, fun _ => .inl, fun _ _ _ _ => rfl⟩

theorem Added.write {lo hi : Nat} {r r' : Ring} (h : Added lo hi r r') {c t : Nat} (hc : c < 256) (hlo : lo ≤ t)
    (hhi : t < hi) (v : Word32) : Added lo hi r (r'.write c t v) where
  start := h.start
  cells d hd := by
    rcases mem_write hd with hd | hd
    · exact h.cells d hd
    · rw [hd, ringKey_div hc]
      exact .inr ⟨hlo, hhi⟩
  below c' p hc' hp := by
    rw [read_write r' v hc hc', if_neg (by omega)]
    exact h.below c' p hc' hp

end Ring

/-! ### One overlap-add (R236 to R238) -/

/-- The channels of a block are numbered from `c` on, one for each two words of the descriptor. -/
theorem blockChannels_lt {c : Nat} {words : List Word32} {b : Nat × Nat × Bool} (h : b ∈ blockChannels c words) :
    2 * b.1 < 2 * c + words.length := by
  induction c, words using blockChannels.induct with
  | case1 c buf energy rest ih =>
    rw [blockChannels, List.mem_cons] at h
    rcases h with rfl | h
    · simp
    · have := ih h
      simp only [List.length_cons]
      omega
  | case2 c words hwords => simp [blockChannels] at h

theorem addWindowed_added {dm : Memory} {win : List Word32} {buf c v n i : Nat} {st : Int} {r r1 r2 : Ring}
    (hc : c < 256) (hi : i < n) (hr : Ring.Added v (st + (n : Int)).toNat r r1)
    (h : addWindowed dm win buf c st v i r1 = .ok r2) : Ring.Added v (st + (n : Int)).toNat r r2 := by
  unfold addWindowed at h
  dsimp only at h
  split at h
  · cases h
    exact hr
  · split at h
    · cases h
    · cases h
      exact hr.write hc (by omega) (by omega) _

theorem addChannel_added {dm : Memory} {win : List Word32} {n v : Nat} {st : Int} {cb : Nat × Nat × Bool}
    {r r1 r2 : Ring} (hc : cb.1 < 256) (hr : Ring.Added v (st + (n : Int)).toNat r r1)
    (h : addChannel dm win n st v cb r1 = .ok r2) : Ring.Added v (st + (n : Int)).toNat r r2 := by
  unfold addChannel at h
  split at h
  · exact (loopFrom_keeps (P := Ring.Added v (st + (n : Int)).toNat r) (E := fun _ => True) hr
      (fun i _ hi r1 r2 hr h => addWindowed_added hc (by omega) hr h) (fun _ _ _ _ _ _ _ => trivial)).1 r2 h
  · cases h
    exact hr

/-- A block of fewer than 256 channels writes from the valid frames' end to the block's end. -/
theorem addChannels_added {dm : Memory} {win words : List Word32} {n v : Nat} {st : Int} {r r' : Ring}
    (hwords : words.length < 512) (h : loopOver (addChannel dm win n st v) (blockChannels 0 words) r = .ok r') :
    Ring.Added v (st + (n : Int)).toNat r r' :=
  (loopOver_keeps (P := Ring.Added v (st + (n : Int)).toNat r) (E := fun _ => True) (.refl _ _ r)
    (fun b hb r1 r2 hr h => addChannel_added (by have := blockChannels_lt hb; omega) hr h)
    (fun _ _ _ _ _ _ => trivial)).1 r' h

/-- The ring after `OLA.ADD` of a block of size `n` after one of size `p`, whose samples left the buffer of `r'` (R237, R238,
R240). -/
def Ring.advance (r r' : Ring) (p n : Nat) : Ring :=
  { r' with
    valid := validAfter p n r.valid
    endAt := max r.endAt (landing p n r.valid + (n : Int)).toNat
    cap := BitVec.ofNat 32 (max r.cap.toNat (framesNeeded p n r).toNat) }

/-- An empty ring buffer. -/
def Ring.empty (cap : BitVec 32) : Ring := { buf := [], start := 0, valid := 0, endAt := 0, cap := cap }

/-- The ways a command can leave the ring buffer. -/
inductive RingStep (s : State) : Instr → Ring → Prop
  | same (i : Instr) : RingStep s i s.ring
  | reset : RingStep s .sysReset (.empty 0)
  | config (rs1 rs2 : Reg) (ch : Imm) (b1 : Nat) (hb1 : b1 ≤ 2 ^ s.par.blkMaxLog2) :
      RingStep s (.olaCfg rs1 rs2 ch) (.empty (BitVec.ofNat 32 (max s.ring.cap.toNat b1)))
  | add (i : Instr) (p n : Nat) (r : Ring) (hneed : framesNeeded p n s.ring ≤ (s.par.rbMax : Int))
      (hadded : Ring.Added s.ring.valid (landing p n s.ring.valid + (n : Int)).toNat s.ring r) :
      RingStep s i (s.ring.advance r p n)
  | drain (i : Instr) (k : Nat) (hk : k ≤ s.ring.valid - s.ring.start) : RingStep s i (s.ring.drop k)
  | restart (i : Instr) : RingStep s i (s.ring.clear s.ring.valid s.ring.endAt)

theorem exec_ringStep {i : Instr} {s t : State} (h : exec i s = .next t) : RingStep s i t.ring := by
  cases hw : i.writesRing with
  | false => rw [(exec_framed h).ring hw]; exact .same i
  | true =>
    cases i with
    | sysReset => cases sysReset_next h; exact .reset
    | olaCfg rs1 rs2 ch =>
      rcases olaCfg_next h with ⟨c, rfl⟩ | ⟨o, b1, hb1, rfl⟩
      · exact .same _
      · exact .config rs1 rs2 ch b1 hb1
    | olaAdd rd rs1 rs2 flags =>
      rcases olaAdd_next h with ⟨c, rfl⟩ | ⟨mode, words, r, v, _, hwords, hneed, hloop, rfl⟩
      · exact .same _
      · have hlen := (Memory.readList_ok hwords).1
        have hch := s.ola.ch.isLt
        rw [State.ended_ring, State.setX_ring]
        exact .add _ _ _ r hneed (addChannels_added (by omega) hloop)
    | olaRd rd rs1 rs2 =>
      rcases olaRd_next h with ⟨c, rfl⟩ | ⟨v, vs, k, hk, _, rfl⟩
      · exact .same _
      · rw [State.ended_ring, State.setX_ring]
        exact .drain _ k (hk ▸ Nat.min_le_right ..)
    | olaDisc rd rs1 =>
      rcases olaDisc_next h with ⟨c, rfl⟩ | ⟨v, k, hk, rfl⟩
      · exact .same _
      · rw [State.ended_ring, State.setX_ring]
        exact .drain _ k hk
    | olaReset => cases olaReset_next h; exact .restart _
    | _ => cases hw

/-- The valid frames end no later than the ring or the block does. -/
theorem validAfter_le (p n v : Nat) :
    validAfter p n v = v ∨ validAfter p n v ≤ (landing p n v + (n : Int)).toNat := by
  unfold validAfter landing
  split <;> omega

theorem le_validAfter (p n v : Nat) : v ≤ validAfter p n v := by
  unfold validAfter
  split <;> omega

/-! ### The invariant (R47) -/

/-- What R47 asks of the ring buffer where `RB_MAX` is `rbMax`. -/
structure Ring.Bounded (rbMax : Nat) (r : Ring) : Prop where
  start : r.start ≤ r.valid
  valid : r.valid ≤ r.endAt
  held : r.endAt - r.start ≤ r.cap.toNat
  cap : r.cap.toNat ≤ rbMax
  cells : ∀ d ∈ r.buf, r.start ≤ d.1 / 256 ∧ d.1 / 256 < r.endAt

theorem ringInvariant_iff {s : State} : s.RingInvariant ↔
    (2 ^ s.par.blkMaxLog2 ≤ s.par.rbMax ∧ s.par.rbMax < 2 ^ 32) ∧ s.ring.Bounded s.par.rbMax :=
  ⟨fun ⟨hlaunch, ⟨hstart, hvalid⟩, hheld, hcap, hcells⟩ => ⟨hlaunch, hstart, hvalid, hheld, hcap, hcells⟩,
    fun ⟨hlaunch, hstart, hvalid, hheld, hcap, hcells⟩ => ⟨hlaunch, ⟨hstart, hvalid⟩, hheld, hcap, hcells⟩⟩

/-- RB_CAP takes the larger of two sizes whole when neither passes `RB_MAX`. -/
theorem toNat_ofNat_cap {a b rbMax : Nat} (hmax : rbMax < 2 ^ 32) (ha : a ≤ rbMax) (hb : b ≤ rbMax) :
    (BitVec.ofNat 32 (max a b)).toNat = max a b := by
  rw [BitVec.toNat_ofNat, Nat.mod_eq_of_lt]
  omega

namespace Ring.Bounded

variable {rbMax : Nat} {r : Ring}

theorem empty {cap : BitVec 32} (hcap : cap.toNat ≤ rbMax) :
    (Ring.empty cap).Bounded rbMax :=
  ⟨le_rfl, le_rfl, Nat.zero_le _, hcap, nofun⟩

theorem drop (h : r.Bounded rbMax) {k : Nat} (hk : k ≤ r.valid - r.start) : (r.drop k).Bounded rbMax := by
  obtain ⟨hstart, hvalid, hheld, hcap, hcells⟩ := h
  refine ⟨?_, hvalid, ?_, hcap, fun d hd => ?_⟩
  · simp only [drop_start, drop_valid]
    omega
  · simp only [drop_start, drop_endAt, drop_cap]
    omega
  · obtain ⟨hold, hkept⟩ := mem_drop.1 hd
    have := hcells d hold
    simp only [drop_start, drop_endAt]
    omega

theorem clear (h : r.Bounded rbMax) (lo hi : Nat) : (r.clear lo hi).Bounded rbMax :=
  ⟨h.start, h.valid, h.held, h.cap, fun d hd => h.cells d (mem_clear.1 hd).1⟩

theorem advance (h : r.Bounded rbMax) {r' : Ring} {p n : Nat} (hmax : rbMax < 2 ^ 32)
    (hneed : framesNeeded p n r ≤ (rbMax : Int))
    (hadded : Ring.Added r.valid (landing p n r.valid + (n : Int)).toNat r r') : (r.advance r' p n).Bounded rbMax := by
  obtain ⟨hstart, hvalid, hheld, hcap, hcells⟩ := h
  have hroom : (r.advance r' p n).cap.toNat = max r.cap.toNat (framesNeeded p n r).toNat :=
    toNat_ofNat_cap hmax hcap (by omega)
  have hspan : framesNeeded p n r = landing p n r.valid + (n : Int) - (r.start : Int) := rfl
  have hgrows := le_validAfter p n r.valid
  have hends := validAfter_le p n r.valid
  refine ⟨?_, ?_, ?_, ?_, fun d hd => ?_⟩
  · simp only [Ring.advance, hadded.start]
    omega
  · simp only [Ring.advance]
    omega
  · rw [hroom]
    simp only [Ring.advance, hadded.start]
    omega
  · rw [hroom]
    omega
  · simp only [Ring.advance, hadded.start]
    rcases hadded.cells d hd with hd | hd
    · have := hcells d hd
      omega
    · omega

end Ring.Bounded

theorem exec_ringInvariant {i : Instr} {s t : State} (hs : s.RingInvariant) (h : exec i s = .next t) : t.RingInvariant := by
  rw [ringInvariant_iff] at hs ⊢
  obtain ⟨⟨hblock, hmax⟩, hring⟩ := hs
  rw [(exec_framed h).par]
  refine ⟨⟨hblock, hmax⟩, ?_⟩
  have hstep := exec_ringStep h
  generalize t.ring = r' at hstep ⊢
  cases hstep with
  | same => exact hring
  | reset => exact .empty (Nat.zero_le _)
  | config rs1 rs2 ch b1 hb1 =>
    have hb1' := hb1.trans hblock
    refine .empty ?_
    rw [toNat_ofNat_cap hmax hring.cap hb1']
    exact max_le hring.cap hb1'
  | add _ p n r hneed hadded => exact hring.advance hmax hneed hadded
  | drain _ k hk => exact hring.drop hk
  | restart => exact hring.clear _ _

/-- Settles O58: the host's actions and an illegal word leave the ring alone, the commands keep the invariant. -/
theorem ringInvariantKept : Obligations.RingInvariantKept := by
  unfold Obligations.RingInvariantKept
  intro s t
  refine step_keeps ?port ?reg ?dm ?illegal (fun i s t => exec_ringInvariant)
  case port => exact fun s rest h => { h with }
  case reg => intro s r v h; rw [ringInvariant_iff] at h ⊢; simpa using h
  case dm => exact fun s a v h => { h with }
  case illegal => exact fun s h => { h with }

/-! ### Finished frames (R243) -/

/-- From `r` to `r'` no cursor went back, and the finished frames that were not drained read as before. -/
structure Ring.Keeps (r r' : Ring) : Prop where
  start : r.start ≤ r'.start
  valid : r.valid ≤ r'.valid
  endAt : r.endAt ≤ r'.endAt
  samples : ∀ c p, c < 256 → r'.start ≤ p → p < r.valid → r'.read c p = r.read c p

namespace Ring.Keeps

variable (r : Ring)

theorem refl : r.Keeps r := ⟨le_rfl, le_rfl, le_rfl, fun _ _ _ _ _ => rfl⟩

theorem drop (k : Nat) : r.Keeps (r.drop k) where
  start := Nat.le_add_right ..
  valid := le_rfl
  endAt := le_rfl
  samples c p hc hstart _ := by
    have hread : (r.drop k).read c p = (r.clear r.start (r.start + k)).read c p := rfl
    rw [drop_start] at hstart
    rw [hread, read_clear r hc, if_neg (by omega)]

theorem clear : r.Keeps (r.clear r.valid r.endAt) where
  start := le_rfl
  valid := le_rfl
  endAt := le_rfl
  samples c p hc _ hvalid := by rw [read_clear r hc, if_neg (by omega)]

theorem advance {r' : Ring} {p n : Nat} {hi : Nat} (hadded : Ring.Added r.valid hi r r') : r.Keeps (r.advance r' p n) where
  start := hadded.start.ge
  valid := le_validAfter p n r.valid
  endAt := le_max_left ..
  samples c q hc _ hvalid := hadded.below c q hc hvalid

end Ring.Keeps

theorem exec_ringKeeps {i : Instr} {s t : State} (hreset : i.isReset = false)
    (hcfg : ∀ rs1 rs2 imm, i ≠ .olaCfg rs1 rs2 imm) (h : exec i s = .next t) : s.ring.Keeps t.ring := by
  have hstep := exec_ringStep h
  generalize t.ring = r' at hstep ⊢
  cases hstep with
  | same => exact .refl _
  | reset => cases hreset
  | config rs1 rs2 ch => exact absurd rfl (hcfg rs1 rs2 ch)
  | add _ p n r _ hadded => exact .advance _ hadded
  | drain _ k => exact .drop _ k
  | restart => exact .clear _

/-- Settles O54: every kind of ring change but a reset and a new configuration keeps the finished frames. -/
theorem finishedFramesFinal : Obligations.FinishedFramesFinal := by
  unfold Obligations.FinishedFramesFinal
  intro i s t hreset hcfg h
  obtain ⟨hstart, hvalid, hend, hsamples⟩ := exec_ringKeeps hreset hcfg h
  exact ⟨hstart, hvalid, hend, hsamples⟩

end Sys2Proof.Machine
end

section
/-! SUPPORT. The bit cursor, the byte source's cursor, the lock and the page record (R22, R29, R31, R33, R35, R36): what the
commands that write each of them leave there. O57 follows, and with the page record the registry's O22. -/

namespace Sys2Proof.Machine

/-! ### The bit cursor (R120 to R132) -/

/-- From `s` to `u` the bound ranges stayed and the position did not leave the bound bits. -/
structure Moved (s u : State) : Prop where
  ranges : u.bc.ranges = s.bc.ranges
  pos : s.bc.pos.toNat ≤ s.bcTotal → u.bc.pos.toNat ≤ s.bcTotal

theorem bcTotal_of_ranges {s t : State} (h : t.bc.ranges = s.bc.ranges) : t.bcTotal = s.bcTotal := by
  unfold State.bcTotal
  rw [h]

namespace Moved

variable {s u : State}

theorem refl (s : State) : Moved s s := ⟨rfl, id⟩

theorem of_bc {t : State} (h : Moved s u) (hbc : t.bc = u.bc) : Moved s t := by
  obtain ⟨hranges, hpos⟩ := h
  exact ⟨hbc ▸ hranges, hbc ▸ hpos⟩

theorem bcSkip (h : Moved s u) (n : Nat) : Moved s (u.bcSkip n).1 := by
  obtain ⟨hranges, hpos⟩ := h
  have htotal := bcTotal_of_ranges hranges
  refine ⟨by simpa using hranges, fun hs => ?_⟩
  rcases bcSkip_cases u n with ⟨hn, e⟩ | ⟨_, e⟩
  · have := Nat.mod_le (u.bc.pos.toNat + n) (2 ^ 64)
    have := hpos hs
    unfold State.bcAvail at hn
    rw [e, BitVec.toNat_ofNat]
    omega
  · rw [e, htotal, BitVec.toNat_ofNat]
    exact Nat.mod_le ..

theorem hufDecode (h : Moved s u) (b : Codebook) : Moved s (u.hufDecode b).1 := by
  have hpeek (n : Nat) : Moved s (u.bcPeek n).1 := ⟨h.ranges, h.pos⟩
  rcases hufDecode_cases u b with ⟨n, e⟩ | ⟨n, e', e⟩
  · rw [e]
    exact hpeek n
  · rw [e]
    exact (hpeek n).bcSkip _

theorem ran {W : Nat → Prop} (h : Ran s W u) : Moved s u := by
  obtain ⟨dm, pos, cnt, rfl, hpos⟩ := h.form
  exact ⟨rfl, hpos⟩

theorem resDec {rd rs1 rs2 : Reg} {t : State} (h : exec (.resDec rd rs1 rs2) s = .next t) : Moved s t := by
  rcases resDec_next h with ⟨c, rfl⟩ | ⟨res, words, vw, nw, _, _, _, _, h⟩
  · exact (refl s).of_bc rfl
  · obtain ⟨r, ⟨e, rfl⟩ | ⟨e, rfl⟩ | ⟨e, rfl⟩⟩ := endResDec_next h
    · exact (ran ((resDecode_ran res _ s).1 r e)).of_bc (by simp)
    · obtain ⟨u, hran, e⟩ := (resDecode_ran res _ s).2 _ e
      have hend : Moved s r.st := by
        rw [e]
        exact ⟨(ran hran).ranges, fun _ => by rw [BitVec.toNat_ofNat]; exact Nat.mod_le ..⟩
      exact hend.of_bc (by simp)
    · have hran := (resDecode_ran res _ s).2 _ e
      exact (ran hran).of_bc (by simp)

end Moved

theorem exec_moved {i : Instr} {s t : State} (hi : i.bindsRanges = false) (h : exec i s = .next t) : Moved s t := by
  cases hm : i.movesBits with
  | false =>
    have frame := exec_framed h
    exact ⟨frame.ranges hi, fun hs => (frame.bits hm).1 ▸ hs⟩
  | true =>
    have base := Moved.refl s
    cases i with
    | bcReset => cases bcReset_next h; exact ⟨rfl, fun _ => Nat.zero_le _⟩
    | bcSkip rs1 imm => obtain ⟨n, rfl⟩ := bcSkip_next h; exact (base.bcSkip n).of_bc rfl
    | bcRead rd rs1 imm =>
      rcases bcRead_next h with ⟨c, rfl⟩ | ⟨n, v, rfl⟩
      · exact base.of_bc rfl
      · have hpeek : Moved s (s.bcPeek n).1 := ⟨rfl, id⟩
        exact ((hpeek.of_bc (State.setX_bc _ rd v)).bcSkip n).of_bc rfl
    | bcRdvf rd =>
      obtain ⟨n, v, rfl⟩ := bcRdvf_next h
      have hpeek : Moved s (s.bcPeek n).1 := ⟨rfl, id⟩
      exact ((hpeek.of_bc (State.setX_bc _ rd v)).bcSkip n).of_bc rfl
    | hufDec rd rs1 =>
      rcases hufDec_next h with ⟨c, rfl⟩ | ⟨b, _, ⟨_, rfl⟩ | ⟨e, ok, _, rfl⟩⟩
      · exact base.of_bc rfl
      · exact (base.hufDecode b).of_bc (by simp)
      · exact (base.hufDecode b).of_bc (by simp)
    | hufDecv rd rs1 rs2 =>
      rcases hufDecv_next h with ⟨c, rfl⟩ | ⟨b, _, ⟨_, rfl⟩ | ⟨e, _, rfl⟩ | ⟨e, _, rfl⟩⟩
      · exact base.of_bc rfl
      · exact (base.hufDecode b).of_bc (by simp)
      · exact (base.hufDecode b).of_bc (by simp)
      · exact (base.hufDecode b).of_bc (by simp)
    | resDec rd rs1 rs2 => exact .resDec h
    | sysReset | bcClr => cases hi
    | _ => cases hm

/-- The bound ranges stay inside the source, and the position within their bits. -/
theorem exec_bits {i : Instr} {s t : State} (hpos : s.bc.pos.toNat ≤ s.bcTotal) (hranges : s.RangesInside)
    (h : exec i s = .next t) : t.bc.pos.toNat ≤ t.bcTotal ∧ t.RangesInside := by
  have frame := exec_framed h
  have hlen : t.srcLen = s.srcLen := congrArg List.length frame.src
  obtain ⟨hcount, hinside⟩ := hranges
  cases hi : i.bindsRanges with
  | false =>
    have hmoved := exec_moved hi h
    rw [bcTotal_of_ranges hmoved.ranges]
    exact ⟨hmoved.pos hpos, by rwa [hmoved.ranges, frame.par], by rwa [hmoved.ranges, hlen]⟩
  | true =>
    cases i with
    | sysReset => cases sysReset_next h; exact ⟨le_rfl, Nat.zero_le _, nofun⟩
    | bcClr => cases bcClr_next h; exact ⟨le_rfl, Nat.zero_le _, nofun⟩
    | bcAddr rs1 rs2 =>
      rcases bcAddr_next h with ⟨c, rfl⟩ | ⟨off, len, hfull, hin, rfl⟩
      · exact ⟨hpos, hcount, hinside⟩
      · refine ⟨hpos.trans ?_, ?_, ?_⟩
        · simp only [State.bcTotal, State.ended_bc, List.map_append, List.sum_append]
          omega
        · simp only [State.ended_bc, State.ended_par, List.length_append, List.length_singleton]
          omega
        · simp only [State.ended_bc, List.mem_append, List.mem_singleton]
          rintro r (hr | rfl)
          · exact hinside r hr
          · exact hin
    | _ => cases hi

/-! ### The byte source's cursor (R31, R147 to R150) -/

theorem leValue_lt (bs : List Byte) : leValue bs < 256 ^ bs.length := by
  induction bs with
  | nil => simp [leValue]
  | cons b bs ih =>
    have := b.isLt
    rw [leValue, List.length_cons, Nat.pow_succ]
    omega

theorem leRead_one_le (bs : List Byte) (p : Nat) : leRead bs p 1 ≤ 255 := by
  have hlt := leValue_lt ((bs.drop p).take 1)
  have hle : 256 ^ ((bs.drop p).take 1).length ≤ 256 ^ 1 :=
    Nat.pow_le_pow_right (by decide) (List.length_take_le ..)
  unfold leRead
  omega

theorem totalOf_le_of_pageAt {rest : List Byte} (h : pageAt rest = true) : totalOf rest ≤ rest.length := by
  unfold pageAt at h
  split_ifs at h with _ _ _ _ _ htotal
  exact Nat.not_lt.1 htotal

theorem scan_found {s : State} {p : Nat} (h : s.scan = .found p) : p + totalOf (s.src.drop p) ≤ s.srcLen := by
  obtain ⟨k, _, ⟨_, hfour, hpage, e⟩ | ⟨_, _, e⟩ | ⟨_, e⟩⟩ :=
    scanFrom_cases Config.scanCap s.srcPos.toNat (s.src.drop s.srcPos.toNat)
  all_goals rw [State.scan, e] at h; cases h
  have htotal := totalOf_le_of_pageAt hpage
  simp only [List.drop_drop, List.length_drop] at htotal hfour
  unfold State.srcLen
  omega

theorem scan_capped {s : State} {p : Nat} (h : s.scan = .capped p) : p ≤ s.srcLen := by
  obtain ⟨k, hbefore, ⟨_, _, _, e⟩ | ⟨_, _, e⟩ | ⟨hk, e⟩⟩ :=
    scanFrom_cases Config.scanCap s.srcPos.toNat (s.src.drop s.srcPos.toNat)
  all_goals rw [State.scan, e] at h; cases h
  have hlast := (hbefore (k - 1) (by rw [hk]; decide)).1
  rw [List.length_drop] at hlast
  unfold State.srcLen
  omega

@[simp] theorem noPage_srcPos (s : State) (rd : Reg) (p : Nat) : (s.noPage rd p).srcPos = BitVec.ofNat 64 p := by
  rw [State.noPage, State.setX_srcPos]

@[simp] theorem noPage_page (s : State) (rd : Reg) (p : Nat) :
    (s.noPage rd p).page = { s.page with valid := false } := by
  rw [State.noPage, State.setX_page]

@[simp] theorem acceptPage_srcPos (s : State) (p : Nat) :
    (s.acceptPage p).1.srcPos = BitVec.ofNat 64 (p + totalOf (s.src.drop p)) := by
  simp [State.acceptPage]

@[simp] theorem acceptPage_lace (s : State) (p : Nat) : (s.acceptPage p).1.page.lace = laceOf (s.src.drop p) := by
  simp [State.acceptPage]

@[simp] theorem acceptPage_packets (s : State) (p : Nat) : (s.acceptPage p).1.page.packets =
    packetsFrom (laceOf (s.src.drop p)) (p + 27 + (laceOf (s.src.drop p)).length) 0 false := by
  simp [State.acceptPage]

theorem exec_srcPos {i : Instr} {s t : State} (hs : s.srcPos.toNat ≤ s.srcLen) (h : exec i s = .next t) :
    t.srcPos.toNat ≤ t.srcLen := by
  have frame := exec_framed h
  have hlen : t.srcLen = s.srcLen := congrArg List.length frame.src
  have hofNat {p : Nat} (hp : p ≤ s.srcLen) : (BitVec.ofNat 64 p).toNat ≤ s.srcLen := by
    rw [BitVec.toNat_ofNat]
    exact (Nat.mod_le ..).trans hp
  rw [hlen]
  cases hi : i.movesSource with
  | false => rwa [(frame.source hi).1]
  | true =>
    cases i with
    | sysReset => cases sysReset_next h; exact Nat.zero_le _
    | pfvSeek rs1 imm =>
      rcases pfvSeek_next h with ⟨c, rfl⟩ | ⟨p, _, hp, rfl⟩
      · exact hs
      · exact hp
    | pfvNext rd imm =>
      rcases pfvNext_next h with ⟨c, rfl⟩ | ⟨_, rfl | ⟨p, hscan, rfl⟩ | ⟨_, rfl⟩ | ⟨p, v, hscan, rfl⟩⟩
      · exact hs
      · simpa using hs
      · simpa using hofNat (scan_capped hscan)
      · simpa using hofNat le_rfl
      · simpa using hofNat (scan_found hscan)
    | _ => cases hi

/-! ### The lock (R33, R154, R155) -/

theorem exec_lock {i : Instr} {s t : State} (hs : s.LockConsistent) (h : exec i s = .next t) : t.LockConsistent := by
  obtain ⟨hfree, hheld⟩ := hs
  cases hi : i.writesLock with
  | false =>
    have hlock := (exec_framed h).lock hi
    exact ⟨by rwa [hlock], by rwa [hlock]⟩
  | true =>
    cases i with
    | sysReset => cases sysReset_next h; exact ⟨fun _ => ⟨rfl, rfl⟩, nofun⟩
    | pfvLock imm =>
      rcases pfvLock_next h with ⟨c, rfl⟩ | ⟨_, rfl⟩ | ⟨hlocked, _, hdepth, rfl⟩ | ⟨_, _, rfl⟩
      · exact ⟨hfree, hheld⟩
      · exact ⟨nofun, fun _ => by simp⟩
      · refine ⟨fun hf => ?_, fun _ hzero => hdepth ?_⟩
        · rw [State.ended_lock, hlocked] at hf
          cases hf
        · rw [State.ended_lock] at hzero
          bv_omega
      · exact ⟨hfree, hheld⟩
    | pfvRel imm =>
      rcases pfvRel_next h with ⟨c, rfl⟩ | ⟨hholds, rfl | ⟨hdepth, rfl⟩⟩
      · exact ⟨hfree, hheld⟩
      · exact ⟨fun _ => ⟨rfl, rfl⟩, nofun⟩
      · have hlocked : s.lock.held = true := (Bool.and_eq_true_iff.1 hholds).1
        refine ⟨fun hf => ?_, fun _ => hdepth⟩
        rw [State.ended_lock, hlocked] at hf
        cases hf
    | _ => cases hi

/-! ### The page record (R35, R36, R142, R151) -/

theorem laceOf_length_le (rest : List Byte) : (laceOf rest).length ≤ 255 :=
  (List.length_take_le ..).trans (leRead_one_le rest 26)

/-- At most one packet for each lacing value, and one more for a packet that was begun before. -/
theorem packetsFrom_length_le (lace : List Byte) (off len : Nat) (more : Bool) :
    (packetsFrom lace off len more).length ≤ lace.length + more.toNat := by
  induction lace generalizing off len more with
  | nil => cases more <;> simp [packetsFrom]
  | cons v vs ih =>
    rw [packetsFrom]
    split
    · have := ih (off + (len + v.toNat)) 0 false
      simp only [List.length_cons, Bool.toNat_false] at this ⊢
      omega
    · have := ih off (len + v.toNat) true
      simp only [List.length_cons, Bool.toNat_true] at this ⊢
      omega

theorem exec_page {i : Instr} {s t : State} (hs : s.PageBounded) (h : exec i s = .next t) : t.PageBounded := by
  cases hi : i.writesPage with
  | false =>
    have hpage := ((exec_framed h).page hi).1
    exact ⟨hpage ▸ hs.lace, hpage ▸ hs.packets⟩
  | true =>
    cases i with
    | sysReset => cases sysReset_next h; exact ⟨Nat.zero_le _, le_rfl⟩
    | pfvNext rd imm =>
      rcases pfvNext_next h with ⟨c, rfl⟩ | ⟨_, rfl | ⟨p, _, rfl⟩ | ⟨_, rfl⟩ | ⟨p, v, _, rfl⟩⟩
      · exact ⟨hs.lace, hs.packets⟩
      · exact ⟨by simpa using hs.lace, by simpa using hs.packets⟩
      · exact ⟨by simpa using hs.lace, by simpa using hs.packets⟩
      · exact ⟨by simpa using hs.lace, by simpa using hs.packets⟩
      · exact ⟨by simpa using laceOf_length_le _, by simpa using packetsFrom_length_le _ _ 0 false⟩
    | _ => cases hi

/-! ### The four invariants together -/

/-- The invariants of O57. -/
structure State.UnitsConsistent (s : State) : Prop where
  cursors : s.CursorsInRange
  ranges : s.RangesInside
  lock : s.LockConsistent
  page : s.PageBounded

/-- The invariants speak of the launch, the source, the bit cursor, SRC_POS, the lock and the page record alone. -/
theorem State.UnitsConsistent.of_parts {s t : State} (h : s.UnitsConsistent) (hpar : t.par = s.par) (hsrc : t.src = s.src)
    (hbc : t.bc = s.bc) (hpos : t.srcPos = s.srcPos) (hlock : t.lock = s.lock) (hpage : t.page = s.page) :
    t.UnitsConsistent := by
  obtain ⟨⟨hbits, hbytes⟩, ⟨hcount, hinside⟩, ⟨hfree, hheld⟩, ⟨hlace, hpackets⟩⟩ := h
  have htotal : t.bcTotal = s.bcTotal := bcTotal_of_ranges (hbc ▸ rfl)
  have hlen : t.srcLen = s.srcLen := congrArg List.length hsrc
  exact ⟨⟨by rwa [hbc, htotal], by rwa [hpos, hlen]⟩, ⟨by rwa [hbc, hpar], by rwa [hbc, hlen]⟩,
    ⟨by rwa [hlock], by rwa [hlock]⟩, ⟨by rwa [hpage], by rwa [hpage]⟩⟩

theorem exec_unitsConsistent {i : Instr} {s t : State} (hs : s.UnitsConsistent) (h : exec i s = .next t) :
    t.UnitsConsistent := by
  obtain ⟨⟨hbits, hbytes⟩, hranges, hlock, hpage⟩ := hs
  obtain ⟨hbits', hranges'⟩ := exec_bits hbits hranges h
  exact ⟨⟨hbits', exec_srcPos hbytes h⟩, hranges', exec_lock hlock h, exec_page hpage h⟩

/-- Settles O57: each unit's invariant, command by command, under every kind of step. -/
theorem cursorsLockPageKept : Obligations.CursorsLockPageKept := by
  unfold Obligations.CursorsLockPageKept
  intro s t hcursors hranges hlock hpage h
  have hs : s.UnitsConsistent := ⟨hcursors, hranges, hlock, hpage⟩
  have ht : t.UnitsConsistent := by
    refine step_keeps ?port ?reg ?dm ?illegal (fun i s t => exec_unitsConsistent) hs h
    case port => exact fun s rest hs => hs.of_parts rfl rfl rfl rfl rfl rfl
    case reg => exact fun s r v hs => hs.of_parts (by simp) (by simp) (by simp) (by simp) (by simp) (by simp)
    case dm => exact fun s a v hs => hs.of_parts rfl rfl rfl rfl rfl rfl
    case illegal => exact fun s hs => hs.of_parts rfl rfl rfl rfl rfl rfl
  exact ⟨ht.cursors, ht.ranges, ht.lock, ht.page⟩

end Sys2Proof.Machine
end

section
/-! SUPPORT. The stream registry (R37, R152, R153): which slot a page gets. -/

namespace Sys2Proof.Machine

/-- Slot `k` of the registry is valid with this serial. -/
def State.HasSerial (s : State) (serial : BitVec 32) (k : Nat) : Prop :=
  k < s.par.nstream ∧ ∃ e, Table.find s.streams k = some e ∧ e.serial = serial

/-- Slot `k` of the registry is not claimed. -/
def State.FreeSlot (s : State) (k : Nat) : Prop := k < s.par.nstream ∧ Table.find s.streams k = none

/-- A search upwards below `n` answers the lowest number with the property. -/
theorem find?_range_eq_some_iff_lowest {n i : Nat} {p : Nat → Bool} {P : Nat → Prop} (hp : ∀ k, p k = true ↔ P k) :
    (List.range n).find? p = some i ↔ (i < n ∧ P i) ∧ ∀ j, j < i → ¬ (j < n ∧ P j) := by
  rw [List.find?_range_eq_some]
  simp only [List.mem_range, Bool.not_eq_true', ← Bool.not_eq_true, hp]
  constructor
  · rintro ⟨hi, hlt, hlow⟩
    exact ⟨⟨hlt, hi⟩, fun j hj h => hlow j hj h.2⟩
  · rintro ⟨⟨hlt, hi⟩, hlow⟩
    exact ⟨hi, hlt, fun j hj h => hlow j hj ⟨hj.trans hlt, h⟩⟩

theorem find?_range_eq_none_iff {n : Nat} {p : Nat → Bool} {P : Nat → Prop} (hp : ∀ k, p k = true ↔ P k) :
    (List.range n).find? p = none ↔ ∀ j, ¬ (j < n ∧ P j) := by
  simp [← hp]

variable {s : State} {serial : BitVec 32} {k : Nat}

theorem streamOf_eq_some_iff : streamOf s serial = some k ↔
    s.HasSerial serial k ∧ ∀ j, j < k → ¬ s.HasSerial serial j :=
  find?_range_eq_some_iff_lowest
    (P := fun k => ∃ e, Table.find s.streams k = some e ∧ e.serial = serial) fun k => by cases Table.find s.streams k <;> simp

theorem streamOf_eq_none_iff : streamOf s serial = none ↔ ∀ j, ¬ s.HasSerial serial j :=
  find?_range_eq_none_iff fun k => by cases Table.find s.streams k <;> simp

theorem freeStream_eq_some_iff : freeStream s = some k ↔ s.FreeSlot k ∧ ∀ j, j < k → ¬ s.FreeSlot j :=
  find?_range_eq_some_iff_lowest (P := fun k => Table.find s.streams k = none) fun k => by cases Table.find s.streams k <;> simp

theorem freeStream_eq_none_iff : freeStream s = none ↔ ∀ j, ¬ s.FreeSlot j :=
  find?_range_eq_none_iff fun k => by cases Table.find s.streams k <;> simp

/-- What an accepted page says of its stream, and the registry after it, are what `register` makes of its serial number and
its end-of-stream flag. -/
theorem acceptPage_register (s : State) (p : Nat) :
    ((s.acceptPage p).1.page.stream, (s.acceptPage p).1.page.isNew, (s.acceptPage p).2, (s.acceptPage p).1.streams) =
      register s (s.acceptPage p).1.page.serial ((s.acceptPage p).1.page.flags.getLsbD 2) := by
  simp [State.acceptPage]

theorem register_known {eos : Bool} (h : streamOf s serial = some k) : register s serial eos =
    (BitVec.ofNat 8 k, false, false, if eos then Table.put s.streams k { serial := serial, eos := true } else s.streams) := by
  simp [register, h]

/-- A page of a known stream marks its slot when it ends the stream, and changes no other. -/
theorem find_markEos {streams : Table Stream} {e : Stream} (hfind : Table.find streams k = some e) (eos : Bool) (j : Nat) :
    Table.find (if eos then Table.put streams k { serial := e.serial, eos := true } else streams) j =
      if j = k then some { serial := e.serial, eos := e.eos || eos } else Table.find streams j := by
  cases eos with
  | false => split <;> simp_all
  | true => simp [Table.find_put]

theorem register_new {eos : Bool} (h : streamOf s serial = none) (hfree : freeStream s = some k) :
    register s serial eos = (BitVec.ofNat 8 k, true, false, Table.put s.streams k { serial := serial, eos := eos }) := by
  simp [register, h, hfree]

theorem register_full {eos : Bool} (h : streamOf s serial = none) (hfree : freeStream s = none) :
    register s serial eos = (0xFF, false, true, s.streams) := by
  simp [register, h, hfree]

/-- Settles O22: the three ways `register` can go, by the lowest slot with the serial and the lowest free slot. -/
theorem streamRegistry : Obligations.StreamRegistry := by
  unfold Obligations.StreamRegistry
  intro s p _ r t eos has free
  have hregister := acceptPage_register s p
  refine ⟨fun k e hhas hlow hfind => ?known, fun k hnone hfree hlow => ?new, fun hnone hnofree => ?full⟩
  case known =>
    have hserial : e.serial = t.page.serial := by
      obtain ⟨_, e', hfind', hserial⟩ := hhas
      rw [hfind] at hfind'
      cases hfind'
      exact hserial
    rw [register_known (streamOf_eq_some_iff.2 ⟨hhas, hlow⟩)] at hregister
    simp only [Prod.mk.injEq] at hregister
    obtain ⟨hstream, hnew, hfull, hstreams⟩ := hregister
    refine ⟨hstream, hnew, hfull, ?_, fun j hj => ?_⟩
    · rw [hstreams, ← hserial, find_markEos hfind, if_pos rfl]
    · rw [hstreams, ← hserial, find_markEos hfind, if_neg hj]
  case new =>
    rw [register_new (streamOf_eq_none_iff.2 hnone) (freeStream_eq_some_iff.2 ⟨hfree, hlow⟩)] at hregister
    simp only [Prod.mk.injEq] at hregister
    obtain ⟨hstream, hnew, hfull, hstreams⟩ := hregister
    refine ⟨hstream, hnew, hfull, ?_, fun j hj => ?_⟩
    · exact hstreams ▸ Table.find_put_same ..
    · exact hstreams ▸ Table.find_put_other _ _ hj
  case full =>
    rw [register_full (streamOf_eq_none_iff.2 hnone) (freeStream_eq_none_iff.2 hnofree)] at hregister
    simpa only [Prod.mk.injEq] using hregister

end Sys2Proof.Machine
end

section
/-! SUPPORT. Reset (R50, R101), the registers and constants (R20, R21, R100 to R103), and the invariants of the reset state. -/

namespace Sys2Proof.Machine

/-- The launch state is a reset of itself. -/
theorem reset_eq_resetBlock : State.reset = State.reset.resetBlock := rfl

theorem exec_sysReset (s : State) : exec .sysReset s = .next s.resetBlock := rfl

/-- A register reads 0 after reset. -/
theorem resetBlock_x (s : State) (r : Reg) : s.resetBlock.x r = 0 := by
  simp [State.x, State.resetBlock, State.reset]

theorem resetBlock_csrRead_lock (s : State) : s.resetBlock.csrRead 0x033 = some 0 := by
  have hlock : s.resetBlock.csrLock = 0 := by simp [State.csrLock, State.resetBlock, State.reset, flagAt]
  rw [← hlock]
  rfl

theorem resetBlock_csrRead_pgInfo (s : State) : s.resetBlock.csrRead 0x034 = some 0 := by
  have hinfo : s.resetBlock.csrPgInfo = 0 := by
    simp [State.csrPgInfo, State.resetBlock, State.reset, Page.reset, flagAt]
  rw [← hinfo]
  rfl

/-- Settles O6: `x_setX` for the registers; the shifted register and the immediate of SYS.LIS share no bit. -/
theorem registersAndConstants : Obligations.RegistersAndConstants := by
  unfold Obligations.RegistersAndConstants
  refine ⟨fun s r q v => ⟨State.x_setX s r q v, rfl, ?_⟩, fun s rd rs1 imm => ⟨rfl, ?_, ?_⟩⟩
  · unfold State.setX
    split <;> rfl
  · rw [BitVec.ofNat_toNat]
    rfl
  · have hshift : (s.x rs1 <<< 12) ||| imm.setWidth 64 = BitVec.ofNat 64 ((s.x rs1).toNat * 2 ^ 12 + imm.toNat) := by
      rw [← Nat.shiftLeft_eq, Nat.shiftLeft_add_eq_or_of_lt imm.isLt, BitVec.ofNat_or, BitVec.ofNat_toNat]
      rfl
    rw [← hshift]
    rfl

/-- Settles O55: everything is empty or 0. -/
theorem invariantsAtReset : Obligations.InvariantsAtReset := by
  unfold Obligations.InvariantsAtReset
  refine ⟨?canonical, ?cursors, ?lock, ?ranges, ?ring, ?residues, ?page, ?launch⟩
  case canonical => exact ⟨.nil, .nil, .nil, .nil, .nil, .nil, nofun⟩
  case cursors => exact ⟨le_rfl, le_rfl⟩
  case lock => exact ⟨fun _ => ⟨rfl, rfl⟩, nofun⟩
  case ranges => exact ⟨Nat.zero_le _, nofun⟩
  case ring => exact ringInvariant_iff.2 ⟨by decide, Ring.Bounded.empty (Nat.zero_le _)⟩
  case residues => exact nofun
  case page => exact ⟨Nat.zero_le _, le_rfl⟩
  case launch => constructor <;> decide

/-- Settles O5: both the launch state and the state after SYS.RESET are a `resetBlock`, which reads as R50 says. -/
theorem resetState : Obligations.ResetState := by
  unfold Obligations.ResetState
  refine ⟨fun s => ⟨s.resetBlock, rfl, rfl, rfl, rfl, rfl, rfl⟩, fun a => rfl, fun t ht => ?_⟩
  obtain ⟨s, rfl⟩ : ∃ s : State, t = s.resetBlock := by
    rcases ht with rfl | ⟨s, h⟩
    · exact ⟨State.reset, reset_eq_resetBlock⟩
    · rw [exec_sysReset] at h
      cases h
      exact ⟨s, rfl⟩
  refine ⟨resetBlock_x s, ?_, rfl, rfl, rfl, rfl, rfl, fun k => ⟨rfl, rfl, rfl, rfl⟩, fun c f => rfl⟩
  simp only [List.forall_mem_cons, List.not_mem_nil, false_imp_iff, implies_true, and_true, true_and,
    resetBlock_csrRead_lock, resetBlock_csrRead_pgInfo]
  and_intros <;> rfl

end Sys2Proof.Machine
end

section
/-! SUPPORT. What a command stores to DM (R62, R107, R188, R212, R222, R241, R247): only words of its store regions, in
canonical form. O51 and O8 follow. -/

namespace Sys2Proof.Machine

/-- `m'` is `m` after stores to addresses in `W`. -/
structure Memory.Stored (W : Nat → Prop) (m m' : Memory) : Prop where
  wf : Memory.wf m → Memory.wf m'
  outside : ∀ b, ¬ W b → Memory.read m' b = Memory.read m b

namespace Memory.Stored

variable {W : Nat → Prop} {m m' : Memory}

theorem refl (W : Nat → Prop) (m : Memory) : Stored W m m := ⟨id, fun _ _ => rfl⟩

theorem writeList (h : Stored W m m') {a n : Nat} {vs : List Word32} (hlen : vs.length ≤ n)
    (hW : ∀ b, a ≤ b ∧ b < a + n → W b) : Stored W m (Memory.writeList m' a vs) where
  wf hm := Memory.wf_writeList (h.wf hm) a vs
  outside b hb := by
    rw [Memory.read_writeList, if_neg fun hin => hb (hW b (by omega))]
    exact h.outside b hb

theorem ran {s u : State} {W' : Nat → Prop} (h : Ran s W' u) (hW : ∀ b, W' b → W b) : Stored W s.dm u.dm :=
  ⟨h.wf, fun b hb => h.outside b fun hin => hb (hW b hin)⟩

end Memory.Stored

/-- Word `b` lies in a region that command `i` stores to. -/
def State.mayStore (s : State) (i : Instr) (b : Nat) : Prop := ∃ r ∈ s.storeRegions i, r.1 ≤ b ∧ b < r.1 + r.2

theorem mayStore_of_region {s : State} {i : Instr} {a n : Nat} (h : (a, n) ∈ s.storeRegions i) :
    ∀ b, a ≤ b ∧ b < a + n → s.mayStore i b := fun _ hb => ⟨(a, n), h, hb⟩

@[simp] theorem hufDecode_dm (s : State) (b : Codebook) : (s.hufDecode b).1.dm = s.dm := by
  obtain ⟨pos, short, cnt, f, e, _⟩ := hufDecode_frame s b
  rw [e]

theorem word_of_read {s : State} {a : Nat} {w : Word32} (h : Memory.read s.dm a = some w) : s.word a = w.toNat := by
  rw [State.word, h]
  rfl

/-! ### The buffers of a residue decode (R205, R210, R212) -/

theorem evenWords_getElem? (ws : List Word32) (j : Nat) : (evenWords ws)[j]? = ws[2 * j]? := by
  induction ws using evenWords.induct generalizing j with
  | case1 w v ws ih => cases j <;> simp [evenWords, ih, Nat.mul_succ]
  | case2 w => cases j <;> simp [evenWords, Nat.mul_succ]
  | case3 => simp [evenWords]

theorem oddWords_getElem? (ws : List Word32) (j : Nat) : (oddWords ws)[j]? = ws[2 * j + 1]? := by
  induction ws using oddWords.induct generalizing j with
  | case1 w v ws ih => cases j <;> simp [oddWords, ih, Nat.mul_succ]
  | case2 ws hws =>
    match ws, hws with
    | [], _ => simp [oddWords]
    | [w], _ => simp [oddWords]
    | w :: v :: ws, hws => exact absurd rfl (hws w v ws)

/-- An address a decode adds to is a word of the buffer of a channel, of one that is decoded in variant 0. -/
theorem ResJob.touches_buffer {job : ResJob} {a : Nat} (h : job.touches a) :
    ∃ j, j < job.ch ∧ (job.interleaved = true ∨ job.skip.getD j true = false) ∧
      ∃ q, q < job.n ∧ a = job.bufs.getD j 0 + q := by
  obtain ⟨c, hc, idx, hidx, rfl⟩ := h
  unfold chans at hc
  unfold vlen at hidx
  unfold address
  cases hv : job.interleaved with
  | true =>
    rw [hv, if_pos rfl] at hidx
    have hch : 0 < job.ch := Nat.pos_of_mul_pos_left (Nat.zero_lt_of_lt hidx)
    exact ⟨idx % job.ch, Nat.mod_lt _ hch, .inl rfl, idx / job.ch, (Nat.div_lt_iff_lt_mul hch).2 hidx, rfl⟩
  | false =>
    simp only [hv, Bool.false_eq_true, if_false, List.mem_filter, List.mem_range, decide_eq_true_eq] at hc hidx
    exact ⟨c, hc.1, .inr hc.2, idx, hidx, rfl⟩

/-- The word of a descriptor, as the list of its words has it. -/
theorem word_of_readList {s : State} {a n : Nat} {ws : List Word32} (h : Memory.readList s.dm a n = .ok ws) {k : Nat}
    {w : Word32} (hw : ws[k]? = some w) : s.word (a + k) = w.toNat := by
  obtain ⟨hlen, hread⟩ := Memory.readList_ok h
  obtain ⟨hk, _⟩ := List.getElem?_eq_some_iff.1 hw
  exact word_of_read ((hread k (hlen ▸ hk)).trans hw)

/-- The job that `RES.DEC` takes from its descriptor (R205, R212). -/
def resJob (vw nw : Word32) (words : List Word32) : ResJob :=
  { interleaved := vw.toNat == 1, n := nw.toNat, bufs := (evenWords words).map BitVec.toNat,
    skip := ((oddWords words).map BitVec.toNat).map (fun d => d == 1) }

theorem resJob_mayStore {rd rs1 rs2 : Reg} {s : State} {vw cw nw : Word32} {words : List Word32}
    (hv : Memory.read s.dm (s.xNat rs2) = some vw) (hc : Memory.read s.dm (s.xNat rs2 + 1) = some cw)
    (hn : Memory.read s.dm (s.xNat rs2 + 2) = some nw)
    (hwords : Memory.readList s.dm (s.xNat rs2 + 3) (2 * cw.toNat) = .ok words) {b : Nat}
    (h : (resJob vw nw words).touches b) : s.mayStore (.resDec rd rs1 rs2) b := by
  obtain ⟨j, hj, hdecoded, q, hq, rfl⟩ := ResJob.touches_buffer h
  obtain ⟨hlen, _⟩ := Memory.readList_ok hwords
  simp only [resJob, ResJob.ch, List.length_map] at hj hq
  have hbuf : words[2 * j]? = some (evenWords words)[j] := by
    rw [← evenWords_getElem?, List.getElem?_eq_getElem hj]
  have hjc : j < cw.toNat := by
    obtain ⟨hlt, _⟩ := List.getElem?_eq_some_iff.1 hbuf
    omega
  have hflag : ∃ w, words[2 * j + 1]? = some w := ⟨_, List.getElem?_eq_getElem (by omega)⟩
  obtain ⟨f, hf⟩ := hflag
  have hregion : ((resJob vw nw words).bufs.getD j 0, nw.toNat) ∈ s.storeRegions (.resDec rd rs1 rs2) := by
    simp only [State.storeRegions, List.mem_filterMap, List.mem_range]
    refine ⟨j, by rwa [word_of_read hc], ?_⟩
    rw [if_neg, word_of_readList hwords hbuf, word_of_read hn]
    · simp only [resJob]
      rw [List.getD_eq_getElem?_getD, List.getElem?_map, List.getElem?_eq_getElem hj]
      rfl
    · rintro ⟨hzero, hskip⟩
      rw [show s.xNat rs2 + 4 + 2 * j = s.xNat rs2 + 3 + (2 * j + 1) by omega, word_of_readList hwords hf] at hskip
      rw [word_of_read hv] at hzero
      simp [resJob, hzero, hskip, oddWords_getElem?, hf] at hdecoded
  exact mayStore_of_region hregion _ ⟨Nat.le_add_right .., by omega⟩

/-! ### Every command -/

theorem resDec_stored {rd rs1 rs2 : Reg} {s t : State} (h : exec (.resDec rd rs1 rs2) s = .next t) :
    Memory.Stored (s.mayStore (.resDec rd rs1 rs2)) s.dm t.dm := by
  rcases resDec_next h with ⟨c, rfl⟩ | ⟨res, words, vw, nw, _, hv, hn, ⟨cw, hc, _, hwords⟩, h⟩
  · exact .refl _ _
  · have hran {u : State} (hu : Ran s (resJob vw nw words).touches u) :
        Memory.Stored (s.mayStore (.resDec rd rs1 rs2)) s.dm u.dm :=
      .ran hu fun b hb => resJob_mayStore hv hc hn hwords hb
    obtain ⟨r, ⟨e, rfl⟩ | ⟨e, rfl⟩ | ⟨e, rfl⟩⟩ := endResDec_next h
    · simpa using hran ((resDecode_ran res _ s).1 r e)
    · obtain ⟨u, hu, e⟩ := (resDecode_ran res _ s).2 _ e
      simpa [e] using hran hu
    · simpa using hran ((resDecode_ran res _ s).2 _ e)

/-- Every command stores to its regions alone, and keeps DM in canonical form. -/
theorem exec_stored {i : Instr} {s t : State} (h : exec i s = .next t) : Memory.Stored (s.mayStore i) s.dm t.dm := by
  have base : Memory.Stored (s.mayStore i) s.dm s.dm := .refl _ _
  cases hi : i.storesDm with
  | false => rwa [(exec_framed h).dm hi]
  | true =>
    cases i with
    | sysStw rs1 rs2 imm =>
      rcases sysStw_next h with ⟨c, rfl⟩ | ⟨v, rfl⟩
      · exact base
      · exact base.writeList (vs := [v]) le_rfl (mayStore_of_region (by simp [State.storeRegions]))
    | hufDecv rd rs1 rs2 =>
      rcases hufDecv_next h with ⟨c, rfl⟩ | ⟨b, hb, ⟨_, rfl⟩ | ⟨e, _, rfl⟩ | ⟨e, _, rfl⟩⟩
      · exact base
      · simpa using base
      · simpa using base
      · have hlen : (b.vector e).length ≤ b.dim := List.length_take_le ..
        simpa using base.writeList hlen (mayStore_of_region (by simp [State.storeRegions, hb]))
    | resDec rd rs1 rs2 => exact resDec_stored h
    | mdctRev rd rs1 slot =>
      rcases mdctRev_next h with ⟨c, rfl⟩ | ⟨v, vs, hlen, rfl⟩
      · exact base
      · simpa using base.writeList hlen.le (mayStore_of_region (by simp [State.storeRegions]))
    | olaRd rd rs1 rs2 =>
      rcases olaRd_next h with ⟨c, rfl⟩ | ⟨v, vs, k, rfl, hlen, rfl⟩
      · exact base
      · simpa using base.writeList hlen.le (mayStore_of_region (by simp [State.storeRegions]))
    | olaCpl rs1 =>
      rcases olaCpl_next h with ⟨c, rfl⟩ | ⟨mw, aw, cw, ms, as, hm, ha, hc, hms, has, rfl⟩
      · exact base
      · have hmag : (mw.toNat, cw.toNat) ∈ s.storeRegions (.olaCpl rs1) := by
          simp [State.storeRegions, word_of_read hm, word_of_read hc]
        have hang : (aw.toNat, cw.toNat) ∈ s.storeRegions (.olaCpl rs1) := by
          simp [State.storeRegions, word_of_read ha, word_of_read hc]
        exact (base.writeList hms.le (mayStore_of_region hmag)).writeList has.le (mayStore_of_region hang)
    | _ => cases hi

/-- Settles O51: the footprint for the commands that store nothing, the store regions for the others. -/
theorem dmFrame : Obligations.DmFrame := by
  unfold Obligations.DmFrame
  intro i s t h
  exact ⟨(exec_framed h).dm, fun b hb => (exec_stored h).outside b fun ⟨r, hr, hin⟩ => hb r hr hin⟩

/-- Settles O8: the two meanings, case by case on the address and on what the word holds. -/
theorem dmLoadStore : Obligations.DmLoadStore := by
  unfold Obligations.DmLoadStore
  intro s rd rs1 rs2 imm a
  refine ⟨fun hbeyond => ⟨if_pos hbeyond, if_pos hbeyond⟩, fun hbelow => ?_⟩
  have hin : ¬ s.par.dmWords ≤ s.offset rs1 imm := Nat.not_le.2 hbelow
  have hload : exec (.sysLdw rd rs1 imm) s = s.withWord a fun w => (s.setX rd (w.setWidth 64)).finish .ok := if_neg hin
  refine ⟨fun w hw => ?known, fun hw => ?unwritten, if_neg hin, fun b => Memory.read_write _ _ _ _⟩
  case known => exact hload.trans (withWord_of_read hw _)
  case unwritten => exact hload.trans (by rw [State.withWord, hw])

end Sys2Proof.Machine
end

section
/-! SUPPORT. The canonical form of the sparse stores (R37, R39, R47, R62; log entry 4): what each command lists. O56 follows. -/

namespace Sys2Proof.Machine

/-! ### The stores one by one -/

theorem wf_register {s : State} (h : Table.wf s.streams) (serial : BitVec 32) (eos : Bool) :
    Table.wf (register s serial eos).2.2.2 := by
  unfold register
  split
  · split
    · exact Table.wf_put h _ _
    · exact h
  · split
    · exact Table.wf_put h _ _
    · exact h

theorem exec_wf_streams {i : Instr} {s t : State} (hs : Table.wf s.streams) (h : exec i s = .next t) :
    Table.wf t.streams := by
  cases hi : i.writesPage with
  | false => rwa [((exec_framed h).page hi).2]
  | true =>
    cases i with
    | sysReset => cases sysReset_next h; exact .nil
    | pfvNext rd imm =>
      rcases pfvNext_next h with ⟨c, rfl⟩ | ⟨_, rfl | ⟨p, _, rfl⟩ | ⟨_, rfl⟩ | ⟨p, v, _, rfl⟩⟩
      · exact hs
      · simpa using hs
      · simpa using hs
      · simpa using hs
      · have hstreams := congrArg (fun r => r.2.2.2) (acceptPage_register s p)
        dsimp only at hstreams
        rw [State.ended_streams, State.setX_streams, hstreams]
        exact wf_register hs _ _
    | _ => cases hi

theorem exec_wf_books {i : Instr} {s t : State} (hs : Table.wf s.books) (h : exec i s = .next t) : Table.wf t.books := by
  cases hi : i.writesBooks with
  | false => rwa [(exec_framed h).books hi]
  | true =>
    cases i with
    | sysReset => cases sysReset_next h; exact .nil
    | hufBuild rs1 rs2 =>
      have hopen := Table.wf_erase hs (s.xNat rs1)
      rcases hufBuild_next h with ⟨c, rfl⟩ | rfl | ⟨b, rfl⟩
      · exact hs
      · exact hopen
      · exact Table.wf_put hopen _ b
    | hufVq rs1 rs2 =>
      rcases hufVq_next h with ⟨c, rfl⟩ | ⟨b, _, h⟩
      · exact hs
      · have hdrop := Table.wf_put hs (s.xNat rs1) b.withoutTable
        rcases h with rfl | rfl | ⟨b1, rfl⟩
        · exact hdrop
        · exact hdrop
        · exact Table.wf_put hdrop _ b1
    | _ => cases hi

theorem exec_wf_residues {i : Instr} {s t : State} (hs : Table.wf s.residues) (h : exec i s = .next t) :
    Table.wf t.residues := by
  cases hi : i.writesResidues with
  | false => rwa [(exec_framed h).residues hi]
  | true =>
    have hdrop (k : Nat) : Table.wf (s.dropDependents k).residues := Table.wf_filter hs _
    cases i with
    | sysReset => cases sysReset_next h; exact .nil
    | hufBuild rs1 rs2 =>
      rcases hufBuild_next h with ⟨c, rfl⟩ | rfl | ⟨b, rfl⟩
      · exact hs
      · exact hdrop _
      · exact hdrop _
    | hufVq rs1 rs2 =>
      rcases hufVq_next h with ⟨c, rfl⟩ | ⟨b, _, rfl | rfl | ⟨b1, rfl⟩⟩
      · exact hs
      · exact hdrop _
      · exact hdrop _
      · exact hdrop _
    | resSetup rs1 rs2 =>
      have herase := Table.wf_erase hs (s.xNat rs1)
      rcases resSetup_next h with ⟨c, rfl⟩ | rfl | ⟨res, _, _, rfl⟩
      · exact hs
      · exact herase
      · exact Table.wf_put herase _ res
    | _ => cases hi

theorem exec_wf_modes {i : Instr} {s t : State} (hs : Table.wf s.modes) (h : exec i s = .next t) : Table.wf t.modes := by
  cases hi : i.writesOla with
  | false => rwa [((exec_framed h).ola hi).2]
  | true =>
    cases i with
    | sysReset => cases sysReset_next h; exact .nil
    | olaCfg rs1 rs2 ch =>
      rcases olaCfg_next h with ⟨c, rfl⟩ | ⟨o, b1, _, rfl⟩
      · exact hs
      · exact .nil
    | olaMode rs1 flag =>
      rcases olaMode_next h with ⟨c, rfl⟩ | ⟨m, rfl⟩
      · exact hs
      · exact Table.wf_put hs _ m
    | olaAdd rd rs1 rs2 flags =>
      rcases olaAdd_next h with ⟨c, rfl⟩ | ⟨mode, words, r, v, _, _, _, _, rfl⟩
      · exact hs
      · simpa using hs
    | olaReset => cases olaReset_next h; exact hs
    | _ => cases hi

/-! ### The ring buffer -/

/-- The samples of the ring are listed by rising number, none of them +0.0 (R47). -/
structure Ring.Canonical (r : Ring) : Prop where
  wf : Table.wf r.buf
  noZero : ∀ c ∈ r.buf, c.2 ≠ 0

namespace Ring.Canonical

variable {r r' : Ring}

theorem of_buf (h : r.Canonical) (hbuf : r'.buf = r.buf) : r'.Canonical :=
  ⟨hbuf ▸ h.wf, hbuf ▸ h.noZero⟩

theorem empty (h : r.buf = []) : r.Canonical := ⟨h ▸ .nil, by simp [h]⟩

theorem write (h : r.Canonical) (c t : Nat) (v : Word32) : (r.write c t v).Canonical :=
  ⟨wf_write h.wf c t v, noZero_write h.noZero c t v⟩

theorem clear (h : r.Canonical) (lo hi : Nat) : (r.clear lo hi).Canonical :=
  ⟨wf_clear h.wf lo hi, fun d hd => h.noZero d (mem_clear.1 hd).1⟩

theorem addWindowed {dm : Memory} {win : List Word32} {buf c v i : Nat} {st : Int} (hr : r.Canonical)
    (h : addWindowed dm win buf c st v i r = .ok r') : r'.Canonical := by
  unfold Machine.addWindowed at h
  dsimp only at h
  split at h
  · cases h
    exact hr
  · split at h
    · cases h
    · cases h
      exact hr.write _ _ _

theorem addChannel {dm : Memory} {win : List Word32} {n v : Nat} {st : Int} {cb : Nat × Nat × Bool} (hr : r.Canonical)
    (h : addChannel dm win n st v cb r = .ok r') : r'.Canonical := by
  unfold Machine.addChannel at h
  split at h
  · exact (loopFrom_keeps (P := Ring.Canonical) (E := fun _ => True) hr (fun _ _ _ _ _ hr h => hr.addWindowed h)
      (fun _ _ _ _ _ _ _ => trivial)).1 r' h
  · cases h
    exact hr

theorem addChannels {dm : Memory} {win : List Word32} {n v : Nat} {st : Int} {blocks : List (Nat × Nat × Bool)}
    (hr : r.Canonical) (h : loopOver (Machine.addChannel dm win n st v) blocks r = .ok r') : r'.Canonical :=
  (loopOver_keeps (P := Ring.Canonical) (E := fun _ => True) hr (fun _ _ _ _ hr h => hr.addChannel h)
    (fun _ _ _ _ _ _ => trivial)).1 r' h

end Ring.Canonical

theorem exec_ringCanonical {i : Instr} {s t : State} (hs : s.ring.Canonical) (h : exec i s = .next t) :
    t.ring.Canonical := by
  cases hi : i.writesRing with
  | false => rwa [(exec_framed h).ring hi]
  | true =>
    cases i with
    | sysReset => cases sysReset_next h; exact .empty rfl
    | olaCfg rs1 rs2 ch =>
      rcases olaCfg_next h with ⟨c, rfl⟩ | ⟨o, b1, _, rfl⟩
      · exact hs
      · exact .empty rfl
    | olaAdd rd rs1 rs2 flags =>
      rcases olaAdd_next h with ⟨c, rfl⟩ | ⟨mode, words, r, v, _, _, _, hloop, rfl⟩
      · exact hs
      · rw [State.ended_ring, State.setX_ring]
        exact (hs.addChannels hloop).of_buf rfl
    | olaRd rd rs1 rs2 =>
      rcases olaRd_next h with ⟨c, rfl⟩ | ⟨v, vs, k, _, _, rfl⟩
      · exact hs
      · rw [State.ended_ring, State.setX_ring]
        exact (hs.clear _ _).of_buf rfl
    | olaDisc rd rs1 =>
      rcases olaDisc_next h with ⟨c, rfl⟩ | ⟨v, k, _, rfl⟩
      · exact hs
      · rw [State.ended_ring, State.setX_ring]
        exact (hs.clear _ _).of_buf rfl
    | olaReset => cases olaReset_next h; exact hs.clear _ _
    | _ => cases hi

/-! ### The invariant -/

theorem State.Canonical.ringCanonical {s : State} (h : s.Canonical) : s.ring.Canonical := ⟨h.ring, h.noZero⟩

theorem exec_canonical {i : Instr} {s t : State} (hs : s.Canonical) (h : exec i s = .next t) : t.Canonical := by
  have hring := exec_ringCanonical hs.ringCanonical h
  exact
    { dm := (exec_stored h).wf hs.dm
      streams := exec_wf_streams hs.streams h
      books := exec_wf_books hs.books h
      residues := exec_wf_residues hs.residues h
      modes := exec_wf_modes hs.modes h
      ring := hring.wf
      noZero := hring.noZero }

/-- Settles O56: the commands keep each store's canonical form; of the host's actions only a DM write touches a store. -/
theorem canonicalKept : Obligations.CanonicalKept := by
  unfold Obligations.CanonicalKept
  intro s t
  refine step_keeps ?port ?reg ?dm ?illegal (fun i s t => exec_canonical)
  case port => exact fun s rest h => { h with }
  case reg =>
    intro s r v h
    exact ⟨by simpa using h.dm, by simpa using h.streams, by simpa using h.books, by simpa using h.residues,
      by simpa using h.modes, by simpa using h.ring, by simpa using h.noZero⟩
  case dm => exact fun s a v h => { h with dm := Memory.wf_write h.dm a v }
  case illegal => exact fun s h => { h with }

end Sys2Proof.Machine
end

section
/-! SUPPORT. Residue setups and the codebooks they name (R74, R194, R202): what HUF.BUILD, HUF.VQ and RES.SETUP leave. O59
follows. -/

namespace Sys2Proof.Machine

/-- The setup names codebooks that are valid in `books`, its stage books with a lookup table. -/
def Residue.Ready (books : Table Codebook) (r : Residue) : Prop :=
  (∃ b, Table.find books r.classbook = some b) ∧
    ∀ k ∈ r.classes, ∀ j ∈ k.books, ∀ n, j = some n → ∃ b, Table.find books n = some b ∧ b.mapType ≠ .noTable

theorem residuesReady_iff {s : State} : s.ResiduesReady ↔ ∀ c ∈ s.residues, c.2.Ready s.books := Iff.rfl

/-- A setup that does not name slot `k` does not notice what becomes of it (R194). -/
theorem Residue.Ready.of_not_names {books books' : Table Codebook} {r : Residue} {k : Nat} (h : r.Ready books)
    (hk : r.names k = false) (hbooks : ∀ j, j ≠ k → Table.find books' j = Table.find books j) : r.Ready books' := by
  simp only [names, Bool.or_eq_false_iff, beq_eq_false_iff_ne, List.any_eq_false] at hk
  obtain ⟨hclass, hstages⟩ := hk
  obtain ⟨hclassbook, hbook⟩ := h
  refine ⟨by rwa [hbooks _ hclass], fun c hc j hj n hn => ?_⟩
  have hne : n ≠ k := by
    rintro rfl
    simp only [Bool.not_eq_true, List.any_eq_false, beq_iff_eq] at hstages
    exact hstages c hc j hj hn
  rw [hbooks n hne]
  exact hbook c hc j hj n hn

/-- Once the setups that name slot `k` are dropped, any state that differs in that slot alone is ready. -/
theorem residuesReady_dropDependents {s t : State} {k : Nat} (hs : s.ResiduesReady)
    (hresidues : t.residues = (s.dropDependents k).residues)
    (hbooks : ∀ j, j ≠ k → Table.find t.books j = Table.find s.books j) : t.ResiduesReady := by
  rw [residuesReady_iff, hresidues]
  intro c hc
  obtain ⟨hmem, hk⟩ := List.mem_filter.1 hc
  exact (residuesReady_iff.1 hs c hmem).of_not_names (by simpa using hk) hbooks

/-- A setup that passes the tests of R202 is ready. -/
theorem Residue.ready_of_stagesReady {s : State} {r : Residue} (hclass : ∃ b, Table.find s.books r.classbook = some b)
    (hstages : s.stagesReady r.classes = true) : r.Ready s.books := by
  refine ⟨hclass, fun c hc j hj n hn => ?_⟩
  have hbook := List.all_eq_true.1 (List.all_eq_true.1 hstages c hc) j hj
  rw [hn] at hbook
  obtain ⟨_, htable⟩ := Bool.and_eq_true_iff.1 hbook
  cases hfind : Table.find s.books n with
  | none => simp [hfind] at htable
  | some b => exact ⟨b, rfl, by simpa [hfind] using htable⟩

/-- A command that changes a codebook slot changes the residue slots as well (R194). -/
theorem writesBooks_eq_false {i : Instr} (h : i.writesResidues = false) : i.writesBooks = false := by
  unfold Instr.writesBooks
  split
  · cases h
  · cases h
  · cases h
  · rfl

theorem exec_residuesReady {i : Instr} {s t : State} (hs : s.ResiduesReady) (h : exec i s = .next t) :
    t.ResiduesReady := by
  cases hi : i.writesResidues with
  | false =>
    have frame := exec_framed h
    rw [residuesReady_iff, frame.residues hi, frame.books (writesBooks_eq_false hi)]
    exact hs
  | true =>
    cases i with
    | sysReset => cases sysReset_next h; exact nofun
    | hufBuild rs1 rs2 =>
      have herase (j : Nat) (hj : j ≠ s.xNat rs1) := Table.find_erase_other s.books hj
      rcases hufBuild_next h with ⟨c, rfl⟩ | rfl | ⟨b, rfl⟩
      · exact hs
      · exact residuesReady_dropDependents hs rfl herase
      · exact residuesReady_dropDependents hs rfl fun j hj => (Table.find_put_other _ b hj).trans (herase j hj)
    | hufVq rs1 rs2 =>
      rcases hufVq_next h with ⟨c, rfl⟩ | ⟨b, _, h⟩
      · exact hs
      · have hput (j : Nat) (hj : j ≠ s.xNat rs1) := Table.find_put_other s.books b.withoutTable hj
        rcases h with rfl | rfl | ⟨b1, rfl⟩
        · exact residuesReady_dropDependents hs rfl hput
        · exact residuesReady_dropDependents hs rfl hput
        · exact residuesReady_dropDependents hs rfl fun j hj => (Table.find_put_other _ b1 hj).trans (hput j hj)
    | resSetup rs1 rs2 =>
      have hkept : ∀ c ∈ Table.erase s.residues (s.xNat rs1), c.2.Ready s.books :=
        fun c hc => residuesReady_iff.1 hs c (Table.mem_erase.1 hc).1
      rcases resSetup_next h with ⟨c, rfl⟩ | rfl | ⟨res, hclass, hstages, rfl⟩
      · exact hs
      · exact hkept
      · rw [residuesReady_iff]
        intro c hc
        rcases Table.mem_put hc with hc | rfl
        · exact hkept c hc
        · exact Residue.ready_of_stagesReady hclass hstages
    | _ => cases hi

/-- Settles O59: HUF.BUILD and HUF.VQ drop the setups that name their slot, RES.SETUP tests what it names. -/
theorem residuesReadyKept : Obligations.ResiduesReadyKept := by
  unfold Obligations.ResiduesReadyKept
  intro s t
  refine step_keeps ?port ?reg ?dm ?illegal (fun i s t => exec_residuesReady)
  case port => exact fun s rest h => h
  case reg => exact fun s r v h => by simpa [residuesReady_iff] using h
  case dm => exact fun s a v h => h
  case illegal => exact fun s h => h

end Sys2Proof.Machine
end

section
/-! SUPPORT. How a command can stop (R62, R212, R247; U2, U3, U4 of 93_implementation_defined.md): every read of DM is of a
word below `DM_WORDS`, and a ready residue setup meets no missing codebook. O52 follows. -/

namespace Sys2Proof.Machine

/-- The refusals a command can answer. -/
def Refuses (i : Instr) (f : Refusal) : Prop :=
  (f = .overlap ∧ ((∃ rd rs1 rs2, i = .resDec rd rs1 rs2) ∨ ∃ rs1, i = .olaCpl rs1)) ∨
    (f = .bitTotal ∧ ∃ rs1 rs2, i = .bcAddr rs1 rs2)

/-- The fault is the read of a word of DM that nothing has written. -/
def ReadsUnwritten (s : State) (f : Fault) : Prop :=
  ∃ a, f = .dmUnwritten a ∧ a < s.par.dmWords ∧ Memory.read s.dm a = none

/-- Command `i` goes on, or stops for a reason that the spec names. -/
def Named (i : Instr) (s : State) : Result → Prop
  | .next _ => True
  | .fault f => ReadsUnwritten s f
  | .refused f => Refuses i f

namespace Named

variable {i : Instr} {s : State}

theorem finish (u : State) (c : Cond) : Named i s (u.finish c) := trivial

theorem raise (c : Trap) : Named i s (s.raise c) := trivial

theorem malformed (u : State) : Named i s u.malformed := trivial

theorem endRead (r : State × Bool) : Named i s (endRead r) := trivial

theorem ite {p : Prop} [Decidable p] {x y : Result} (hx : p → Named i s x) (hy : ¬ p → Named i s y) :
    Named i s (if p then x else y) := by
  split
  · exact hx ‹_›
  · exact hy ‹_›

/-- A test that only decides whether the command traps. -/
theorem guard {p : Prop} [Decidable p] {c : Trap} {y : Result} (hy : ¬ p → Named i s y) :
    Named i s (if p then s.raise c else y) := ite (fun _ => raise c) hy

theorem withWord {a : Nat} {k : Word32 → Result} (ha : a < s.par.dmWords)
    (hk : ∀ w, Memory.read s.dm a = some w → Named i s (k w)) : Named i s (s.withWord a k) := by
  unfold State.withWord
  split
  · exact hk _ ‹_›
  · exact ⟨a, rfl, ha, ‹_›⟩

theorem withWords {a n : Nat} {k : List Word32 → Result} (ha : a + n ≤ s.par.dmWords)
    (hk : ∀ ws, Memory.readList s.dm a n = .ok ws → Named i s (k ws)) : Named i s (s.withWords a n k) := by
  unfold State.withWords
  split
  · exact hk _ ‹_›
  · rename_i b h
    obtain ⟨_, hb, hread⟩ := Memory.readList_error h
    exact ⟨b, rfl, by omega, hread⟩

/-! ### HUF -/

theorem hufBuild (rs1 rs2 : Reg) : Named i s (execHufBuild rs1 rs2 s) := by
  unfold execHufBuild
  refine guard fun _ => guard fun hdesc => withWord (by omega) fun entries _ => withWord (by omega) fun dim _ =>
    guard fun hlens => ite (fun _ => malformed _) fun _ => withWords (by omega) fun lens _ =>
      ite (fun _ => malformed _) fun _ => ite (fun _ => malformed _) fun _ => ?_
  split
  · exact malformed _
  · exact finish _ _

theorem hufVq (rs1 rs2 : Reg) : Named i s (execHufVq rs1 rs2 s) := by
  unfold execHufVq
  refine guard fun _ => guard fun hdesc => withWord (by omega) fun nmult _ => guard fun hmult => ?_
  split
  · exact raise _
  · exact withWord (by omega) fun map _ => ite (fun _ => finish _ _) fun _ => ite (fun _ => malformed _) fun _ =>
      withWord (by omega) fun seq _ => ite (fun _ => malformed _) fun _ => ite (fun _ => malformed _) fun _ =>
        ite (fun _ => malformed _) fun _ => withWord (by omega) fun minimum _ => withWord (by omega) fun delta _ =>
          withWords (by omega) fun mult _ => finish _ _

theorem hufDec (rd rs1 : Reg) : Named i s (execHufDec rd rs1 s) := by
  unfold execHufDec
  refine guard fun _ => ?_
  split
  · exact raise _
  · split
    · exact finish _ _
    · exact finish _ _

theorem hufDecv (rd rs1 rs2 : Reg) : Named i s (execHufDecv rd rs1 rs2 s) := by
  unfold execHufDecv
  refine guard fun _ => ?_
  split
  · exact raise _
  · refine guard fun _ => guard fun _ => ?_
    split
    · exact finish _ _
    · exact ite (fun _ => finish _ _) fun _ => finish _ _

theorem hufInfo (rd rs1 : Reg) (imm : Imm) : Named i s (execHufInfo rd rs1 imm s) := by
  unfold execHufInfo
  refine guard fun _ => ?_
  split
  · exact ite (fun _ => finish _ _) fun _ => raise _
  · exact finish _ _

theorem hufCode (rd rs1 rs2 : Reg) : Named i s (execHufCode rd rs1 rs2 s) := by
  unfold execHufCode
  refine guard fun _ => ?_
  split
  · exact raise _
  · exact guard fun _ => finish _ _

theorem hufLut (rd rs1 rs2 : Reg) : Named i s (execHufLut rd rs1 rs2 s) := by
  unfold execHufLut
  refine guard fun _ => ?_
  split
  · exact raise _
  · exact guard fun _ => guard fun _ => finish _ _

/-! ### SYS, BC and PFV -/

theorem sysCsrr (rd : Reg) (csr : Imm) : Named i s (execSysCsrr rd csr s) := by
  unfold execSysCsrr
  split
  · exact raise _
  · exact finish _ _

theorem sysCsrw (rs1 : Reg) (csr : Imm) : Named i s (execSysCsrw rs1 csr s) :=
  ite (fun _ => finish _ _) fun _ => ite (fun _ => finish _ _) fun _ => ite (fun _ => finish _ _) fun _ => raise _

theorem sysLdw (rd rs1 : Reg) (imm : Imm) : Named i s (execSysLdw rd rs1 imm s) :=
  guard fun h => withWord (Nat.not_le.1 h) fun _ _ => finish _ _

theorem bcAddr (rs1 rs2 : Reg) : Named (.bcAddr rs1 rs2) s (execBcAddr rs1 rs2 s) :=
  guard fun _ => guard fun _ => ite (fun _ => .inr ⟨rfl, rs1, rs2, rfl⟩) fun _ => finish _ _

theorem pfvLock (imm : Imm) : Named i s (execPfvLock imm s) :=
  ite (fun _ => finish _ _) fun _ => ite (fun _ => guard fun _ => finish _ _) fun _ => finish _ _

theorem pfvNext (rd : Reg) (imm : Imm) : Named i s (execPfvNext rd imm s) := by
  unfold execPfvNext
  refine guard fun _ => ite (fun _ => finish _ _) fun _ => ?_
  split
  · exact finish _ _
  · exact finish _ _
  · exact finish _ _

theorem pfvPkt (rd rs1 : Reg) (imm : Imm) : Named i s (execPfvPkt rd rs1 imm s) := by
  unfold execPfvPkt
  refine guard fun _ => guard fun _ => ?_
  split
  · exact raise _
  · exact finish _ _

/-! ### MDCT and OLA -/

theorem mdctRev (rd rs1 : Reg) (imm : Imm) : Named i s (execMdctRev rd rs1 imm s) :=
  guard fun _ => guard fun h => withWords (by omega) fun _ _ => finish _ _

theorem olaWin (rd rs1 rs2 : Reg) (imm : Imm) : Named i s (execOlaWin rd rs1 rs2 imm s) := by
  unfold execOlaWin
  refine guard fun _ => ?_
  split
  · exact raise _
  · exact guard fun _ => finish _ _

theorem olaCpl (rs1 : Reg) : Named (.olaCpl rs1) s (execOlaCpl rs1 s) := by
  unfold execOlaCpl
  exact guard fun hdesc => withWord (by omega) fun mag _ => withWord (by omega) fun ang _ => withWord (by omega) fun cnt _ =>
    guard fun hmag => guard fun hang => ite (fun _ => .inl ⟨rfl, .inr ⟨rs1, rfl⟩⟩) fun _ =>
      withWords (by omega) fun ms _ => withWords (by omega) fun as _ => finish _ _

end Named

/-- An overlap-add of blocks inside DM stops only on an unwritten word of one of them. -/
theorem addWindowed_error {s : State} {win : List Word32} {buf c v n i e : Nat} {st : Int} {r : Ring} (hi : i < n)
    (hbuf : buf + n ≤ s.par.dmWords) (h : addWindowed s.dm win buf c st v i r = .error e) :
    ReadsUnwritten s (.dmUnwritten e) := by
  unfold addWindowed at h
  dsimp only at h
  split at h
  · cases h
  · split at h
    · cases h
      exact ⟨buf + i, rfl, by omega, ‹_›⟩
    · cases h

theorem addChannel_error {s : State} {win : List Word32} {v n e : Nat} {st : Int} {cb : Nat × Nat × Bool} {r : Ring}
    (hcb : cb.2.2 = true → cb.2.1 + n ≤ s.par.dmWords) (h : addChannel s.dm win n st v cb r = .error e) :
    ReadsUnwritten s (.dmUnwritten e) := by
  unfold addChannel at h
  split at h
  · exact (loopFrom_keeps (P := fun _ => True) (E := fun e => ReadsUnwritten s (.dmUnwritten e)) trivial
      (fun _ _ _ _ _ _ _ => trivial) (fun i _ hi r e _ h => addWindowed_error (by omega) (hcb ‹_›) h)).2 e h
  · cases h

theorem Named.olaAdd {i : Instr} {s : State} (rd rs1 rs2 : Reg) (imm : Imm) : Named i s (execOlaAdd rd rs1 rs2 imm s) := by
  unfold execOlaAdd
  refine guard fun _ => guard fun _ => ?_
  split
  · exact raise _
  · refine guard fun _ => guard fun hdesc => withWords (by omega) fun words _ => guard fun _ => guard fun hblocks =>
      guard fun _ => ?_
    split
    · rename_i e h
      simp only [List.any_eq_true, Bool.and_eq_true, decide_eq_true_eq, not_exists, not_and, Nat.not_lt] at hblocks
      exact (loopOver_keeps (P := fun _ => True) (E := fun e => ReadsUnwritten s (.dmUnwritten e)) trivial
        (fun _ _ _ _ _ _ => trivial) (fun b hb r e _ h => addChannel_error (hblocks b hb) h)).2 e h
    · exact finish _ _

/-! ### RES.SETUP (R201, R202) -/

theorem readStages_error {m : Memory} {a e n : Nat} {mask : BitVec 8} {stages : List Nat} (hstages : ∀ st ∈ stages, st < n)
    (h : readStages m a mask stages = .error e) : a ≤ e ∧ e < a + n ∧ Memory.read m e = none := by
  induction stages with
  | nil => cases h
  | cons st sts ih =>
    obtain ⟨hst, hsts⟩ := List.forall_mem_cons.1 hstages
    unfold readStages at h
    split at h
    · split at h
      · cases h
        exact ⟨by omega, by omega, ‹_›⟩
      · split at h
        · cases h
          exact ih hsts ‹_›
        · cases h
    · split at h
      · cases h
        exact ih hsts ‹_›
      · cases h

theorem readClasses_error {m : Memory} {a e : Nat} {masks : List Word32} (h : readClasses m a masks = .error e) :
    a ≤ e ∧ e < a + 8 * masks.length ∧ Memory.read m e = none := by
  induction masks generalizing a with
  | nil => cases h
  | cons w ws ih =>
    rw [List.length_cons]
    unfold readClasses at h
    split at h
    · cases h
      obtain ⟨hlo, hhi, hread⟩ := readStages_error (n := 8) (fun st => List.mem_range.1) ‹_›
      exact ⟨hlo, by omega, hread⟩
    · split at h
      · cases h
        obtain ⟨hlo, hhi, hread⟩ := ih ‹_›
        exact ⟨by omega, by omega, hread⟩
      · cases h

theorem Named.resSetup {i : Instr} {s : State} (rs1 rs2 : Reg) : Named i s (execResSetup rs1 rs2 s) := by
  unfold execResSetup
  refine guard fun _ => guard fun hdesc => withWord (by omega) fun ncls _ => guard fun hclasses =>
    withWord (by omega) fun start _ => withWord (by omega) fun stop _ => withWord (by omega) fun psize _ =>
      ite (fun _ => malformed _) fun _ => ite (fun _ => malformed _) fun _ => ite (fun _ => malformed _) fun hncls =>
        withWord (by omega) fun classbook _ => ?_
  split
  · exact malformed _
  · refine ite (fun _ => malformed _) fun _ => withWords (by omega) fun masks hmasks => ite (fun _ => malformed _) fun _ => ?_
    split
    · rename_i e h
      obtain ⟨hlen, _⟩ := Memory.readList_ok hmasks
      obtain ⟨_, he, hread⟩ := readClasses_error h
      exact ⟨e, rfl, by omega, hread⟩
    · exact ite (fun _ => malformed _) fun _ => finish _ _

/-! ### RES.DEC (R194, R207, R212)

`resDecode_ran` says that a residue decode stops on an unwritten word of a buffer or on a missing codebook. Of a ready setup
no codebook is missing. -/

/-- The halt is not for a missing codebook. -/
def ResHalt.BooksPresent : ResHalt → Prop
  | .fault (.bookAbsent _) => False
  | _ => True

theorem Ran.mono {s u : State} {W W' : Nat → Prop} (h : Ran s W u) (hW : ∀ a, W a → W' a) : Ran s W' u :=
  ⟨h.form, h.wf, fun a ha => h.outside a fun hin => ha (hW a hin), h.unknown⟩

section Present

variable {s : State} {W : Nat → Prop} {r : ResRun} {res : Residue} {job : ResJob} {k c p st g at0 idx : Nat} {v : Word32}
  {b : Codebook} {x : ResHalt}

theorem symbol_present (h : Ran s W r.st) (hb : Table.find s.books k = some b) (hx : r.symbol k = .error x) :
    x.BooksPresent := by
  unfold ResRun.symbol at hx
  rw [h.books, hb] at hx
  dsimp only at hx
  split at hx
  · cases hx; trivial
  · cases hx
  · cases hx; trivial

theorem addSample_present (hx : addSample job c idx v r = .error x) : x.BooksPresent := by
  unfold addSample at hx
  dsimp only at hx
  split at hx
  · cases hx; trivial
  · cases hx

theorem addVector_present (h : Ran s W r.st) (hb : Table.find s.books k = some b)
    (hx : addVector job k c at0 r = .error x) : x.BooksPresent := by
  unfold addVector at hx
  split at hx
  · cases hx
    exact symbol_present h hb ‹_›
  · split at hx
    · cases hx
      exact (loopFrom_keeps (P := fun _ => True) (E := ResHalt.BooksPresent) trivial (fun _ _ _ _ _ _ _ => trivial)
        (fun _ _ _ _ _ _ hx => addSample_present hx)).2 _ ‹_›
    · cases hx

theorem decodePartition_present (h : Ran s W r.st) (hb : Table.find s.books k = some b)
    (hx : decodePartition res job k c p r = .error x) : x.BooksPresent := by
  unfold decodePartition at hx
  rw [h.books, hb] at hx
  have hany : Ran s (fun _ => True) r.st := h.mono fun _ _ => trivial
  exact (loopFrom_keeps (P := fun r : ResRun => Ran s (fun _ => True) r.st) (E := ResHalt.BooksPresent) hany
    (fun _ _ _ _ r' hr he => (addVector_ran hr fun _ _ _ _ => trivial).1 r' he)
    (fun _ _ _ _ _ hr hx => addVector_present hr hb hx)).2 x hx

theorem stageBook_mem {cls : Nat} (h : res.stageBook cls st = some k) :
    ∃ cascade ∈ res.classes, some k ∈ cascade.books := by
  unfold Residue.stageBook at h
  split at h
  · cases h
  · rename_i cascade hc
    rw [List.getD_eq_getElem?_getD, Option.getD_eq_iff] at h
    refine ⟨cascade, List.mem_of_getElem? hc, ?_⟩
    rcases h with h | ⟨_, h⟩
    · exact List.mem_of_getElem? h
    · cases h

variable (hready : res.Ready s.books)
include hready

theorem decodeChannel_present (h : Ran s W r.st) (hx : decodeChannel res job st p c r = .error x) : x.BooksPresent := by
  unfold decodeChannel at hx
  split at hx
  · cases hx
  · split at hx
    · cases hx
    · obtain ⟨cascade, hcascade, hk⟩ := stageBook_mem ‹_›
      obtain ⟨b, hb, _⟩ := hready.2 cascade hcascade _ hk _ rfl
      exact decodePartition_present h hb hx

theorem classify_present {parts : Nat} (h : Ran s W r.st) (hx : classify res parts p c r = .error x) :
    x.BooksPresent := by
  obtain ⟨b, hb⟩ := hready.1
  unfold classify at hx
  split at hx
  · cases hx
    exact symbol_present h hb ‹_›
  · cases hx

theorem decodeGroup_present (h : Ran s job.touches r.st) (hx : decodeGroup res job st g r = .error x) :
    x.BooksPresent := by
  have hclassify := loopOver_keeps (xs := job.chans) (body := classify res (nparts res job) (g * res.cw))
    (P := fun r : ResRun => Ran s job.touches r.st) (E := ResHalt.BooksPresent) h
    (fun _ _ _ r' hr he => (classify_ran hr).1 r' he) (fun _ _ _ _ hr hx => classify_present hready hr hx)
  have hchannels (i : Nat) (hi : g * res.cw + i < nparts res job) (r : ResRun) (hr : Ran s job.touches r.st) :=
    loopOver_keeps (xs := job.chans) (body := decodeChannel res job st (g * res.cw + i))
      (P := fun r : ResRun => Ran s job.touches r.st) (E := ResHalt.BooksPresent) hr
      (fun _ hc _ r' hr he => (decodeChannel_ran hr hc hi).1 r' he)
      (fun _ _ _ _ hr hx => decodeChannel_present hready hr hx)
  unfold decodeGroup at hx
  dsimp only at hx
  split at hx
  · cases hx
    rename_i he
    split at he
    · exact hclassify.2 _ he
    · cases he
  · rename_i r1 he
    have h1 : Ran s job.touches r1.st := by
      split at he
      · exact hclassify.1 r1 he
      · cases he
        exact h
    exact (loopFrom_keeps (P := fun r : ResRun => Ran s job.touches r.st) (E := ResHalt.BooksPresent) h1
      (fun i _ hi r r' hr he => (hchannels i (by omega) r hr).1 r' he)
      (fun i _ hi r x hr hx => (hchannels i (by omega) r hr).2 x hx)).2 x hx

theorem resDecode_present (hx : resDecode res job s = .error x) : x.BooksPresent := by
  have hgroups (st : Nat) (r : ResRun) (hr : Ran s job.touches r.st) :=
    loopFrom_keeps (n := groupCount res job) (i := 0) (body := decodeGroup res job st)
      (P := fun r : ResRun => Ran s job.touches r.st) (E := ResHalt.BooksPresent) hr
      (fun _ _ _ _ r' hr he => (decodeGroup_ran hr).1 r' he)
      (fun _ _ _ _ _ hr hx => decodeGroup_present hready hr hx)
  unfold resDecode at hx
  dsimp only at hx
  split at hx
  · cases hx
  · exact (loopFrom_keeps (P := fun r : ResRun => Ran s job.touches r.st) (E := ResHalt.BooksPresent) (Ran.refl _ _)
      (fun st _ _ r r' hr he => (hgroups st r hr).1 r' he) (fun st _ _ r x hr hx => (hgroups st r hr).2 x hx)).2 x hx

/-- The buffers of the job lie in DM, so an unwritten word of theirs is a word below `DM_WORDS`. -/
theorem Named.endResDec {i : Instr} {rd : Reg} (hbufs : ∀ buf ∈ job.bufs, buf + job.n ≤ s.par.dmWords) :
    Named i s (endResDec rd (resDecode res job s)) := by
  cases hx : resDecode res job s with
  | ok r => exact finish _ _
  | error x =>
    cases x with
    | short r => exact finish _ _
    | invalid r => exact finish _ _
    | fault f =>
      rcases (resDecode_ran res job s).2 _ hx with ⟨a, ha, rfl, hread⟩ | ⟨k, rfl, _⟩
      · obtain ⟨j, hj, _, q, hq, rfl⟩ := ResJob.touches_buffer ha
        have hbuf := hbufs _ (List.getElem_mem hj)
        rw [List.getD_eq_getElem _ _ hj] at hread ⊢
        exact ⟨_, rfl, by omega, hread⟩
      · exact (resDecode_present hready hx).elim

end Present

theorem Named.resDec {s : State} (hs : s.ResiduesReady) (rd rs1 rs2 : Reg) :
    Named (.resDec rd rs1 rs2) s (execResDec rd rs1 rs2 s) := by
  unfold execResDec
  refine guard fun _ => guard fun hdesc => withWord (by omega) fun variant _ => withWord (by omega) fun ch _ =>
    withWord (by omega) fun n _ => guard fun _ => guard fun hchans => withWords (by omega) fun words _ =>
      guard fun _ => ?_
  split
  · exact raise _
  · rename_i res hres
    refine guard fun hbufs => ite (fun _ => .inl ⟨rfl, .inl ⟨rd, rs1, rs2, rfl⟩⟩) fun _ => ?_
    have hready := residuesReady_iff.1 hs _ (Table.mem_of_find hres)
    simp only [List.any_eq_true, decide_eq_true_eq, not_exists, not_and, Nat.not_lt] at hbufs
    exact endResDec hready hbufs

/-! ### Every command -/

theorem exec_named {s : State} (hs : s.ResiduesReady) (i : Instr) : Named i s (exec i s) := by
  cases i with
  | sysNop | sysReset | sysLi | sysLis => exact .finish _ _
  | sysCsrr rd csr => exact .sysCsrr rd csr
  | sysCsrw rs1 csr => exact .sysCsrw rs1 csr
  | sysLdw rd rs1 imm => exact .sysLdw rd rs1 imm
  | sysStw rs1 rs2 imm => exact .guard fun _ => .finish _ _
  | crcClr | crcUpd | crcGet => exact .finish _ _
  | crcSrc rs1 rs2 => exact .guard fun _ => .finish _ _
  | bcClr | bcReset => exact .finish _ _
  | bcAddr rs1 rs2 => exact .bcAddr rs1 rs2
  | bcPeek rd rs1 imm => exact .guard fun _ => .finish _ _
  | bcSkip | bcRdvf => exact .endRead _
  | bcRead rd rs1 imm => exact .guard fun _ => .endRead _
  | pfvLock cid => exact .pfvLock cid
  | pfvRel cid => exact .guard fun _ => .ite (fun _ => .finish _ _) fun _ => .finish _ _
  | pfvSeek rs1 cid => exact .guard fun _ => .guard fun _ => .finish _ _
  | pfvNext rd cid => exact .pfvNext rd cid
  | pfvLace rd rs1 => exact .guard fun _ => .guard fun _ => .finish _ _
  | pfvPkt rd rs1 sel => exact .pfvPkt rd rs1 sel
  | pfvStrm rd rs1 sel => exact .guard fun _ => .finish _ _
  | hufBuild rs1 rs2 => exact .hufBuild rs1 rs2
  | hufVq rs1 rs2 => exact .hufVq rs1 rs2
  | hufDec rd rs1 => exact .hufDec rd rs1
  | hufDecv rd rs1 rs2 => exact .hufDecv rd rs1 rs2
  | hufInfo rd rs1 sel => exact .hufInfo rd rs1 sel
  | hufCode rd rs1 rs2 => exact .hufCode rd rs1 rs2
  | hufLut rd rs1 rs2 => exact .hufLut rd rs1 rs2
  | resSetup rs1 rs2 => exact .resSetup rs1 rs2
  | resDec rd rs1 rs2 => exact .resDec hs rd rs1 rs2
  | mdctInit rs1 slot => exact .guard fun _ => .finish _ _
  | mdctRev rd rs1 slot => exact .mdctRev rd rs1 slot
  | olaCfg rs1 rs2 ch => exact .guard fun _ => .guard fun _ => .finish _ _
  | olaMode rs1 flag => exact .guard fun _ => .guard fun _ => .finish _ _
  | olaAdd rd rs1 rs2 flags => exact .olaAdd rd rs1 rs2 flags
  | olaRd rd rs1 rs2 => exact .guard fun _ => .guard fun _ => .finish _ _
  | olaDisc rd rs1 => exact .guard fun _ => .finish _ _
  | olaReset => exact .finish _ _
  | olaWin rd rs1 rs2 w => exact .olaWin rd rs1 rs2 w
  | olaCpl rs1 => exact .olaCpl rs1

/-- Settles O52: what `exec_named` says of a fault and of a refusal. -/
theorem stopsAreNamed : Obligations.StopsAreNamed := by
  unfold Obligations.StopsAreNamed
  intro i s hs
  exact ⟨fun f h => (h ▸ exec_named hs i : Named i s (.fault f)), fun f h => (h ▸ exec_named hs i : Named i s (.refused f))⟩

end Sys2Proof.Machine
end

section
/-! SUPPORT. The command word and its five fields (R81): a word is put together from its fields in one way only. -/

namespace Sys2Proof

section Fields

variable (op : BitVec 8) (rd rs1 rs2 : Reg) (imm : Imm)

@[simp] theorem fieldImm_commandWord : fieldImm (commandWord op rd rs1 rs2 imm) = imm :=
  BitVec.extractLsb'_append_eq_right

/-- What stands above the immediate field, for the four fields that stand there. -/
theorem extractLsb'_commandWord_of_le {start : Nat} (h : 12 ≤ start) (len : Nat) :
    (commandWord op rd rs1 rs2 imm).extractLsb' start len = (op ++ rd ++ rs1 ++ rs2).extractLsb' (start - 12) len :=
  BitVec.extractLsb'_append_eq_of_le h

@[simp] theorem fieldRs2_commandWord : fieldRs2 (commandWord op rd rs1 rs2 imm) = rs2 :=
  (extractLsb'_commandWord_of_le _ _ _ _ _ (by decide) _).trans BitVec.extractLsb'_append_eq_right

@[simp] theorem fieldRs1_commandWord : fieldRs1 (commandWord op rd rs1 rs2 imm) = rs1 :=
  calc fieldRs1 (commandWord op rd rs1 rs2 imm)
    _ = (op ++ rd ++ rs1 ++ rs2).extractLsb' 4 4 := extractLsb'_commandWord_of_le _ _ _ _ _ (by decide) _
    _ = (op ++ rd ++ rs1).extractLsb' 0 4 := BitVec.extractLsb'_append_eq_of_le (by decide)
    _ = rs1 := BitVec.extractLsb'_append_eq_right

@[simp] theorem fieldRd_commandWord : fieldRd (commandWord op rd rs1 rs2 imm) = rd :=
  calc fieldRd (commandWord op rd rs1 rs2 imm)
    _ = (op ++ rd ++ rs1 ++ rs2).extractLsb' 8 4 := extractLsb'_commandWord_of_le _ _ _ _ _ (by decide) _
    _ = (op ++ rd ++ rs1).extractLsb' 4 4 := BitVec.extractLsb'_append_eq_of_le (by decide)
    _ = (op ++ rd).extractLsb' 0 4 := BitVec.extractLsb'_append_eq_of_le (by decide)
    _ = rd := BitVec.extractLsb'_append_eq_right

@[simp] theorem fieldOp_commandWord : fieldOp (commandWord op rd rs1 rs2 imm) = op :=
  calc fieldOp (commandWord op rd rs1 rs2 imm)
    _ = (op ++ rd ++ rs1 ++ rs2).extractLsb' 12 8 := extractLsb'_commandWord_of_le _ _ _ _ _ (by decide) _
    _ = (op ++ rd ++ rs1).extractLsb' 8 8 := BitVec.extractLsb'_append_eq_of_le (by decide)
    _ = (op ++ rd).extractLsb' 4 8 := BitVec.extractLsb'_append_eq_of_le (by decide)
    _ = op := BitVec.extractLsb'_append_eq_left

end Fields

theorem commandWord_fields (c : BitVec 32) :
    commandWord (fieldOp c) (fieldRd c) (fieldRs1 c) (fieldRs2 c) (fieldImm c) = c := by
  unfold commandWord fieldOp fieldRd fieldRs1 fieldRs2 fieldImm
  iterate 4 rw [BitVec.extractLsb'_append_extractLsb'_eq_extractLsb' (by rfl)]
  exact BitVec.extractLsb'_eq_self

theorem word_ext_iff {c d : BitVec 32} : c = d ↔
    fieldOp c = fieldOp d ∧ fieldRd c = fieldRd d ∧ fieldRs1 c = fieldRs1 d ∧ fieldRs2 c = fieldRs2 d ∧
      fieldImm c = fieldImm d := by
  refine ⟨by rintro rfl; simp, fun ⟨hop, hrd, hrs1, hrs2, himm⟩ => ?_⟩
  rw [← commandWord_fields c, hop, hrd, hrs1, hrs2, himm, commandWord_fields]

section And

variable (c d : BitVec 32)

@[simp] theorem fieldOp_and : fieldOp (c &&& d) = fieldOp c &&& fieldOp d := BitVec.extractLsb'_and

@[simp] theorem fieldRd_and : fieldRd (c &&& d) = fieldRd c &&& fieldRd d := BitVec.extractLsb'_and

@[simp] theorem fieldRs1_and : fieldRs1 (c &&& d) = fieldRs1 c &&& fieldRs1 d := BitVec.extractLsb'_and

@[simp] theorem fieldRs2_and : fieldRs2 (c &&& d) = fieldRs2 c &&& fieldRs2 d := BitVec.extractLsb'_and

@[simp] theorem fieldImm_and : fieldImm (c &&& d) = fieldImm c &&& fieldImm d := BitVec.extractLsb'_and

end And

/-! ### The width of an immediate (R83) -/

theorem Imm.fits_iff {imm : Imm} {width : Nat} : Imm.fits imm width = true ↔ imm.toNat >>> width = 0 := by
  simp [Imm.fits]

theorem Imm.fits_twelve (imm : Imm) : Imm.fits imm 12 = true := by
  rw [fits_iff, Nat.shiftRight_eq_div_pow, Nat.div_eq_of_lt imm.isLt]

theorem Imm.and_highBits_eq_zero_iff {imm : Imm} {width : Nat} :
    imm &&& BitVec.allOnes 12 <<< width = 0 ↔ Imm.fits imm width = true := by
  have hlow : imm.toNat / 2 ^ width * 2 ^ width < 2 ^ 12 := (Nat.div_mul_le_self _ _).trans_lt imm.isLt
  rw [← BitVec.shiftLeft_ushiftRight, fits_iff, ← BitVec.toNat_inj, BitVec.toNat_shiftLeft, BitVec.toNat_ushiftRight,
    Nat.shiftLeft_eq, Nat.shiftRight_eq_div_pow, Nat.mod_eq_of_lt hlow]
  simp

end Sys2Proof
end

section
/-! SUPPORT. The opcode map (R84, R86): when a word is of a row, and what the row's command is. -/

namespace Sys2Proof

/-- The operands leave zero what the row's format and immediate width do not use: none of (b), (c) of R86. -/
structure Row.Accepts (r : Row) (rd rs1 rs2 : Reg) (imm : Imm) : Prop where
  rd : r.format.hasD = false → rd = 0
  rs1 : r.format.hasS1 = false → rs1 = 0
  rs2 : r.format.hasS2 = false → rs2 = 0
  imm : Imm.fits imm r.immWidth = true

/-- The word has the row's opcode byte and operands that the row accepts. -/
structure Row.Matches (r : Row) (c : BitVec 32) : Prop where
  op : r.op = fieldOp c
  operands : r.Accepts (fieldRd c) (fieldRs1 c) (fieldRs2 c) (fieldImm c)

/-- The command that the row reads in the word. -/
def Row.command (r : Row) (c : BitVec 32) : Instr := r.build (fieldRd c) (fieldRs1 c) (fieldRs2 c) (fieldImm c)

theorem Row.not_accepts_iff {r : Row} {rd rs1 rs2 : Reg} {imm : Imm} : ¬ r.Accepts rd rs1 rs2 imm ↔
    (rd ≠ 0 ∧ r.format.hasD = false) ∨ (rs1 ≠ 0 ∧ r.format.hasS1 = false) ∨ (rs2 ≠ 0 ∧ r.format.hasS2 = false) ∨
      imm.toNat >>> r.immWidth ≠ 0 := by
  have fields : r.Accepts rd rs1 rs2 imm ↔ (r.format.hasD = false → rd = 0) ∧ (r.format.hasS1 = false → rs1 = 0) ∧
      (r.format.hasS2 = false → rs2 = 0) ∧ imm.toNat >>> r.immWidth = 0 :=
    ⟨fun ⟨hrd, hrs1, hrs2, himm⟩ => ⟨hrd, hrs1, hrs2, Imm.fits_iff.1 himm⟩,
      fun ⟨hrd, hrs1, hrs2, himm⟩ => ⟨hrd, hrs1, hrs2, Imm.fits_iff.2 himm⟩⟩
  rw [fields, and_comm (a := rd ≠ 0), and_comm (a := rs1 ≠ 0), and_comm (a := rs2 ≠ 0)]
  simp only [not_and_or, Classical.not_imp, ne_eq]

/-- A register field under the mask of a format that uses it or not (R82). -/
theorem and_unusedMask_eq_zero_iff (x : Reg) (used : Bool) :
    x &&& (if used then 0 else 0xF) = 0 ↔ (used = false → x = 0) := by
  have hall : x &&& 0xF = x := BitVec.and_allOnes
  cases used with
  | true => simp
  | false =>
    rw [if_neg Bool.false_ne_true, hall]
    simp

/-- Mask and match of R86 say what `Row.Matches` says field by field. -/
theorem Row.and_mask_eq_pattern_iff {r : Row} {c : BitVec 32} : c &&& r.mask = r.pattern ↔ r.Matches c := by
  have hop : fieldOp c &&& 0xFF = fieldOp c := BitVec.and_allOnes
  simp only [word_ext_iff, mask, pattern, fieldOp_and, fieldRd_and, fieldRs1_and, fieldRs2_and, fieldImm_and,
    fieldOp_commandWord, fieldRd_commandWord, fieldRs1_commandWord, fieldRs2_commandWord, fieldImm_commandWord, hop,
    and_unusedMask_eq_zero_iff, Imm.and_highBits_eq_zero_iff]
  constructor
  · rintro ⟨op, rd, rs1, rs2, imm⟩
    exact ⟨op.symm, rd, rs1, rs2, imm⟩
  · rintro ⟨op, rd, rs1, rs2, imm⟩
    exact ⟨op.symm, rd, rs1, rs2, imm⟩

/-! ### The rows of the table -/

theorem find_row {r : Row} (hr : r ∈ rows) : rows.find? (fun q => q.op == r.op) = some r := by
  fin_cases hr <;> rfl

theorem row_eq_of_op_eq {r q : Row} (hr : r ∈ rows) (hq : q ∈ rows) (h : r.op = q.op) : r = q :=
  Option.some.inj <| (find_row hr).symm.trans (h ▸ find_row hq)

/-- The word of a row's command has the row's opcode byte and the operands the row uses (R81, R82). -/
theorem encode_build {r : Row} (hr : r ∈ rows) (rd rs1 rs2 : Reg) (imm : Imm) : encode (r.build rd rs1 rs2 imm) =
    commandWord r.op (if r.format.hasD then rd else 0) (if r.format.hasS1 then rs1 else 0)
      (if r.format.hasS2 then rs2 else 0) (if r.immWidth == 0 then 0 else imm) := by
  fin_cases hr <;> rfl

theorem wf_build {r : Row} (hr : r ∈ rows) (rd rs1 rs2 : Reg) (imm : Imm) :
    (r.build rd rs1 rs2 imm).wf = (r.immWidth == 0 || r.immWidth == 12 || Imm.fits imm r.immWidth) := by
  fin_cases hr <;> rfl

theorem encode_build_of_accepts {r : Row} (hr : r ∈ rows) {rd rs1 rs2 : Reg} {imm : Imm}
    (h : r.Accepts rd rs1 rs2 imm) : encode (r.build rd rs1 rs2 imm) = commandWord r.op rd rs1 rs2 imm := by
  have himm (hw : (r.immWidth == 0) = true) : imm = 0 :=
    BitVec.eq_of_toNat_eq (by simpa [eq_of_beq hw] using Imm.fits_iff.1 h.imm)
  rw [encode_build hr, ite_eq_left_iff.2 fun hD => (h.rd (Bool.eq_false_of_not_eq_true hD)).symm,
    ite_eq_left_iff.2 fun hS1 => (h.rs1 (Bool.eq_false_of_not_eq_true hS1)).symm,
    ite_eq_left_iff.2 fun hS2 => (h.rs2 (Bool.eq_false_of_not_eq_true hS2)).symm,
    ite_eq_right_iff.2 fun hw => (himm hw).symm]

end Sys2Proof
end

section
/-! SUPPORT. Decoding (R86, R89) by the rows, and that it undoes encoding (R81). O1, O2 and O3 follow. -/

namespace Sys2Proof

theorem decode_commandWord {op : BitVec 8} {r : Row} (hfind : rows.find? (fun q => q.op == op) = some r)
    {rd rs1 rs2 : Reg} {imm : Imm} (h : r.Accepts rd rs1 rs2 imm) {i : Instr} (hi : r.build rd rs1 rs2 imm = i) :
    decode (commandWord op rd rs1 rs2 imm) = .ok i := by
  obtain ⟨hrd, hrs1, hrs2, himm⟩ := h
  simp only [decode, fieldOp_commandWord, fieldRd_commandWord, fieldRs1_commandWord, fieldRs2_commandWord,
    fieldImm_commandWord, hfind, hi]
  rw [if_neg fun h => h.1 (hrd h.2), if_neg fun h => h.1 (hrs1 h.2), if_neg fun h => h.1 (hrs2 h.2),
    if_neg (by simp [himm])]

theorem decode_of_matches {r : Row} {c : BitVec 32} (hr : r ∈ rows) (h : r.Matches c) :
    decode c = .ok (r.command c) := by
  have hword := decode_commandWord (h.op ▸ find_row hr) h.operands (i := r.command c) rfl
  rwa [commandWord_fields] at hword

theorem exists_matches_of_decode {c : BitVec 32} {i : Instr} (h : decode c = .ok i) : ∃ r ∈ rows, r.Matches c := by
  unfold decode at h
  split at h
  next => cases h
  next r hfind =>
    have hop : r.op = fieldOp c := by simpa using List.find?_some hfind
    split_ifs at h with hrd hrs1 hrs2 himm
    exact ⟨r, List.mem_of_find?_eq_some hfind, hop, fun hD => by_contra fun hne => hrd ⟨hne, hD⟩,
      fun hS1 => by_contra fun hne => hrs1 ⟨hne, hS1⟩, fun hS2 => by_contra fun hne => hrs2 ⟨hne, hS2⟩,
      Bool.eq_true_of_not_eq_false himm⟩

theorem decode_eq_ok_iff {c : BitVec 32} {i : Instr} :
    decode c = .ok i ↔ ∃ r ∈ rows, r.Matches c ∧ r.command c = i := by
  constructor
  · intro h
    obtain ⟨r, hr, hc⟩ := exists_matches_of_decode h
    exact ⟨r, hr, hc, Except.ok.inj ((decode_of_matches hr hc).symm.trans h)⟩
  · rintro ⟨r, hr, hc, rfl⟩
    exact decode_of_matches hr hc

/-- A word is illegal when no row fits it (R86). -/
theorem exists_decode_error_iff {c : BitVec 32} : (∃ e, decode c = .error e) ↔ ∀ r ∈ rows, ¬ r.Matches c := by
  constructor
  · rintro ⟨e, he⟩ r hr hc
    cases he.symm.trans (decode_of_matches hr hc)
  · intro h
    cases hd : decode c with
    | error e => exact ⟨e, rfl⟩
    | ok i =>
      obtain ⟨r, hr, hc⟩ := exists_matches_of_decode hd
      exact absurd hc (h r hr)

/-- The cases are the formats of R82, each with the immediate widths it comes with in R84. -/
theorem decode_encode {i : Instr} (h : i.wf = true) : decode (encode i) = .ok i := by
  cases i <;> refine decode_commandWord rfl ?_ rfl
  case sysNop | sysReset | crcClr | bcClr | bcReset | olaReset => exact ⟨fun _ => rfl, fun _ => rfl, fun _ => rfl, rfl⟩
  case crcGet | bcRdvf => exact ⟨nofun, fun _ => rfl, fun _ => rfl, rfl⟩
  case olaCpl => exact ⟨fun _ => rfl, nofun, fun _ => rfl, rfl⟩
  case pfvLock | pfvRel => exact ⟨fun _ => rfl, fun _ => rfl, fun _ => rfl, h⟩
  case sysLi | sysCsrr => exact ⟨nofun, fun _ => rfl, fun _ => rfl, Imm.fits_twelve _⟩
  case pfvNext => exact ⟨nofun, fun _ => rfl, fun _ => rfl, h⟩
  case sysCsrw | crcUpd | bcSkip => exact ⟨fun _ => rfl, nofun, fun _ => rfl, Imm.fits_twelve _⟩
  case pfvSeek | mdctInit | olaMode => exact ⟨fun _ => rfl, nofun, fun _ => rfl, h⟩
  case pfvLace | hufDec | olaDisc => exact ⟨nofun, nofun, fun _ => rfl, rfl⟩
  case crcSrc | bcAddr | hufBuild | hufVq | resSetup => exact ⟨fun _ => rfl, nofun, nofun, rfl⟩
  case sysLis | sysLdw | bcPeek | bcRead => exact ⟨nofun, nofun, fun _ => rfl, Imm.fits_twelve _⟩
  case pfvPkt | pfvStrm | hufInfo | mdctRev => exact ⟨nofun, nofun, fun _ => rfl, h⟩
  case sysStw => exact ⟨fun _ => rfl, nofun, nofun, Imm.fits_twelve _⟩
  case olaCfg => exact ⟨fun _ => rfl, nofun, nofun, h⟩
  case hufDecv | hufCode | hufLut | resDec | olaRd => exact ⟨nofun, nofun, nofun, rfl⟩
  case olaAdd | olaWin => exact ⟨nofun, nofun, nofun, h⟩

/-- Settles O1: the command's row accepts its operands, so the word reads back as that command (`decode_encode`). -/
theorem encodeThenDecode : Obligations.EncodeThenDecode := by
  unfold Obligations.EncodeThenDecode
  exact fun i => decode_encode

theorem encode_of_decode_ok {c : BitVec 32} {i : Instr} (h : decode c = .ok i) : encode i = c ∧ i.wf = true := by
  obtain ⟨r, hr, ⟨hop, hoperands⟩, rfl⟩ := decode_eq_ok_iff.1 h
  constructor
  · rw [Row.command, encode_build_of_accepts hr hoperands, hop, commandWord_fields]
  · rw [Row.command, wf_build hr, hoperands.imm, Bool.or_true]

theorem decode_eq_ok_iff_encode {c : BitVec 32} {i : Instr} : decode c = .ok i ↔ encode i = c ∧ i.wf = true :=
  ⟨encode_of_decode_ok, fun ⟨hword, hwf⟩ => hword ▸ decode_encode hwf⟩

/-- The illegal words by the rule's (a), (b) and (c): with one row of each opcode byte, they say that no row fits. -/
theorem not_matches_iff {c : BitVec 32} : (∀ r ∈ rows, ¬ r.Matches c) ↔
    (∀ r ∈ rows, r.op ≠ fieldOp c) ∨
    ∃ r ∈ rows, r.op = fieldOp c ∧ ¬ r.Accepts (fieldRd c) (fieldRs1 c) (fieldRs2 c) (fieldImm c) := by
  constructor
  · intro h
    by_cases hop : ∃ r ∈ rows, r.op = fieldOp c
    · obtain ⟨r, hr, hop⟩ := hop
      exact .inr ⟨r, hr, hop, fun hoperands => h r hr ⟨hop, hoperands⟩⟩
    · exact .inl fun r hr hc => hop ⟨r, hr, hc⟩
  · rintro (h | ⟨q, hq, hop, hnot⟩) r hr ⟨hr_op, hoperands⟩
    · exact h r hr hr_op
    · exact hnot (row_eq_of_op_eq hr hq (hr_op.trans hop.symm) ▸ hoperands)

/-- Settles O2: each of its descriptions of an illegal word says that no row `Matches` the word. -/
theorem oneMeaningPerWord : Obligations.OneMeaningPerWord := by
  unfold Obligations.OneMeaningPerWord
  simp only [← Row.not_accepts_iff, Row.and_mask_eq_pattern_iff, ne_eq]
  exact ⟨fun c i => encode_of_decode_ok, rfl, by decide, fun c => exists_decode_error_iff.trans not_matches_iff,
    fun c => exists_decode_error_iff, fun r _ q _ c hr hq => hr.op.trans hq.op.symm,
    fun c e s h => Machine.execWord_of_decode_error h s, by decide, ⟨.reservedOpcode, by decide⟩⟩

/-- Settles O3: each legal word is the word of its command (O1, O2), and R89 refuses the illegal ones. -/
theorem workedEncodings : Obligations.WorkedEncodings := by
  unfold Obligations.WorkedEncodings
  simp only [decode_eq_ok_iff_encode]
  decide

end Sys2Proof
end

section
/-! SUPPORT. The CSR map (R24): what SYS.CSRR reads (R104) and what SYS.CSRW writes (R105). O7 follows. -/

namespace Sys2Proof.Machine

/-! ### Packed values, as the sum of their fields -/

/-- A field shifted to bit `k` stands above a value of `k` bits. -/
theorem ofNat_or_shiftLeft {v k : Nat} (h : v < 2 ^ k) (w : Nat) :
    BitVec.ofNat 64 v ||| BitVec.ofNat 64 w <<< k = BitVec.ofNat 64 (v + 2 ^ k * w) := by
  have hshift : BitVec.ofNat 64 w <<< k = BitVec.ofNat 64 (2 ^ k * w) := by
    apply BitVec.eq_of_toNat_eq
    simp [Nat.shiftLeft_eq, Nat.mul_comm]
  rw [hshift, Nat.add_comm, Nat.two_pow_add_eq_or_of_lt h, Nat.or_comm, BitVec.ofNat_or]

theorem flagAt_eq_shiftLeft (b : Bool) (k : Nat) : flagAt b k = BitVec.ofNat 64 (if b then 1 else 0) <<< k := by
  cases b <;> simp [flagAt]

theorem bit_lt_two (b : Bool) : (if b then 1 else 0) < 2 := by
  cases b <;> decide

theorem flagAt_zero (b : Bool) : flagAt b 0 = if b then 1 else 0 := rfl

theorem setWidth_ofNat (v n : Nat) : (BitVec.ofNat v n).setWidth 64 = BitVec.ofNat 64 (n % 2 ^ v) := by
  rw [← BitVec.ofNat_toNat, BitVec.toNat_ofNat]

/-- `CSR[LOCK]` (R33). -/
theorem csrLock_eq (s : State) : s.csrLock = BitVec.ofNat 64
    (s.lock.depth.toNat + 256 * s.lock.owner.toNat + 65536 * (if s.lock.held then 1 else 0)) := by
  have hdepth := s.lock.depth.isLt
  have howner := s.lock.owner.isLt
  simp only [State.csrLock, flagAt_eq_shiftLeft, ← BitVec.ofNat_toNat]
  rw [ofNat_or_shiftLeft hdepth, ofNat_or_shiftLeft (by omega)]
  rfl

/-- `CSR[PG_INFO]` (R34, R38). -/
theorem csrPgInfo_eq (s : State) : s.csrPgInfo = BitVec.ofNat 64
    ((if s.page.valid then 1 else 0) + 2 * (if s.page.resync then 1 else 0) + 4 * (if s.page.lastCont then 1 else 0) +
      8 * (if s.page.isNew then 1 else 0) + 16 * (if s.dead then 1 else 0)) := by
  have hvalid := bit_lt_two s.page.valid
  have hresync := bit_lt_two s.page.resync
  have hlastCont := bit_lt_two s.page.lastCont
  have hisNew := bit_lt_two s.page.isNew
  simp only [State.csrPgInfo, flagAt_eq_shiftLeft, BitVec.shiftLeft_zero]
  rw [ofNat_or_shiftLeft (by omega), ofNat_or_shiftLeft (by omega), ofNat_or_shiftLeft (by omega),
    ofNat_or_shiftLeft (by omega)]
  rfl

/-! ### Reading the map -/

/-- The CSR map read in `s`: the numbers with their values. -/
def State.csrMap (s : State) : List (Nat × Word) := csrRows.map fun r => (r.number, r.read s)

/-- No two rows share a number, so the first row found is `r`. -/
theorem csrRead_eq_some {r : CsrRow} (hr : r ∈ csrRows) (s : State) : s.csrRead r.number = some (r.read s) := by
  fin_cases hr <;> rfl

theorem csrRead_eq_none {n : Nat} (h : ∀ r ∈ csrRows, n ≠ r.number) (s : State) : s.csrRead n = none := by
  have hfind : csrRows.find? (fun r => r.number == n) = none :=
    List.find?_eq_none.2 fun r hr => by simpa using (h r hr).symm
  rw [State.csrRead, hfind]

theorem exec_sysCsrr (s : State) (rd : Reg) (csr : Imm) :
    (∀ p ∈ s.csrMap, csr.toNat = p.1 → exec (.sysCsrr rd csr) s = .next ((s.setX rd p.2).ended 0)) ∧
    ((∀ p ∈ s.csrMap, csr.toNat ≠ p.1) → exec (.sysCsrr rd csr) s = .next (s.faulted 17)) := by
  simp only [State.csrMap, List.forall_mem_map]
  constructor
  · intro r hr hcsr
    simp only [exec, execSysCsrr, hcsr, csrRead_eq_some hr]
    rfl
  · intro h
    simp only [exec, execSysCsrr, csrRead_eq_none h]
    rfl

/-! ### The writable CSRs -/

theorem exec_sysCsrw_of_not_writable {csr : Imm} (hflags : csr ≠ 0x002) (hcrc : csr ≠ 0x010) (hwaste : csr ≠ 0x032)
    (rs1 : Reg) (s : State) : exec (.sysCsrw rs1 csr) s = .next (s.faulted 17) := by
  rw [← BitVec.toNat_ne_iff_ne] at hflags hcrc hwaste
  exact (if_neg hflags).trans <| (if_neg hcrc).trans (if_neg hwaste)

/-- Settles O7: with the packed values folded back, the rule's list is the CSR map read in `s` (`exec_sysCsrr`). -/
theorem controlRegisters : Obligations.ControlRegisters := by
  unfold Obligations.ControlRegisters
  refine ⟨fun s rd csr => ?read, fun s rs1 csr => ⟨?flags, ?crcAcc, ?waste, ?readOnly⟩⟩
  case read =>
    simp only [← csrLock_eq, ← csrPgInfo_eq, ← flagAt_zero, ← setWidth_ofNat]
    exact exec_sysCsrr s rd csr
  case flags => rintro rfl; rfl
  case crcAcc => rintro rfl; rfl
  case waste => rintro rfl; rfl
  case readOnly => exact fun hflags hcrc hwaste => exec_sysCsrw_of_not_writable hflags hcrc hwaste rs1 s

end Sys2Proof.Machine
end

section
/-! SUPPORT. The checksum (R110 to R118). The byte step through the table is the shift register run for eight turns, and a
turn is linear over GF(2) with trivial kernel, since CRC_POLY has its constant term. O10 and O9 follow. -/

namespace Sys2Proof.Machine

theorem xor_xor_xor_comm (a b c d : Word32) : (a ^^^ b) ^^^ (c ^^^ d) = (a ^^^ c) ^^^ (b ^^^ d) := by ac_rfl

/-! ### One turn of the shift register -/

theorem crcShift_eq_xor (r : Word32) : crcShift r = r <<< 1 ^^^ if r.msb then Config.crcPoly else 0 := by
  unfold crcShift
  split <;> simp

theorem crcShift_of_msb_false {r : Word32} (h : r.msb = false) : crcShift r = r <<< 1 := by
  simp [crcShift_eq_xor, h]

theorem crcShift_xor (r q : Word32) : crcShift (r ^^^ q) = crcShift r ^^^ crcShift q := by
  have hpoly : ∀ a b : Bool, (if a ^^ b then Config.crcPoly else 0) =
      (if a then Config.crcPoly else 0) ^^^ if b then Config.crcPoly else 0 := by decide
  rw [crcShift_eq_xor, BitVec.msb_xor, hpoly, BitVec.shiftLeft_xor_distrib, xor_xor_xor_comm,
    ← crcShift_eq_xor, ← crcShift_eq_xor]

/-- The bit shifted out leaves a one in the lowest place, where CRC_POLY has its constant term. -/
theorem crcShift_getLsbD_zero (r : Word32) : (crcShift r).getLsbD 0 = r.msb := by
  cases h : r.msb <;> simp [crcShift, h, Config.crcPoly]

theorem eq_zero_of_crcShift_eq_zero {r : Word32} (h : crcShift r = 0) : r = 0 := by
  have hmsb : r.msb = false := by rw [← crcShift_getLsbD_zero, h]; rfl
  rw [crcShift_of_msb_false hmsb] at h
  rw [BitVec.msb_eq_false_iff_two_mul_lt] at hmsb
  bv_omega

theorem crcShift_injective : Function.Injective crcShift := fun r q h => by
  rw [← BitVec.xor_eq_zero_iff] at h ⊢
  rw [← crcShift_xor] at h
  exact eq_zero_of_crcShift_eq_zero h

/-! ### Several turns -/

theorem crcShifts_eq_iterate (n : Nat) : crcShifts n = crcShift^[n] := by
  induction n with
  | zero => rfl
  | succ n ih => funext r; rw [crcShifts, ih, Function.iterate_succ_apply]

theorem crcShifts_xor (n : Nat) (r q : Word32) : crcShifts n (r ^^^ q) = crcShifts n r ^^^ crcShifts n q := by
  induction n generalizing r q with
  | zero => rfl
  | succ n ih => simp only [crcShifts, crcShift_xor, ih]

theorem crcShifts_injective (n : Nat) : Function.Injective (crcShifts n) :=
  crcShifts_eq_iterate n ▸ crcShift_injective.iterate n

/-- While the top bits are clear the turns only shift. -/
theorem crcShifts_of_lt {n : Nat} {r : Word32} (hn : n ≤ 32) (h : r.toNat < 2 ^ (32 - n)) : crcShifts n r = r <<< n := by
  induction n generalizing r with
  | zero => simp [crcShifts]
  | succ n ih =>
    have hpow : 2 ^ (32 - n) = 2 * 2 ^ (32 - (n + 1)) := by rw [← Nat.pow_succ']; congr 1; omega
    have hhalf : 2 ^ (32 - (n + 1)) ≤ 2 ^ 31 := Nat.pow_le_pow_right (by decide) (by omega)
    have hmsb : r.msb = false := by rw [BitVec.msb_eq_false_iff_two_mul_lt]; omega
    have hshift : (r <<< 1).toNat < 2 ^ (32 - n) := by
      rw [BitVec.toNat_shiftLeft, Nat.shiftLeft_eq]
      omega
    rw [crcShifts, crcShift_of_msb_false hmsb, ih (by omega) hshift, ← BitVec.shiftLeft_add, Nat.add_comm]

/-! ### The byte step -/

theorem crcTable_xor (a b : Byte) : crcTable (a ^^^ b) = crcTable a ^^^ crcTable b := by
  simp only [crcTable, BitVec.setWidth_xor, BitVec.shiftLeft_xor_distrib, crcShifts_xor]

/-- A remainder is its low three bytes and its top byte. -/
theorem low_xor_top (r : Word32) : (r <<< 8) >>> 8 ^^^ ((r >>> 24).setWidth 8).setWidth 32 <<< 24 = r := by
  ext i hi
  by_cases h : i < 24
  · simp [h, show 8 + i < 32 by omega]
  · simp [h, BitVec.getLsbD_eq_getElem hi, show ¬ 8 + i < 32 by omega, show i - 24 < 8 by omega,
      show 24 + (i - 24) = i by omega]

theorem shiftLeft_shiftRight_shiftLeft (r : Word32) : (r <<< 8) >>> 8 <<< 8 = r <<< 8 := by
  apply BitVec.eq_of_toNat_eq
  simp only [BitVec.toNat_shiftLeft, BitVec.toNat_ushiftRight, Nat.shiftLeft_eq, Nat.shiftRight_eq_div_pow]
  omega

/-- R112's loop over a whole remainder: the low bytes only move up, and the table answers for the top byte. -/
theorem crcShifts_eight (r : Word32) : crcShifts 8 r = r <<< 8 ^^^ crcTable ((r >>> 24).setWidth 8) := by
  have hlow : ((r <<< 8) >>> 8).toNat < 2 ^ (32 - 8) := by
    rw [BitVec.toNat_ushiftRight, Nat.shiftRight_eq_div_pow]
    omega
  calc crcShifts 8 r = crcShifts 8 ((r <<< 8) >>> 8 ^^^ ((r >>> 24).setWidth 8).setWidth 32 <<< 24) := by rw [low_xor_top]
    _ = r <<< 8 ^^^ crcTable ((r >>> 24).setWidth 8) := by
      rw [crcShifts_xor, crcShifts_of_lt (by decide) hlow, shiftLeft_shiftRight_shiftLeft, crcTable]

/-- R111's line with R112's table: the byte joins the top of the remainder, and the register turns eight times. -/
theorem crcStep_eq_crcShifts (r : Word32) (b : Byte) : crcStep r b = crcShifts 8 (r ^^^ b.setWidth 32 <<< 24) := by
  rw [crcStep, crcTable_xor, crcShifts_xor, crcShifts_eight, ← crcTable, BitVec.xor_comm (crcTable b), BitVec.xor_assoc]

theorem crcStep_xor (r q : Word32) (a b : Byte) : crcStep (r ^^^ q) (a ^^^ b) = crcStep r a ^^^ crcStep q b := by
  simp only [crcStep_eq_crcShifts]
  rw [BitVec.setWidth_xor, BitVec.shiftLeft_xor_distrib, xor_xor_xor_comm, crcShifts_xor]

theorem crcStep_left_injective (b : Byte) : Function.Injective fun r => crcStep r b := fun r q h => by
  simp only [crcStep_eq_crcShifts] at h
  exact BitVec.xor_left_inj _ |>.1 (crcShifts_injective 8 h)

theorem crcStep_right_injective (r : Word32) : Function.Injective (crcStep r) := fun a b h => by
  simp only [crcStep_eq_crcShifts] at h
  have hbyte := (BitVec.xor_right_inj _).1 (crcShifts_injective 8 h)
  bv_omega

/-! ### Messages -/

theorem crcBytes_cons (r : Word32) (b : Byte) (bs : List Byte) : crcBytes r (b :: bs) = crcBytes (crcStep r b) bs := rfl

theorem crcBytes_zipWith_xor {m n : List Byte} (h : m.length = n.length) (r q : Word32) :
    crcBytes (r ^^^ q) (List.zipWith (· ^^^ ·) m n) = crcBytes r m ^^^ crcBytes q n := by
  induction m generalizing n r q with
  | nil =>
    obtain rfl := List.length_eq_zero_iff.1 h.symm
    rfl
  | cons a m ih =>
    cases n with
    | nil => cases h
    | cons b n => rw [List.zipWith_cons_cons, crcBytes_cons, crcStep_xor, ih (Nat.succ.inj h), crcBytes_cons, crcBytes_cons]

theorem crcBytes_left_injective (bs : List Byte) : Function.Injective fun r => crcBytes r bs := by
  induction bs with
  | nil => exact Function.injective_id
  | cons b bs ih => exact ih.comp (crcStep_left_injective b)

/-- A message with one byte changed leaves another remainder: the changed byte tells the remainders apart, and no later
byte brings them together. -/
theorem crcBytes_set_ne {m : List Byte} {k : Nat} {a b : Byte} (hb : m[k]? = some b) (hab : a ≠ b) (r : Word32) :
    crcBytes r (m.set k a) ≠ crcBytes r m := by
  induction m generalizing k r with
  | nil => simp at hb
  | cons c m ih =>
    cases k with
    | zero =>
      obtain rfl : c = b := by simpa using hb
      exact (crcBytes_left_injective m).ne ((crcStep_right_injective r).ne hab)
    | succ k => exact ih hb (crcStep r c)

theorem flip_ne {j : Nat} (hj : j < 8) (b : Byte) : b ^^^ (1 <<< j) ≠ b := fun h => by
  have hmask : ((1 <<< j : Nat) : Byte) = 0 := by simpa using h
  have hvalue := congrArg BitVec.toNat hmask
  rw [BitVec.natCast_eq_ofNat, BitVec.toNat_ofNat, Nat.one_shiftLeft,
    Nat.mod_eq_of_lt (Nat.pow_lt_pow_right (by decide) hj)] at hvalue
  exact (Nat.two_pow_pos j).ne' hvalue

/-- Settles O10: the parts are `crcStep_xor`, `crcBytes_zipWith_xor` from two zero seeds, and `crcBytes_set_ne`. -/
theorem crcProperties : Obligations.CrcProperties := by
  unfold Obligations.CrcProperties
  exact ⟨crcStep_xor, fun m n h => crcBytes_zipWith_xor h 0 0,
    fun r m k j b hb hj => crcBytes_set_ne hb (flip_ne hj b) r, by decide +kernel⟩

/-! ### The commands -/

theorem map_range_getD {α : Type} {l : List α} {p n : Nat} (h : p + n ≤ l.length) (d : α) :
    (List.range n).map (fun i => l.getD (p + i) d) = (l.drop p).take n := by
  apply List.ext_getElem
  · rw [List.length_map, List.length_range, List.length_take, List.length_drop]
    omega
  · intro i hi _
    rw [List.length_map, List.length_range] at hi
    simp [show p + i < l.length by omega]

theorem exec_crcSrc_of_lt {s : State} {rs1 rs2 : Reg} (h : s.src.length < (s.x rs1).toNat + (s.x rs2).toNat) :
    exec (.crcSrc rs1 rs2) s = .next (s.faulted 25) := if_pos h

theorem exec_crcSrc_of_le {s : State} {rs1 rs2 : Reg} (h : (s.x rs1).toNat + (s.x rs2).toNat ≤ s.src.length) :
    exec (.crcSrc rs1 rs2) s = .next (State.ended
      { s with crcAcc := crcBytes s.crcAcc ((s.src.drop (s.x rs1).toNat).take (s.x rs2).toNat) } 0) :=
  if_neg h.not_gt

/-- Settles O9: the loop of R112 is `crcShift` iterated, and CRC.SRC folds the bytes that R115 lists. -/
theorem crcCommands : Obligations.CrcCommands := by
  unfold Obligations.CrcCommands
  refine ⟨fun _ _ => rfl, fun b => ?table, List.forall_iff_forall_mem.1 (by decide),
    fun s rd rs1 rs2 imm => ⟨rfl, rfl, exec_crcSrc_of_lt, fun hin => ?src, rfl⟩⟩
  case table => rw [crcTable, crcShifts_eq_iterate]; rfl
  case src => rw [exec_crcSrc_of_le hin, map_range_getD hin]; rfl

end Sys2Proof.Machine
end

section
/-! SUPPORT. The page test (R145): little-endian reads and sums of bytes through single bytes, then `pageAt` test by test.
O17 follows. -/

namespace Sys2Proof.Machine

/-! ### Reads of a byte string, byte by byte, with zeros after its end -/

theorem leValue_take (bs : List Byte) (n : Nat) :
    leValue (bs.take n) = ∑ i ∈ Finset.range n, (bs.getD i 0).toNat * 256 ^ i := by
  induction n generalizing bs with
  | zero => rfl
  | succ n ih =>
    rw [Finset.sum_range_succ']
    cases bs with
    | nil => simp [leValue]
    | cons b bs =>
      simp only [List.take_succ_cons, leValue, ih, Finset.mul_sum, List.getD_cons_succ, List.getD_cons_zero, Nat.pow_succ]
      rw [Nat.add_comm, Nat.pow_zero, Nat.mul_one]
      congr 1
      exact Finset.sum_congr rfl fun i _ => by ring

theorem leRead_eq_sum (bs : List Byte) (p n : Nat) :
    leRead bs p n = ∑ i ∈ Finset.range n, (bs.getD (p + i) 0).toNat * 256 ^ i := by
  rw [leRead, leValue_take]
  simp

theorem leRead_one (bs : List Byte) (p : Nat) : leRead bs p 1 = (bs.getD p 0).toNat := by
  simp [leRead_eq_sum]

theorem sum_map_toNat_take (bs : List Byte) (n : Nat) :
    ((bs.take n).map BitVec.toNat).sum = ∑ i ∈ Finset.range n, (bs.getD i 0).toNat := by
  induction n generalizing bs with
  | zero => rfl
  | succ n ih =>
    rw [Finset.sum_range_succ']
    cases bs with
    | nil => simp
    | cons b bs =>
      rw [List.take_succ_cons, List.map_cons, List.sum_cons, ih, Nat.add_comm]
      rfl

theorem payLenOf_eq_sum (rest : List Byte) :
    payLenOf rest = ∑ i ∈ Finset.range (leRead rest 26 1), (rest.getD (27 + i) 0).toNat := by
  rw [payLenOf, laceOf, sum_map_toNat_take]
  simp

theorem begins_with_capturePattern_iff {rest : List Byte} : 4 ≤ rest.length ∧ rest.take 4 = capturePattern ↔
    4 ≤ rest.length ∧ (rest.getD 0 0).toNat = 0x4F ∧ (rest.getD 1 0).toNat = 0x67 ∧
      (rest.getD 2 0).toNat = 0x67 ∧ (rest.getD 3 0).toNat = 0x53 := by
  refine and_congr_right fun h => ?_
  match rest, h with
  | a :: b :: c :: d :: rest, _ => simp [capturePattern, ← BitVec.toNat_inj]

/-- The checksum's image, byte by byte (R117). -/
theorem pageCrc_take {rest : List Byte} {n : Nat} (h : n ≤ rest.length) :
    pageCrc (rest.take n) =
      ((List.range n).map fun i => if 22 ≤ i ∧ i ≤ 25 then 0 else rest.getD i 0).foldl crcStep 0 := by
  rw [pageCrc, crcBytes]
  congr 1
  apply List.ext_getElem
  · simpa using h
  · intro i _ hi
    rw [List.length_map, List.length_range] at hi
    simp [show i < rest.length by omega]

theorem inside_with_pageCrc_iff {rest : List Byte} {n v : Nat} :
    n ≤ rest.length ∧ (pageCrc (rest.take n)).toNat = v ↔
    n ≤ rest.length ∧
      (((List.range n).map fun i => if 22 ≤ i ∧ i ≤ 25 then 0 else rest.getD i 0).foldl crcStep 0).toNat = v :=
  and_congr_right fun h => by rw [pageCrc_take h]

/-! ### The tests of `pageAt` -/

theorem pageAt_iff (rest : List Byte) : pageAt rest = true ↔
    (4 ≤ rest.length ∧ rest.take 4 = capturePattern) ∧ 27 ≤ rest.length ∧ leRead rest 4 1 = 0 ∧
    27 + leRead rest 26 1 ≤ rest.length ∧ totalOf rest ≤ rest.length ∧
    (pageCrc (rest.take (totalOf rest))).toNat = leRead rest 22 4 := by
  unfold pageAt
  split_ifs <;> simp_all

/-- Settles O17: R145's tests (`pageAt_iff`), each read byte by byte. -/
theorem pageTest : Obligations.PageTest := by
  unfold Obligations.PageTest
  intro src p byte nseg payLen total
  have hbyte (i : Nat) : (src.drop p).getD i 0 = src.getD (p + i) 0 := by simp
  have hlen (n : Nat) (hn : 0 < n) : n ≤ (src.drop p).length ↔ p + n ≤ src.length := by
    rw [List.length_drop]
    omega
  have hnseg : leRead (src.drop p) 26 1 = nseg := by rw [leRead_one, hbyte]
  have htotal : totalOf (src.drop p) = total := by
    rw [totalOf, payLenOf_eq_sum, hnseg]
    simp only [hbyte]
    rfl
  rw [pageAt_iff, begins_with_capturePattern_iff, htotal, inside_with_pageCrc_iff, hnseg, leRead_one, leRead_eq_sum,
    hlen 4 (by decide), hlen 27 (by decide), hlen (27 + nseg) (by omega), hlen total (by omega), ← Nat.add_assoc p 27]
  simp only [hbyte, and_assoc]
  rfl

end Sys2Proof.Machine
end

section
/-! SUPPORT. The bit stream of the bound ranges (R65, R120, R121): its length, what binding one more range does, and the bits
of a read. O11 follows. -/

namespace Sys2Proof.Machine

/-! ### The bytes of the bound ranges -/

theorem length_take_drop {α : Type} {l : List α} {p n : Nat} (h : p + n ≤ l.length) :
    ((l.drop p).take n).length = n := by
  rw [List.length_take, List.length_drop]
  omega

theorem length_bcData {s : State} (h : s.RangesInside) : 8 * s.bcData.length = s.bcTotal := by
  rw [State.bcData, List.length_flatMap, State.bcTotal,
    List.map_congr_left fun r hr => length_take_drop (h.inside r hr)]

section Bind

variable {s t : State} {r : Range} (hbound : t.bc.ranges = s.bc.ranges ++ [r])
include hbound

theorem bcTotal_of_bound : t.bcTotal = s.bcTotal + 8 * r.len.toNat := by
  rw [State.bcTotal, State.bcTotal, hbound, List.map_append, List.sum_append, Nat.mul_add]
  rfl

theorem bcData_of_bound (hsrc : t.src = s.src) :
    t.bcData = s.bcData ++ (s.src.drop r.off.toNat).take r.len.toNat := by
  rw [State.bcData, State.bcData, hbound, hsrc, List.flatMap_append, List.flatMap_singleton]

end Bind

theorem getElem?_take_drop {α : Type} (l : List α) (p : Nat) {n i : Nat} (hi : i < n) :
    ((l.drop p).take n)[i]? = l[p + i]? := by
  rw [List.getElem?_take_of_lt hi, List.getElem?_drop]

/-! ### Bits -/

theorem bitAt_of_getElem? {bs : List Byte} {k : Nat} {b : Byte} (h : bs[k / 8]? = some b) :
    bitAt bs k = (b.toNat / 2 ^ (k % 8)) % 2 := by
  rw [bitAt, List.getD_eq_getElem?_getD, h, Nat.shiftRight_eq_div_pow]
  rfl

theorem bitsAt_eq_sum (bs : List Byte) (q n : Nat) :
    bitsAt bs q n = ∑ i ∈ Finset.range n, bitAt bs (q + i) * 2 ^ i := by
  induction n generalizing q with
  | zero => rfl
  | succ n ih =>
    have hrest : ∀ i, bitAt bs (q + (i + 1)) * 2 ^ (i + 1) = 2 * (bitAt bs (q + 1 + i) * 2 ^ i) := fun i => by
      rw [show q + (i + 1) = q + 1 + i by omega, Nat.pow_succ]
      ring
    rw [bitsAt, ih, Finset.sum_range_succ', Finset.sum_congr rfl fun i _ => hrest i, ← Finset.mul_sum]
    simp [Nat.add_comm]

theorem bitsAt_add (bs : List Byte) (q m n : Nat) :
    bitsAt bs q (m + n) = bitsAt bs q m + 2 ^ m * bitsAt bs (q + m) n := by
  induction m generalizing q with
  | zero => simp [bitsAt]
  | succ m ih =>
    rw [Nat.add_right_comm, bitsAt, bitsAt, ih, Nat.pow_succ, show q + 1 + m = q + (m + 1) by omega]
    ring

/-- Settles O11: the packet is a concatenation (`bcData_of_bound`), and a read is a sum over its bits (`bitsAt_eq_sum`) that
splits at every place (`bitsAt_add`). -/
theorem bitStream : Obligations.BitStream := by
  unfold Obligations.BitStream
  exact ⟨fun _ => length_bcData,
    fun s r hin => ⟨_, bcData_of_bound rfl rfl, length_take_drop hin, fun i => getElem?_take_drop s.src r.off.toNat⟩,
    fun _ _ _ => bitAt_of_getElem?, bitsAt_eq_sum, bitsAt_add⟩

end Sys2Proof.Machine
end

section
/-! SUPPORT. The bit-cursor commands (R122 to R132): each arm of their meanings as one equation, and a read as a peek whose
bits are then consumed. O12, O13 and O49 follow. -/

namespace Sys2Proof.Machine

/-! ### Binding a range (R125) -/

section Bind

variable {s : State} {rs1 rs2 : Reg}

theorem exec_bcAddr_of_full (hfull : s.bc.ranges.length = s.par.maxRanges) :
    exec (.bcAddr rs1 rs2) s = .next (s.faulted 17) := if_pos hfull

variable (hroom : s.bc.ranges.length ≠ s.par.maxRanges)
include hroom

theorem exec_bcAddr_of_outside (hout : s.src.length < (s.x rs1).toNat + (s.x rs2).toNat) :
    exec (.bcAddr rs1 rs2) s = .next (s.faulted 25) := (if_neg hroom).trans (if_pos hout)

variable (hin : (s.x rs1).toNat + (s.x rs2).toNat ≤ s.src.length)
include hin

theorem exec_bcAddr_of_too_long (hlong : 2 ^ 64 ≤ s.bcTotal + 8 * (s.x rs2).toNat) :
    exec (.bcAddr rs1 rs2) s = .refused .bitTotal :=
  (if_neg hroom).trans <| (if_neg hin.not_gt).trans (if_pos hlong)

theorem exec_bcAddr_of_fits (hfits : s.bcTotal + 8 * (s.x rs2).toNat < 2 ^ 64) :
    exec (.bcAddr rs1 rs2) s = .next (State.ended
      { s with bc := { s.bc with ranges := s.bc.ranges ++ [{ off := s.x rs1, len := s.x rs2 }] } } 0) :=
  (if_neg hroom).trans <| (if_neg hin.not_gt).trans (if_neg hfits.not_ge)

end Bind

/-- Settles O12: the four ends of BC.ADDR in the order of R125, and the total of one range more (`bcTotal_of_bound`). -/
theorem bitCursorBinding : Obligations.BitCursorBinding := by
  unfold Obligations.BitCursorBinding
  intro s rs1 rs2 off len
  refine ⟨rfl, rfl, exec_bcAddr_of_full, fun hroom => ⟨exec_bcAddr_of_outside hroom, fun hin =>
    ⟨exec_bcAddr_of_too_long hroom hin, fun hfits => ⟨exec_bcAddr_of_fits hroom hin hfits, ?total⟩⟩⟩⟩
  exact bcTotal_of_bound (r := { off := s.x rs1, len := s.x rs2 }) rfl

/-! ### Consuming bits (R123, R128) -/

theorem bcSkip_of_le {s : State} {n : Nat} (h : n ≤ s.bcAvail) :
    s.bcSkip n = ({ s with bc := { s.bc with pos := BitVec.ofNat 64 (s.bc.pos.toNat + n) } }, true) := if_pos h

theorem bcSkip_of_lt {s : State} {n : Nat} (h : s.bcAvail < n) :
    s.bcSkip n = ({ s with
      bc := { s.bc with pos := BitVec.ofNat 64 s.bcTotal, short := true }, flags := s.flags ||| 0x01 }, false) :=
  if_neg h.not_ge

/-- Writing a result before the bits are consumed is writing it after. -/
theorem bcSkip_setX (s : State) (rd : Reg) (v : Word) (n : Nat) :
    (s.setX rd v).bcSkip n = ((s.bcSkip n).1.setX rd v, (s.bcSkip n).2) := by
  by_cases hrd : rd = 0
  · simp only [State.setX, if_pos hrd]
  · simp only [State.setX, if_neg hrd]
    by_cases hn : n ≤ s.bcAvail
    · rw [bcSkip_of_le hn]
      exact bcSkip_of_le hn
    · rw [bcSkip_of_lt (Nat.not_le.1 hn)]
      exact bcSkip_of_lt (Nat.not_le.1 hn)

section Consume

variable {s : State} {n : Nat}

theorem endRead_bcSkip_of_le (h : n ≤ s.bcAvail) : endRead (s.bcSkip n) = .next (State.ended
    { s with bc := { s.bc with pos := BitVec.ofNat 64 (s.bc.pos.toNat + n) } } 0) := by
  rw [bcSkip_of_le h]
  rfl

theorem endRead_bcSkip_of_lt (h : s.bcAvail < n) : endRead (s.bcSkip n) = .next (State.ended
    { s with bc := { s.bc with pos := BitVec.ofNat 64 s.bcTotal, short := true }, flags := s.flags ||| 0x01 } 2) := by
  rw [bcSkip_of_lt h]
  rfl

theorem endRead_read_of_le (h : n ≤ s.bcAvail) (rd : Reg) (v : Word) :
    endRead (((s.bcPeek n).1.setX rd v).bcSkip n) = .next (State.ended (State.setX
      { s with bc := { s.bc with
        pos := BitVec.ofNat 64 (s.bc.pos.toNat + n), cnt := BitVec.ofNat 7 (min n s.bcAvail) } } rd v) 0) := by
  rw [bcSkip_setX, bcSkip_of_le (s := (s.bcPeek n).1) h]
  rfl

theorem endRead_read_of_lt (h : s.bcAvail < n) (rd : Reg) (v : Word) :
    endRead (((s.bcPeek n).1.setX rd v).bcSkip n) = .next (State.ended (State.setX
      { s with
        bc := { s.bc with
          pos := BitVec.ofNat 64 s.bcTotal, short := true, cnt := BitVec.ofNat 7 (min n s.bcAvail) }
        flags := s.flags ||| 0x01 } rd v) 2) := by
  rw [bcSkip_setX, bcSkip_of_lt (s := (s.bcPeek n).1) h]
  rfl

end Consume

/-! ### BC.PEEK and BC.READ (R127, R129) -/

section Count

variable {s : State} {rs1 : Reg} {imm : Imm}

theorem exec_bcPeek_of_bad_count (h : s.offset rs1 imm < 1 ∨ 64 < s.offset rs1 imm) (rd : Reg) :
    exec (.bcPeek rd rs1 imm) s = .next (s.faulted 17) := if_pos h

theorem exec_bcRead_of_bad_count (h : s.offset rs1 imm < 1 ∨ 64 < s.offset rs1 imm) (rd : Reg) :
    exec (.bcRead rd rs1 imm) s = .next (s.faulted 17) := if_pos h

variable (h : ¬ (s.offset rs1 imm < 1 ∨ 64 < s.offset rs1 imm))
include h

theorem exec_bcPeek_of_count (rd : Reg) : exec (.bcPeek rd rs1 imm) s =
    .next (((s.bcPeek (s.offset rs1 imm)).1.setX rd
      (BitVec.ofNat 64 (s.bcPeek (s.offset rs1 imm)).2.1)).ended 0) := if_neg h

theorem exec_bcRead_of_count (rd : Reg) : exec (.bcRead rd rs1 imm) s =
    endRead (((s.bcPeek (s.offset rs1 imm)).1.setX rd
      (BitVec.ofNat 64 (s.bcPeek (s.offset rs1 imm)).2.1)).bcSkip (s.offset rs1 imm)) := if_neg h

end Count

/-- Settles O13: BC.READ and BC.RDVF are a peek whose bits are consumed, BC.SKIP consumes alone; each has its two ends, with
the bits there or with fewer. -/
theorem bitReads : Obligations.BitReads := by
  unfold Obligations.BitReads
  intro s rd rs1 imm n q avail value counted moved atEnd float
  refine ⟨fun hbad => ⟨exec_bcPeek_of_bad_count hbad rd, exec_bcRead_of_bad_count hbad rd⟩, fun hlo hhi => ?count,
    endRead_bcSkip_of_le, endRead_bcSkip_of_lt, fun h => endRead_read_of_le h rd float,
    fun h => endRead_read_of_lt h rd float⟩
  case count =>
    have hcount : ¬ (n < 1 ∨ 64 < n) := by omega
    exact ⟨exec_bcPeek_of_count hcount rd,
      fun h => (exec_bcRead_of_count hcount rd).trans (endRead_read_of_le h rd _),
      fun h => (exec_bcRead_of_count hcount rd).trans (endRead_read_of_lt h rd _)⟩

/-! ### The frame (R132) -/

/-- Settles O49: the bit cursor's parts of the footprint. -/
theorem bitCursorMovers : Obligations.BitCursorMovers := by
  unfold Obligations.BitCursorMovers
  intro i s t h
  have frame := exec_framed h
  exact ⟨frame.bits, frame.ranges, frame.count⟩

end Sys2Proof.Machine
end

section
/-! SUPPORT. The packed Vorbis float (R131): its fields, rounded by `F32.round`. O14 follows. -/

namespace Sys2Proof.Machine.F32

theorem ofVorbis_eq_round (u : Word32) : ofVorbis u =
    round (u.getLsbD 31) (u.toNat % 2 ^ 21) ((u.toNat / 2 ^ 21 % 2 ^ 10 : ℕ) - 788) := by
  rw [ofVorbis, BitVec.extractLsb'_toNat, BitVec.extractLsb'_toNat, Nat.shiftRight_zero, Nat.shiftRight_eq_div_pow]

/-- Settles O14: `round` rounds correctly (`isRounded_round`), and the zero of a sign is its sign bit. -/
theorem vorbisFloat : Obligations.VorbisFloat := by
  unfold Obligations.VorbisFloat
  refine ⟨?_, by decide⟩
  intro u m e v
  refine ⟨?rounded, fun hzero => ?zero⟩
  case rounded =>
    rw [ofVorbis_eq_round]
    exact isRounded_round (u.getLsbD 31) m (e - 788)
  case zero =>
    rw [ofVorbis_eq_round, show u.toNat % 2 ^ 21 = 0 from hzero, round_zero]
    rfl

end Sys2Proof.Machine.F32
end

section
/-! SUPPORT. The reader lock (R141, R154 to R156): who owns it, and what a command can do without owning it. O53 and O16
follow. -/

namespace Sys2Proof.Machine

theorem holdsLock_iff {s : State} {cid : BitVec 8} :
    s.holdsLock cid = true ↔ s.lock.held = true ∧ s.lock.owner = cid := by
  simp [State.holdsLock]

theorem holdsLock_eq_false_iff {s : State} {cid : BitVec 8} :
    s.holdsLock cid = false ↔ ¬ (s.lock.held = true ∧ s.lock.owner = cid) := by
  rw [← holdsLock_iff, Bool.not_eq_true]

/-! ### Commands that do not own the lock -/

/-- Beside SYS.RESET only the commands that carry a consumer number can touch what the lock protects. -/
theorem footprint_of_cid_eq_none {i : Instr} (hreset : i.isReset = false) (hcid : i.cid = none) :
    i.writesLock = false ∧ i.movesSource = false ∧ i.writesPage = false := by
  cases i with
  | sysReset => cases hreset
  | pfvLock | pfvRel | pfvSeek | pfvNext => cases hcid
  | _ => exact ⟨rfl, rfl, rfl⟩

/-- A command with the number of a consumer that does not own the held lock faults, or ends BUSY. -/
theorem exec_of_other_consumer {i : Instr} {s t : State} {cid : BitVec 8} (hheld : s.lock.held = true)
    (hi : i.cid = some cid) (hother : s.lock.owner ≠ cid) (h : exec i s = .next t) : Trapped s t ∨ t = s.ended 4 := by
  have hnot : ¬ s.holdsLock cid = true := fun hholds => hother (holdsLock_iff.1 hholds).2
  cases i with
  | pfvLock imm =>
    cases hi
    rcases pfvLock_next h with h | ⟨hfree, _⟩ | ⟨_, howner, _⟩ | ⟨_, _, h⟩
    · exact .inl h
    · rw [hheld] at hfree; cases hfree
    · exact absurd howner hother
    · exact .inr h
  | pfvRel imm => cases hi; exact .inl ((pfvRel_next h).resolve_right fun ⟨hholds, _⟩ => hnot hholds)
  | pfvSeek rs1 imm => cases hi; exact .inl ((pfvSeek_next h).resolve_right fun ⟨_, hholds, _⟩ => hnot hholds)
  | pfvNext rd imm => cases hi; exact .inl ((pfvNext_next h).resolve_right fun ⟨hholds, _⟩ => hnot hholds)
  | _ => cases hi

/-- Settles O53: a command with another consumer's number ends at once, and one with no number has no business with what
the lock protects. -/
theorem lockProtectsCursor : Obligations.LockProtectsCursor := by
  unfold Obligations.LockProtectsCursor
  intro i s t hheld hreset hcid h
  cases hi : i.cid with
  | none =>
    have frame := exec_framed h
    obtain ⟨hlock, hsource, hpage⟩ := footprint_of_cid_eq_none hreset hi
    obtain ⟨hpos, hdead⟩ := frame.source hsource
    exact ⟨frame.lock hlock, hpos, hdead, frame.page hpage⟩
  | some cid =>
    have hother : s.lock.owner ≠ cid := fun e => hcid (e ▸ hi)
    obtain ⟨c, rfl⟩ | rfl := exec_of_other_consumer hheld hi hother h
    · exact ⟨rfl, rfl, rfl, rfl, rfl⟩
    · exact ⟨rfl, rfl, rfl, rfl, rfl⟩

/-! ### PFV.LOCK, PFV.REL, PFV.SEEK -/

section Consumer

variable {s : State} {imm : Imm} {rs1 : Reg}

theorem exec_pfvLock_of_held (hheld : s.lock.held = true) : exec (.pfvLock imm) s =
    if s.lock.owner = imm.setWidth 8 then
      if s.lock.depth = 255 then .next (s.faulted 19)
      else .next (State.ended { s with lock := { s.lock with depth := s.lock.depth + 1 } } 0)
    else .next (s.ended 4) :=
  if_neg (by simp [hheld])

theorem exec_pfvRel_of_not_owner (h : ¬ (s.lock.held = true ∧ s.lock.owner = imm.setWidth 8)) :
    exec (.pfvRel imm) s = .next (s.faulted 19) := if_pos (holdsLock_eq_false_iff.2 h)

theorem exec_pfvRel_of_owner (h : s.lock.held = true ∧ s.lock.owner = imm.setWidth 8) : exec (.pfvRel imm) s =
    if s.lock.depth - 1 = 0 then .next (State.ended { s with lock := { held := false, owner := 0, depth := 0 } } 0)
    else .next (State.ended { s with lock := { s.lock with depth := s.lock.depth - 1 } } 0) :=
  if_neg fun hfalse => holdsLock_eq_false_iff.1 hfalse h

theorem exec_pfvSeek_of_lt (h : s.src.length < (s.x rs1).toNat) : exec (.pfvSeek rs1 imm) s = .next (s.faulted 25) :=
  if_pos h

theorem exec_pfvSeek_of_le (h : (s.x rs1).toNat ≤ s.src.length) : exec (.pfvSeek rs1 imm) s =
    if s.holdsLock (imm.setWidth 8) = false then .next (s.faulted 18)
    else .next (State.ended { s with srcPos := s.x rs1, dead := false } 0) :=
  if_neg h.not_gt

end Consumer

/-- Settles O16: each command's tests, in the order of its rule. -/
theorem lockAndSeek : Obligations.LockAndSeek := by
  unfold Obligations.LockAndSeek
  intro s imm rs1 cid
  have hdepth : s.lock.depth - 1 = 0 ↔ s.lock.depth = 1 := by bv_omega
  refine ⟨fun hfree => if_pos hfree, fun hheld howner hfull => ?full, fun hheld howner hdeep => ?again,
    fun hheld hother => ?busy, exec_pfvRel_of_not_owner, fun hheld howner hlast => ?free,
    fun hheld howner hdeep => ?release, exec_pfvSeek_of_lt, fun hin => ⟨fun hnot => ?noLock, fun hheld howner => ?seek⟩⟩
  case full => rw [exec_pfvLock_of_held hheld, if_pos howner, if_pos hfull]
  case again => rw [exec_pfvLock_of_held hheld, if_pos howner, if_neg hdeep]; rfl
  case busy => rw [exec_pfvLock_of_held hheld, if_neg hother]
  case free => rw [exec_pfvRel_of_owner ⟨hheld, howner⟩, if_pos (hdepth.2 hlast)]; rfl
  case release => rw [exec_pfvRel_of_owner ⟨hheld, howner⟩, if_neg (hdepth.not.2 hdeep)]; rfl
  case noLock => rw [exec_pfvSeek_of_le hin, if_pos (holdsLock_eq_false_iff.2 hnot)]
  case seek => rw [exec_pfvSeek_of_le hin, if_neg fun hfalse => holdsLock_eq_false_iff.1 hfalse ⟨hheld, howner⟩]; rfl

end Sys2Proof.Machine
end

section
/-! SUPPORT. The scan (R147 to R149): offsets that hold no page are passed one by one, and PFV.NEXT ends as its scan does. O18
and O19 follow. -/

namespace Sys2Proof.Machine

/-! ### The accepted page, field by field (R150) -/

@[simp] theorem acceptPage_waste (s : State) (p : Nat) :
    (s.acceptPage p).1.waste = s.waste + BitVec.ofNat 64 (p - s.srcPos.toNat) := by
  simp [State.acceptPage]
@[simp] theorem acceptPage_valid (s : State) (p : Nat) :
    (s.acceptPage p).1.page.valid = true := by
  simp [State.acceptPage]
@[simp] theorem acceptPage_resync (s : State) (p : Nat) :
    (s.acceptPage p).1.page.resync = (p != s.srcPos.toNat) := by
  simp [State.acceptPage]
@[simp] theorem acceptPage_lastCont (s : State) (p : Nat) :
    (s.acceptPage p).1.page.lastCont = ((laceOf (s.src.drop p)).getLast? == some 255) := by
  simp [State.acceptPage]
@[simp] theorem acceptPage_offset (s : State) (p : Nat) :
    (s.acceptPage p).1.page.offset = BitVec.ofNat 64 p := by
  simp [State.acceptPage]
@[simp] theorem acceptPage_pageFlags (s : State) (p : Nat) :
    (s.acceptPage p).1.page.flags = BitVec.ofNat 8 (leRead (s.src.drop p) 5 1) := by
  simp [State.acceptPage]
@[simp] theorem acceptPage_granule (s : State) (p : Nat) :
    (s.acceptPage p).1.page.granule = BitVec.ofNat 64 (leRead (s.src.drop p) 6 8) := by
  simp [State.acceptPage]
@[simp] theorem acceptPage_serial (s : State) (p : Nat) :
    (s.acceptPage p).1.page.serial = BitVec.ofNat 32 (leRead (s.src.drop p) 14 4) := by
  simp [State.acceptPage]
@[simp] theorem acceptPage_seq (s : State) (p : Nat) :
    (s.acceptPage p).1.page.seq = BitVec.ofNat 32 (leRead (s.src.drop p) 18 4) := by
  simp [State.acceptPage]
@[simp] theorem acceptPage_crc (s : State) (p : Nat) :
    (s.acceptPage p).1.page.crc = BitVec.ofNat 32 (leRead (s.src.drop p) 22 4) := by
  simp [State.acceptPage]
@[simp] theorem acceptPage_payOff (s : State) (p : Nat) :
    (s.acceptPage p).1.page.payOff = BitVec.ofNat 64 (p + 27 + (laceOf (s.src.drop p)).length) := by
  simp [State.acceptPage]
@[simp] theorem acceptPage_payLen (s : State) (p : Nat) :
    (s.acceptPage p).1.page.payLen = BitVec.ofNat 16 (payLenOf (s.src.drop p)) := by
  simp [State.acceptPage]

/-- Accepting a page writes the record, the registry, the cursor, the waste count and the flags alone. -/
theorem acceptPage_frame (s : State) (p : Nat) :
    { (s.acceptPage p).1 with
      waste := s.waste, flags := s.flags, srcPos := s.srcPos, page := s.page, streams := s.streams } = s := by
  unfold State.acceptPage State.setFlagIf
  dsimp only
  split <;> split <;> rfl

/-! ### The loop of R147 -/

theorem scanFrom_succ (fuel p : Nat) (rest : List Byte) : scanFrom (fuel + 1) p rest =
    if rest.length < 4 then .ended else if pageAt rest then .found p else scanFrom fuel (p + 1) (rest.drop 1) := by
  simp only [scanFrom, fewerThanFour_iff, List.drop_one]

/-- A scan passes the offsets that hold no page. -/
theorem scanFrom_skip {k : Nat} (fuel p : Nat) (rest : List Byte)
    (h : ∀ j, j < k → 4 ≤ (rest.drop j).length ∧ pageAt (rest.drop j) = false) :
    scanFrom (fuel + k) p rest = scanFrom fuel (p + k) (rest.drop k) := by
  induction k generalizing fuel with
  | zero => rfl
  | succ k ih =>
    obtain ⟨hfour, hnone⟩ := h k k.lt_succ_self
    have hbefore := ih (fuel + 1) fun j hj => h j (hj.trans k.lt_succ_self)
    rw [Nat.add_right_comm, Nat.add_assoc] at hbefore
    rw [hbefore, scanFrom_succ, if_neg hfour.not_gt, hnone, if_neg Bool.false_ne_true, List.drop_drop, Nat.add_assoc]

/-- Offset `SRC_POS + j` can be examined and holds no page (R147). -/
def State.EmptyAt (s : State) (j : Nat) : Prop :=
  s.srcPos.toNat + j + 4 ≤ s.src.length ∧ pageAt (s.src.drop (s.srcPos.toNat + j)) = false

section Scan

variable {s : State} {k : Nat} (hempty : ∀ j, j < k → s.EmptyAt j)
include hempty

theorem scan_skip {fuel : Nat} (hfuel : fuel + k = 65536) :
    s.scan = scanFrom fuel (s.srcPos.toNat + k) (s.src.drop (s.srcPos.toNat + k)) := by
  have hpass := scanFrom_skip fuel s.srcPos.toNat (s.src.drop s.srcPos.toNat) (k := k) fun j hj => by
    obtain ⟨hfour, hnone⟩ := hempty j hj
    rw [List.drop_drop]
    exact ⟨by rw [List.length_drop]; omega, hnone⟩
  rwa [hfuel, List.drop_drop] at hpass

theorem scan_eq_found (hk : k < 65536) (hpage : pageAt (s.src.drop (s.srcPos.toNat + k)) = true) :
    s.scan = .found (s.srcPos.toNat + k) := by
  obtain ⟨fuel, hfuel⟩ : ∃ fuel, fuel + 1 + k = 65536 := ⟨65535 - k, by omega⟩
  obtain ⟨⟨hfour, _⟩, _⟩ := (pageAt_iff _).1 hpage
  rw [scan_skip hempty hfuel, scanFrom_succ, if_neg hfour.not_gt, if_pos hpage]

theorem scan_eq_ended (hk : k < 65536) (hend : s.src.length < s.srcPos.toNat + k + 4) : s.scan = .ended := by
  obtain ⟨fuel, hfuel⟩ : ∃ fuel, fuel + 1 + k = 65536 := ⟨65535 - k, by omega⟩
  have hfew : (s.src.drop (s.srcPos.toNat + k)).length < 4 := by rw [List.length_drop]; omega
  rw [scan_skip hempty hfuel, scanFrom_succ, if_pos hfew]

theorem scan_eq_capped (hk : k = 65536) : s.scan = .capped (s.srcPos.toNat + k) :=
  scan_skip hempty (fuel := 0) (by rw [hk])

end Scan

/-! ### The ends of PFV.NEXT -/

theorem State.setX_setFlag (s : State) (r : Reg) (v : Word) (g : Flag) :
    (s.setX r v).setFlag g = (s.setFlag g).setX r v := by
  unfold State.setX
  split <;> rfl

theorem State.setX_dead_true (s : State) (r : Reg) (v : Word) :
    { s.setX r v with dead := true } = State.setX { s with dead := true } r v := by
  unfold State.setX
  split <;> rfl

theorem exec_pfvNext_of_not_owner {s : State} {imm : Imm} (h : ¬ (s.lock.held = true ∧ s.lock.owner = imm.setWidth 8))
    (rd : Reg) : exec (.pfvNext rd imm) s = .next (s.faulted 18) :=
  if_pos (holdsLock_eq_false_iff.2 h)

section Owner

variable {s : State} {imm : Imm} (howner : s.lock.held = true ∧ s.lock.owner = imm.setWidth 8)
include howner

theorem exec_pfvNext_of_dead (hdead : s.dead = true) (rd : Reg) : exec (.pfvNext rd imm) s =
    .next (State.ended (State.setX { s with page := { s.page with valid := false }, flags := s.flags ||| 0x20 }
      rd noResult) 9) := by
  have hholds : s.holdsLock (consumer imm) = true := holdsLock_iff.2 howner
  simp only [exec, execPfvNext, hholds, hdead, State.setX_setFlag]
  rfl

variable (halive : s.dead = false)
include halive

theorem exec_pfvNext_of_found {p : Nat} (hscan : s.scan = .found p) (rd : Reg) : exec (.pfvNext rd imm) s =
    .next (((s.acceptPage p).1.setX rd (BitVec.ofNat 64 p)).ended (if (s.acceptPage p).2 then 5 else 0)) := by
  have hholds : s.holdsLock (consumer imm) = true := holdsLock_iff.2 howner
  simp only [exec, execPfvNext, hholds, halive, hscan]
  cases (s.acceptPage p).2 <;> rfl

theorem exec_pfvNext_of_ended (hscan : s.scan = .ended) (rd : Reg) : exec (.pfvNext rd imm) s =
    .next (State.ended (State.setX { s with
      waste := s.waste + BitVec.ofNat 64 (s.src.length - s.srcPos.toNat)
      srcPos := BitVec.ofNat 64 s.src.length
      page := { s.page with valid := false }
      flags := s.flags ||| 0x08 } rd noResult) 1) := by
  have hholds : s.holdsLock (consumer imm) = true := holdsLock_iff.2 howner
  simp only [exec, execPfvNext, hholds, halive, hscan, State.noPage, State.setX_setFlag]
  rfl

theorem exec_pfvNext_of_capped {p : Nat} (hscan : s.scan = .capped p) (rd : Reg) : exec (.pfvNext rd imm) s =
    .next (State.ended (State.setX { s with
      waste := s.waste + BitVec.ofNat 64 (p - s.srcPos.toNat)
      srcPos := BitVec.ofNat 64 p
      dead := true
      page := { s.page with valid := false }
      flags := s.flags ||| 0x20 } rd noResult) 9) := by
  have hholds : s.holdsLock (consumer imm) = true := holdsLock_iff.2 howner
  simp only [exec, execPfvNext, hholds, halive, hscan, State.noPage, State.setX_setFlag, State.setX_dead_true]
  rfl

end Owner

/-- Settles O18: the scan passes the offsets before the page and finds it. -/
theorem scanFindsFirstPage : Obligations.ScanFindsFirstPage := by
  unfold Obligations.ScanFindsFirstPage
  intro s rd imm k start hheld howner halive hk hempty hpage r
  refine ⟨exec_pfvNext_of_found ⟨hheld, howner⟩ halive (scan_eq_found hempty hk hpage) rd, ?waste,
    acceptPage_valid s _, ?resync⟩
  case waste => rw [acceptPage_waste, Nat.add_sub_cancel_left]
  case resync =>
    rw [acceptPage_resync, bne_iff_ne]
    omega

/-- Settles O19: the four ways PFV.NEXT finds no page. -/
theorem scanWithoutPage : Obligations.ScanWithoutPage := by
  unfold Obligations.ScanWithoutPage
  intro s rd imm start noPage
  refine ⟨fun hnot => exec_pfvNext_of_not_owner hnot rd, fun hheld howner =>
    ⟨fun hdead => exec_pfvNext_of_dead ⟨hheld, howner⟩ hdead rd, fun halive =>
      ⟨fun k hk hempty hend => ?ended, fun hempty => ?capped⟩⟩⟩
  case ended => exact exec_pfvNext_of_ended ⟨hheld, howner⟩ halive (scan_eq_ended hempty hk hend) rd
  case capped =>
    rw [exec_pfvNext_of_capped ⟨hheld, howner⟩ halive (scan_eq_capped hempty rfl) rd, Nat.add_sub_cancel_left]
    rfl

end Sys2Proof.Machine
end

section
/-! SUPPORT. Accepting a page (R150) and the bytes PFV.NEXT passes (R163): the record's fields, byte by byte, and the cursor.
O20 and O23 follow. -/

namespace Sys2Proof.Machine

/-! ### Little-endian reads and the lacing table -/

theorem leRead_lt (bs : List Byte) (p n : Nat) : leRead bs p n < 256 ^ n :=
  (leValue_lt _).trans_le (Nat.pow_le_pow_right (by decide) (List.length_take_le ..))

/-- A field of `n` bytes fits its `8 * n` bits. -/
theorem toNat_ofNat_leRead (bs : List Byte) (p n : Nat) : (BitVec.ofNat (8 * n) (leRead bs p n)).toNat = leRead bs p n := by
  rw [BitVec.toNat_ofNat, Nat.pow_mul]
  exact Nat.mod_eq_of_lt (leRead_lt bs p n)

theorem sum_map_toNat_le (lace : List Byte) : (lace.map BitVec.toNat).sum ≤ lace.length * 255 := by
  have hvalue : ∀ n ∈ lace.map BitVec.toNat, n ≤ 255 := by
    simp only [List.mem_map]
    rintro _ ⟨v, _, rfl⟩
    exact Nat.le_of_lt_succ v.isLt
  simpa using List.sum_le_card_nsmul _ 255 hvalue

theorem payLenOf_lt (rest : List Byte) : payLenOf rest < 2 ^ 16 := by
  have hsum := sum_map_toNat_le (laceOf rest)
  have hlen := laceOf_length_le rest
  unfold payLenOf
  omega

theorem laceOf_length {rest : List Byte} (h : pageAt rest = true) : (laceOf rest).length = leRead rest 26 1 := by
  obtain ⟨_, _, _, hlace, _⟩ := (pageAt_iff rest).1 h
  exact length_take_drop hlace

theorem laceOf_getElem? {rest : List Byte} {i : Nat} (hi : i < leRead rest 26 1) : (laceOf rest)[i]? = rest[27 + i]? := by
  rw [laceOf, List.getElem?_take_of_lt hi, List.getElem?_drop]

theorem laceOf_getLast?_eq_some_iff {rest : List Byte} (h : pageAt rest = true) (v : Byte) :
    (laceOf rest).getLast? = some v ↔ 0 < leRead rest 26 1 ∧ rest[27 + leRead rest 26 1 - 1]? = some v := by
  rw [List.getLast?_eq_getElem?, laceOf_length h]
  rcases Nat.eq_zero_or_pos (leRead rest 26 1) with hzero | hpos
  · simp [laceOf, hzero]
  · rw [laceOf_getElem? (Nat.sub_lt hpos one_pos), Nat.add_sub_assoc hpos]
    simp [hpos]

theorem getElem?_eq_some_255_iff (bs : List Byte) (i : Nat) : bs[i]? = some 255 ↔ (bs.getD i 0).toNat = 255 := by
  rw [List.getD_eq_getElem?_getD]
  cases bs[i]? <;> simp [← BitVec.toNat_inj]

/-- Settles O20: the record field by field, each read byte by byte. -/
theorem acceptedPageRecord : Obligations.AcceptedPageRecord := by
  unfold Obligations.AcceptedPageRecord
  intro s p hpage _ start byte field nseg payLen t
  have hbyte (i : Nat) : ((s.src.drop p).getD i 0).toNat = byte i := by simp [byte]
  have hfield (i n : Nat) : leRead (s.src.drop p) i n = field i n := by simp only [leRead_eq_sum, hbyte, field]
  have hnseg : leRead (s.src.drop p) 26 1 = nseg := by rw [leRead_one, hbyte]
  have hpayLen : payLenOf (s.src.drop p) = payLen := by simp only [payLenOf_eq_sum, hnseg, hbyte, payLen]
  have hlace : (laceOf (s.src.drop p)).length = nseg := (laceOf_length hpage).trans hnseg
  refine ⟨acceptPage_waste s p, acceptPage_valid s p, ?resync, ?flags, acceptPage_offset s p, ?pageFlags, ?granule, ?serial,
    ?seq, ?crc, ?laceLength, fun i hi => ?lace, ?payOff, ?payLen, ?lastCont, ?srcPos, ?packets, acceptPage_frame s p⟩
  case resync => rw [acceptPage_resync, bne_iff_ne]
  case flags => rw [acceptPage_flags]; simp only [bne_iff_ne]; rfl
  case pageFlags => rw [acceptPage_pageFlags, toNat_ofNat_leRead _ 5 1, leRead_one, hbyte]
  case granule => rw [acceptPage_granule, toNat_ofNat_leRead _ 6 8, hfield]
  case serial => rw [acceptPage_serial, toNat_ofNat_leRead _ 14 4, hfield]
  case seq => rw [acceptPage_seq, toNat_ofNat_leRead _ 18 4, hfield]
  case crc => rw [acceptPage_crc, toNat_ofNat_leRead _ 22 4, hfield]
  case laceLength => rw [acceptPage_lace, hlace]
  case lace =>
    rw [acceptPage_lace, List.getD_eq_getElem?_getD, laceOf_getElem? (hnseg ▸ hi), ← List.getD_eq_getElem?_getD, hbyte]
  case payOff => rw [acceptPage_payOff, hlace]
  case payLen => rw [acceptPage_payLen, BitVec.toNat_ofNat, Nat.mod_eq_of_lt (payLenOf_lt _), hpayLen]
  case lastCont =>
    rw [acceptPage_lastCont, beq_iff_eq, laceOf_getLast?_eq_some_iff hpage, hnseg, getElem?_eq_some_255_iff, hbyte]
  case srcPos => rw [acceptPage_srcPos, totalOf, hnseg, hpayLen]
  case packets => rw [acceptPage_packets, acceptPage_lace, hlace]

/-! ### The cursor and the waste count (R163) -/

theorem scan_found_page {s : State} {p : Nat} (h : s.scan = .found p) :
    s.srcPos.toNat ≤ p ∧ pageAt (s.src.drop p) = true := by
  obtain ⟨k, _, ⟨_, _, hpage, e⟩ | ⟨_, _, e⟩ | ⟨_, e⟩⟩ :=
    scanFrom_cases Config.scanCap s.srcPos.toNat (s.src.drop s.srcPos.toNat)
  all_goals rw [State.scan, e] at h; cases h
  exact ⟨Nat.le_add_right .., by rwa [List.drop_drop] at hpage⟩

theorem le_of_scan_capped {s : State} {p : Nat} (h : s.scan = .capped p) : s.srcPos.toNat ≤ p := by
  obtain ⟨k, _, ⟨_, _, _, e⟩ | ⟨_, _, e⟩ | ⟨_, e⟩⟩ :=
    scanFrom_cases Config.scanCap s.srcPos.toNat (s.src.drop s.srcPos.toNat)
  all_goals rw [State.scan, e] at h; cases h
  exact Nat.le_add_right ..

@[simp] theorem noPage_waste (s : State) (rd : Reg) (p : Nat) :
    (s.noPage rd p).waste = s.waste + BitVec.ofNat 64 (p - s.srcPos.toNat) := by
  rw [State.noPage, State.setX_waste]

theorem ofNat_sub_eq {p : Nat} {q : Word} (h : q.toNat ≤ p) : BitVec.ofNat 64 p - q = BitVec.ofNat 64 (p - q.toNat) := by
  apply BitVec.eq_of_toNat_eq
  simp only [BitVec.toNat_sub, BitVec.toNat_ofNat]
  have := q.isLt
  omega

/-- A valid page's bytes: its header, its lacing table and its payload. -/
theorem acceptPage_bytes {s : State} {p : Nat} (h : pageAt (s.src.drop p) = true) :
    27 + (s.acceptPage p).1.page.lace.length + (s.acceptPage p).1.page.payLen.toNat = totalOf (s.src.drop p) := by
  rw [acceptPage_lace, laceOf_length h, acceptPage_payLen, BitVec.toNat_ofNat, Nat.mod_eq_of_lt (payLenOf_lt _), totalOf]

/-- The bytes from SRC_POS to `p` are accounted for: SRC_POS moves there, and WASTE with `bytes` of a page grows by as much. -/
theorem accounted_to {s t : State} {p : Nat} {bytes : Word} (hle : s.srcPos.toNat ≤ p) (hlt : p < 2 ^ 64)
    (hpos : t.srcPos = BitVec.ofNat 64 p) (hbytes : t.waste + bytes = s.waste + BitVec.ofNat 64 (p - s.srcPos.toNat)) :
    s.srcPos.toNat ≤ t.srcPos.toNat ∧ t.waste + bytes = s.waste + (t.srcPos - s.srcPos) := by
  rw [hpos, ofNat_sub_eq hle, BitVec.toNat_ofNat, Nat.mod_eq_of_lt hlt]
  exact ⟨hle, hbytes⟩

/-- Settles O23: how far each end of PFV.NEXT moves the cursor. -/
theorem wasteAccounting : Obligations.WasteAccounting := by
  unfold Obligations.WasteAccounting
  intro s t rd imm hcursors hsrc h
  have hstart := hcursors.bytes
  unfold State.srcLen at hstart
  rcases pfvNext_next h with ⟨c, rfl⟩ | ⟨_, rfl | ⟨p, hscan, rfl⟩ | ⟨_, rfl⟩ | ⟨p, v, hscan, rfl⟩⟩
  case inl =>
    have hcode : ¬ (c.code = 0 ∨ c.code = 5) := by cases c <;> decide
    refine accounted_to le_rfl s.srcPos.isLt (by simp) ?_
    rw [State.faulted_status, if_neg hcode, State.faulted_waste, Nat.sub_self]
    rfl
  case inr.inl => exact accounted_to le_rfl s.srcPos.isLt (by simp) (by simp)
  case inr.inr.inl =>
    have hend := scan_capped hscan
    exact accounted_to (le_of_scan_capped hscan) (hend.trans_lt hsrc) (by simp) (by simp)
  case inr.inr.inr.inl => exact accounted_to hstart hsrc (by simp [State.srcLen]) (by simp [State.srcLen])
  case inr.inr.inr.inr =>
    obtain ⟨hle, hpage⟩ := scan_found_page hscan
    have hend := scan_found hscan
    have hok (b : Bool) : (if b then 5 else 0 : BitVec 8) = 0 ∨ (if b then 5 else 0 : BitVec 8) = 5 := by
      cases b <;> decide
    refine accounted_to (p := p + totalOf (s.src.drop p)) (hle.trans (Nat.le_add_right ..)) (hend.trans_lt hsrc)
      (by simp) ?_
    rw [State.ended_status, if_pos (hok _), State.ended_waste, State.ended_page, State.setX_waste, State.setX_page,
      acceptPage_bytes hpage, acceptPage_waste, BitVec.add_assoc, ← BitVec.ofNat_add, Nat.sub_add_comm hle]

end Sys2Proof.Machine
end

section
/-! SUPPORT. The packet table (R151): runs of lacing values, and that the entries tile the payload. O21 follows. -/

namespace Sys2Proof.Machine

/-! ### Runs of lacing values 255 -/

/-- A run of values 255 only makes the packet that is being read longer. -/
theorem packetsFrom_replicate_append (m : Nat) (lace : List Byte) (off len : Nat) (more : Bool) :
    packetsFrom (List.replicate m 255 ++ lace) off len more =
      packetsFrom lace off (255 * m + len) (more || decide (0 < m)) := by
  induction m generalizing len more with
  | zero => simp
  | succ m ih =>
    have hstep : packetsFrom (List.replicate (m + 1) 255 ++ lace) off len more =
        packetsFrom (List.replicate m 255 ++ lace) off (len + 255) true := rfl
    rw [hstep, ih, show 255 * m + (len + 255) = 255 * (m + 1) + len by omega]
    simp

theorem packetsFrom_cons_of_lt {v : Byte} (hv : v.toNat < 255) (rest : List Byte) (off len : Nat) (more : Bool) :
    packetsFrom (v :: rest) off len more =
      { off := BitVec.ofNat 64 off, len := BitVec.ofNat 16 (len + v.toNat), cont := false } ::
        packetsFrom rest (off + (len + v.toNat)) 0 false :=
  if_pos hv

theorem packetsFrom_cons_of_not_lt {v : Byte} (hv : ¬ v.toNat < 255) (rest : List Byte) (off len : Nat) (more : Bool) :
    packetsFrom (v :: rest) off len more = packetsFrom rest off (len + v.toNat) true :=
  if_neg hv

/-- No entry is made exactly when there is nothing to read and no packet is being read. -/
theorem packetsFrom_eq_nil_iff {lace : List Byte} {off len : Nat} {more : Bool} :
    packetsFrom lace off len more = [] ↔ lace = [] ∧ more = false := by
  induction lace generalizing len more with
  | nil => cases more <;> simp [packetsFrom]
  | cons v rest ih =>
    by_cases hv : v.toNat < 255
    · simp [packetsFrom_cons_of_lt hv]
    · simp [packetsFrom_cons_of_not_lt hv, ih]

/-! ### The entries tile the payload -/

/-- The ranges begin at `off` and each begins where the one before ended. -/
def Tiles : Nat → List Packet → Prop
  | _, [] => True
  | off, e :: ps => e.off = BitVec.ofNat 64 off ∧ Tiles (off + e.len.toNat) ps

namespace Tiles

variable {off : Nat} {ps : List Packet}

theorem head (h : Tiles off ps) {e : Packet} (he : ps.head? = some e) : e.off = BitVec.ofNat 64 off := by
  cases ps with
  | nil => cases he
  | cons e' ps => cases he; exact h.1

theorem adjoin (h : Tiles off ps) {k : Nat} {e f : Packet} (he : ps[k]? = some e) (hf : ps[k + 1]? = some f) :
    f.off = e.off + e.len.setWidth 64 := by
  induction ps generalizing off k with
  | nil => cases he
  | cons e' ps ih =>
    obtain ⟨hoff, hps⟩ := h
    cases k with
    | succ k => exact ih hps he hf
    | zero =>
      obtain rfl : e' = e := by simpa using he
      rw [hps.head (List.head?_eq_getElem? ▸ hf), hoff, BitVec.ofNat_add, BitVec.ofNat_toNat]

end Tiles

/-- The length of a packet that is made of lacing values of one page fits its 16 bits. -/
theorem toNat_ofNat_packetLen {len : Nat} (h : len < 2 ^ 16) : (BitVec.ofNat 16 len).toNat = len := by
  rw [BitVec.toNat_ofNat, Nat.mod_eq_of_lt h]

theorem tiles_packetsFrom {lace : List Byte} {len : Nat} (h : len + (lace.map BitVec.toNat).sum < 2 ^ 16) (off : Nat)
    (more : Bool) : Tiles off (packetsFrom lace off len more) := by
  induction lace generalizing off len more with
  | nil => cases more <;> simp [packetsFrom, Tiles]
  | cons v rest ih =>
    rw [List.map_cons, List.sum_cons] at h
    by_cases hv : v.toNat < 255
    · rw [packetsFrom_cons_of_lt hv, Tiles, toNat_ofNat_packetLen (by omega)]
      exact ⟨rfl, ih (by omega) _ _⟩
    · rw [packetsFrom_cons_of_not_lt hv]
      exact ih (by omega) off true

/-- The lengths add up, where a packet has bytes so far only when one is being read. -/
theorem sum_len_packetsFrom {lace : List Byte} {len : Nat} {more : Bool}
    (h : len + (lace.map BitVec.toNat).sum < 2 ^ 16) (hmore : more = false → len = 0) (off : Nat) :
    ((packetsFrom lace off len more).map fun e => e.len.toNat).sum = len + (lace.map BitVec.toNat).sum := by
  induction lace generalizing off len more with
  | nil =>
    cases more with
    | false => simp [packetsFrom, hmore rfl]
    | true => simpa [packetsFrom] using h
  | cons v rest ih =>
    rw [List.map_cons, List.sum_cons] at h ⊢
    by_cases hv : v.toNat < 255
    · rw [packetsFrom_cons_of_lt hv, List.map_cons, List.sum_cons, ih (by omega) (fun _ => rfl),
        toNat_ofNat_packetLen (by omega)]
      omega
    · rw [packetsFrom_cons_of_not_lt hv, ih (more := true) (by omega) (fun hfalse => by cases hfalse)]
      omega

/-- Only the last entry can be unfinished, and it is when the last lacing value was 255; `u` is the value read before. -/
theorem cont_packetsFrom {lace : List Byte} {off len : Nat} {more : Bool} {u : Byte} (hmore : more = true ↔ u = 255)
    {k : Nat} {e : Packet} (he : (packetsFrom lace off len more)[k]? = some e) :
    e.cont = true ↔ k + 1 = (packetsFrom lace off len more).length ∧ lace.getLastD u = 255 := by
  induction lace generalizing off len more u k with
  | nil =>
    cases more with
    | false => simp [packetsFrom] at he
    | true =>
      obtain ⟨rfl, rfl⟩ : k = 0 ∧ _ = e := by simpa [packetsFrom, List.getElem?_singleton] using he
      simpa [packetsFrom] using hmore
  | cons v rest ih =>
    rw [List.getLastD_cons]
    have hv255 : ¬ v.toNat < 255 ↔ v = 255 := by bv_omega
    by_cases hv : v.toNat < 255
    · rw [packetsFrom_cons_of_lt hv] at he ⊢
      have hopen : false = true ↔ v = 255 := iff_of_false Bool.false_ne_true fun e => hv255.2 e hv
      cases k with
      | succ k => rw [ih hopen (by simpa using he)]; simp
      | zero =>
        obtain rfl := Option.some.inj he
        refine iff_of_false Bool.false_ne_true ?_
        rintro ⟨hlen, hlast⟩
        obtain ⟨rfl, _⟩ := packetsFrom_eq_nil_iff.1 (List.eq_nil_of_length_eq_zero (Nat.succ.inj hlen).symm)
        exact hv255.2 hlast hv
    · rw [packetsFrom_cons_of_not_lt hv] at he ⊢
      exact ih (by simpa using hv255.1 hv) he

/-- Settles O21: the two runs are `packetsFrom_replicate_append`, and the entries of a page tile its payload. -/
theorem packetTable : Obligations.PacketTable := by
  unfold Obligations.PacketTable
  refine ⟨fun m v rest off hv => ?closed, fun m off => ?unfinished, fun lace off hlen => ?tiles⟩
  case closed => rw [packetsFrom_replicate_append, packetsFrom_cons_of_lt hv]; rfl
  case unfinished =>
    have hrun := packetsFrom_replicate_append m [] off 0 false
    rw [List.append_nil] at hrun
    rw [hrun]
    cases m <;> simp [packetsFrom]
  case tiles =>
    have hsum := sum_map_toNat_le lace
    have hfits : 0 + (lace.map BitVec.toNat).sum < 2 ^ 16 := by omega
    have htiles := tiles_packetsFrom hfits off false
    refine ⟨packetsFrom_length_le lace off 0 false, fun e => htiles.head, fun k e f => htiles.adjoin,
      (sum_len_packetsFrom hfits (fun _ => rfl) off).trans (Nat.zero_add _), fun k e he => ?cont⟩
    case cont =>
      rw [cont_packetsFrom (u := 0) (by decide) he, List.getLastD_eq_getLast?]
      cases lace.getLast? <;> simp

end Sys2Proof.Machine
end

section
/-! SUPPORT. One changed byte of a page (R118, R163): which tests of R145 see it. O24 follows. -/

namespace Sys2Proof.Machine

/-! ### Reads after a byte was changed -/

section Set

variable {bs : List Byte} {k p n : Nat}

theorem take_drop_set_of_outside (h : k < p ∨ p + n ≤ k) (a : Byte) :
    ((bs.set k a).drop p).take n = (bs.drop p).take n := by
  rw [List.drop_set]
  split
  · rfl
  · exact List.take_set_of_le (by omega)

theorem leRead_set_of_outside (h : k < p ∨ p + n ≤ k) (a : Byte) : leRead (bs.set k a) p n = leRead bs p n := by
  rw [leRead, take_drop_set_of_outside h, leRead]

theorem leValue_injective {as bs : List Byte} (hlen : as.length = bs.length) (h : leValue as = leValue bs) : as = bs := by
  induction as generalizing bs with
  | nil => exact (List.length_eq_zero_iff.1 hlen.symm).symm
  | cons a as ih =>
    cases bs with
    | nil => cases hlen
    | cons b bs =>
      rw [leValue, leValue] at h
      obtain rfl : a = b := by bv_omega
      rw [ih (Nat.succ.inj hlen) (by omega)]

variable {a b : Byte} (hb : bs[k]? = some b) (hab : a ≠ b)
include hb hab

theorem take_drop_set_ne (hp : p ≤ k) (hk : k < p + n) : ((bs.set k a).drop p).take n ≠ (bs.drop p).take n := fun h => by
  have hlen : k < bs.length := (List.getElem?_eq_some_iff.1 hb).1
  have hbyte := congrArg (·[k - p]?) h
  simp only [List.getElem?_take_of_lt (show k - p < n by omega), List.getElem?_drop, Nat.add_sub_cancel' hp, hb,
    List.getElem?_set_self hlen] at hbyte
  exact hab (Option.some.inj hbyte)

theorem leRead_set_ne (hp : p ≤ k) (hk : k < p + n) : leRead (bs.set k a) p n ≠ leRead bs p n := fun h =>
  take_drop_set_ne hb hab hp hk (leValue_injective (by simp) h)

end Set

/-! ### The checksum of a page (R117) -/

/-- The stored checksum is no part of what is summed. -/
theorem pageCrc_set_of_stored {img : List Byte} {k : Nat} (h : 22 ≤ k ∧ k ≤ 25) (a : Byte) :
    pageCrc (img.set k a) = pageCrc img := by
  unfold pageCrc
  congr 1
  refine List.ext_getElem (by simp) fun i _ _ => ?_
  by_cases hi : k = i
  · subst hi
    simp [h]
  · simp [hi]

theorem pageCrc_set_ne {img : List Byte} {k : Nat} {a b : Byte} (h : ¬ (22 ≤ k ∧ k ≤ 25)) (hb : img[k]? = some b)
    (hab : a ≠ b) : pageCrc (img.set k a) ≠ pageCrc img := by
  unfold pageCrc
  rw [List.mapIdx_set, if_neg h]
  exact crcBytes_set_ne (by simp [hb, h]) hab 0

/-! ### The tests of R145 -/

section Changed

variable {rest : List Byte} {k : Nat} (hpage : pageAt rest = true)
  (hwhere : k < 26 ∨ 27 + (laceOf rest).length ≤ k)
include hpage hwhere

theorem totalOf_set (a : Byte) : totalOf (rest.set k a) = totalOf rest := by
  rw [laceOf_length hpage] at hwhere
  have hnseg : leRead (rest.set k a) 26 1 = leRead rest 26 1 := leRead_set_of_outside (by omega) a
  have hlace : laceOf (rest.set k a) = laceOf rest := by
    rw [laceOf, hnseg, take_drop_set_of_outside (by omega), laceOf]
  rw [totalOf, hnseg, payLenOf, hlace, totalOf, payLenOf]

/-- A page with one byte changed outside its segment count and lacing table is no page. -/
theorem pageAt_set {a b : Byte} (hb : rest[k]? = some b) (hab : a ≠ b) (hk : k < totalOf rest) :
    pageAt (rest.set k a) = false := by
  rw [Bool.eq_false_iff]
  intro hpage'
  obtain ⟨⟨_, hcapture'⟩, _, hversion', _, _, hcrc'⟩ := (pageAt_iff _).1 hpage'
  obtain ⟨⟨_, hcapture⟩, _, hversion, _, _, hcrc⟩ := (pageAt_iff _).1 hpage
  rw [totalOf_set hpage hwhere, List.take_set] at hcrc'
  by_cases hhead : k < 4
  · exact take_drop_set_ne (p := 0) hb hab (Nat.zero_le k) (by omega) (hcapture'.trans hcapture.symm)
  by_cases hfour : k = 4
  · exact leRead_set_ne hb hab (p := 4) (n := 1) (by omega) (by omega) (hversion'.trans hversion.symm)
  by_cases hstored : 22 ≤ k ∧ k ≤ 25
  · rw [pageCrc_set_of_stored hstored, hcrc] at hcrc'
    exact leRead_set_ne hb hab hstored.1 (by omega) hcrc'.symm
  · rw [leRead_set_of_outside (by omega), ← hcrc] at hcrc'
    exact pageCrc_set_ne hstored (by rwa [List.getElem?_take_of_lt hk]) hab (BitVec.eq_of_toNat_eq hcrc')

end Changed

/-- Settles O24: a flipped bit changes its byte. -/
theorem flippedBitRejected : Obligations.FlippedBitRejected := by
  unfold Obligations.FlippedBitRejected
  intro rest k j b hpage hb hj hk hwhere
  exact pageAt_set hpage hwhere hb (flip_ne hj b) hk

end Sys2Proof.Machine
end

section
/-! SUPPORT. The readers of the page record and of the registry (R157 to R159). O25 follows. -/

namespace Sys2Proof.Machine

theorem selector_two (imm : Imm) : selector 2 imm = imm.toNat % 4 := BitVec.toNat_setWidth ..

/-- The four bits of a packet's flags word do not overlap. -/
theorem flagAt_or_eq_ofNat (a b c d : Bool) :
    flagAt a 0 ||| flagAt b 1 ||| flagAt c 2 ||| flagAt d 3 =
      BitVec.ofNat 64 ((if a then 1 else 0) + (if b then 2 else 0) + (if c then 4 else 0) + (if d then 8 else 0)) := by
  revert a b c d
  decide

section Readers

variable {s : State} {rs1 : Reg} {imm : Imm}

/-! ### PFV.LACE -/

theorem exec_pfvLace_of_gt (h : 254 < (s.x rs1).toNat) (rd : Reg) : exec (.pfvLace rd rs1) s = .next (s.faulted 17) :=
  if_pos h

theorem exec_pfvLace_of_le (h : (s.x rs1).toNat ≤ 254) (rd : Reg) : exec (.pfvLace rd rs1) s =
    if s.page.valid = false then .next (s.faulted 21)
    else .next ((s.setX rd ((s.page.lace.getD (s.x rs1).toNat 0).setWidth 64)).ended 0) :=
  if_neg h.not_gt

/-! ### PFV.PKT -/

theorem exec_pfvPkt_of_selector (h : selector 2 imm = 3) (rd : Reg) :
    exec (.pfvPkt rd rs1 imm) s = .next (s.faulted 17) := if_pos h

section Selected

variable (hsel : selector 2 imm ≠ 3)
include hsel

theorem exec_pfvPkt_of_invalid (h : s.page.valid = false) (rd : Reg) :
    exec (.pfvPkt rd rs1 imm) s = .next (s.faulted 21) := (if_neg hsel).trans (if_pos h)

variable (hvalid : s.page.valid = true)
include hvalid

theorem exec_pfvPkt_of_none (h : s.page.packets[(s.x rs1).toNat]? = none) (rd : Reg) :
    exec (.pfvPkt rd rs1 imm) s = .next (s.faulted 17) := by
  simp only [exec, execPfvPkt, State.xNat, if_neg hsel, hvalid, h]
  rfl

theorem exec_pfvPkt_of_some {e : Packet} (h : s.page.packets[(s.x rs1).toNat]? = some e) (rd : Reg) :
    exec (.pfvPkt rd rs1 imm) s = .next ((s.setX rd
      (if selector 2 imm = 0 then e.off
       else if selector 2 imm = 1 then e.len.setWidth 64
       else packetFlags s.page (s.x rs1).toNat e)).ended 0) := by
  simp only [exec, execPfvPkt, State.xNat, if_neg hsel, hvalid, h]
  rfl

end Selected

/-! ### PFV.STRM -/

theorem exec_pfvStrm_of_operand (h : selector 2 imm = 3 ∨ s.par.nstream ≤ (s.x rs1).toNat) (rd : Reg) :
    exec (.pfvStrm rd rs1 imm) s = .next (s.faulted 17) := if_pos h

section Slot

variable (hoperand : ¬ (selector 2 imm = 3 ∨ s.par.nstream ≤ (s.x rs1).toNat))
include hoperand

theorem exec_pfvStrm_of_none (h : Table.find s.streams (s.x rs1).toNat = none) (rd : Reg) :
    exec (.pfvStrm rd rs1 imm) s = .next ((s.setX rd 0).ended 0) := by
  simp only [exec, execPfvStrm, State.xNat, if_neg hoperand, h]
  rfl

theorem exec_pfvStrm_of_some {e : Stream} (h : Table.find s.streams (s.x rs1).toNat = some e) (rd : Reg) :
    exec (.pfvStrm rd rs1 imm) s = .next ((s.setX rd
      (if selector 2 imm = 0 then 1
       else if selector 2 imm = 1 then e.serial.setWidth 64
       else if e.eos then 1 else 0)).ended 0) := by
  simp only [exec, execPfvStrm, State.xNat, if_neg hoperand, h]
  rfl

end Slot

end Readers

/-- R158, selector 2, as a sum. -/
theorem packetFlags_eq_ofNat (g : Page) (i : Nat) (e : Packet) : packetFlags g i e =
    BitVec.ofNat 64 ((if e.cont then 1 else 0) + (if i = 0 ∧ g.flags.getLsbD 0 = true then 2 else 0) +
      (if i + 1 = g.packets.length then 4 else 0) + (if i = 0 ∧ g.resync = true then 8 else 0)) := by
  simp [packetFlags, flagAt_or_eq_ofNat]

/-- Settles O25: each reader's tests, in the order of its rule. -/
theorem pageReaders : Obligations.PageReaders := by
  unfold Obligations.PageReaders
  intro s rd rs1 imm i sel
  have hselector : selector 2 imm = sel := selector_two imm
  refine ⟨fun hbig => exec_pfvLace_of_gt hbig rd, fun hsmall => ⟨fun hinvalid => ?laceNotReady, fun hvalid => ?lace⟩,
    fun hsel => exec_pfvPkt_of_selector (hselector.trans hsel) rd,
    fun hsel => ⟨fun hinvalid => exec_pfvPkt_of_invalid (hselector ▸ hsel) hinvalid rd, fun hvalid =>
      ⟨fun hbig => exec_pfvPkt_of_none (hselector ▸ hsel) hvalid (List.getElem?_eq_none hbig) rd, fun e he => ?packet⟩⟩,
    fun hoperand => exec_pfvStrm_of_operand (hselector ▸ hoperand) rd,
    fun hsel hslot => ?slot⟩
  case laceNotReady => rw [exec_pfvLace_of_le hsmall, if_pos hinvalid]
  case lace =>
    have hvalue : BitVec.setWidth 64 (s.page.lace.getD i 0) =
        if i < s.page.lace.length then (s.page.lace.getD i 0).setWidth 64 else 0 := by
      split
      · rfl
      · next hbeyond => simp [not_lt.1 hbeyond]
    rw [exec_pfvLace_of_le hsmall, if_neg (by simp [hvalid]), ← hvalue]
  case packet =>
    rw [exec_pfvPkt_of_some (hselector ▸ hsel) hvalid he, hselector, packetFlags_eq_ofNat]
    refine ⟨fun h => ?_, fun h => ?_, fun h => ?_⟩
    · rw [if_pos h]
    · rw [if_neg (by omega), if_pos h]
    · rw [if_neg (by omega), if_neg (by omega)]
  case slot =>
    have hoperand : ¬ (selector 2 imm = 3 ∨ s.par.nstream ≤ i) := not_or.2 ⟨hselector ▸ hsel, hslot.not_ge⟩
    refine ⟨fun hnone => exec_pfvStrm_of_none hoperand hnone rd, fun e he => ?_⟩
    rw [exec_pfvStrm_of_some hoperand he, hselector]
    refine ⟨fun h => ?_, fun h => ?_, fun h => ?_⟩
    · rw [if_pos h]
    · rw [if_neg (by omega), if_pos h]
    · rw [if_neg (by omega), if_neg (by omega)]

end Sys2Proof.Machine
end

section
/-! SUPPORT. Canonical code assignment (R172): the tree of the codewords given out knows which codewords are free of them.
O26 follows. -/

namespace Sys2Proof.Machine

/-! ### Codewords by their first bit -/

theorem not_apart_length_zero {c : Nat} (hc : c < 2 ^ 0) {d m : Nat} (hd : d < 2 ^ m) : ¬ apart c 0 d m := by
  simp_all [apart, Nat.shiftRight_eq_div_pow, Nat.div_eq_of_lt hd]

theorem apart_comm {c l d m : Nat} : apart c l d m ↔ apart d m c l := by
  rw [apart, apart, Nat.min_comm, ne_comm]

theorem apart_succ_succ (c l d m : Nat) : apart c (l + 1) d (m + 1) ↔ apart c l d m := by
  simp only [apart, Nat.succ_min_succ, Nat.succ_sub_succ, Nat.succ_eq_add_one]

theorem two_pow_add_shiftRight {k l : Nat} (h : k ≤ l) (c : Nat) :
    (2 ^ l + c) >>> (l - k) = 2 ^ k + c >>> (l - k) := by
  rw [Nat.shiftRight_eq_div_pow, Nat.shiftRight_eq_div_pow, ← Nat.pow_sub_mul_pow 2 h,
    Nat.mul_add_div (Nat.two_pow_pos _)]

theorem apart_one_one (c l d m : Nat) : apart (2 ^ l + c) (l + 1) (2 ^ m + d) (m + 1) ↔ apart c l d m := by
  rw [apart_succ_succ, apart, apart, two_pow_add_shiftRight (Nat.min_le_left l m),
    two_pow_add_shiftRight (Nat.min_le_right l m)]
  simp

theorem apart_zero_one {c l : Nat} (hc : c < 2 ^ l) (d m : Nat) : apart c (l + 1) (2 ^ m + d) (m + 1) := by
  rw [apart_succ_succ, apart, two_pow_add_shiftRight (Nat.min_le_right l m), Nat.shiftRight_eq_div_pow]
  have hlow : c / 2 ^ (l - min l m) < 2 ^ min l m := by
    rwa [Nat.div_lt_iff_lt_mul (Nat.two_pow_pos _), Nat.mul_comm, Nat.pow_sub_mul_pow 2 (Nat.min_le_left l m)]
  exact (lt_of_lt_of_le hlow (Nat.le_add_right ..)).ne

/-- A codeword begins with bit 0 or with bit 1. -/
theorem lt_two_pow_succ_cases {d m : Nat} (hd : d < 2 ^ (m + 1)) : d < 2 ^ m ∨ ∃ e, e < 2 ^ m ∧ d = 2 ^ m + e := by
  rcases Nat.lt_or_ge d (2 ^ m) with hlow | hhigh
  · exact .inl hlow
  · exact .inr ⟨d - 2 ^ m, by omega, by omega⟩

namespace CodeTree

/-- The codeword `c` of `l` bits is free: none given out begins it and it begins none (R172). -/
def isFree : CodeTree → Nat → Nat → Prop
  | .full, _, _ => False
  | .free, _, _ => True
  | .node _ _, 0, _ => False
  | .node zero one, l + 1, c => if c < 2 ^ l then zero.isFree l c else one.isFree l (c - 2 ^ l)

@[simp] theorem isFree_full (l c : Nat) : isFree .full l c ↔ False := by rw [isFree]

@[simp] theorem isFree_free (l c : Nat) : isFree .free l c ↔ True := by rw [isFree]

@[simp] theorem isFree_node_length_zero (zero one : CodeTree) (c : Nat) : (node zero one).isFree 0 c ↔ False := by
  rw [isFree]

@[simp] theorem isFree_node_one (zero one : CodeTree) (m d : Nat) :
    (node zero one).isFree (m + 1) (2 ^ m + d) ↔ one.isFree m d := by
  simp [isFree]

theorem isFree_node_zero (zero one : CodeTree) {m d : Nat} (hd : d < 2 ^ m) :
    (node zero one).isFree (m + 1) d ↔ zero.isFree m d := by
  simp [isFree, hd]

/-- Folding two full halves changes no free codeword. -/
@[simp] theorem isFree_join (zero one : CodeTree) (m d : Nat) :
    (join zero one).isFree m d ↔ (node zero one).isFree m d := by
  unfold join
  split
  · cases m <;> simp [isFree]
  · rfl

/-! ### Giving out a codeword -/

/-- A free tree is one whose halves are free. -/
theorem alloc_succ_free (l : Nat) : alloc (l + 1) .free = alloc (l + 1) (.node .free .free) := by
  simp only [alloc]
  cases alloc l .free <;> rfl

theorem alloc_node_cases {l c : Nat} {zero one t' : CodeTree} (h : alloc (l + 1) (.node zero one) = some (c, t')) :
    (∃ t, alloc l zero = some (c, t) ∧ t' = join t one) ∨
    (alloc l zero = none ∧ ∃ d t, alloc l one = some (d, t) ∧ c = 2 ^ l + d ∧ t' = join zero t) := by
  simp only [alloc] at h
  split at h
  · next c t hzero => cases h; exact .inl ⟨t, hzero, rfl⟩
  · next hzero =>
    split at h
    · next d t hone => cases h; exact .inr ⟨hzero, d, t, hone, rfl, rfl⟩
    · cases h

theorem alloc_node_eq_none {l : Nat} {zero one : CodeTree} (h : alloc (l + 1) (.node zero one) = none) :
    alloc l zero = none ∧ alloc l one = none := by
  simp only [alloc] at h
  split at h
  · cases h
  · next hzero =>
    split at h
    · cases h
    · next hone => exact ⟨hzero, hone⟩

theorem exists_alloc_free (l : Nat) : ∃ t, alloc l .free = some (0, t) := by
  induction l with
  | zero => exact ⟨_, rfl⟩
  | succ l ih =>
    obtain ⟨t, h⟩ := ih
    exact ⟨join t .free, by rw [alloc, h]⟩

theorem not_isFree_of_alloc_eq_none {l : Nat} {t : CodeTree} (h : alloc l t = none) {c : Nat} (hc : c < 2 ^ l) :
    ¬ t.isFree l c := by
  induction l generalizing t c with
  | zero => cases t <;> simp_all [alloc]
  | succ l ih =>
    cases t with
    | full => simp
    | free =>
      obtain ⟨t, hfree⟩ := exists_alloc_free (l + 1)
      cases h.symm.trans hfree
    | node zero one =>
      obtain ⟨hzero, hone⟩ := alloc_node_eq_none h
      rcases lt_two_pow_succ_cases hc with hlow | ⟨d, hd, rfl⟩
      · rw [isFree_node_zero _ _ hlow]
        exact ih hzero hlow
      · rw [isFree_node_one]
        exact ih hone hd

/-- The codeword given out is the lowest free one of its length. -/
theorem isFree_of_alloc {l c : Nat} {t t' : CodeTree} (h : alloc l t = some (c, t')) :
    t.isFree l c ∧ ∀ d, d < c → ¬ t.isFree l d := by
  induction l generalizing t c t' with
  | zero =>
    cases t with
    | full => cases h
    | free => cases h; simp
    | node zero one => cases h
  | succ l ih =>
    cases t with
    | full => cases h
    | free =>
      obtain ⟨t, hfree⟩ := exists_alloc_free (l + 1)
      cases hfree.symm.trans h
      simp
    | node zero one =>
      rcases alloc_node_cases h with ⟨t, hzero, rfl⟩ | ⟨hzero, d, t, hone, rfl, rfl⟩
      · obtain ⟨hfree, hlowest⟩ := ih hzero
        have hc := alloc_lt hzero
        exact ⟨(isFree_node_zero _ _ hc).2 hfree, fun d hd =>
          (isFree_node_zero _ _ (hd.trans hc)).not.2 (hlowest d hd)⟩
      · obtain ⟨hfree, hlowest⟩ := ih hone
        refine ⟨(isFree_node_one ..).2 hfree, fun e he => ?_⟩
        rcases lt_two_pow_succ_cases (he.trans (alloc_lt h)) with hlow | ⟨e, -, rfl⟩
        · rw [isFree_node_zero _ _ hlow]
          exact not_isFree_of_alloc_eq_none hzero hlow
        · rw [isFree_node_one]
          exact hlowest e (Nat.lt_of_add_lt_add_left he)

/-- After a codeword is given out, a codeword is free when it was free before and is apart from the one given out. -/
theorem isFree_alloc {l c : Nat} {t t' : CodeTree} (h : alloc l t = some (c, t')) {m d : Nat} (hd : d < 2 ^ m) :
    t'.isFree m d ↔ t.isFree m d ∧ apart d m c l := by
  induction l generalizing t c t' m d with
  | zero =>
    have hnot : ¬ apart d m c 0 := apart_comm.not.2 (not_apart_length_zero (alloc_lt h) hd)
    cases t with
    | full => cases h
    | free => cases h; simp [hnot]
    | node zero one => cases h
  | succ l ih =>
    have hnode {zero one : CodeTree} (h : alloc (l + 1) (.node zero one) = some (c, t')) :
        t'.isFree m d ↔ (node zero one).isFree m d ∧ apart d m c (l + 1) := by
      rcases alloc_node_cases h with ⟨t, hzero, rfl⟩ | ⟨-, e, t, hone, rfl, rfl⟩
      · rw [isFree_join]
        cases m with
        | zero => simp
        | succ m =>
          rcases lt_two_pow_succ_cases hd with hlow | ⟨k, hk, rfl⟩
          · rw [isFree_node_zero _ _ hlow, isFree_node_zero _ _ hlow, apart_succ_succ, ih hzero hlow]
          · rw [isFree_node_one, isFree_node_one, apart_comm]
            simp [apart_zero_one (alloc_lt hzero)]
      · rw [isFree_join]
        cases m with
        | zero => simp
        | succ m =>
          rcases lt_two_pow_succ_cases hd with hlow | ⟨k, hk, rfl⟩
          · rw [isFree_node_zero _ _ hlow, isFree_node_zero _ _ hlow]
            simp [apart_zero_one hlow]
          · rw [isFree_node_one, isFree_node_one, apart_one_one, ih hone hk]
    cases t with
    | full => cases h
    | node zero one => exact hnode h
    | free =>
      rw [hnode (alloc_succ_free l ▸ h)]
      cases m with
      | zero => simp [not_apart_length_zero hd (alloc_lt h)]
      | succ m => rcases lt_two_pow_succ_cases hd with hlow | ⟨k, hk, rfl⟩ <;> simp [isFree_node_zero, *]

end CodeTree

/-! ### The whole list -/

/-- The codeword `c` of `l` bits is free in the tree and apart from the codewords of the first `e` entries (R172). -/
def FreeAfter (t : CodeTree) (cs : List (Option (Nat × Nat))) (e l c : Nat) : Prop :=
  t.isFree l c ∧ ∀ f ul uc, f < e → cs[f]? = some (some (ul, uc)) → apart c l uc ul

@[simp] theorem freeAfter_zero (t : CodeTree) (cs : List (Option (Nat × Nat))) (l c : Nat) :
    FreeAfter t cs 0 l c ↔ t.isFree l c := by
  simp [FreeAfter]

@[simp] theorem freeAfter_none_cons (t : CodeTree) (cs : List (Option (Nat × Nat))) (e l c : Nat) :
    FreeAfter t (none :: cs) (e + 1) l c ↔ FreeAfter t cs e l c := by
  refine and_congr_right fun _ => ⟨fun h f ul uc hf hcs => h (f + 1) ul uc (by omega) hcs, fun h f ul uc hf hcs => ?_⟩
  cases f with
  | zero => cases hcs
  | succ f => exact h f ul uc (by omega) hcs

/-- Giving out the head's codeword is being apart from it. -/
theorem freeAfter_some_cons {t t' : CodeTree} {ul uc : Nat} (h : CodeTree.alloc ul t = some (uc, t'))
    (cs : List (Option (Nat × Nat))) (e : Nat) {l c : Nat} (hc : c < 2 ^ l) :
    FreeAfter t (some (ul, uc) :: cs) (e + 1) l c ↔ FreeAfter t' cs e l c := by
  rw [FreeAfter, FreeAfter, CodeTree.isFree_alloc h hc, and_assoc]
  refine and_congr_right fun _ => ⟨fun h => ⟨h 0 ul uc (by omega) rfl, fun f vl vc hf => h (f + 1) vl vc (by omega)⟩,
    fun ⟨hhead, h⟩ f vl vc hf hcs => ?_⟩
  cases f with
  | zero => cases hcs; exact hhead
  | succ f => exact h f vl vc (by omega) hcs

theorem canonicalFrom_zero_cons (t : CodeTree) (ls : List Nat) :
    canonicalFrom t (0 :: ls) = (canonicalFrom t ls).map (none :: ·) := by
  rw [canonicalFrom]
  cases canonicalFrom t ls <;> rfl

theorem canonicalFrom_succ_cons (t : CodeTree) (l : Nat) (ls : List Nat) :
    canonicalFrom t ((l + 1) :: ls) = (CodeTree.alloc (l + 1) t).bind fun a =>
      (canonicalFrom a.2 ls).map (some (l + 1, a.1) :: ·) := by
  rw [canonicalFrom]
  cases CodeTree.alloc (l + 1) t with
  | none => rfl
  | some a => dsimp only [Option.bind_some]; cases canonicalFrom a.2 ls <;> rfl

theorem canonicalFrom_length {t : CodeTree} {lens : List Nat} {cs : List (Option (Nat × Nat))}
    (h : canonicalFrom t lens = some cs) : cs.length = lens.length := by
  induction lens generalizing t cs with
  | nil => cases h; rfl
  | cons l lens ih =>
    cases l with
    | zero =>
      obtain ⟨ds, hds, rfl⟩ := Option.map_eq_some_iff.1 (canonicalFrom_zero_cons t lens ▸ h)
      simp [ih hds]
    | succ l =>
      obtain ⟨a, -, h⟩ := Option.bind_eq_some_iff.1 (canonicalFrom_succ_cons t l lens ▸ h)
      obtain ⟨ds, hds, rfl⟩ := Option.map_eq_some_iff.1 h
      simp [ih hds]

/-- What entry `e` of length `l` gets: nothing when it is unused, else the lowest codeword that is free after the entries
before it. -/
def Assigned (t : CodeTree) (cs : List (Option (Nat × Nat))) (e l : Nat) : Prop :=
  (l = 0 → cs[e]? = some none) ∧
  (0 < l → ∃ c, cs[e]? = some (some (l, c)) ∧ c < 2 ^ l ∧ FreeAfter t cs e l c ∧ ∀ d, d < c → ¬ FreeAfter t cs e l d)

theorem assigned_of_canonicalFrom {t : CodeTree} {lens : List Nat} {cs : List (Option (Nat × Nat))}
    (h : canonicalFrom t lens = some cs) {e l : Nat} (hl : lens[e]? = some l) : Assigned t cs e l := by
  induction lens generalizing t cs e with
  | nil => cases hl
  | cons l₀ lens ih =>
    cases l₀ with
    | zero =>
      obtain ⟨ds, hds, rfl⟩ := Option.map_eq_some_iff.1 (canonicalFrom_zero_cons t lens ▸ h)
      cases e with
      | zero => cases hl; exact ⟨fun _ => rfl, fun h => absurd h (Nat.lt_irrefl 0)⟩
      | succ e =>
        have hrest := ih hds hl
        simpa [Assigned] using hrest
    | succ l₀ =>
      obtain ⟨⟨c₀, t'⟩, halloc, h⟩ := Option.bind_eq_some_iff.1 (canonicalFrom_succ_cons t l₀ lens ▸ h)
      obtain ⟨ds, hds, rfl⟩ := Option.map_eq_some_iff.1 h
      cases e with
      | zero =>
        cases hl
        obtain ⟨hfree, hlowest⟩ := CodeTree.isFree_of_alloc halloc
        exact ⟨nofun, fun _ => ⟨c₀, rfl, alloc_lt halloc, by simpa using hfree, by simpa using hlowest⟩⟩
      | succ e =>
        obtain ⟨hunused, hused⟩ := ih hds hl
        refine ⟨hunused, fun hpos => ?_⟩
        obtain ⟨c, hcs, hc, hfree, hlowest⟩ := hused hpos
        exact ⟨c, hcs, hc, (freeAfter_some_cons halloc ds e hc).2 hfree, fun d hd =>
          (freeAfter_some_cons halloc ds e (hd.trans hc)).not.2 (hlowest d hd)⟩

/-- Some entry finds no codeword of its length that is free after the entries before it. -/
def Stuck (t : CodeTree) (lens : List Nat) : Prop :=
  ∃ (e l : Nat) (cs : List (Option (Nat × Nat))), lens[e]? = some l ∧ 0 < l ∧
    canonicalFrom t (lens.take e) = some cs ∧ ∀ c, c < 2 ^ l → ¬ FreeAfter t cs e l c

/-- An assignment of the whole list begins with the assignment of its beginning. -/
theorem canonicalFrom_take {t : CodeTree} {lens : List Nat} {cs : List (Option (Nat × Nat))}
    (h : canonicalFrom t lens = some cs) (e : Nat) : canonicalFrom t (lens.take e) = some (cs.take e) := by
  induction lens generalizing t cs e with
  | nil => cases h; simp [canonicalFrom]
  | cons l lens ih =>
    cases e with
    | zero => simp [canonicalFrom]
    | succ e =>
      cases l with
      | zero =>
        obtain ⟨ds, hds, rfl⟩ := Option.map_eq_some_iff.1 (canonicalFrom_zero_cons t lens ▸ h)
        rw [List.take_succ_cons, canonicalFrom_zero_cons, ih hds]
        rfl
      | succ l =>
        obtain ⟨a, halloc, h⟩ := Option.bind_eq_some_iff.1 (canonicalFrom_succ_cons t l lens ▸ h)
        obtain ⟨ds, hds, rfl⟩ := Option.map_eq_some_iff.1 h
        rw [List.take_succ_cons, canonicalFrom_succ_cons, halloc, Option.bind_some, ih hds]
        rfl

theorem stuck_of_canonicalFrom_eq_none {t : CodeTree} {lens : List Nat} (h : canonicalFrom t lens = none) :
    Stuck t lens := by
  induction lens generalizing t with
  | nil => cases h
  | cons l lens ih =>
    cases l with
    | zero =>
      obtain ⟨e, l, cs, hl, hpos, hcs, hstuck⟩ := ih (Option.map_eq_none_iff.1 (canonicalFrom_zero_cons t lens ▸ h))
      exact ⟨e + 1, l, none :: cs, hl, hpos, by rw [List.take_succ_cons, canonicalFrom_zero_cons, hcs]; rfl,
        by simpa using hstuck⟩
    | succ l₀ =>
      cases halloc : CodeTree.alloc (l₀ + 1) t with
      | none =>
        exact ⟨0, l₀ + 1, [], rfl, Nat.succ_pos _, rfl, fun c hc =>
          (freeAfter_zero ..).not.2 (CodeTree.not_isFree_of_alloc_eq_none halloc hc)⟩
      | some a =>
        rw [canonicalFrom_succ_cons, halloc, Option.bind_some, Option.map_eq_none_iff] at h
        obtain ⟨e, l, cs, hl, hpos, hcs, hstuck⟩ := ih h
        exact ⟨e + 1, l, some (l₀ + 1, a.1) :: cs, hl, hpos,
          by rw [List.take_succ_cons, canonicalFrom_succ_cons, halloc, Option.bind_some, hcs]; rfl,
          fun c hc => (freeAfter_some_cons halloc cs e hc).not.2 (hstuck c hc)⟩

theorem not_stuck_of_canonicalFrom_eq_some {t : CodeTree} {lens : List Nat} {cs : List (Option (Nat × Nat))}
    (h : canonicalFrom t lens = some cs) : ¬ Stuck t lens := by
  rintro ⟨e, l, ds, hl, hpos, hds, hstuck⟩
  cases (canonicalFrom_take h e).symm.trans hds
  obtain ⟨c, -, hc, ⟨hfree, hapart⟩, -⟩ := (assigned_of_canonicalFrom h hl).2 hpos
  refine hstuck c hc ⟨hfree, fun f ul uc hf hcs => hapart f ul uc hf ?_⟩
  rwa [List.getElem?_take_of_lt hf] at hcs

theorem canonicalFrom_eq_none_iff {t : CodeTree} {lens : List Nat} : canonicalFrom t lens = none ↔ Stuck t lens := by
  refine ⟨stuck_of_canonicalFrom_eq_none, fun hstuck => ?_⟩
  cases h : canonicalFrom t lens with
  | none => rfl
  | some cs => exact absurd hstuck (not_stuck_of_canonicalFrom_eq_some h)

/-- Settles O26: every codeword is free in the tree with which the assignment begins. -/
theorem canonicalCodes_spec : Obligations.CanonicalCodes := by
  unfold Obligations.CanonicalCodes
  intro lens free
  have hfree (cs : List (Option (Nat × Nat))) (e l c : Nat) : FreeAfter .free cs e l c ↔ free cs e l c := by
    simp [FreeAfter, free]
  simp only [← hfree]
  exact ⟨fun cs h => ⟨canonicalFrom_length h, fun e l => assigned_of_canonicalFrom h⟩, canonicalFrom_eq_none_iff⟩

end Sys2Proof.Machine
end

section
/-! SUPPORT. Stored codes (R173) and what is built of them: the direct table (R174) and the overflow chain (R175, R176). Both
rest on one fact, that no stored code begins another. O27 follows. -/

namespace Sys2Proof.Machine

/-! ### The lengths (R39) -/

theorem foldl_max_le_iff {ls : List Nat} {a b : Nat} : ls.foldl max a ≤ b ↔ a ≤ b ∧ ∀ l ∈ ls, l ≤ b := by
  induction ls generalizing a with
  | nil => simp
  | cons l ls ih => simp [ih, and_assoc]

theorem le_foldl_min_iff {ls : List Nat} {a b : Nat} : b ≤ ls.foldl min a ↔ b ≤ a ∧ ∀ l ∈ ls, b ≤ l := by
  induction ls generalizing a with
  | nil => simp
  | cons l ls ih => simp [ih, and_assoc]

theorem codeOf_eq_some_iff {codes : List (Option Code)} {e : Nat} {c : Code} :
    codeOf codes e = some c ↔ codes[e]? = some (some c) := by
  rw [codeOf, List.getD_eq_getElem?_getD]
  cases codes[e]? <;> simp

theorem mem_usedLens_iff {codes : List (Option Code)} {l : Nat} :
    l ∈ usedLens codes ↔ ∃ e c, codeOf codes e = some c ∧ c.len = l := by
  simp only [usedLens, List.mem_filterMap, Option.map_eq_some_iff, codeOf_eq_some_iff]
  constructor
  · rintro ⟨_, hmem, c, rfl, hl⟩
    obtain ⟨e, he⟩ := List.mem_iff_getElem?.1 hmem
    exact ⟨e, c, he, hl⟩
  · rintro ⟨e, c, he, hl⟩
    exact ⟨_, List.mem_of_getElem? he, c, rfl, hl⟩

theorem maxLenOf_le_iff {codes : List (Option Code)} {n : Nat} :
    maxLenOf codes ≤ n ↔ ∀ e c, codeOf codes e = some c → c.len ≤ n := by
  simp only [maxLenOf, foldl_max_le_iff, mem_usedLens_iff]
  exact ⟨fun ⟨_, h⟩ e c he => h _ ⟨e, c, he, rfl⟩, fun h => ⟨n.zero_le, fun _ ⟨e, c, he, hl⟩ => hl ▸ h e c he⟩⟩

section Entry

variable {codes : List (Option Code)} {e : Nat} {c : Code} (h : codeOf codes e = some c)
include h

theorem lenOf_codeOf : lenOf (codeOf codes e) = c.len := by rw [h]; rfl

theorem len_le_maxLenOf : c.len ≤ maxLenOf codes := maxLenOf_le_iff.1 le_rfl e c h

theorem minLenOf_le_len : minLenOf codes ≤ c.len :=
  (le_foldl_min_iff.1 le_rfl).2 _ (mem_usedLens_iff.2 ⟨e, c, h, rfl⟩)

end Entry

/-! ### Stored codes (R173) -/

theorem reverseBits_lt (l c : Nat) : reverseBits l c < 2 ^ l := by
  induction l generalizing c with
  | zero => simp [reverseBits]
  | succ l ih =>
    have hrest := ih (c / 2)
    rcases Nat.mod_two_eq_zero_or_one c with hbit | hbit <;> simp only [reverseBits, hbit, Nat.pow_succ] <;> omega

theorem testBit_reverseBits (l c i : Nat) :
    (reverseBits l c).testBit i = (decide (i < l) && c.testBit (l - 1 - i)) := by
  induction l generalizing c with
  | zero => simp [reverseBits]
  | succ l ih =>
    rw [reverseBits, Nat.mul_comm, Nat.testBit_two_pow_mul_add _ (reverseBits_lt l _), ih]
    rcases Nat.lt_trichotomy i l with hlow | rfl | hhigh
    · rw [if_pos hlow, Nat.testBit_div_two, show l - 1 - i + 1 = l + 1 - 1 - i by omega]
      simp [hlow, Nat.lt_succ_of_lt hlow]
    · simp [Nat.testBit_zero]
    · have hbeyond : (c % 2).testBit (i - l) = false :=
        Nat.testBit_lt_two_pow (lt_of_lt_of_le (Nat.mod_lt c (by decide)) (Nat.le_self_pow (by omega) 2))
      simp [hhigh.not_gt, hbeyond, show ¬ i < l + 1 by omega]

/-- The low `l` bits of a number are a reversed codeword when they are the codeword's bits from the most significant on. -/
theorem mod_eq_reverseBits_iff {v l c : Nat} :
    v % 2 ^ l = reverseBits l c ↔ ∀ i, i < l → v.testBit i = c.testBit (l - 1 - i) := by
  constructor
  · intro h i hi
    have hbit := congrArg (·.testBit i) h
    simpa [testBit_reverseBits, hi] using hbit
  · intro h
    apply Nat.eq_of_testBit_eq
    intro i
    rw [Nat.testBit_mod_two_pow, testBit_reverseBits]
    by_cases hi : i < l
    · rw [h i hi]
    · simp [hi]

/-- Apart codewords have stored codes of which the shorter does not begin the longer. -/
theorem reverseBits_mod_ne_of_apart {l c m d : Nat} (hlm : l ≤ m) (hc : c < 2 ^ l) (hd : d < 2 ^ m) (h : apart c l d m) :
    reverseBits m d % 2 ^ l ≠ reverseBits l c := by
  rw [Ne, mod_eq_reverseBits_iff]
  intro hbits
  refine h (Nat.eq_of_testBit_eq fun j => ?_)
  rw [Nat.min_eq_left hlm, Nat.sub_self, Nat.shiftRight_zero, Nat.testBit_shiftRight]
  by_cases hj : j < l
  · have hbit := hbits (l - 1 - j) (by omega)
    rw [testBit_reverseBits, show l - 1 - (l - 1 - j) = j by omega, show m - 1 - (l - 1 - j) = m - l + j by omega] at hbit
    simpa [show l - 1 - j < m by omega] using hbit.symm
  · rw [Nat.testBit_lt_two_pow (hc.trans_le (Nat.pow_le_pow_right (by decide) (by omega))),
      Nat.testBit_lt_two_pow (hd.trans_le (Nat.pow_le_pow_right (by decide) (by omega)))]

/-- The codes of a codebook: stored codes of at most 32 bits none of which begins another (R172, R173, R192). -/
structure PrefixCodes (codes : List (Option Code)) : Prop where
  len_le : ∀ {e c}, codeOf codes e = some c → c.len ≤ 32
  code_lt : ∀ {e c}, codeOf codes e = some c → c.code.toNat < 2 ^ c.len
  not_begins : ∀ {e f c d}, e ≠ f → codeOf codes e = some c → codeOf codes f = some d → c.len ≤ d.len →
    d.code.toNat % 2 ^ c.len ≠ c.code.toNat

theorem storedCode_toNat {l : Nat} (hl : l ≤ 32) (c : Nat) : (storedCode (l, c)).code.toNat = reverseBits l c :=
  Nat.mod_eq_of_lt ((reverseBits_lt l c).trans_le (Nat.pow_le_pow_right (by decide) hl))

theorem codeOf_map_storedCode {cs : List (Option (Nat × Nat))} {e : Nat} {o : Option (Nat × Nat)} (h : cs[e]? = some o) :
    codeOf (cs.map fun c => c.map storedCode) e = o.map storedCode := by
  simp [codeOf, h]

theorem exists_codeword_of_codeOf {cs : List (Option (Nat × Nat))} {e : Nat} {c : Code}
    (h : codeOf (cs.map fun c => c.map storedCode) e = some c) :
    ∃ l k, cs[e]? = some (some (l, k)) ∧ c = storedCode (l, k) := by
  rw [codeOf_eq_some_iff, List.getElem?_map, Option.map_eq_some_iff] at h
  obtain ⟨o, ho, h⟩ := h
  obtain ⟨⟨l, k⟩, rfl, rfl⟩ := Option.map_eq_some_iff.1 h
  exact ⟨l, k, ho, rfl⟩

section Canonical

variable {lens : List Nat} {cs : List (Option (Nat × Nat))} (h : canonicalCodes lens = some cs)
include h

theorem assigned_of_canonicalCodes {e l c : Nat} (he : cs[e]? = some (some (l, c))) :
    lens[e]? = some l ∧ c < 2 ^ l ∧ FreeAfter .free cs e l c := by
  have hlt : e < lens.length := canonicalFrom_length h ▸ (List.getElem?_eq_some_iff.1 he).1
  obtain ⟨hunused, hused⟩ := assigned_of_canonicalFrom h (List.getElem?_eq_getElem hlt)
  rcases Nat.eq_zero_or_pos lens[e] with hzero | hpos
  · cases he.symm.trans (hunused hzero)
  · obtain ⟨d, hd, hdlt, hfree, -⟩ := hused hpos
    cases he.symm.trans hd
    exact ⟨List.getElem?_eq_getElem hlt, hdlt, hfree⟩

theorem apart_of_canonicalCodes {e f l c m d : Nat} (hef : e ≠ f) (he : cs[e]? = some (some (l, c)))
    (hf : cs[f]? = some (some (m, d))) : apart c l d m := by
  rcases Nat.lt_or_gt_of_ne hef with hlt | hgt
  · obtain ⟨-, -, -, hapart⟩ := assigned_of_canonicalCodes h hf
    exact apart_comm.1 (hapart e l c hlt he)
  · obtain ⟨-, -, -, hapart⟩ := assigned_of_canonicalCodes h he
    exact hapart f m d hgt hf

theorem prefixCodes_of_canonicalCodes (hlens : ∀ l ∈ lens, l ≤ 32) : PrefixCodes (cs.map fun c => c.map storedCode) := by
  have hshort {e l c : Nat} (he : cs[e]? = some (some (l, c))) : l ≤ 32 :=
    hlens l (List.mem_of_getElem? (assigned_of_canonicalCodes h he).1)
  refine ⟨fun {e c} he => ?_, fun {e c} he => ?_, fun {e f c d} hef he hf hlen => ?_⟩
  · obtain ⟨l, k, hcs, rfl⟩ := exists_codeword_of_codeOf he
    exact hshort hcs
  · obtain ⟨l, k, hcs, rfl⟩ := exists_codeword_of_codeOf he
    rw [storedCode_toNat (hshort hcs)]
    exact reverseBits_lt l k
  · obtain ⟨l, k, hcs, rfl⟩ := exists_codeword_of_codeOf he
    obtain ⟨m, j, hds, rfl⟩ := exists_codeword_of_codeOf hf
    rw [storedCode_toNat (hshort hcs), storedCode_toNat (hshort hds)]
    exact reverseBits_mod_ne_of_apart hlen (assigned_of_canonicalCodes h hcs).2.1 (assigned_of_canonicalCodes h hds).2.1
      (apart_of_canonicalCodes h hef hcs hds)

end Canonical

/-- The test of R173, in numbers. -/
theorem hits_iff {c : Code} {v : Word} (hlen : c.len ≤ 32) : c.hits v = true ↔ v.toNat % 2 ^ c.len = c.code.toNat := by
  have hmask : 2 ^ c.len - 1 < 2 ^ 64 :=
    (Nat.sub_lt (Nat.two_pow_pos _) Nat.one_pos).trans_le (Nat.pow_le_pow_right (by decide) (by omega))
  have hcode : c.code.toNat < 2 ^ 64 := c.code.isLt.trans (by decide)
  rw [Code.hits, Code.mask, beq_iff_eq, ← BitVec.toNat_inj, BitVec.toNat_and, BitVec.toNat_ofNat, Nat.mod_eq_of_lt hmask,
    Nat.and_two_pow_sub_one_eq_mod, BitVec.toNat_setWidth, Nat.mod_eq_of_lt hcode]

/-- Number `v` begins, from its lowest bit on, with the code `c`. -/
abbrev Code.begins (c : Code) (v : Nat) : Prop := v % 2 ^ c.len = c.code.toNat

/-- At most one entry's code begins a number. -/
theorem PrefixCodes.begins_unique {codes : List (Option Code)} (h : PrefixCodes codes) {v e f : Nat} {c d : Code}
    (he : codeOf codes e = some c) (hc : c.begins v) (hf : codeOf codes f = some d) (hd : d.begins v) : e = f := by
  have hnot {e f : Nat} {c d : Code} (hef : e ≠ f) (he : codeOf codes e = some c) (hc : c.begins v)
      (hf : codeOf codes f = some d) (hd : d.begins v) (hlen : c.len ≤ d.len) : False := by
    refine h.not_begins hef he hf hlen ?_
    rw [← hd, Nat.mod_mod_of_dvd _ (Nat.pow_dvd_pow 2 hlen), hc]
  by_contra hef
  rcases Nat.le_total c.len d.len with hlen | hlen
  · exact hnot hef he hc hf hd hlen
  · exact hnot (Ne.symm hef) hf hd he hc hlen

/-! ### The direct table (R174) -/

theorem foldl_set_length {α : Type} (f : Nat → Nat) (v : α) (js : List Nat) (t : List α) :
    (js.foldl (fun t j => t.set (f j) v) t).length = t.length := by
  induction js generalizing t with
  | nil => rfl
  | cons j js ih => rw [List.foldl_cons, ih, List.length_set]

theorem foldl_set_getElem? {α : Type} (f : Nat → Nat) (v : α) (js : List Nat) {t : List α} {i : Nat} (hi : i < t.length) :
    (js.foldl (fun t j => t.set (f j) v) t)[i]? = if ∃ j ∈ js, f j = i then some v else t[i]? := by
  induction js generalizing t with
  | nil => simp
  | cons j js ih =>
    rw [List.foldl_cons, ih (by simpa using hi), List.getElem?_set]
    by_cases hrest : ∃ j ∈ js, f j = i
    · simp [hrest]
    · by_cases hj : f j = i <;> simp [hrest, hj, hi]

/-- The slots of an entry are those whose index begins with its code. -/
theorem exists_slot_iff {c : Code} {bits i : Nat} (hcode : c.code.toNat < 2 ^ c.len) (hlen : c.len ≤ bits)
    (hi : i < 2 ^ bits) :
    (∃ j ∈ List.range (2 ^ (bits - c.len)), c.code.toNat ||| (j <<< c.len) = i) ↔ c.begins i := by
  have hslot (j : Nat) : c.code.toNat ||| (j <<< c.len) = 2 ^ c.len * j + c.code.toNat := by
    rw [Nat.shiftLeft_eq, Nat.or_comm, Nat.mul_comm, Nat.two_pow_add_eq_or_of_lt hcode]
  simp only [hslot, List.mem_range, Code.begins]
  constructor
  · rintro ⟨j, -, rfl⟩
    rw [Nat.mul_add_mod, Nat.mod_eq_of_lt hcode]
  · intro h
    refine ⟨i / 2 ^ c.len, ?_, by rw [← h, Nat.div_add_mod]⟩
    rwa [Nat.div_lt_iff_lt_mul (Nat.two_pow_pos _), Nat.pow_sub_mul_pow 2 hlen]

theorem fillSlots_getElem? {c : Code} {bits : Nat} {table : List (Option Nat)} (hcode : c.code.toNat < 2 ^ c.len)
    (hlen : c.len ≤ bits) (htable : table.length = 2 ^ bits) {i : Nat} (hi : i < 2 ^ bits) (e : Nat) :
    (fillSlots bits e c table)[i]? = if c.begins i then some (some e) else table[i]? := by
  rw [fillSlots, foldl_set_getElem? _ _ _ (htable ▸ hi)]
  simp only [exists_slot_iff hcode hlen hi]

/-- Write one entry into all its slots. -/
def fillEntry (bits e : Nat) (o : Option Code) (table : List (Option Nat)) : List (Option Nat) :=
  match o with
  | none => table
  | some c => if c.len ≤ bits then fillSlots bits e c table else table

theorem fillEntries_cons (bits e : Nat) (o : Option Code) (codes : List (Option Code)) (table : List (Option Nat)) :
    fillEntries bits (o :: codes) e table = fillEntries bits codes (e + 1) (fillEntry bits e o table) := by
  cases o <;> rfl

/-- Slot `i` belongs to the entry with this code: the code is no longer than the index, which it begins. -/
def HasSlot (bits i : Nat) (o : Option Code) : Prop := ∃ c, o = some c ∧ c.len ≤ bits ∧ c.begins i

theorem fillEntry_length (bits e : Nat) (o : Option Code) (table : List (Option Nat)) :
    (fillEntry bits e o table).length = table.length := by
  unfold fillEntry
  split
  · rfl
  · split
    · exact foldl_set_length ..
    · rfl

theorem fillEntries_length (bits e : Nat) (codes : List (Option Code)) (table : List (Option Nat)) :
    (fillEntries bits codes e table).length = table.length := by
  induction codes generalizing e table with
  | nil => rfl
  | cons o codes ih => rw [fillEntries_cons, ih, fillEntry_length]

section Slots

variable {bits i : Nat} (hi : i < 2 ^ bits) {table : List (Option Nat)} (htable : table.length = 2 ^ bits)
include hi htable

theorem fillEntry_of_hasSlot {o : Option Code} (hcode : ∀ c ∈ o, c.code.toNat < 2 ^ c.len) (h : HasSlot bits i o)
    (e : Nat) : (fillEntry bits e o table)[i]? = some (some e) := by
  obtain ⟨c, rfl, hlen, hbegins⟩ := h
  simp only [fillEntry, if_pos hlen, fillSlots_getElem? (hcode c rfl) hlen htable hi, if_pos hbegins]

theorem fillEntry_of_not_hasSlot {o : Option Code} (hcode : ∀ c ∈ o, c.code.toNat < 2 ^ c.len) (h : ¬ HasSlot bits i o)
    (e : Nat) : (fillEntry bits e o table)[i]? = table[i]? := by
  cases o with
  | none => rfl
  | some c =>
    by_cases hlen : c.len ≤ bits
    · have hbegins : ¬ c.begins i := fun hb => h ⟨c, rfl, hlen, hb⟩
      simp only [fillEntry, if_pos hlen, fillSlots_getElem? (hcode c rfl) hlen htable hi, if_neg hbegins]
    · simp only [fillEntry, if_neg hlen]

/-- What stands in a slot stood there before or is an entry to which the slot belongs. -/
theorem hasSlot_of_fillEntries {codes : List (Option Code)} (hcode : ∀ o ∈ codes, ∀ c ∈ o, c.code.toNat < 2 ^ c.len)
    {e x : Nat} (h : (fillEntries bits codes e table)[i]? = some (some x)) :
    table[i]? = some (some x) ∨ ∃ j o, x = e + j ∧ codes[j]? = some o ∧ HasSlot bits i o := by
  induction codes generalizing e table with
  | nil => exact .inl h
  | cons o codes ih =>
    obtain ⟨ho, hrest⟩ := List.forall_mem_cons.1 hcode
    rw [fillEntries_cons] at h
    rcases ih (by rw [fillEntry_length, htable]) hrest h with hhead | ⟨j, q, rfl, hq, hslot⟩
    · by_cases hslot : HasSlot bits i o
      · rw [fillEntry_of_hasSlot hi htable ho hslot] at hhead
        cases hhead
        exact .inr ⟨0, o, rfl, rfl, hslot⟩
      · rw [fillEntry_of_not_hasSlot hi htable ho hslot] at hhead
        exact .inl hhead
    · exact .inr ⟨j + 1, q, by omega, hq, hslot⟩

/-- A slot that was filled or belongs to an entry is filled. -/
theorem exists_of_fillEntries {codes : List (Option Code)} (hcode : ∀ o ∈ codes, ∀ c ∈ o, c.code.toNat < 2 ^ c.len)
    (e : Nat) (h : (∃ x : Nat, table[i]? = some (some x)) ∨
      ∃ (j : Nat) (o : Option Code), codes[j]? = some o ∧ HasSlot bits i o) :
    ∃ x, (fillEntries bits codes e table)[i]? = some (some x) := by
  induction codes generalizing e table with
  | nil =>
    rcases h with h | ⟨j, o, hj, -⟩
    · exact h
    · cases hj
  | cons o codes ih =>
    obtain ⟨ho, hrest⟩ := List.forall_mem_cons.1 hcode
    rw [fillEntries_cons]
    refine ih (by rw [fillEntry_length, htable]) hrest (e + 1) ?_
    by_cases hslot : HasSlot bits i o
    · exact .inl ⟨e, fillEntry_of_hasSlot hi htable ho hslot e⟩
    · rw [fillEntry_of_not_hasSlot hi htable ho hslot]
      refine h.imp_right fun ⟨j, q, hq, hj⟩ => ?_
      cases j with
      | zero => cases hq; exact absurd hj hslot
      | succ j => exact ⟨j, q, hq, hj⟩

end Slots

theorem prefixTable_length (codes : List (Option Code)) : (prefixTable codes).length = 2 ^ tableBitsOf codes := by
  simp [prefixTable, fillEntries_length]

/-- Each slot holds the entry whose code begins the slot's index, if there is one. -/
theorem prefixTable_getElem?_iff {codes : List (Option Code)} (h : PrefixCodes codes) {i e : Nat}
    (hi : i < 2 ^ tableBitsOf codes) :
    (prefixTable codes)[i]? = some (some e) ↔ ∃ c, codeOf codes e = some c ∧ c.len ≤ tableBitsOf codes ∧ c.begins i := by
  have hempty : (List.replicate (2 ^ tableBitsOf codes) (none : Option Nat)).length = 2 ^ tableBitsOf codes :=
    List.length_replicate
  have hcode : ∀ o ∈ codes, ∀ c ∈ o, c.code.toNat < 2 ^ c.len := by
    rintro o ho c rfl
    obtain ⟨e, he⟩ := List.mem_iff_getElem?.1 ho
    exact h.code_lt (codeOf_eq_some_iff.2 he)
  have hsound {x : Nat} (hx : (prefixTable codes)[i]? = some (some x)) :
      ∃ c, codeOf codes x = some c ∧ c.len ≤ tableBitsOf codes ∧ c.begins i := by
    rcases hasSlot_of_fillEntries hi hempty hcode hx with hnone | ⟨j, o, rfl, hj, c, rfl, hslot⟩
    · rw [List.getElem?_replicate_of_lt hi] at hnone
      cases hnone
    · rw [Nat.zero_add]
      exact ⟨c, codeOf_eq_some_iff.2 hj, hslot⟩
  refine ⟨hsound, fun ⟨c, he, hlen, hbegins⟩ => ?_⟩
  obtain ⟨x, hx⟩ := exists_of_fillEntries hi hempty hcode 0 (.inr ⟨e, _, codeOf_eq_some_iff.1 he, c, rfl, hlen, hbegins⟩)
  obtain ⟨d, hd, -, hdbegins⟩ := hsound hx
  rwa [h.begins_unique he hbegins hd hdbegins]

/-! ### The overflow chain (R175, R176) -/

theorem chainInsert_perm (a : Nat × Code) (bs : List (Nat × Code)) : (chainInsert a bs).Perm (a :: bs) := by
  induction bs with
  | nil => exact .refl _
  | cons b bs ih =>
    rw [chainInsert]
    split
    · exact .refl _
    · exact (ih.cons b).trans (.swap a b bs)

/-- The order of R176, spelt out. -/
theorem chainBefore_iff {a b : Nat × Code} : chainBefore a b = true ↔
    a.2.len < b.2.len ∨ (a.2.len = b.2.len ∧ a.2.code.toNat ≤ b.2.code.toNat) := by
  simp [chainBefore]

theorem chainInsert_pairwise (a : Nat × Code) {bs : List (Nat × Code)} (h : bs.Pairwise (chainBefore · · = true)) :
    (chainInsert a bs).Pairwise (chainBefore · · = true) := by
  induction bs with
  | nil => simp [chainInsert]
  | cons b bs ih =>
    obtain ⟨hb, hbs⟩ := List.pairwise_cons.1 h
    rw [chainInsert]
    split
    · next hab =>
      refine List.pairwise_cons.2 ⟨List.forall_mem_cons.2 ⟨hab, fun x hx => ?_⟩, h⟩
      have hbx := hb x hx
      rw [chainBefore_iff] at hab hbx ⊢
      omega
    · next hab =>
      refine List.pairwise_cons.2 ⟨fun x hx => ?_, ih hbs⟩
      rcases List.mem_cons.1 ((chainInsert_perm a bs).mem_iff.1 hx) with rfl | hx
      · rw [chainBefore_iff] at hab ⊢
        omega
      · exact hb x hx

theorem chainFrom_pairwise (bits : Nat) (codes : List (Option Code)) (e : Nat) :
    (chainFrom bits codes e).Pairwise (chainBefore · · = true) := by
  induction codes generalizing e with
  | nil => exact .nil
  | cons o codes ih =>
    cases o with
    | none => exact ih (e + 1)
    | some c =>
      rw [chainFrom]
      split
      · exact chainInsert_pairwise _ (ih (e + 1))
      · exact ih (e + 1)

theorem mem_chainFrom_iff {bits : Nat} {codes : List (Option Code)} {e x : Nat} {c : Code} :
    (x, c) ∈ chainFrom bits codes e ↔ ∃ j, x = e + j ∧ codes[j]? = some (some c) ∧ bits < c.len := by
  induction codes generalizing e with
  | nil => simp [chainFrom]
  | cons o codes ih =>
    have htail : (x, c) ∈ chainFrom bits codes (e + 1) ↔
        ∃ j, x = e + (j + 1) ∧ codes[j]? = some (some c) ∧ bits < c.len := by
      simp only [ih, Nat.add_assoc, Nat.add_comm 1]
    rw [← Nat.or_exists_add_one]
    cases o with
    | none => simp [chainFrom, htail]
    | some d =>
      rw [chainFrom]
      split
      · next hlen =>
        rw [(chainInsert_perm ..).mem_iff, List.mem_cons, htail]
        refine or_congr ⟨fun h => ?_, fun ⟨hx, hc, _⟩ => ?_⟩ Iff.rfl
        · cases h
          exact ⟨rfl, rfl, hlen⟩
        · cases hx
          cases hc
          rfl
      · next hlen =>
        rw [htail]
        refine (or_iff_right fun ⟨_, hc, hlt⟩ => ?_).symm
        cases hc
        exact hlen hlt

theorem chainFrom_nodup (bits : Nat) (codes : List (Option Code)) (e : Nat) :
    ((chainFrom bits codes e).map Prod.fst).Nodup := by
  induction codes generalizing e with
  | nil => exact .nil
  | cons o codes ih =>
    cases o with
    | none => exact ih (e + 1)
    | some c =>
      rw [chainFrom]
      split
      · rw [((chainInsert_perm ..).map Prod.fst).nodup_iff, List.map_cons, List.nodup_cons]
        refine ⟨fun hmem => ?_, ih (e + 1)⟩
        obtain ⟨⟨x, d⟩, hx, rfl⟩ := List.mem_map.1 hmem
        obtain ⟨j, hj, -⟩ := mem_chainFrom_iff.1 hx
        simp only at hj
        omega
      · exact ih (e + 1)

theorem mem_overflowChain_iff {codes : List (Option Code)} {e : Nat} :
    e ∈ overflowChain codes ↔ ∃ c, codeOf codes e = some c ∧ tableBitsOf codes < c.len := by
  simp [overflowChain, mem_chainFrom_iff, codeOf_eq_some_iff]

/-- The chain is in the order of R176, strictly: two codes of one length differ. -/
theorem overflowChain_pairwise {codes : List (Option Code)} (h : PrefixCodes codes) :
    (overflowChain codes).Pairwise fun e f => ∀ c d, codeOf codes e = some c → codeOf codes f = some d →
      c.len < d.len ∨ (c.len = d.len ∧ c.code.toNat < d.code.toNat) := by
  have hdistinct := List.pairwise_map.1 (chainFrom_nodup (tableBitsOf codes) codes 0)
  refine List.pairwise_map.2 (((chainFrom_pairwise ..).and hdistinct).imp_of_mem ?_)
  rintro ⟨e, c'⟩ ⟨f, d'⟩ he hf ⟨hbefore, hef⟩ c d hc hd
  obtain ⟨j, rfl, hj, -⟩ := mem_chainFrom_iff.1 he
  obtain ⟨k, rfl, hk, -⟩ := mem_chainFrom_iff.1 hf
  simp only [Nat.zero_add] at hc hd hef
  cases (codeOf_eq_some_iff.1 hc).symm.trans hj
  cases (codeOf_eq_some_iff.1 hd).symm.trans hk
  refine (chainBefore_iff.1 hbefore).imp_right fun ⟨hlen, hle⟩ => ⟨hlen, hle.lt_of_ne fun hcode => ?_⟩
  refine h.not_begins hef hc hd hlen.le ?_
  rw [hlen, Nat.mod_eq_of_lt (h.code_lt hd), ← hcode]

/-! ### The codebook (R177) -/

theorem buildCodebook_eq {lens : List Nat} {cs : List (Option (Nat × Nat))} (h : canonicalCodes lens = some cs)
    (dim : Nat) : buildCodebook dim lens = some
      { dim := dim
        codes := cs.map fun c => c.map storedCode
        prefixes := prefixTable (cs.map fun c => c.map storedCode)
        chain := overflowChain (cs.map fun c => c.map storedCode)
        mapType := .noTable
        lut := [] } := by
  rw [buildCodebook, h]

theorem len_le_maxLenOf_codes (b : Codebook) (e : Nat) : b.len e ≤ maxLenOf b.codes := by
  rw [Codebook.len]
  cases h : codeOf b.codes e with
  | none => exact Nat.zero_le _
  | some c => exact len_le_maxLenOf h

/-- Settles O27: the tables are those of stored codes none of which begins another (`PrefixCodes`). -/
theorem storedCodesAndTables : Obligations.StoredCodesAndTables := by
  unfold Obligations.StoredCodesAndTables
  refine ⟨fun l c i hi => by simp [testBit_reverseBits, hi], reverseBits_lt, fun c v => hits_iff, ?_⟩
  intro dim lens b cs hlens hcs hb
  have codes := prefixCodes_of_canonicalCodes hcs hlens
  rw [buildCodebook_eq hcs] at hb
  cases hb
  exact ⟨rfl, rfl, by rw [Codebook.entries, List.length_map, canonicalFrom_length hcs],
    fun e l c => codeOf_map_storedCode, fun e => codeOf_map_storedCode, len_le_maxLenOf_codes _,
    fun e c => minLenOf_le_len, rfl, prefixTable_length _, fun i e => prefixTable_getElem?_iff codes,
    fun e => mem_overflowChain_iff, chainFrom_nodup .., overflowChain_pairwise codes⟩

end Sys2Proof.Machine
end

section
/-! SUPPORT. What a codeword decode finds (R178 to R181): the entry whose stored code begins the bits ahead, in the direct
table when it is short and in the chain when it is long. O28 and O29 follow. -/

namespace Sys2Proof.Machine

/-! ### The bits ahead (R121, R122) -/

theorem testBit_bitsAt (bs : List Byte) (q n i : Nat) :
    (bitsAt bs q n).testBit i = (decide (i < n) && decide (bitAt bs (q + i) = 1)) := by
  induction n generalizing q i with
  | zero => simp [bitsAt]
  | succ n ih =>
    have hbit := bitAt_lt bs q
    rw [bitsAt]
    cases i with
    | zero => simp [Nat.testBit_zero, Nat.mod_eq_of_lt hbit]
    | succ i =>
      rw [Nat.testBit_succ, show (bitAt bs q + 2 * bitsAt bs (q + 1) n) / 2 = bitsAt bs (q + 1) n by omega, ih,
        show q + 1 + i = q + (i + 1) by omega]
      simp

/-- What a peek of `k` bits shows, bit by bit: the bits ahead, continued by zeros (R181). -/
theorem testBit_bcPeek {s : State} {k i : Nat} (hi : i < k) :
    (s.bcPeek k).2.1.testBit i = decide (s.bitAhead i = 1) := by
  show (bitsAt _ _ (min k s.bcAvail)).testBit i = _
  rw [testBit_bitsAt, State.bitAhead]
  by_cases hr : i < s.bcAvail <;> simp [hi, hr]

theorem bcPeek_lt (s : State) (k : Nat) : (s.bcPeek k).2.1 < 2 ^ k :=
  (bitsAt_lt ..).trans_le (Nat.pow_le_pow_right (by decide) (Nat.min_le_left ..))

theorem bcPeek_mod {s : State} {l k : Nat} (h : l ≤ k) : (s.bcPeek k).2.1 % 2 ^ l = (s.bcPeek l).2.1 := by
  apply Nat.eq_of_testBit_eq
  intro i
  rw [Nat.testBit_mod_two_pow]
  by_cases hi : i < l
  · simp [hi, testBit_bcPeek hi, testBit_bcPeek (hi.trans_le h)]
  · rw [Nat.testBit_lt_two_pow ((bcPeek_lt s l).trans_le (Nat.pow_le_pow_right (by decide) (Nat.not_lt.1 hi)))]
    simp [hi]

/-- A second peek forgets the first. -/
theorem bcPeek_bcPeek (s : State) (m n : Nat) : (s.bcPeek m).1.bcPeek n = s.bcPeek n := rfl

/-- The bits ahead begin with a stored code. -/
def State.codeAhead (s : State) (c : Code) : Prop := (s.bcPeek c.len).2.1 = c.code.toNat

/-- Any peek that is wide enough tells whether a code is ahead. -/
theorem begins_bcPeek_iff {s : State} {c : Code} {k : Nat} (h : c.len ≤ k) :
    c.begins (s.bcPeek k).2.1 ↔ s.codeAhead c := by
  rw [Code.begins, bcPeek_mod h, State.codeAhead]

/-- The stored form of a canonical code is ahead when its codeword is, most significant bit first (R181). -/
theorem codeAhead_storedCode_iff {s : State} {l c : Nat} (hl : l ≤ 32) :
    s.codeAhead (storedCode (l, c)) ↔ s.codewordAhead l c := by
  have hbit (i : Nat) : s.bitAhead i < 2 := by
    unfold State.bitAhead
    split
    · exact bitAt_lt ..
    · decide
  rw [← begins_bcPeek_iff le_rfl, Code.begins, storedCode_toNat hl]
  show (s.bcPeek l).2.1 % 2 ^ l = _ ↔ _
  rw [mod_eq_reverseBits_iff]
  refine forall₂_congr fun i hi => ?_
  have hi2 := hbit i
  rw [testBit_bcPeek hi, Nat.testBit_eq_decide_div_mod_eq, Nat.shiftRight_eq_div_pow, decide_eq_decide]
  omega

/-! ### Finding the entry -/

/-- The tables of a codebook are those of its codes (R174 to R176), none of which begins another. -/
structure Codebook.Tabled (b : Codebook) : Prop where
  codes : PrefixCodes b.codes
  prefixes : b.prefixes = prefixTable b.codes
  chain : b.chain = overflowChain b.codes

theorem Codebook.Tabled.of_build {lens : List Nat} {cs : List (Option (Nat × Nat))} {dim : Nat} {built : Codebook}
    (hlens : ∀ l ∈ lens, l ≤ 32) (hcs : canonicalCodes lens = some cs) (hb : buildCodebook dim lens = some built) :
    built.Tabled ∧ built.codes = cs.map fun c => c.map storedCode := by
  cases (buildCodebook_eq hcs dim).symm.trans hb
  exact ⟨⟨prefixCodes_of_canonicalCodes hcs hlens, rfl, rfl⟩, rfl⟩

section Find

variable {b : Codebook} (hb : b.Tabled)
include hb

/-- The slot that the bits ahead select holds the short entry whose code they begin with, if there is one. -/
theorem slotAhead_iff {s : State} {e : Nat} :
    b.prefixes.getD (s.bcPeek (tableBitsOf b.codes)).2.1 none = some e ↔
      ∃ c, codeOf b.codes e = some c ∧ c.len ≤ tableBitsOf b.codes ∧ s.codeAhead c := by
  have hslot : ∀ o : Option (Option Nat), o.getD none = some e ↔ o = some (some e) := by
    rintro (_ | o) <;> simp
  rw [List.getD_eq_getElem?_getD, hslot, hb.prefixes, prefixTable_getElem?_iff hb.codes (bcPeek_lt s _)]
  exact exists_congr fun c => and_congr_right fun _ => and_congr_right begins_bcPeek_iff

theorem maxLenOf_le_32 : maxLenOf b.codes ≤ 32 := maxLenOf_le_iff.2 fun _ _ => hb.codes.len_le

theorem matchesAt_iff {v e : Nat} (hv : v < 2 ^ maxLenOf b.codes) :
    b.matchesAt (BitVec.ofNat 64 v) e = true ↔ ∃ c, codeOf b.codes e = some c ∧ c.begins v := by
  have hword : (BitVec.ofNat 64 v).toNat = v := Nat.mod_eq_of_lt
    (hv.trans_le (Nat.pow_le_pow_right (by decide) ((maxLenOf_le_32 hb).trans (by decide))))
  unfold Codebook.matchesAt
  cases he : codeOf b.codes e with
  | none => simp
  | some c => simp [hits_iff (hb.codes.len_le he), hword]

/-- The longest entry of a chain that has one is the longest of all. -/
theorem ovfMaxLen_eq {e : Nat} (he : e ∈ b.chain) : b.ovfMaxLen = maxLenOf b.codes := by
  have hchain {e : Nat} (he : e ∈ b.chain) : b.len e ≤ b.ovfMaxLen :=
    (foldl_max_le_iff.1 le_rfl).2 _ (List.mem_map_of_mem he)
  apply Nat.le_antisymm
  · refine foldl_max_le_iff.2 ⟨Nat.zero_le _, fun l hl => ?_⟩
    obtain ⟨f, -, rfl⟩ := List.mem_map.1 hl
    exact len_le_maxLenOf_codes b f
  · refine maxLenOf_le_iff.2 fun f d hf => ?_
    by_cases hshort : d.len ≤ tableBitsOf b.codes
    · obtain ⟨c, hc, hlong⟩ := mem_overflowChain_iff.1 (hb.chain ▸ he)
      have hle := hchain he
      rw [Codebook.len, lenOf_codeOf hc] at hle
      omega
    · have hle := hchain (hb.chain ▸ mem_overflowChain_iff.2 ⟨d, hf, Nat.lt_of_not_le hshort⟩)
      rwa [Codebook.len, lenOf_codeOf hf] at hle

/-- At most one entry's code is ahead. -/
theorem codeAhead_unique {s : State} {e f : Nat} {c d : Code} (he : codeOf b.codes e = some c) (hc : s.codeAhead c)
    (hf : codeOf b.codes f = some d) (hd : s.codeAhead d) : e = f :=
  hb.codes.begins_unique he ((begins_bcPeek_iff (len_le_maxLenOf he)).2 hc) hf
    ((begins_bcPeek_iff (len_le_maxLenOf hf)).2 hd)

/-- With no short code ahead the slot is empty. -/
theorem slotAhead_eq_none {s : State}
    (h : ∀ e c, codeOf b.codes e = some c → c.len ≤ tableBitsOf b.codes → ¬ s.codeAhead c) :
    b.prefixes.getD (s.bcPeek (tableBitsOf b.codes)).2.1 none = none := by
  rw [Option.eq_none_iff_forall_ne_some]
  intro e he
  obtain ⟨c, hc, hlen, hahead⟩ := (slotAhead_iff hb).1 he
  exact h e c hc hlen hahead

/-- The chain is searched for the entry whose code is ahead. -/
theorem matchesAhead_iff {s : State} {e : Nat} :
    b.matchesAt (BitVec.ofNat 64 (s.bcPeek (maxLenOf b.codes)).2.1) e = true ↔
      ∃ c, codeOf b.codes e = some c ∧ s.codeAhead c := by
  rw [matchesAt_iff hb (bcPeek_lt s _)]
  exact exists_congr fun c => and_congr_right fun he => begins_bcPeek_iff (len_le_maxLenOf he)

theorem find_chain_of_codeAhead {s : State} {e : Nat} {c : Code} (he : codeOf b.codes e = some c) (hc : s.codeAhead c)
    (hmem : e ∈ b.chain) :
    b.chain.find? (b.matchesAt (BitVec.ofNat 64 (s.bcPeek (maxLenOf b.codes)).2.1)) = some e := by
  cases hfind : b.chain.find? _ with
  | none => exact absurd ((matchesAhead_iff hb).2 ⟨c, he, hc⟩) (List.find?_eq_none.1 hfind e hmem)
  | some f =>
    obtain ⟨d, hf, hd⟩ := (matchesAhead_iff hb).1 (List.find?_some hfind)
    rw [codeAhead_unique hb hf hd he hc]

end Find

/-! ### What is decoded -/

theorem hufDecode_of_lt {s : State} {b : Codebook} (h : s.bcAvail < minLenOf b.codes) :
    s.hufDecode b = ((s.bcPeek (tableBitsOf b.codes)).1, .invalid) := if_pos h

section Decode

variable {s : State} {b : Codebook} (hb : b.Tabled) (hmin : minLenOf b.codes ≤ s.bcAvail)
include hb hmin

/-- The entry whose code is ahead is taken, after one peek when it is in the table and after two when it is in the chain. -/
theorem hufDecode_of_codeAhead {e : Nat} {c : Code} (he : codeOf b.codes e = some c) (hc : s.codeAhead c) :
    s.hufDecode b =
      (s.bcPeek (if c.len ≤ tableBitsOf b.codes then tableBitsOf b.codes else maxLenOf b.codes)).1.takeSymbol b e := by
  unfold State.hufDecode
  dsimp only
  rw [if_neg hmin.not_gt]
  by_cases hlen : c.len ≤ tableBitsOf b.codes
  · rw [(slotAhead_iff hb).2 ⟨c, he, hlen, hc⟩, if_pos hlen]
  · have hmem : e ∈ b.chain := hb.chain ▸ mem_overflowChain_iff.2 ⟨c, he, Nat.lt_of_not_le hlen⟩
    have hslot := slotAhead_eq_none hb (s := s) fun f d hf hshort hd => by
      cases codeAhead_unique hb hf hd he hc
      cases he.symm.trans hf
      exact hlen hshort
    rw [hslot, if_neg hlen]
    dsimp only
    rw [if_neg (by simpa using List.ne_nil_of_mem hmem), bcPeek_bcPeek, ovfMaxLen_eq hb hmem,
      find_chain_of_codeAhead hb he hc hmem]

theorem hufDecode_of_no_code (hnone : ∀ e c, codeOf b.codes e = some c → ¬ s.codeAhead c) :
    s.hufDecode b = ((s.bcPeek (maxLenOf b.codes)).1, .invalid) := by
  unfold State.hufDecode
  dsimp only
  rw [if_neg hmin.not_gt, slotAhead_eq_none hb fun e c he _ => hnone e c he]
  dsimp only
  cases hchain : b.chain with
  | nil =>
    have hall : maxLenOf b.codes ≤ tableBitsOf b.codes := maxLenOf_le_iff.2 fun e c he => by
      by_contra hlong
      have hmem : e ∈ b.chain := hb.chain ▸ mem_overflowChain_iff.2 ⟨c, he, Nat.lt_of_not_le hlong⟩
      simp [hchain] at hmem
    rw [Nat.le_antisymm hall (Nat.min_le_left ..)]
    rfl
  | cons e es =>
    have hfind : (e :: es).find? (b.matchesAt (BitVec.ofNat 64 (s.bcPeek (maxLenOf b.codes)).2.1)) = none := by
      refine List.find?_eq_none.2 fun f _ hf => ?_
      obtain ⟨c, hc, hahead⟩ := (matchesAhead_iff hb).1 hf
      exact hnone f c hc hahead
    rw [bcPeek_bcPeek, ovfMaxLen_eq hb (hchain ▸ List.mem_cons_self), hfind]
    rfl

end Decode

section Take

variable {s : State} {b : Codebook} {e : Nat} {c : Code} (he : codeOf b.codes e = some c) (k : Nat)
include he

theorem takeSymbol_of_le (h : c.len ≤ s.bcAvail) : (s.bcPeek k).1.takeSymbol b e =
    ({ s with bc := { s.bc with
        pos := BitVec.ofNat 64 (s.bc.pos.toNat + c.len), cnt := BitVec.ofNat 7 (min k s.bcAvail) } }, .entry e true) := by
  rw [State.takeSymbol, Codebook.len, lenOf_codeOf he, bcSkip_of_le (s := (s.bcPeek k).1) h]
  rfl

theorem takeSymbol_of_lt (h : s.bcAvail < c.len) : (s.bcPeek k).1.takeSymbol b e =
    ({ s with
        bc := { s.bc with pos := BitVec.ofNat 64 s.bcTotal, short := true, cnt := BitVec.ofNat 7 (min k s.bcAvail) }
        flags := s.flags ||| 0x01 }, .entry e false) := by
  rw [State.takeSymbol, Codebook.len, lenOf_codeOf he, bcSkip_of_lt (s := (s.bcPeek k).1) h]
  rfl

end Take

/-- Settles O28: the codewords of R181 are the stored codes ahead (`codeAhead_storedCode_iff`), and of those the tables find
the one there is. -/
theorem decodeByCodewords : Obligations.DecodeByCodewords := by
  unfold Obligations.DecodeByCodewords
  intro s dim lens built cs mapType lut hlens hcs hbuilt _ _ b r maxLen table counted stays
  obtain ⟨⟨codes, prefixes, chain⟩, hcodes⟩ := Codebook.Tabled.of_build hlens hcs hbuilt
  have hb : b.Tabled := ⟨codes, prefixes, chain⟩
  have hcode {e l c : Nat} (he : cs[e]? = some (some (l, c))) : codeOf b.codes e = some (storedCode (l, c)) :=
    hcodes ▸ codeOf_map_storedCode he
  have hahead {e l c : Nat} (he : cs[e]? = some (some (l, c))) : s.codeAhead (storedCode (l, c)) ↔ s.codewordAhead l c :=
    codeAhead_storedCode_iff (codes.len_le (hcode he))
  refine ⟨hufDecode_of_lt, fun hmin => ⟨fun e l c he hc => ?entry, fun hnone => ?invalid⟩⟩
  case entry =>
    intro cnt
    rw [hufDecode_of_codeAhead hb hmin (hcode he) ((hahead he).2 hc)]
    exact ⟨takeSymbol_of_le (hcode he) _, takeSymbol_of_lt (hcode he) _⟩
  case invalid =>
    refine hufDecode_of_no_code hb hmin fun e c he hc => ?_
    obtain ⟨l, k, hk, rfl⟩ := exists_codeword_of_codeOf (hcodes ▸ he)
    exact hnone e l k hk ((hahead hk).1 hc)

/-- Settles O29: no stored code begins another (`PrefixCodes`), so the one that is ahead is decoded. -/
theorem prefixFreeRoundTrip : Obligations.PrefixFreeRoundTrip := by
  unfold Obligations.PrefixFreeRoundTrip
  intro dim lens b hlens hbuild
  cases hcs : canonicalCodes lens with
  | none => simp [buildCodebook, hcs] at hbuild
  | some cs =>
    obtain ⟨hb, -⟩ := Codebook.Tabled.of_build hlens hcs hbuild
    refine ⟨fun e f c d => hb.codes.not_begins, fun s e c _ _ he (hlen : c.len ≤ s.bcAvail) hbits => ?_⟩
    have hahead : s.codeAhead c := by
      show bitsAt _ _ (min c.len s.bcAvail) = _
      rwa [Nat.min_eq_left hlen]
    rw [hufDecode_of_codeAhead hb ((minLenOf_le_len he).trans hlen) he hahead, takeSymbol_of_le he _ hlen]
    exact ⟨rfl, rfl⟩

end Sys2Proof.Machine
end

section
/-! SUPPORT. The setup commands HUF.BUILD and HUF.VQ (R171, R177, R183 to R187, R194): the words of a descriptor, the ends of
the two commands in the order of their tests, and what becomes of the residue slots. O30, O33 and O35 follow. -/

namespace Sys2Proof.Machine

/-! ### The words of a descriptor -/

theorem exists_read_of_known {s : State} {a : Nat} (h : s.known a) :
    ∃ w, Memory.read s.dm a = some w ∧ s.word a = w.toNat := by
  obtain ⟨w, hw⟩ := Option.isSome_iff_exists.1 h
  exact ⟨w, hw, word_of_read hw⟩

theorem exists_readList_of_known {s : State} {a n : Nat} (h : ∀ i, i < n → s.known (a + i)) :
    ∃ ws, Memory.readList s.dm a n = .ok ws ∧ ((List.range n).map fun i => s.word (a + i)) = ws.map BitVec.toNat ∧
      ((List.range n).map fun i => BitVec.ofNat 32 (s.word (a + i))) = ws := by
  obtain ⟨ws, hws⟩ := Memory.readList_of_known h
  obtain ⟨hlen, -⟩ := Memory.readList_ok hws
  have hnats : ((List.range n).map fun i => s.word (a + i)) = ws.map BitVec.toNat := by
    refine List.ext_getElem (by simp [hlen]) fun i _ hi => ?_
    rw [List.length_map] at hi
    rw [List.getElem_map, List.getElem_range, List.getElem_map, word_of_readList hws (List.getElem?_eq_getElem hi)]
  exact ⟨ws, hws, hnats, by simpa [Function.comp_def] using congrArg (List.map (BitVec.ofNat 32)) hnats⟩

/-! ### HUF.BUILD (R177) -/

section Build

variable {s : State} {rs1 rs2 : Reg}

theorem exec_hufBuild_of_slot (h : s.par.ncb ≤ s.xNat rs1) :
    exec (.hufBuild rs1 rs2) s = .next (s.faulted 17) := if_pos h

variable (hslot : s.xNat rs1 < s.par.ncb)
include hslot

theorem exec_hufBuild_of_header (h : s.par.dmWords ≤ s.xNat rs2 + 1) :
    exec (.hufBuild rs1 rs2) s = .next (s.faulted 20) := (if_neg hslot.not_ge).trans (if_pos h)

variable (hheader : s.xNat rs2 + 1 < s.par.dmWords) {entries dim : Word32}
  (hentries : Memory.read s.dm (s.xNat rs2) = some entries) (hdim : Memory.read s.dm (s.xNat rs2 + 1) = some dim)
include hheader hentries hdim

theorem exec_hufBuild_of_beyond (h : s.par.dmWords < s.xNat rs2 + 2 + entries.toNat) :
    exec (.hufBuild rs1 rs2) s = .next (s.faulted 20) := by
  simp only [exec, execHufBuild, if_neg hslot.not_ge, if_neg hheader.not_ge, withWord_of_read hentries,
    withWord_of_read hdim, if_pos h]
  rfl

variable (hfits : s.xNat rs2 + 2 + entries.toNat ≤ s.par.dmWords)
include hfits

theorem exec_hufBuild_of_counts
    (h : entries.toNat = 0 ∨ s.par.maxEntries < entries.toNat ∨ dim.toNat = 0 ∨ s.par.maxDim < dim.toNat) :
    exec (.hufBuild rs1 rs2) s = (s.openSlot (s.xNat rs1)).malformed := by
  simp only [exec, execHufBuild, if_neg hslot.not_ge, if_neg hheader.not_ge, withWord_of_read hentries,
    withWord_of_read hdim, if_neg hfits.not_gt, if_pos h]

variable (hcounts : ¬ (entries.toNat = 0 ∨ s.par.maxEntries < entries.toNat ∨ dim.toNat = 0 ∨ s.par.maxDim < dim.toNat))
  {lens : List Word32} (hlens : Memory.readList s.dm (s.xNat rs2 + 2) entries.toNat = .ok lens)
include hcounts hlens

theorem exec_hufBuild_of_bad_lengths (h : (∃ l ∈ lens.map BitVec.toNat, 32 < l) ∨ (∀ l ∈ lens.map BitVec.toNat, l = 0) ∨
      canonicalCodes (lens.map BitVec.toNat) = none) :
    exec (.hufBuild rs1 rs2) s = (s.openSlot (s.xNat rs1)).malformed := by
  simp only [exec, execHufBuild, if_neg hslot.not_ge, if_neg hheader.not_ge, withWord_of_read hentries,
    withWord_of_read hdim, if_neg hfits.not_gt, if_neg hcounts, withWords_of_read hlens]
  by_cases hlong : (lens.map BitVec.toNat).any (fun l => decide (Config.maxLen < l)) = true
  · exact if_pos hlong
  rw [if_neg hlong]
  by_cases hunused : (lens.map BitVec.toNat).all (fun l => l == 0) = true
  · exact if_pos hunused
  have hnone : canonicalCodes (lens.map BitVec.toNat) = none := by
    refine (h.resolve_left fun ⟨l, hl, hlt⟩ => ?_).resolve_left fun hzero => ?_
    · exact hlong (List.any_eq_true.2 ⟨l, hl, decide_eq_true hlt⟩)
    · exact hunused (List.all_eq_true.2 fun l hl => beq_iff_eq.2 (hzero l hl))
  rw [if_neg hunused, buildCodebook, hnone]

theorem exec_hufBuild_of_built (hshort : ∀ l ∈ lens.map BitVec.toNat, l ≤ 32) (hused : ∃ l ∈ lens.map BitVec.toNat, l ≠ 0)
    {b : Codebook} (hb : buildCodebook dim.toNat (lens.map BitVec.toNat) = some b) :
    exec (.hufBuild rs1 rs2) s = .next (State.ended { s.openSlot (s.xNat rs1) with
      books := Table.put (s.openSlot (s.xNat rs1)).books (s.xNat rs1) b } 0) := by
  have hlong : ¬ ((lens.map BitVec.toNat).any fun l => decide (Config.maxLen < l)) = true := fun h => by
    obtain ⟨l, hl, hlt⟩ := List.any_eq_true.1 h
    exact (hshort l hl).not_gt (of_decide_eq_true hlt)
  have hall : ¬ ((lens.map BitVec.toNat).all fun l => l == 0) = true := by simpa using hused
  simp only [exec, execHufBuild, if_neg hslot.not_ge, if_neg hheader.not_ge, withWord_of_read hentries,
    withWord_of_read hdim, if_neg hfits.not_gt, if_neg hcounts, withWords_of_read hlens, if_neg hlong, if_neg hall, hb]
  rfl

end Build

/-- Settles O30: each end of HUF.BUILD, in the order of R177. -/
theorem codebookBuild : Obligations.CodebookBuild := by
  unfold Obligations.CodebookBuild
  intro s rs1 rs2 k a opened bad
  refine ⟨exec_hufBuild_of_slot, exec_hufBuild_of_header, fun hslot hheader hentries hdim => ?_⟩
  obtain ⟨entries, hentries, hentriesWord⟩ := exists_read_of_known hentries
  obtain ⟨dim, hdim, hdimWord⟩ := exists_read_of_known hdim
  simp only [hentriesWord, hdimWord]
  refine ⟨exec_hufBuild_of_beyond hslot hheader hentries hdim, fun hfits =>
    ⟨exec_hufBuild_of_counts hslot hheader hentries hdim hfits, fun h1 h2 h3 h4 hknown => ?_⟩⟩
  obtain ⟨lens, hlens, hlensWords, -⟩ := exists_readList_of_known hknown
  have hcounts : ¬ (entries.toNat = 0 ∨ s.par.maxEntries < entries.toNat ∨ dim.toNat = 0 ∨ s.par.maxDim < dim.toNat) := by
    omega
  simp only [hlensWords]
  refine ⟨exec_hufBuild_of_bad_lengths hslot hheader hentries hdim hfits hcounts hlens, fun hshort hused hcodes => ?_⟩
  obtain ⟨cs, hcs⟩ := Option.ne_none_iff_exists'.1 hcodes
  have hb := buildCodebook_eq hcs dim.toNat
  exact ⟨_, hb, exec_hufBuild_of_built hslot hheader hentries hdim hfits hcounts hlens hshort hused hb⟩

/-! ### HUF.VQ (R187) -/

section Lookup

variable {s : State} {rs1 rs2 : Reg}

theorem exec_hufVq_of_slot (h : s.par.ncb ≤ s.xNat rs1) :
    exec (.hufVq rs1 rs2) s = .next (s.faulted 17) := if_pos h

variable (hslot : s.xNat rs1 < s.par.ncb)
include hslot

theorem exec_hufVq_of_header (h : s.par.dmWords ≤ s.xNat rs2 + 4) :
    exec (.hufVq rs1 rs2) s = .next (s.faulted 20) := (if_neg hslot.not_ge).trans (if_pos h)

variable (hheader : s.xNat rs2 + 4 < s.par.dmWords) {nmult : Word32}
  (hnmult : Memory.read s.dm (s.xNat rs2 + 4) = some nmult)
include hheader hnmult

theorem exec_hufVq_of_beyond (h : s.par.dmWords < s.xNat rs2 + 5 + nmult.toNat) :
    exec (.hufVq rs1 rs2) s = .next (s.faulted 20) := by
  simp only [exec, execHufVq, if_neg hslot.not_ge, if_neg hheader.not_ge, withWord_of_read hnmult, if_pos h]
  rfl

variable (hfits : s.xNat rs2 + 5 + nmult.toNat ≤ s.par.dmWords)
include hfits

theorem exec_hufVq_of_absent (h : Table.find s.books (s.xNat rs1) = none) :
    exec (.hufVq rs1 rs2) s = .next (s.faulted 21) := by
  simp only [exec, execHufVq, if_neg hslot.not_ge, if_neg hheader.not_ge, withWord_of_read hnmult,
    if_neg hfits.not_gt, h]
  rfl

variable {b : Codebook} (hb : Table.find s.books (s.xNat rs1) = some b) {mapType : Word32}
  (hmap : Memory.read s.dm (s.xNat rs2) = some mapType)
include hb hmap

theorem exec_hufVq_of_mapType_zero (h : mapType.toNat = 0) :
    exec (.hufVq rs1 rs2) s = .next ((s.dropTable (s.xNat rs1) b).ended 0) := by
  simp only [exec, execHufVq, if_neg hslot.not_ge, if_neg hheader.not_ge, withWord_of_read hnmult,
    if_neg hfits.not_gt, hb, withWord_of_read hmap, if_pos h]
  rfl

theorem exec_hufVq_of_bad_mapType (h : 2 < mapType.toNat ∨ (mapType.toNat = 2 ∧ s.par.mapType2 = false)) :
    exec (.hufVq rs1 rs2) s = (s.dropTable (s.xNat rs1) b).malformed := by
  simp only [exec, execHufVq, if_neg hslot.not_ge, if_neg hheader.not_ge, withWord_of_read hnmult,
    if_neg hfits.not_gt, hb, withWord_of_read hmap, if_neg (show ¬ mapType.toNat = 0 by omega), if_pos h]

variable {seq : Word32} (hseq : Memory.read s.dm (s.xNat rs2 + 3) = some seq)
include hseq

theorem exec_hufVq_of_bad_descriptor (hnonzero : mapType.toNat ≠ 0) (h : 1 < seq.toNat ∨
      (mapType.toNat = 1 ∧ nmult.toNat ≠ lookup1Values b.entries b.dim) ∨
      (mapType.toNat = 2 ∧ nmult.toNat ≠ b.entries * b.dim)) :
    exec (.hufVq rs1 rs2) s = (s.dropTable (s.xNat rs1) b).malformed := by
  simp only [exec, execHufVq, if_neg hslot.not_ge, if_neg hheader.not_ge, withWord_of_read hnmult,
    if_neg hfits.not_gt, hb, withWord_of_read hmap, if_neg hnonzero, withWord_of_read hseq]
  by_cases hmapType : 2 < mapType.toNat ∨ (mapType.toNat = 2 ∧ s.par.mapType2 = false)
  · exact if_pos hmapType
  rw [if_neg hmapType]
  by_cases hflag : 1 < seq.toNat
  · exact if_pos hflag
  rw [if_neg hflag]
  by_cases hlattice : mapType.toNat = 1 ∧ nmult.toNat ≠ lookup1Values b.entries b.dim
  · exact if_pos hlattice
  rw [if_neg hlattice]
  exact if_pos ((h.resolve_left hflag).resolve_left hlattice)

theorem exec_hufVq_of_good {lattice : Bool}
    (hlattice : lattice = true → mapType.toNat = 1 ∧ nmult.toNat = lookup1Values b.entries b.dim)
    (hdirect : lattice = false → mapType.toNat = 2 ∧ s.par.mapType2 = true ∧ nmult.toNat = b.entries * b.dim)
    (hflag : seq.toNat ≤ 1) {minValue delta : Word32} {mult : List Word32}
    (hmin : Memory.read s.dm (s.xNat rs2 + 1) = some minValue)
    (hdelta : Memory.read s.dm (s.xNat rs2 + 2) = some delta)
    (hmult : Memory.readList s.dm (s.xNat rs2 + 5) nmult.toNat = .ok mult) :
    exec (.hufVq rs1 rs2) s = .next (State.ended { s.dropTable (s.xNat rs1) b with
      books := Table.put (s.dropTable (s.xNat rs1) b).books (s.xNat rs1) { b with
        mapType := if lattice then .lattice else .direct
        lut := VqSpec.table
          { lattice := lattice, minValue := minValue, delta := delta, sequential := decide (seq.toNat = 1), mult := mult }
          b.entries b.dim } } 0) := by
  simp only [exec, execHufVq, if_neg hslot.not_ge, if_neg hheader.not_ge, withWord_of_read hnmult, if_neg hfits.not_gt, hb,
    withWord_of_read hmap, withWord_of_read hseq, withWord_of_read hmin, withWord_of_read hdelta, withWords_of_read hmult,
    if_neg hflag.not_gt, beq_eq_decide, finish_eq]
  cases lattice with
  | true =>
    obtain ⟨htype, hcount⟩ := hlattice rfl
    simp [htype, hcount, Cond.code]
  | false =>
    obtain ⟨htype, hsupported, hcount⟩ := hdirect rfl
    simp [htype, hsupported, hcount, Cond.code]

end Lookup

/-- Settles O33: each end of HUF.VQ, in the order of R187. -/
theorem lookupBuild : Obligations.LookupBuild := by
  unfold Obligations.LookupBuild
  intro s rs1 rs2 k a
  refine ⟨exec_hufVq_of_slot, exec_hufVq_of_header, fun hslot hheader hknown => ?_⟩
  obtain ⟨nmult, hnmult, hnmultWord⟩ := exists_read_of_known hknown
  simp only [hnmultWord]
  refine ⟨exec_hufVq_of_beyond hslot hheader hnmult, fun hfits => ⟨exec_hufVq_of_absent hslot hheader hnmult hfits,
    fun b hb hknown => ?_⟩⟩
  obtain ⟨mapType, hmap, hmapWord⟩ := exists_read_of_known hknown
  simp only [hmapWord]
  refine ⟨exec_hufVq_of_mapType_zero hslot hheader hnmult hfits hb hmap,
    exec_hufVq_of_bad_mapType hslot hheader hnmult hfits hb hmap, fun hknown hnonzero => ?malformed,
    fun hknown lattice hlattice hdirect hflag => ?good⟩
  case malformed =>
    obtain ⟨seq, hseq, hseqWord⟩ := exists_read_of_known hknown
    simp only [hseqWord]
    exact exec_hufVq_of_bad_descriptor hslot hheader hnmult hfits hb hmap hseq hnonzero
  case good =>
    obtain ⟨minValue, hmin, hminWord⟩ := exists_read_of_known (hknown 1 (by omega))
    obtain ⟨delta, hdelta, hdeltaWord⟩ := exists_read_of_known (hknown 2 (by omega))
    obtain ⟨seq, hseq, hseqWord⟩ := exists_read_of_known (hknown 3 (by omega))
    obtain ⟨mult, hmult, -, hmultWords⟩ := exists_readList_of_known (s := s) (a := a + 5) (n := nmult.toNat) fun i hi =>
      Nat.add_assoc a 5 i ▸ hknown (5 + i) (by omega)
    simp only [hminWord, hdeltaWord, hseqWord, hmultWords, BitVec.ofNat_toNat, BitVec.setWidth_eq] at hflag ⊢
    exact exec_hufVq_of_good hslot hheader hnmult hfits hb hmap hseq hlattice hdirect hflag hmin hdelta hmult

/-! ### Dependents (R194) -/

theorem find_filter {α : Type} {t : Table α} (hw : Table.wf t) (p : α → Bool) (k : Nat) :
    Table.find (t.filter fun c => p c.2) k = (Table.find t k).filter p := by
  induction t with
  | nil => rfl
  | cons c t ih =>
    obtain ⟨hc, hw⟩ := Table.wf_cons.1 hw
    have hrest := ih hw
    by_cases hk : c.1 = k
    · have habsent : Table.find t k = none := by
        cases hfind : Table.find t k with
        | none => rfl
        | some v => exact absurd hk (hc _ (Table.mem_of_find hfind)).ne
      rw [habsent, Option.filter_none] at hrest
      by_cases hp : p c.2 <;> simp [Table.find, Option.filter, hk, hp, hrest]
    · by_cases hp : p c.2 <;> simp [Table.find, hk, hp, hrest]

/-- Settles O35: past the fault checks both commands drop the dependents and touch no other residue slot (R194). -/
theorem dependentsInvalid : Obligations.DependentsInvalid := by
  unfold Obligations.DependentsInvalid
  intro s t i rs1 rs2 hs hi h r
  have hends : Trapped s t ∨ (t.residues = (s.dropDependents (s.xNat rs1)).residues ∧ t.status.toNat < 16) := by
    rcases hi with rfl | rfl
    · exact (hufBuild_next h).imp_right (by rintro (rfl | ⟨b, rfl⟩) <;> exact ⟨rfl, of_decide_eq_true rfl⟩)
    · exact (hufVq_next h).imp_right (by rintro ⟨b, -, rfl | rfl | ⟨b1, rfl⟩⟩ <;> exact ⟨rfl, of_decide_eq_true rfl⟩)
  rcases hends with ⟨c, rfl⟩ | ⟨hresidues, hstatus⟩
  · exact ⟨fun _ => rfl, fun hlt => absurd hlt c.code_ge.not_gt⟩
  · refine ⟨fun hge => absurd hge hstatus.not_ge, fun _ => ?_⟩
    rw [hresidues]
    show Table.find (s.residues.filter fun c => !c.2.names (s.xNat rs1)) r = _
    rw [find_filter hs.residues fun res => !res.names (s.xNat rs1)]
    cases Table.find s.residues r with
    | none => rfl
    | some res =>
      show _ = if res.names (s.xNat rs1) = true then none else some res
      cases hnames : res.names (s.xNat rs1) <;> simp [hnames]

end Sys2Proof.Machine
end

section
/-! SUPPORT. The decode commands HUF.DEC and HUF.DECV (R182, R188) and the readers of a slot (R189 to R191): each end as one
equation. O31 and O32 follow. -/

namespace Sys2Proof.Machine

/-! ### What a decode leaves (R123, R180) -/

section Decoded

variable {s : State} {b : Codebook}

theorem hufDecode_state_of_invalid (h : (s.hufDecode b).2 = .invalid) :
    (s.hufDecode b).1 = { s with bc := { s.bc with cnt := (s.hufDecode b).1.bc.cnt } } := by
  obtain ⟨n, hn⟩ := hufDecode_invalid h
  rw [hn]
  rfl

/-- An entry is what a peek and a skip of its length leave. -/
theorem hufDecode_of_entry {e : Nat} {ok : Bool} (h : (s.hufDecode b).2 = .entry e ok) :
    ∃ n, s.hufDecode b = (((s.bcPeek n).1.bcSkip (b.len e)).1, .entry e ok) ∧ ((s.bcPeek n).1.bcSkip (b.len e)).2 = ok := by
  rcases hufDecode_cases s b with ⟨n, hd⟩ | ⟨n, f, hd⟩
  · rw [hd] at h
    cases h
  · rw [hd] at h
    cases h
    exact ⟨n, hd, rfl⟩

theorem hufDecode_state_of_entry {e : Nat} (h : (s.hufDecode b).2 = .entry e true) : (s.hufDecode b).1 =
    { s with bc := { s.bc with pos := BitVec.ofNat 64 (s.bc.pos.toNat + b.len e), cnt := (s.hufDecode b).1.bc.cnt } } := by
  obtain ⟨n, hd, hok⟩ := hufDecode_of_entry h
  rcases bcSkip_cases (s.bcPeek n).1 (b.len e) with ⟨-, hskip⟩ | ⟨-, hskip⟩
  · rw [hd, hskip]
    rfl
  · rw [hskip] at hok
    cases hok

theorem hufDecode_state_of_short {e : Nat} (h : (s.hufDecode b).2 = .entry e false) : (s.hufDecode b).1 =
    { s with
      bc := { s.bc with pos := BitVec.ofNat 64 s.bcTotal, short := true, cnt := (s.hufDecode b).1.bc.cnt }
      flags := s.flags ||| 0x01 } := by
  obtain ⟨n, hd, hok⟩ := hufDecode_of_entry h
  rcases bcSkip_cases (s.bcPeek n).1 (b.len e) with ⟨-, hskip⟩ | ⟨-, hskip⟩
  · rw [hskip] at hok
    cases hok
  · rw [hd, hskip]
    rfl

end Decoded

theorem State.setX_dmWriteList (s : State) (r : Reg) (v : Word) (a : Nat) (vs : List Word32) :
    (s.setX r v).dmWriteList a vs = (s.dmWriteList a vs).setX r v := by
  unfold State.setX
  split <;> rfl

theorem invalidData_eq (s : State) (rd : Reg) : s.invalidData rd =
    .next (State.ended (State.setX { s with flags := s.flags ||| 0x02 } rd (BitVec.allOnes 64)) 3) := by
  rw [State.invalidData, State.setX_setFlag]
  rfl

/-! ### HUF.DEC and HUF.DECV -/

section Symbols

variable {s : State} {rd rs1 rs2 : Reg}

theorem exec_hufDec_of_slot (h : s.par.ncb ≤ s.xNat rs1) : exec (.hufDec rd rs1) s = .next (s.faulted 17) := if_pos h

theorem exec_hufDecv_of_slot (h : s.par.ncb ≤ s.xNat rs1) : exec (.hufDecv rd rs1 rs2) s = .next (s.faulted 17) := if_pos h

variable (hslot : s.xNat rs1 < s.par.ncb)
include hslot

section Absent

variable (h : Table.find s.books (s.xNat rs1) = none)
include h

theorem exec_hufDec_of_absent : exec (.hufDec rd rs1) s = .next (s.faulted 21) := by
  simp only [exec, execHufDec, if_neg hslot.not_ge, h]
  rfl

theorem exec_hufDecv_of_absent : exec (.hufDecv rd rs1 rs2) s = .next (s.faulted 21) := by
  simp only [exec, execHufDecv, if_neg hslot.not_ge, h]
  rfl

end Absent

variable {b : Codebook} (hb : Table.find s.books (s.xNat rs1) = some b)
include hb

theorem exec_hufDec_of_invalid (h : (s.hufDecode b).2 = .invalid) :
    exec (.hufDec rd rs1) s = (s.hufDecode b).1.invalidData rd := by
  have hd : s.hufDecode b = ((s.hufDecode b).1, .invalid) := Prod.ext rfl h
  simp only [exec, execHufDec, if_neg hslot.not_ge, hb]
  rw [hd]

theorem exec_hufDec_of_entry {e : Nat} {ok : Bool} (h : (s.hufDecode b).2 = .entry e ok) : exec (.hufDec rd rs1) s =
    .next (((s.hufDecode b).1.setX rd (BitVec.ofNat 64 e)).ended (if ok then 0 else 2)) := by
  have hd : s.hufDecode b = ((s.hufDecode b).1, .entry e ok) := Prod.ext rfl h
  simp only [exec, execHufDec, if_neg hslot.not_ge, hb]
  rw [hd]
  cases ok <;> rfl

theorem exec_hufDecv_of_noTable (h : b.mapType = .noTable) : exec (.hufDecv rd rs1 rs2) s = .next (s.faulted 21) := by
  simp only [exec, execHufDecv, if_neg hslot.not_ge, hb, if_pos h]
  rfl

variable (htable : b.mapType ≠ .noTable)
include htable

theorem exec_hufDecv_of_beyond (h : s.par.dmWords < s.xNat rs2 + b.dim) :
    exec (.hufDecv rd rs1 rs2) s = .next (s.faulted 20) := by
  simp only [exec, execHufDecv, if_neg hslot.not_ge, hb, if_neg htable, if_pos h]
  rfl

variable (hfits : s.xNat rs2 + b.dim ≤ s.par.dmWords)
include hfits

theorem exec_hufDecv_of_invalid (h : (s.hufDecode b).2 = .invalid) :
    exec (.hufDecv rd rs1 rs2) s = (s.hufDecode b).1.invalidData rd := by
  have hd : s.hufDecode b = ((s.hufDecode b).1, .invalid) := Prod.ext rfl h
  simp only [exec, execHufDecv, if_neg hslot.not_ge, hb, if_neg htable, if_neg hfits.not_gt]
  rw [hd]

theorem exec_hufDecv_of_short {e : Nat} (h : (s.hufDecode b).2 = .entry e false) : exec (.hufDecv rd rs1 rs2) s =
    .next (((s.hufDecode b).1.setX rd (BitVec.ofNat 64 e)).ended 2) := by
  have hd : s.hufDecode b = ((s.hufDecode b).1, .entry e false) := Prod.ext rfl h
  simp only [exec, execHufDecv, if_neg hslot.not_ge, hb, if_neg htable, if_neg hfits.not_gt]
  rw [hd]
  rfl

theorem exec_hufDecv_of_entry {e : Nat} (h : (s.hufDecode b).2 = .entry e true) : exec (.hufDecv rd rs1 rs2) s =
    .next ((((s.hufDecode b).1.dmWriteList (s.xNat rs2) (b.vector e)).setX rd (BitVec.ofNat 64 e)).ended 0) := by
  have hd : s.hufDecode b = ((s.hufDecode b).1, .entry e true) := Prod.ext rfl h
  simp only [exec, execHufDecv, if_neg hslot.not_ge, hb, if_neg htable, if_neg hfits.not_gt]
  rw [hd, ← State.setX_dmWriteList]
  rfl

end Symbols

/-- Settles O31: each end of the two commands, in the order of R182 and R188, after what the decode left. -/
theorem symbolDecode : Obligations.SymbolDecode := by
  unfold Obligations.SymbolDecode
  intro s rd rs1 rs2 k dst
  refine ⟨fun h => ⟨exec_hufDec_of_slot h, exec_hufDecv_of_slot h⟩,
    fun hslot h => ⟨exec_hufDec_of_absent hslot h, exec_hufDecv_of_absent hslot h⟩, fun b hslot hb => ?_⟩
  intro t bad
  have hbad : t.invalidData rd = .next bad := invalidData_eq t rd
  refine ⟨hufDecode_state_of_invalid, fun e => hufDecode_state_of_entry, fun e => hufDecode_state_of_short,
    fun h => (exec_hufDec_of_invalid hslot hb h).trans hbad, fun e ok => exec_hufDec_of_entry hslot hb,
    exec_hufDecv_of_noTable hslot hb, fun htable => ⟨exec_hufDecv_of_beyond hslot hb htable, fun hfits =>
      ⟨fun h => (exec_hufDecv_of_invalid hslot hb htable hfits h).trans hbad,
        fun e => exec_hufDecv_of_short hslot hb htable hfits, fun e h => ?_⟩⟩⟩
  rw [exec_hufDecv_of_entry hslot hb htable hfits h, State.dmWriteList, hufDecode_dm]
  rfl

/-! ### HUF.INFO, HUF.CODE and HUF.LUT -/

section Readers

variable {s : State} {rs1 rs2 : Reg} {imm : Imm}

theorem exec_hufInfo_of_operand (h : s.par.ncb ≤ s.xNat rs1 ∨ 10 ≤ selector 4 imm) (rd : Reg) :
    exec (.hufInfo rd rs1 imm) s = .next (s.faulted 17) := if_pos h

theorem exec_hufCode_of_slot (h : s.par.ncb ≤ s.xNat rs1) (rd : Reg) :
    exec (.hufCode rd rs1 rs2) s = .next (s.faulted 17) := if_pos h

theorem exec_hufLut_of_slot (h : s.par.ncb ≤ s.xNat rs1) (rd : Reg) :
    exec (.hufLut rd rs1 rs2) s = .next (s.faulted 17) := if_pos h

variable (hslot : s.xNat rs1 < s.par.ncb)
include hslot

section Absent

variable (h : Table.find s.books (s.xNat rs1) = none)
include h

theorem exec_hufInfo_of_absent (hsel : selector 4 imm < 10) (rd : Reg) : exec (.hufInfo rd rs1 imm) s =
    if selector 4 imm = 0 then .next ((s.setX rd 0).ended 0) else .next (s.faulted 21) := by
  simp only [exec, execHufInfo, if_neg (not_or.2 ⟨hslot.not_ge, hsel.not_ge⟩), h]
  rfl

theorem exec_hufCode_of_absent (rd : Reg) : exec (.hufCode rd rs1 rs2) s = .next (s.faulted 21) := by
  simp only [exec, execHufCode, if_neg hslot.not_ge, h]
  rfl

theorem exec_hufLut_of_absent (rd : Reg) : exec (.hufLut rd rs1 rs2) s = .next (s.faulted 21) := by
  simp only [exec, execHufLut, if_neg hslot.not_ge, h]
  rfl

end Absent

variable {b : Codebook} (hb : Table.find s.books (s.xNat rs1) = some b)
include hb

theorem exec_hufInfo_of_book (hsel : selector 4 imm < 10) (rd : Reg) : exec (.hufInfo rd rs1 imm) s =
    .next ((s.setX rd (if selector 4 imm = 0 then 1 else BitVec.ofNat 64 (b.info (selector 4 imm)))).ended 0) := by
  simp only [exec, execHufInfo, if_neg (not_or.2 ⟨hslot.not_ge, hsel.not_ge⟩), hb]
  rfl

theorem exec_hufCode_of_beyond (h : b.entries ≤ s.xNat rs2) (rd : Reg) :
    exec (.hufCode rd rs1 rs2) s = .next (s.faulted 17) := by
  simp only [exec, execHufCode, if_neg hslot.not_ge, hb, if_pos h]
  rfl

theorem exec_hufCode_of_unused (h : b.codes[s.xNat rs2]? = some none) (rd : Reg) :
    exec (.hufCode rd rs1 rs2) s = .next ((s.setX rd 0).ended 0) := by
  have hlt : s.xNat rs2 < b.entries := (List.getElem?_eq_some_iff.1 h).1
  have hcode : codeOf b.codes (s.xNat rs2) = none := by simp [codeOf, h]
  simp only [exec, execHufCode, if_neg hslot.not_ge, hb, if_neg hlt.not_ge, hcode]
  rfl

theorem exec_hufCode_of_used {c : Code} (h : b.codes[s.xNat rs2]? = some (some c)) (rd : Reg) :
    exec (.hufCode rd rs1 rs2) s =
      .next ((s.setX rd (BitVec.ofNat 64 c.len <<< 32 ||| c.code.setWidth 64)).ended 0) := by
  have hlt : s.xNat rs2 < b.entries := (List.getElem?_eq_some_iff.1 h).1
  simp only [exec, execHufCode, if_neg hslot.not_ge, hb, if_neg hlt.not_ge, codeOf_eq_some_iff.2 h]
  rfl

theorem exec_hufLut_of_noTable (h : b.mapType = .noTable) (rd : Reg) :
    exec (.hufLut rd rs1 rs2) s = .next (s.faulted 21) := by
  simp only [exec, execHufLut, if_neg hslot.not_ge, hb, if_pos h]
  rfl

theorem exec_hufLut_of_table (h : b.mapType ≠ .noTable) (rd : Reg) : exec (.hufLut rd rs1 rs2) s =
    if b.entries * b.dim ≤ s.xNat rs2 then .next (s.faulted 17)
    else .next ((s.setX rd ((b.lut.getD (s.xNat rs2) 0).setWidth 64)).ended 0) := by
  simp only [exec, execHufLut, if_neg hslot.not_ge, hb, if_neg h]
  rfl

end Readers

theorem selector_four (imm : Imm) : selector 4 imm = imm.toNat % 16 := BitVec.toNat_setWidth ..

theorem usedLens_eq_map (codes : List (Option Code)) : usedLens codes = (codes.filterMap id).map Code.len := by
  rw [usedLens, List.map_filterMap]
  rfl

/-- Length and code of an entry do not overlap (R190). -/
theorem len_or_code_eq_ofNat (c : Code) :
    BitVec.ofNat 64 c.len <<< 32 ||| c.code.setWidth 64 = BitVec.ofNat 64 (c.len * 2 ^ 32 + c.code.toNat) := by
  have hcode : c.code.setWidth 64 = BitVec.ofNat 64 c.code.toNat := by
    simp
  rw [hcode, BitVec.or_comm, ofNat_or_shiftLeft c.code.isLt, Nat.add_comm, Nat.mul_comm]

/-- Settles O32: each reader's tests, in the order of its rule, and each number of HUF.INFO by its selector. -/
theorem codebookReaders : Obligations.CodebookReaders := by
  unfold Obligations.CodebookReaders
  intro s rd rs1 rs2 imm k e sel
  have hselector : selector 4 imm = sel := selector_four imm
  refine ⟨fun h => exec_hufInfo_of_operand (hselector ▸ h) rd,
    fun h => ⟨exec_hufCode_of_slot h rd, exec_hufLut_of_slot h rd⟩, fun hslot hnone => ⟨fun hsel => ?present,
      fun hsel hlt => ?notReady, exec_hufCode_of_absent hslot hnone rd, exec_hufLut_of_absent hslot hnone rd⟩,
    fun b hslot hb => ?book⟩
  case present => rw [exec_hufInfo_of_absent hslot hnone (by omega), hselector, if_pos hsel]
  case notReady => rw [exec_hufInfo_of_absent hslot hnone (hselector ▸ hlt), hselector, if_neg hsel]
  case book =>
    refine ⟨fun p hp hsel => ?info, fun h => exec_hufCode_of_beyond hslot hb h rd, fun c hc _ => ?code,
      fun h => exec_hufCode_of_unused hslot hb h rd, fun h => exec_hufLut_of_noTable hslot hb h rd,
      fun htable => ⟨fun h => ?beyond, fun h => ?element⟩⟩
    case info =>
      have hnumber : p.1 < 10 ∧ (if p.1 = 0 then 1 else BitVec.ofNat 64 (b.info p.1)) = BitVec.ofNat 64 p.2 := by
        have hcount : (b.codes.filterMap id).length = (usedLens b.codes).length := by rw [usedLens_eq_map, List.length_map]
        simp only [hcount, ← usedLens_eq_map, List.mem_cons, List.not_mem_nil, or_false] at hp
        rcases hp with rfl | rfl | rfl | rfl | rfl | rfl | rfl | rfl | rfl | rfl <;> exact ⟨of_decide_eq_true rfl, rfl⟩
      obtain ⟨hlt, hvalue⟩ := hnumber
      rw [exec_hufInfo_of_book hslot hb (by omega), hselector, hsel, hvalue]
    case code => rw [exec_hufCode_of_used hslot hb hc, len_or_code_eq_ofNat]
    case beyond => exact (exec_hufLut_of_table hslot hb htable rd).trans (if_pos h)
    case element => exact (exec_hufLut_of_table hslot hb htable rd).trans (if_neg h.not_ge)

end Sys2Proof.Machine
end

section
/-! SUPPORT. The lookup table (R185, R186): the number of lattice multiplicands as a root found bit by bit, and the elements of
the table in entry-major order. O34 follows. -/

namespace Sys2Proof.Machine

/-! ### The root (R185) -/

/-- Each bit is kept when the power still fits: the root lies in the interval left, which halves. -/
theorem rootFrom_spec {entries dim bits v : Nat} (hlow : v ^ dim ≤ entries) (hhigh : entries < (v + 2 ^ bits) ^ dim) :
    rootFrom entries dim bits v ^ dim ≤ entries ∧ entries < (rootFrom entries dim bits v + 1) ^ dim := by
  induction bits generalizing v with
  | zero => exact ⟨hlow, hhigh⟩
  | succ bits ih =>
    rw [rootFrom]
    split
    · next hfits => exact ih hfits (by rwa [Nat.add_assoc, ← Nat.two_mul, Nat.mul_comm, ← Nat.pow_succ])
    · next hbig => exact ih hlow (Nat.lt_of_not_le hbig)

theorem lookup1Values_spec (entries : Nat) {dim : Nat} (hdim : 1 ≤ dim) :
    lookup1Values entries dim ^ dim ≤ entries ∧ entries < (lookup1Values entries dim + 1) ^ dim := by
  refine rootFrom_spec ?_ ?_
  · rw [Nat.zero_pow hdim]
    exact Nat.zero_le _
  · rw [Nat.zero_add]
    exact Nat.lt_log2_self.trans_le (Nat.le_self_pow (by omega) _)

/-! ### The table (R186) -/

theorem rowFrom_length (q : VqSpec) (lv dim e n d : Nat) (last : Word32) : (q.rowFrom lv dim e n d last).length = n := by
  induction n generalizing d last with
  | zero => rfl
  | succ n ih => rw [VqSpec.rowFrom, List.length_cons, ih]

/-- An element of a row is built on the one before it, in the sequential case, and on the given one else. -/
theorem rowFrom_getD (q : VqSpec) (lv dim e : Nat) {n j : Nat} (hj : j < n) (d : Nat) (last : Word32) :
    (q.rowFrom lv dim e n d last).getD j 0 = q.element (q.index lv dim e (d + j))
      (if q.sequential = true ∧ 0 < j then (q.rowFrom lv dim e n d last).getD (j - 1) 0 else last) := by
  induction n generalizing d last j with
  | zero => omega
  | succ n ih =>
    rw [VqSpec.rowFrom]
    cases j with
    | zero => simp
    | succ j =>
      rw [List.getD_cons_succ, ih (by omega), show d + 1 + j = d + (j + 1) by omega]
      congr 1
      cases hseq : q.sequential with
      | false => simp
      | true => cases j <;> simp

theorem flatMap_range_length {α : Type} {f : Nat → List α} {m : Nat} (hf : ∀ e, (f e).length = m) (n : Nat) :
    ((List.range n).flatMap f).length = n * m := by
  simp [List.length_flatMap, hf]

theorem flatMap_range_getElem? {α : Type} {f : Nat → List α} {m : Nat} (hf : ∀ e, (f e).length = m) {n e d : Nat}
    (he : e < n) (hd : d < m) : ((List.range n).flatMap f)[e * m + d]? = (f e)[d]? := by
  induction n with
  | zero => omega
  | succ n ih =>
    rw [List.range_succ, List.flatMap_append, List.flatMap_singleton]
    rcases Nat.lt_or_eq_of_le (Nat.le_of_lt_succ he) with hlt | rfl
    · have hinside : e * m + d < ((List.range n).flatMap f).length := by
        rw [flatMap_range_length hf]
        calc e * m + d < (e + 1) * m := by rw [Nat.succ_mul]; omega
          _ ≤ n * m := Nat.mul_le_mul_right m hlt
      rw [List.getElem?_append_left hinside, ih hlt]
    · rw [List.getElem?_append_right (by rw [flatMap_range_length hf]; omega), flatMap_range_length hf,
        Nat.add_sub_cancel_left]

theorem table_getD (q : VqSpec) {entries dim e d : Nat} (he : e < entries) (hd : d < dim) :
    (q.table entries dim).getD (e * dim + d) 0 = (q.rowFrom (lookup1Values entries dim) dim e dim 0 0).getD d 0 := by
  rw [List.getD_eq_getElem?_getD, VqSpec.table, flatMap_range_getElem? (fun _ => rowFrom_length ..) he hd,
    List.getD_eq_getElem?_getD]

/-- Settles O34: the root by its interval (`rootFrom_spec`), and each element by its row (`rowFrom_getD`). -/
theorem lookupElements : Obligations.LookupElements := by
  unfold Obligations.LookupElements
  refine ⟨fun entries dim => lookup1Values_spec entries, fun q entries dim e d he hd => ?_⟩
  refine ⟨flatMap_range_length (fun _ => rowFrom_length ..) entries, ?_⟩
  have hbefore : (if q.sequential = true ∧ 0 < d then (q.table entries dim).getD (e * dim + d - 1) 0 else 0) =
      if q.sequential = true ∧ 0 < d then (q.rowFrom (lookup1Values entries dim) dim e dim 0 0).getD (d - 1) 0 else 0 := by
    split
    · next h => rw [Nat.add_sub_assoc h.2, table_getD q he (by omega)]
    · rfl
  rw [table_getD q he hd, rowFrom_getD q _ dim e hd, ← hbefore, Nat.zero_add]
  rfl

end Sys2Proof.Machine
end

section
/-! SUPPORT. The loops of the model as one loop over a list: counted loops, nested loops, and a loop as a fold. -/

namespace Sys2Proof.Machine

section Loops

variable {α β σ ε : Type}

theorem loopOver_cons (body : α → σ → Except ε σ) (x : α) (xs : List α) (r : σ) :
    loopOver body (x :: xs) r = (body x r).bind (loopOver body xs) := by
  rw [loopOver]
  cases body x r <;> rfl

theorem loopOver_append (body : α → σ → Except ε σ) (xs ys : List α) (r : σ) :
    loopOver body (xs ++ ys) r = (loopOver body xs r).bind (loopOver body ys) := by
  induction xs generalizing r with
  | nil => rfl
  | cons x xs ih =>
    rw [List.cons_append, loopOver_cons, loopOver_cons]
    cases body x r with
    | error e => rfl
    | ok r' => exact ih r'

theorem loopOver_map (body : β → σ → Except ε σ) (f : α → β) (xs : List α) :
    loopOver body (xs.map f) = loopOver (fun x => body (f x)) xs := by
  induction xs with
  | nil => rfl
  | cons x xs ih => funext r; rw [List.map_cons, loopOver_cons, loopOver_cons, ih]

theorem loopOver_flatMap (body : β → σ → Except ε σ) (f : α → List β) (xs : List α) :
    loopOver body (xs.flatMap f) = loopOver (fun x => loopOver body (f x)) xs := by
  induction xs with
  | nil => rfl
  | cons x xs ih => funext r; rw [List.flatMap_cons, loopOver_append, loopOver_cons, ih]

theorem loopOver_eq_foldl (body : α → σ → Except ε σ) (xs : List α) (r : σ) :
    loopOver body xs r = xs.foldl (fun run x => run.bind (body x)) (.ok r) := by
  suffices h : ∀ run : Except ε σ, xs.foldl (fun run x => run.bind (body x)) run = run.bind (loopOver body xs) from
    (h (.ok r)).symm
  induction xs with
  | nil => exact fun run => by cases run <;> rfl
  | cons x xs ih =>
    intro run
    rw [List.foldl_cons, ih]
    cases run with
    | error e => rfl
    | ok r => exact (loopOver_cons body x xs r).symm

theorem loopFrom_eq_loopOver_range' (body : Nat → σ → Except ε σ) (n i : Nat) (r : σ) :
    loopFrom body n i r = loopOver body (List.range' i n) r := by
  induction n generalizing i r with
  | zero => rfl
  | succ n ih =>
    rw [loopFrom, List.range'_succ, loopOver]
    cases body i r with
    | error e => rfl
    | ok r' => exact ih (i + 1) r'

theorem loopFrom_zero_eq_loopOver (body : Nat → σ → Except ε σ) (n : Nat) :
    loopFrom body n 0 = loopOver body (List.range n) := by
  funext r
  rw [loopFrom_eq_loopOver_range', List.range_eq_range']

end Loops

end Sys2Proof.Machine
end

section
/-! SUPPORT. One codeword and one vector of a residue decode (R207, R209 to R211): how a codeword can end, and that the
samples of a vector are added at distinct addresses one by one. O38 follows. -/

namespace Sys2Proof.Machine

/-! ### A codeword (R207, R211) -/

section Symbol

variable {r : ResRun} {k : Nat} {b : Codebook} (hb : Table.find r.st.books k = some b)
include hb

theorem symbol_of_invalid (h : (r.st.hufDecode b).2 = .invalid) :
    r.symbol k = .error (.invalid { r with st := (r.st.hufDecode b).1 }) := by
  have hd : r.st.hufDecode b = ((r.st.hufDecode b).1, .invalid) := Prod.ext rfl h
  simp only [ResRun.symbol, hb]
  rw [hd]

theorem symbol_of_short {e : Nat} (h : (r.st.hufDecode b).2 = .entry e false) :
    r.symbol k = .error (.short { r with st := (r.st.hufDecode b).1 }) := by
  have hd : r.st.hufDecode b = ((r.st.hufDecode b).1, .entry e false) := Prod.ext rfl h
  simp only [ResRun.symbol, hb]
  rw [hd]

theorem symbol_of_entry {e : Nat} (h : (r.st.hufDecode b).2 = .entry e true) :
    r.symbol k = .ok ({ r with st := (r.st.hufDecode b).1 }, b, e) := by
  have hd : r.st.hufDecode b = ((r.st.hufDecode b).1, .entry e true) := Prod.ext rfl h
  simp only [ResRun.symbol, hb]
  rw [hd]

end Symbol

/-! ### The samples of a vector (R210) -/

theorem addSample_of_read {job : ResJob} {c idx : Nat} {r : ResRun} {w : Word32}
    (h : Memory.read r.st.dm (job.address c idx) = some w) (v : Word32) :
    addSample job c idx v r = .ok { r with st := r.st.dmWrite (job.address c idx) (F32.add w v) } := by
  simp only [addSample, h]

/-- `m'` is `m` with `v j` added, rounded, to the word at `addr j`, for the `j` from `i` to below `i + n`. -/
structure Memory.Summed (addr : Nat → Nat) (v : Nat → Word32) (i n : Nat) (m m' : Memory) : Prop where
  inside : ∀ j w, i ≤ j → j < i + n → Memory.read m (addr j) = some w → Memory.read m' (addr j) = some (F32.add w (v j))
  outside : ∀ a, (∀ j, i ≤ j → j < i + n → a ≠ addr j) → Memory.read m' a = Memory.read m a

/-- The first sum and then the others are all of them, where no other has the first one's address. -/
theorem Memory.Summed.cons {addr : Nat → Nat} {v : Nat → Word32} {i n : Nat} {m m' : Memory} {w : Word32}
    (hw : Memory.read m (addr i) = some w) (hi : ∀ j, i < j → j < i + (n + 1) → addr j ≠ addr i)
    (h : Summed addr v (i + 1) n (Memory.write m (addr i) (F32.add w (v i))) m') : Summed addr v i (n + 1) m m' where
  inside j u hle hlt hu := by
    rcases Nat.eq_or_lt_of_le hle with rfl | hgt
    · rw [h.outside _ fun k hk hlt' => (hi k (by omega) (by omega)).symm, Memory.read_write_same]
      cases hw.symm.trans hu
      rfl
    · refine h.inside j u hgt (by omega) ?_
      rwa [Memory.read_write, if_neg (hi j hgt hlt)]
  outside a ha := by
    rw [h.outside a fun j hle hlt => ha j (by omega) (by omega), Memory.read_write, if_neg (ha i le_rfl (by omega))]

theorem loopFrom_addSample {job : ResJob} {c at0 : Nat} (v : Nat → Word32) {n i : Nat} {r : ResRun}
    (hdistinct : ∀ j k, i ≤ j → j < k → k < i + n → job.address c (at0 + k) ≠ job.address c (at0 + j))
    (hknown : ∀ j, i ≤ j → j < i + n → r.st.known (job.address c (at0 + j))) :
    ∃ m, loopFrom (fun q => addSample job c (at0 + q) (v q)) n i r = .ok { r with st := { r.st with dm := m } } ∧
      Memory.Summed (fun q => job.address c (at0 + q)) v i n r.st.dm m := by
  induction n generalizing i r with
  | zero => exact ⟨r.st.dm, rfl, fun j w _ _ => by omega, fun _ _ => rfl⟩
  | succ n ih =>
    obtain ⟨w, hw, -⟩ := exists_read_of_known (hknown i le_rfl (by omega))
    have hfirst (j : Nat) (hj : i < j) (hlt : j < i + (n + 1)) := hdistinct i j le_rfl hj hlt
    obtain ⟨m, hrun, hsummed⟩ := ih (i := i + 1)
      (r := { r with st := r.st.dmWrite (job.address c (at0 + i)) (F32.add w (v i)) })
      (fun j k hj hjk hk => hdistinct j k (by omega) hjk (by omega)) fun j hj hlt => by
        rw [State.known, State.dmWrite_dm, Memory.read_write, if_neg (hfirst j hj (by omega))]
        exact hknown j (by omega) (by omega)
    refine ⟨m, ?_, .cons hw hfirst hsummed⟩
    rw [loopFrom, addSample_of_read hw]
    exact hrun

/-! ### A vector (R209) -/

theorem addVector_of_error {job : ResJob} {k c at0 : Nat} {r : ResRun} {x : ResHalt} (h : r.symbol k = .error x) :
    addVector job k c at0 r = .error x := by
  rw [addVector, h]

theorem addVector_of_entry {job : ResJob} {k c at0 e : Nat} {r r1 r2 : ResRun} {b : Codebook}
    (h : r.symbol k = .ok (r1, b, e))
    (hadd : loopFrom (fun q => addSample job c (at0 + q) (b.lut.getD (e * b.dim + q) 0)) b.dim 0 r1 = .ok r2) :
    addVector job k c at0 r = .ok { r2 with cnt := r2.cnt + 1 } := by
  simp only [addVector, h, hadd]

/-- Settles O38: how the codeword ends (`symbol_of_entry` and its two siblings), then the samples (`loopFrom_addSample`). -/
theorem vectorAdd : Obligations.VectorAdd := by
  unfold Obligations.VectorAdd
  intro job k c at0 r b hb hdistinct hknown t
  refine ⟨fun idx hv => by simp [ResJob.address, hv], fun idx hv => by simp [ResJob.address, hv],
    fun h => addVector_of_error (symbol_of_invalid hb h), fun e h => addVector_of_error (symbol_of_short hb h),
    fun e h => ?_⟩
  have hdm : t.dm = r.st.dm := hufDecode_dm r.st b
  obtain ⟨m, hrun, hsummed⟩ := loopFrom_addSample (job := job) (c := c) (at0 := at0)
    (fun q => b.lut.getD (e * b.dim + q) 0) (n := b.dim) (i := 0) (r := { r with st := t })
    (fun i j _ hij hj heq => hij.ne' (hdistinct i j (by omega) (by omega) heq))
    fun j _ hj => by
      rw [State.known, hdm]
      exact hknown j (by omega)
  rw [← hdm]
  refine ⟨m, addVector_of_entry (symbol_of_entry hb h) hrun, fun i w hi => hsummed.inside i w (by omega) (by omega),
    fun a ha => hsummed.outside a fun i _ hi => ha i (by omega)⟩

end Sys2Proof.Machine
end

section
/-! SUPPORT. The pieces of a residue decode and their order (R203, R206 to R209, R211): the digits of a class codeword, the
vectors of a partition, and the nested loops as one loop over the schedule. O60 and O37 follow. -/

namespace Sys2Proof.Machine

/-! ### The class digits (R203, R208) -/

theorem digitKey_inj {parts c p j q : Nat} (hp : p < parts) (hq : q < parts) (h : digitKey parts j q = digitKey parts c p) :
    j = c ∧ q = p := by
  unfold digitKey at h
  have hpos : 0 < parts := by omega
  have hdiv := congrArg (· / parts) h
  have hmod := congrArg (· % parts) h
  simp only [Nat.mul_add_mod_self_right, Nat.mod_eq_of_lt hp, Nat.mod_eq_of_lt hq] at hmod
  simp only [Nat.mul_comm _ parts, Nat.mul_add_div hpos, Nat.div_eq_of_lt hp, Nat.div_eq_of_lt hq] at hdiv
  exact ⟨hdiv, hmod⟩

/-- The scratch after the digits `digit 0`, .. `digit (n - 1)` of a class codeword (R208). -/
def storeDigits (parts c p : Nat) (digit : Nat → Nat) (n : Nat) (cls : Table Nat) : Table Nat :=
  (List.range n).foldl (fun t pos => if p + pos < parts then Table.put t (digitKey parts c (p + pos)) (digit pos) else t) cls

theorem storeDigits_succ (parts c p : Nat) (digit : Nat → Nat) (n : Nat) (cls : Table Nat) :
    storeDigits parts c p digit (n + 1) cls = if p + n < parts then
      Table.put (storeDigits parts c p digit n cls) (digitKey parts c (p + n)) (digit n)
    else storeDigits parts c p digit n cls := by
  rw [storeDigits, List.range_succ, List.foldl_append]
  rfl

theorem find_storeDigits (c p : Nat) (digit : Nat → Nat) (n : Nat) (cls : Table Nat) {parts j q : Nat} (hq : q < parts) :
    Table.find (storeDigits parts c p digit n cls) (digitKey parts j q) =
      if j = c ∧ p ≤ q ∧ q < p + n then some (digit (q - p)) else Table.find cls (digitKey parts j q) := by
  induction n with
  | zero => rw [if_neg (by omega)]; rfl
  | succ n ih =>
    rw [storeDigits_succ]
    by_cases hlast : j = c ∧ q = p + n
    · obtain ⟨rfl, rfl⟩ := hlast
      rw [if_pos hq, Table.find_put_same, if_pos (by omega), Nat.add_sub_cancel_left]
    · have hother : Table.find (if p + n < parts then
            Table.put (storeDigits parts c p digit n cls) (digitKey parts c (p + n)) (digit n)
          else storeDigits parts c p digit n cls) (digitKey parts j q) =
          Table.find (storeDigits parts c p digit n cls) (digitKey parts j q) := by
        split
        · next hp => exact Table.find_put_other _ _ fun h => hlast (digitKey_inj hp hq h)
        · rfl
      rw [hother, ih]
      exact if_congr (by omega) rfl rfl

/-! ### A class codeword (R208, R211) -/

section Classword

variable {res : Residue} {p c : Nat} {r : ResRun}

theorem classify_of_error {x : ResHalt} (h : r.symbol res.classbook = .error x) (parts : Nat) :
    classify res parts p c r = .error x := by
  rw [classify, h]

theorem classify_of_entry {r1 : ResRun} {b : Codebook} {e : Nat} (h : r.symbol res.classbook = .ok (r1, b, e))
    (parts : Nat) : classify res parts p c r = .ok { r1 with cls := storeDigits parts c p (res.digit e) res.cw r1.cls } := by
  rw [classify, h]
  rfl

end Classword

/-! ### A partition of a channel (R207, R209) -/

section Partition

variable {res : Residue} {job : ResJob} {st p c cls : Nat} {r : ResRun}
  (hcls : Table.find r.cls (digitKey (nparts res job) c p) = some cls)
include hcls

theorem decodeChannel_of_no_book (h : res.stageBook cls st = none) : decodeChannel res job st p c r = .ok r := by
  simp only [decodeChannel, hcls, h]

theorem decodeChannel_of_book {k : Nat} {b : Codebook} (h : res.stageBook cls st = some k)
    (hb : Table.find r.st.books k = some b) : decodeChannel res job st p c r =
      loopOver (fun t => addVector job k c (limBegin res job + p * res.psize.toNat + t * b.dim))
        (List.range (res.psize.toNat / b.dim)) r := by
  simp only [decodeChannel, hcls, h, decodePartition, hb, loopFrom_zero_eq_loopOver]

end Partition

/-- Settles O60: a class codeword by its symbol and `find_storeDigits`, a partition as a fold. -/
theorem residuePieces : Obligations.ResiduePieces := by
  unfold Obligations.ResiduePieces
  refine ⟨fun res parts p c r b hb => ⟨fun h => classify_of_error (symbol_of_invalid hb h) parts,
    fun e h => classify_of_error (symbol_of_short hb h) parts,
    fun e h => ⟨_, classify_of_entry (symbol_of_entry hb h) parts, fun pos hpos hlt => ?stored, fun j q hq hout => ?kept⟩⟩,
    fun res job st p c cls r hcls => ⟨decodeChannel_of_no_book hcls, fun k b hk hb => ?partition⟩⟩
  case stored => rw [find_storeDigits _ _ _ _ _ hlt, if_pos (by omega), Nat.add_sub_cancel_left]
  case kept => exact (find_storeDigits _ _ _ _ _ hq).trans (if_neg hout)
  case partition => rw [decodeChannel_of_book hcls hk hb, loopOver_eq_foldl]

/-! ### The digits of an index (R203) -/

/-- The digits of `i` in base `n`, the most significant of the `m` lowest first, rebuild `i` modulo `n ^ m`. -/
theorem sum_digits_eq_mod (n m i : Nat) :
    ∑ pos ∈ Finset.range m, i / n ^ (m - 1 - pos) % n * n ^ (m - 1 - pos) = i % n ^ m := by
  rw [Finset.sum_range_reflect (fun k => i / n ^ k % n * n ^ k) m]
  induction m with
  | zero => rw [Finset.sum_range_zero, Nat.pow_zero, Nat.mod_one]
  | succ m ih => rw [Finset.sum_range_succ, ih, Nat.mod_pow_succ, Nat.mul_comm]

/-! ### The order of the pieces (R207) -/

/-- The pieces of group `g` at stage `st`. -/
def groupPieces (res : Residue) (job : ResJob) (st g : Nat) : List ResEvent :=
  (if st = 0 then job.chans.map (ResEvent.classword (g * res.cw)) else []) ++
    (List.range (min res.cw (nparts res job - g * res.cw))).flatMap fun i =>
      job.chans.map (ResEvent.partition st (g * res.cw + i))

theorem schedule_eq_flatMap (res : Residue) (job : ResJob) : schedule res job =
    (List.range 8).flatMap fun st => (List.range (groupCount res job)).flatMap (groupPieces res job st) := rfl

theorem decodeGroup_eq_loopOver (res : Residue) (job : ResJob) (st g : Nat) :
    decodeGroup res job st g = loopOver (ResEvent.run res job) (groupPieces res job st g) := by
  funext r
  have hwords : loopOver (ResEvent.run res job) (if st = 0 then job.chans.map (ResEvent.classword (g * res.cw)) else []) r =
      if st = 0 then loopOver (classify res (nparts res job) (g * res.cw)) job.chans r else .ok r := by
    split
    · exact congrFun (loopOver_map (ResEvent.run res job) (ResEvent.classword (g * res.cw)) job.chans) r
    · rfl
  rw [decodeGroup, groupPieces, loopOver_append, hwords]
  simp only [loopOver_flatMap, loopOver_map, loopFrom_zero_eq_loopOver]
  cases (if st = 0 then loopOver (classify res (nparts res job) (g * res.cw)) job.chans r else .ok r) <;> rfl

theorem resDecode_of_all_skipped {job : ResJob} (h : ∀ f ∈ job.skip, f = true) (res : Residue) (s : State) :
    resDecode res job s = .ok { st := s, cnt := 0, cls := [] } :=
  if_pos (List.all_eq_true.2 h)

theorem resDecode_eq_loopOver {job : ResJob} (h : ∃ f ∈ job.skip, f = false) (res : Residue) (s : State) :
    resDecode res job s = loopOver (ResEvent.run res job) (schedule res job) { st := s, cnt := 0, cls := [] } := by
  have hskip : ¬ job.skip.all id = true := by simpa using h
  simp only [resDecode, schedule_eq_flatMap, if_neg hskip, loopFrom_zero_eq_loopOver, loopOver_flatMap,
    ← decodeGroup_eq_loopOver]

/-- Settles O37: the digits by `sum_digits_eq_mod`, the order by `resDecode_eq_loopOver`. -/
theorem residueSchedule : Obligations.ResidueSchedule := by
  unfold Obligations.ResidueSchedule
  exact ⟨fun res i hpos => ⟨fun pos => Nat.mod_lt _ hpos, fun pos _ => rfl, sum_digits_eq_mod res.ncls res.cw i⟩,
    fun res job s => ⟨rfl, rfl, rfl, rfl, fun h => resDecode_of_all_skipped h res s, fun h => resDecode_eq_loopOver h res s⟩⟩

end Sys2Proof.Machine
end

section
/-! SUPPORT. RES.SETUP (R201, R202, R204): the stage books of a descriptor, read where their cascade bit is set, and the ends
of the command in the order of its tests. O36 follows. -/

namespace Sys2Proof.Machine

/-! ### The stage books (R201) -/

/-- The stage book of stage `st` in the words from `a` on, where the bit of the mask is set. -/
def State.stageSlot (s : State) (a : Nat) (mask : BitVec 8) (st : Nat) : Option Nat :=
  if mask.getLsbD st then some (s.word (a + st)) else none

theorem readStages_of_known {s : State} {a : Nat} {mask : BitVec 8} {stages : List Nat}
    (h : ∀ st ∈ stages, mask.getLsbD st = true → s.known (a + st)) :
    readStages s.dm a mask stages = .ok (stages.map (s.stageSlot a mask)) := by
  induction stages with
  | nil => rfl
  | cons st sts ih =>
    obtain ⟨hst, hsts⟩ := List.forall_mem_cons.1 h
    rw [readStages, ih hsts, List.map_cons, State.stageSlot]
    split
    · next hbit =>
      obtain ⟨w, hw, hword⟩ := exists_read_of_known (hst hbit)
      rw [hw, hword]
    · rfl

/-- The cascade and the stage books of the classifications, from their masks and the words from `a` on. -/
def State.cascades (s : State) (a : Nat) (masks : List Word32) : List Cascade :=
  masks.mapIdx fun c w =>
    { mask := w.setWidth 8, books := (List.range 8).map (s.stageSlot (a + 8 * c) (w.setWidth 8)) }

/-- Classification `c` has a stage book for stage `st`. -/
def HasStage (masks : List Word32) (c st : Nat) : Prop := ∃ w, masks[c]? = some w ∧ st < 8 ∧ w.getLsbD st = true

theorem getLsbD_setWidth_eight_iff (w : Word32) (st : Nat) :
    (w.setWidth 8).getLsbD st = true ↔ st < 8 ∧ w.getLsbD st = true := by
  rw [BitVec.getLsbD_setWidth, Bool.and_eq_true, decide_eq_true_eq]

theorem readClasses_of_known {s : State} {a : Nat} {masks : List Word32}
    (h : ∀ c st, HasStage masks c st → s.known (a + 8 * c + st)) :
    readClasses s.dm a masks = .ok (s.cascades a masks) := by
  induction masks generalizing a with
  | nil => rfl
  | cons w ws ih =>
    have hfirst : readStages s.dm a (w.setWidth 8) (List.range 8) =
        .ok ((List.range 8).map (s.stageSlot a (w.setWidth 8))) :=
      readStages_of_known fun st _ hbit => h 0 st ⟨w, rfl, (getLsbD_setWidth_eight_iff w st).1 hbit⟩
    have hrest : readClasses s.dm (a + 8) ws = .ok (s.cascades (a + 8) ws) :=
      ih fun c st hc => by
        have := h (c + 1) st hc
        rwa [show a + 8 * (c + 1) + st = a + 8 + 8 * c + st by omega] at this
    rw [readClasses, hfirst, hrest, State.cascades, State.cascades, List.mapIdx_cons]
    simp only [Nat.mul_add, Nat.add_assoc, Nat.add_comm 8, Nat.mul_zero, Nat.add_zero, Nat.mul_one]

theorem cascades_length (s : State) (a : Nat) (masks : List Word32) : (s.cascades a masks).length = masks.length :=
  List.length_mapIdx

theorem cascades_getElem? (s : State) (a : Nat) (masks : List Word32) (c : Nat) : (s.cascades a masks)[c]? =
    masks[c]?.map fun w =>
      { mask := w.setWidth 8, books := (List.range 8).map (s.stageSlot (a + 8 * c) (w.setWidth 8)) } :=
  List.getElem?_mapIdx

section StageBook

variable {s : State} {a c st : Nat} {masks : List Word32} {res : Residue} (hres : res.classes = s.cascades a masks)
include hres

theorem stageBook_of_hasStage (h : HasStage masks c st) : res.stageBook c st = some (s.word (a + 8 * c + st)) := by
  obtain ⟨w, hw, hst⟩ := h
  rw [Residue.stageBook, hres, cascades_getElem?, hw]
  simp [State.stageSlot, hst]

theorem stageBook_of_not_hasStage (h : ¬ HasStage masks c st) : res.stageBook c st = none := by
  rw [Residue.stageBook, hres, cascades_getElem?]
  cases hw : masks[c]? with
  | none => rfl
  | some w =>
    by_cases hst : st < 8
    · have hbit : w.getLsbD st = false := by simpa using fun hbit => h ⟨w, hw, hst, hbit⟩
      simp [State.stageSlot, hst, hbit]
    · simp [hst]

end StageBook

theorem mem_cascades_books_iff {s : State} {a : Nat} {masks : List Word32} {k : Nat} :
    (∃ cascade ∈ s.cascades a masks, some k ∈ cascade.books) ↔
      ∃ c st, HasStage masks c st ∧ k = s.word (a + 8 * c + st) := by
  constructor
  · rintro ⟨cascade, hmem, hk⟩
    obtain ⟨c, hc⟩ := List.getElem?_of_mem hmem
    rw [cascades_getElem?] at hc
    obtain ⟨w, hw, rfl⟩ := Option.map_eq_some_iff.1 hc
    obtain ⟨st, -, hslot⟩ := List.mem_map.1 hk
    unfold State.stageSlot at hslot
    split at hslot
    · next hbit =>
      cases hslot
      exact ⟨c, st, ⟨w, hw, (getLsbD_setWidth_eight_iff w st).1 hbit⟩, rfl⟩
    · cases hslot
  · rintro ⟨c, st, ⟨w, hw, hst⟩, rfl⟩
    refine ⟨_, List.mem_of_getElem? (i := c) (by rw [cascades_getElem?, hw]; rfl), List.mem_map.2 ⟨st, ?_, ?_⟩⟩
    · exact List.mem_range.2 hst.1
    · rw [State.stageSlot, if_pos ((getLsbD_setWidth_eight_iff w st).2 hst)]

theorem bookHasTable_eq_false_iff {s : State} {k : Nat} : s.bookHasTable k = false ↔
    s.par.ncb ≤ k ∨ Table.find s.books k = none ∨ ∃ b, Table.find s.books k = some b ∧ b.mapType = .noTable := by
  rw [State.bookHasTable, Bool.and_eq_false_iff, decide_eq_false_iff_not, Nat.not_lt]
  cases Table.find s.books k <;> simp

theorem stagesReady_eq_false_iff {s : State} {cs : List Cascade} : s.stagesReady cs = false ↔
    ∃ k, (∃ cascade ∈ cs, some k ∈ cascade.books) ∧ s.bookHasTable k = false := by
  rw [State.stagesReady, List.all_eq_false]
  constructor
  · rintro ⟨cascade, hmem, hall⟩
    rw [Bool.not_eq_true, List.all_eq_false] at hall
    obtain ⟨o, ho, hbad⟩ := hall
    cases o with
    | none => exact (hbad rfl).elim
    | some k => exact ⟨k, ⟨cascade, hmem, ho⟩, Bool.eq_false_iff.2 hbad⟩
  · rintro ⟨k, ⟨cascade, hmem, hk⟩, hbad⟩
    exact ⟨cascade, hmem, fun h => Bool.eq_false_iff.1 hbad (List.all_eq_true.1 h _ hk)⟩

theorem stagesReady_cascades_eq_false_iff {s : State} {a : Nat} {masks : List Word32} :
    s.stagesReady (s.cascades a masks) = false ↔
      ∃ c st, HasStage masks c st ∧ s.bookHasTable (s.word (a + 8 * c + st)) = false := by
  rw [stagesReady_eq_false_iff]
  simp only [mem_cascades_books_iff]
  constructor
  · rintro ⟨_, ⟨c, st, hst, rfl⟩, hbad⟩
    exact ⟨c, st, hst, hbad⟩
  · rintro ⟨c, st, hst, hbad⟩
    exact ⟨_, ⟨c, st, hst, rfl⟩, hbad⟩

/-! ### The ends of RES.SETUP (R202, R204) -/

/-- The state of `RES.SETUP` once its fault checks have passed: the slot is invalid (R204). -/
def State.closeResidue (s : State) (r : Nat) : State := { s with residues := Table.erase s.residues r }

section Setup

variable {s : State} {rs1 rs2 : Reg}

theorem exec_resSetup_of_slot (h : s.par.nres ≤ s.xNat rs1) :
    exec (.resSetup rs1 rs2) s = .next (s.faulted 17) := if_pos h

variable (hslot : s.xNat rs1 < s.par.nres)
include hslot

theorem exec_resSetup_of_header (h : s.par.dmWords ≤ s.xNat rs2 + 4) :
    exec (.resSetup rs1 rs2) s = .next (s.faulted 20) := (if_neg hslot.not_ge).trans (if_pos h)

variable (hheader : s.xNat rs2 + 4 < s.par.dmWords) {ncls : Word32}
  (hncls : Memory.read s.dm (s.xNat rs2 + 3) = some ncls)
include hheader hncls

theorem exec_resSetup_of_beyond
    (h : 1 ≤ ncls.toNat ∧ ncls.toNat ≤ 64 ∧ s.par.dmWords < s.xNat rs2 + 5 + 9 * ncls.toNat) :
    exec (.resSetup rs1 rs2) s = .next (s.faulted 20) := by
  simp only [exec, execResSetup, if_neg hslot.not_ge, if_neg hheader.not_ge, withWord_of_read hncls]
  exact if_pos h

end Setup

/-- The first words of the descriptor at `a` (R201). -/
structure SetupHeader (s : State) (a : Nat) (first last psize ncls classbook : Word32) : Prop where
  first : Memory.read s.dm a = some first
  last : Memory.read s.dm (a + 1) = some last
  psize : Memory.read s.dm (a + 2) = some psize
  ncls : Memory.read s.dm (a + 3) = some ncls
  classbook : Memory.read s.dm (a + 4) = some classbook

theorem exists_setupHeader {s : State} {a : Nat} (h : ∀ j, j < 5 → s.known (a + j)) :
    ∃ first last psize ncls classbook, SetupHeader s a first last psize ncls classbook := by
  obtain ⟨first, hfirst, -⟩ := exists_read_of_known (h 0 (by omega))
  obtain ⟨last, hlast, -⟩ := exists_read_of_known (h 1 (by omega))
  obtain ⟨psize, hpsize, -⟩ := exists_read_of_known (h 2 (by omega))
  obtain ⟨ncls, hncls, -⟩ := exists_read_of_known (h 3 (by omega))
  obtain ⟨classbook, hclassbook, -⟩ := exists_read_of_known (h 4 (by omega))
  exact ⟨first, last, psize, ncls, classbook, hfirst, hlast, hpsize, hncls, hclassbook⟩

/-- The causes of R202 that the range, the partition size and the number of classifications give. -/
def BadHeader (first last psize ncls : Word32) : Prop :=
  last.toNat < first.toNat ∨ psize.toNat = 0 ∨ ncls.toNat = 0 ∨ 64 < ncls.toNat

theorem not_badHeader_iff {first last psize ncls : Word32} : ¬ BadHeader first last psize ncls ↔
    ¬ last.toNat < first.toNat ∧ ¬ psize = 0 ∧ ¬ (ncls.toNat = 0 ∨ Config.maxClass < ncls.toNat) := by
  rw [BadHeader, not_or, not_or, BitVec.toNat_eq]
  rfl

section Checked

variable {s : State} {rs1 rs2 : Reg} {first last psize ncls classbook : Word32} (hslot : s.xNat rs1 < s.par.nres)
  (hheader : s.xNat rs2 + 4 < s.par.dmWords) (hwords : SetupHeader s (s.xNat rs2) first last psize ncls classbook)
  (hfits : ¬ (1 ≤ ncls.toNat ∧ ncls.toNat ≤ Config.maxClass ∧ s.par.dmWords < s.xNat rs2 + 5 + 9 * ncls.toNat))
include hslot hheader hwords hfits

theorem exec_resSetup_of_badHeader (h : BadHeader first last psize ncls) :
    exec (.resSetup rs1 rs2) s = (s.closeResidue (s.xNat rs1)).malformed := by
  simp only [exec, execResSetup, if_neg hslot.not_ge, if_neg hheader.not_ge, withWord_of_read hwords.ncls, if_neg hfits,
    withWord_of_read hwords.first, withWord_of_read hwords.last, withWord_of_read hwords.psize]
  by_cases hrange : last.toNat < first.toNat
  · exact if_pos hrange
  rw [if_neg hrange]
  by_cases hzero : psize = 0
  · exact if_pos hzero
  rw [if_neg hzero]
  exact if_pos ((h.resolve_left hrange).resolve_left fun h => hzero (BitVec.eq_of_toNat_eq h))

variable (hgood : ¬ BadHeader first last psize ncls)
include hgood

theorem exec_resSetup_of_bad_classbook
    (h : s.par.ncb ≤ classbook.toNat ∨ Table.find s.books classbook.toNat = none) :
    exec (.resSetup rs1 rs2) s = (s.closeResidue (s.xNat rs1)).malformed := by
  obtain ⟨hrange, hpsize, hcount⟩ := not_badHeader_iff.1 hgood
  simp only [exec, execResSetup, if_neg hslot.not_ge, if_neg hheader.not_ge, withWord_of_read hwords.ncls, if_neg hfits,
    withWord_of_read hwords.first, withWord_of_read hwords.last, withWord_of_read hwords.psize, if_neg hrange,
    if_neg hpsize, if_neg hcount, withWord_of_read hwords.classbook]
  cases hfind : Table.find s.books classbook.toNat with
  | none => rfl
  | some cb => exact if_pos (h.resolve_right (by simp [hfind]))

variable (hncb : ¬ s.par.ncb ≤ classbook.toNat) {cb : Codebook} (hcb : Table.find s.books classbook.toNat = some cb)
  {masks : List Word32} (hmasks : Memory.readList s.dm (s.xNat rs2 + 5) ncls.toNat = .ok masks)
include hncb hcb hmasks

theorem exec_resSetup_of_bad_mask (h : ∃ w ∈ masks, 255 < w.toNat) :
    exec (.resSetup rs1 rs2) s = (s.closeResidue (s.xNat rs1)).malformed := by
  obtain ⟨hrange, hpsize, hcount⟩ := not_badHeader_iff.1 hgood
  simp only [exec, execResSetup, if_neg hslot.not_ge, if_neg hheader.not_ge, withWord_of_read hwords.ncls, if_neg hfits,
    withWord_of_read hwords.first, withWord_of_read hwords.last, withWord_of_read hwords.psize, if_neg hrange,
    if_neg hpsize, if_neg hcount, withWord_of_read hwords.classbook, hcb, if_neg hncb, withWords_of_read hmasks]
  exact if_pos (by simpa using h)

theorem exec_resSetup_of_classes (hmask : ¬ ∃ w ∈ masks, 255 < w.toNat) {classes : List Cascade}
    (hclasses : readClasses s.dm (s.xNat rs2 + 5 + ncls.toNat) masks = .ok classes) : exec (.resSetup rs1 rs2) s =
    if s.stagesReady classes = false then (s.closeResidue (s.xNat rs1)).malformed
    else .next (State.ended { s.closeResidue (s.xNat rs1) with
      residues := Table.put (Table.erase s.residues (s.xNat rs1)) (s.xNat rs1)
        { beginAt := first, endAt := last, psize := psize, classbook := classbook.toNat, classes := classes, cw := cb.dim } }
      0) := by
  obtain ⟨hrange, hpsize, hcount⟩ := not_badHeader_iff.1 hgood
  have hany : ¬ masks.any (fun w => decide (255 < w.toNat)) = true := by simpa using hmask
  simp only [exec, execResSetup, if_neg hslot.not_ge, if_neg hheader.not_ge, withWord_of_read hwords.ncls, if_neg hfits,
    withWord_of_read hwords.first, withWord_of_read hwords.last, withWord_of_read hwords.psize, if_neg hrange,
    if_neg hpsize, if_neg hcount, withWord_of_read hwords.classbook, hcb, if_neg hncb, withWords_of_read hmasks,
    if_neg hany, hclasses]
  rfl

end Checked

/-! ### The words of the descriptor, in the claim's terms -/

section Masks

variable {s : State} {a n : Nat} {masks : List Word32} (hmasks : Memory.readList s.dm a n = .ok masks)
include hmasks

theorem exists_lt_word_iff (P : Nat → Prop) : (∃ i, i < n ∧ P (s.word (a + i))) ↔ ∃ w ∈ masks, P w.toNat := by
  obtain ⟨hlen, -⟩ := Memory.readList_ok hmasks
  constructor
  · rintro ⟨i, hi, hP⟩
    have hw := List.getElem?_eq_getElem (hlen ▸ hi : i < masks.length)
    rw [word_of_readList hmasks hw] at hP
    exact ⟨_, List.getElem_mem _, hP⟩
  · rintro ⟨w, hmem, hP⟩
    obtain ⟨i, hw⟩ := List.getElem?_of_mem hmem
    exact ⟨i, hlen ▸ (List.getElem?_eq_some_iff.1 hw).1, word_of_readList hmasks hw ▸ hP⟩

theorem hasStage_iff {c st : Nat} :
    HasStage masks c st ↔ c < n ∧ st < 8 ∧ (s.word (a + c)).testBit st = true := by
  obtain ⟨hlen, -⟩ := Memory.readList_ok hmasks
  constructor
  · rintro ⟨w, hw, hst⟩
    rw [word_of_readList hmasks hw]
    exact ⟨hlen ▸ (List.getElem?_eq_some_iff.1 hw).1, hst⟩
  · rintro ⟨hc, hst⟩
    have hw := List.getElem?_eq_getElem (hlen ▸ hc : c < masks.length)
    rw [word_of_readList hmasks hw] at hst
    exact ⟨_, hw, hst⟩

theorem mask_of_cascades (hmask : ¬ ∃ w ∈ masks, 255 < w.toNat) {b c : Nat} {cascade : Cascade}
    (h : (s.cascades b masks)[c]? = some cascade) : cascade.mask.toNat = s.word (a + c) := by
  rw [cascades_getElem?] at h
  obtain ⟨w, hw, rfl⟩ := Option.map_eq_some_iff.1 h
  have hle : ¬ 255 < w.toNat := fun hlt => hmask ⟨w, List.mem_of_getElem? hw, hlt⟩
  rw [word_of_readList hmasks hw, BitVec.toNat_setWidth, Nat.mod_eq_of_lt (by omega)]

end Masks

/-- Settles O36: each end of RES.SETUP, in the order of R202. -/
theorem residueSetup : Obligations.ResidueSetup := by
  unfold Obligations.ResidueSetup
  intro s rs1 rs2 r a w ncls closed stage bookWord
  refine ⟨exec_resSetup_of_slot, exec_resSetup_of_header, fun hslot hheader hn h1 h2 hbeyond => ?beyond,
    fun hslot hheader hknown hclassWords => ?checked⟩
  case beyond =>
    obtain ⟨n, hn, hnWord⟩ := exists_read_of_known hn
    have hncls : ncls = n.toNat := hnWord
    exact exec_resSetup_of_beyond hslot hheader hn ⟨hncls ▸ h1, hncls ▸ h2, hncls ▸ hbeyond⟩
  intro malformed
  obtain ⟨first, last, psize, n, classbook, hwords⟩ := exists_setupHeader hknown
  have hfirst : w 0 = first.toNat := word_of_read hwords.first
  have hlast : w 1 = last.toNat := word_of_read hwords.last
  have hpsize : w 2 = psize.toNat := word_of_read hwords.psize
  have hncls : ncls = n.toNat := word_of_read hwords.ncls
  have hclassbook : w 4 = classbook.toNat := word_of_read hwords.classbook
  have hmalformed : malformed ↔ BadHeader first last psize n ∨
      (s.par.ncb ≤ classbook.toNat ∨ Table.find s.books classbook.toNat = none) ∨
      (∃ c, c < n.toNat ∧ 255 < s.word (a + 5 + c)) ∨ ∃ c st, stage c st ∧ s.bookHasTable (bookWord c st) = false := by
    simp only [malformed, BadHeader, hfirst, hlast, hpsize, hncls, hclassbook, w, bookHasTable_eq_false_iff, or_assoc,
      Nat.add_assoc]
  have hfits : ¬ (1 ≤ n.toNat ∧ n.toNat ≤ Config.maxClass ∧ s.par.dmWords < a + 5 + 9 * n.toNat) := by
    rintro ⟨h1, h2, hlt⟩
    rw [← hncls] at h1 h2 hlt
    exact (hclassWords h1 h2).1.not_gt hlt
  by_cases hbad : BadHeader first last psize n
  · exact ⟨fun _ => exec_resSetup_of_badHeader hslot hheader hwords hfits hbad, fun h => (h (hmalformed.2 (.inl hbad))).elim⟩
  by_cases hbook : s.par.ncb ≤ classbook.toNat ∨ Table.find s.books classbook.toNat = none
  · exact ⟨fun _ => exec_resSetup_of_bad_classbook hslot hheader hwords hfits hbad hbook,
      fun h => (h (hmalformed.2 (.inr (.inl hbook)))).elim⟩
  obtain ⟨hncb, hcb⟩ := not_or.1 hbook
  obtain ⟨cb, hcb⟩ := Option.ne_none_iff_exists'.1 hcb
  have hcount : 1 ≤ ncls ∧ ncls ≤ 64 := by
    unfold BadHeader at hbad
    omega
  obtain ⟨-, hmaskKnown, hstageKnown⟩ := hclassWords hcount.1 hcount.2
  obtain ⟨masks, hmasks, -⟩ := exists_readList_of_known (s := s) (a := a + 5) (n := n.toNat) fun c hc =>
    Nat.add_assoc a 5 c ▸ hmaskKnown c (hncls ▸ hc)
  rw [exists_lt_word_iff hmasks (255 < ·)] at hmalformed
  by_cases hmask : ∃ w ∈ masks, 255 < w.toNat
  · exact ⟨fun _ => exec_resSetup_of_bad_mask hslot hheader hwords hfits hbad hncb hcb hmasks hmask,
      fun h => (h (hmalformed.2 (.inr (.inr (.inl hmask))))).elim⟩
  have hstage (c st : Nat) : stage c st ↔ HasStage masks c st := by
    simp only [hasStage_iff hmasks, stage, w, hncls, Nat.add_assoc]
  have hbookWord (c st : Nat) : bookWord c st = s.word (a + 5 + n.toNat + 8 * c + st) := by
    simp only [bookWord, w, hncls, Nat.add_assoc]
  have hclasses := readClasses_of_known (s := s) (a := a + 5 + n.toNat) (masks := masks) fun c st h => by
    simpa only [hncls, Nat.add_assoc] using hstageKnown c st ((hstage c st).2 h)
  have hexec := exec_resSetup_of_classes hslot hheader hwords hfits hbad hncb hcb hmasks hmask hclasses
  rw [or_iff_right hbad, or_iff_right hbook, or_iff_right hmask] at hmalformed
  simp only [hstage, hbookWord, ← stagesReady_cascades_eq_false_iff] at hmalformed ⊢
  exact ⟨fun h => hexec.trans (if_pos (hmalformed.1 h)), fun h => ⟨_, cb, hclassbook ▸ hcb,
    hexec.trans (if_neg fun hstages => h (hmalformed.2 hstages)), hfirst.symm, hlast.symm, hpsize.symm,
    (cascades_length s _ masks).trans ((Memory.readList_ok hmasks).1.trans hncls.symm), hclassbook.symm, rfl,
    fun c k hk => (mask_of_cascades hmasks hmask hk).trans (by rw [Nat.add_assoc]),
    fun c st => stageBook_of_hasStage rfl, fun c st => stageBook_of_not_hasStage rfl⟩⟩

end Sys2Proof.Machine
end

section
/-! SUPPORT. RES.DEC (R205, R211 to R213): its job as the words of the descriptor, the ends of the command in the order of
its tests, and the state it leaves when its codebooks and its buffers are there. O39 follows. -/

namespace Sys2Proof.Machine

/-! ### Known words -/

theorem toNat_ofNat_word (s : State) (a : Nat) : (BitVec.ofNat 32 (s.word a)).toNat = s.word a :=
  (BitVec.toNat_ofNat ..).trans (Nat.mod_eq_of_lt (BitVec.isLt _))

theorem withWord_of_known {s : State} {a : Nat} (h : s.known a) (k : Word32 → Result) :
    s.withWord a k = k (BitVec.ofNat 32 (s.word a)) := by
  obtain ⟨w, hw, hword⟩ := exists_read_of_known h
  rw [withWord_of_read hw, hword, BitVec.ofNat_toNat, BitVec.setWidth_eq]

theorem withWords_of_known {s : State} {a n : Nat} (h : ∀ i, i < n → s.known (a + i)) (k : List Word32 → Result) :
    s.withWords a n k = k ((List.range n).map fun i => BitVec.ofNat 32 (s.word (a + i))) := by
  obtain ⟨ws, hws, -, hwords⟩ := exists_readList_of_known h
  rw [withWords_of_read hws, hwords]

/-! ### The job of the descriptor (R205) -/

/-- The first address of the buffer of channel `j`, of the descriptor at `a`. -/
def State.bufWord (s : State) (a j : Nat) : Nat := s.word (a + 3 + 2 * j)

/-- The do-not-decode flag of channel `j`, of the descriptor at `a`. -/
def State.skipWord (s : State) (a j : Nat) : Nat := s.word (a + 4 + 2 * j)

/-- The job of the descriptor at `a`. -/
def State.jobAt (s : State) (a : Nat) : ResJob where
  interleaved := decide (s.word a = 1)
  n := s.word (a + 2)
  bufs := (List.range (s.word (a + 1))).map (s.bufWord a)
  skip := (List.range (s.word (a + 1))).map fun j => decide (s.skipWord a j = 1)

theorem evenWords_eq_bufWords (s : State) (a n : Nat) :
    (evenWords ((List.range (2 * n)).map fun i => BitVec.ofNat 32 (s.word (a + 3 + i)))).map BitVec.toNat =
      (List.range n).map (s.bufWord a) := by
  refine List.ext_getElem? fun j => ?_
  rw [List.getElem?_map, evenWords_getElem?, List.getElem?_map, List.getElem?_map]
  by_cases hj : j < n
  · rw [List.getElem?_range hj, List.getElem?_range (by omega)]
    exact congrArg some (toNat_ofNat_word s _)
  · rw [List.getElem?_eq_none (by simpa using hj), List.getElem?_eq_none (by simpa using hj)]
    rfl

theorem oddWords_eq_skipWords (s : State) (a n : Nat) :
    (oddWords ((List.range (2 * n)).map fun i => BitVec.ofNat 32 (s.word (a + 3 + i)))).map BitVec.toNat =
      (List.range n).map (s.skipWord a) := by
  refine List.ext_getElem? fun j => ?_
  rw [List.getElem?_map, oddWords_getElem?, List.getElem?_map, List.getElem?_map]
  by_cases hj : j < n
  · rw [List.getElem?_range hj, List.getElem?_range (by omega)]
    exact congrArg some ((toNat_ofNat_word s _).trans (congrArg s.word (by omega)))
  · have hodd : (List.range (2 * n)).length ≤ 2 * j + 1 := by rw [List.length_range]; omega
    rw [List.getElem?_eq_none hodd, List.getElem?_eq_none (by simpa using hj)]
    rfl

theorem any_map_range_iff (f : Nat → Nat) (n : Nat) (P : Nat → Prop) [DecidablePred P] :
    ((List.range n).map f).any (fun d => decide (P d)) = true ↔ ∃ j, j < n ∧ P (f j) := by
  simp

/-! ### The ends of RES.DEC (R212) -/

section Ends

variable {s : State} {rd rs1 rs2 : Reg}

theorem exec_resDec_of_slot (h : s.par.nres ≤ s.xNat rs1) :
    exec (.resDec rd rs1 rs2) s = .next (s.faulted 17) := if_pos h

variable (hslot : s.xNat rs1 < s.par.nres)
include hslot

theorem exec_resDec_of_header (h : s.par.dmWords ≤ s.xNat rs2 + 2) :
    exec (.resDec rd rs1 rs2) s = .next (s.faulted 20) := (if_neg hslot.not_ge).trans (if_pos h)

variable (hheader : s.xNat rs2 + 2 < s.par.dmWords) (hv : s.known (s.xNat rs2)) (hc : s.known (s.xNat rs2 + 1))
  (hn : s.known (s.xNat rs2 + 2))
include hheader hv hc hn

theorem exec_resDec_of_operands
    (h : 1 < s.word (s.xNat rs2) ∨ s.word (s.xNat rs2 + 1) = 0 ∨ s.par.maxCh < s.word (s.xNat rs2 + 1)) :
    exec (.resDec rd rs1 rs2) s = .next (s.faulted 17) := by
  simp only [exec, execResDec, if_neg hslot.not_ge, if_neg hheader.not_ge, withWord_of_known hv, withWord_of_known hc,
    withWord_of_known hn, toNat_ofNat_word, if_pos h]
  rfl

variable (hoperands : ¬ (1 < s.word (s.xNat rs2) ∨ s.word (s.xNat rs2 + 1) = 0 ∨ s.par.maxCh < s.word (s.xNat rs2 + 1)))
include hoperands

theorem exec_resDec_of_beyond (h : s.par.dmWords < s.xNat rs2 + 3 + 2 * s.word (s.xNat rs2 + 1)) :
    exec (.resDec rd rs1 rs2) s = .next (s.faulted 20) := by
  simp only [exec, execResDec, if_neg hslot.not_ge, if_neg hheader.not_ge, withWord_of_known hv, withWord_of_known hc,
    withWord_of_known hn, toNat_ofNat_word, if_neg hoperands, if_pos h]
  rfl

variable (hfits : s.xNat rs2 + 3 + 2 * s.word (s.xNat rs2 + 1) ≤ s.par.dmWords)
  (hwords : ∀ j, j < 2 * s.word (s.xNat rs2 + 1) → s.known (s.xNat rs2 + 3 + j))
include hfits hwords

theorem exec_resDec_of_flag (h : ∃ j, j < s.word (s.xNat rs2 + 1) ∧ 1 < s.skipWord (s.xNat rs2) j) :
    exec (.resDec rd rs1 rs2) s = .next (s.faulted 17) := by
  simp only [exec, execResDec, if_neg hslot.not_ge, if_neg hheader.not_ge, withWord_of_known hv, withWord_of_known hc,
    withWord_of_known hn, toNat_ofNat_word, if_neg hoperands, if_neg hfits.not_gt, withWords_of_known hwords,
    oddWords_eq_skipWords, any_map_range_iff, if_pos h]
  rfl

variable (hflags : ¬ ∃ j, j < s.word (s.xNat rs2 + 1) ∧ 1 < s.skipWord (s.xNat rs2) j)
include hflags

theorem exec_resDec_of_absent (h : Table.find s.residues (s.xNat rs1) = none) :
    exec (.resDec rd rs1 rs2) s = .next (s.faulted 21) := by
  simp only [exec, execResDec, if_neg hslot.not_ge, if_neg hheader.not_ge, withWord_of_known hv, withWord_of_known hc,
    withWord_of_known hn, toNat_ofNat_word, if_neg hoperands, if_neg hfits.not_gt, withWords_of_known hwords,
    oddWords_eq_skipWords, any_map_range_iff, if_neg hflags, h]
  rfl

variable {res : Residue} (hres : Table.find s.residues (s.xNat rs1) = some res)
include hres

theorem exec_resDec_of_buffer
    (h : ∃ j, j < s.word (s.xNat rs2 + 1) ∧ s.par.dmWords < s.bufWord (s.xNat rs2) j + s.word (s.xNat rs2 + 2)) :
    exec (.resDec rd rs1 rs2) s = .next (s.faulted 20) := by
  simp only [exec, execResDec, if_neg hslot.not_ge, if_neg hheader.not_ge, withWord_of_known hv, withWord_of_known hc,
    withWord_of_known hn, toNat_ofNat_word, if_neg hoperands, if_neg hfits.not_gt, withWords_of_known hwords,
    evenWords_eq_bufWords, oddWords_eq_skipWords, any_map_range_iff, if_neg hflags, hres]
  exact if_pos h

variable (hbufs : ¬ ∃ j, j < s.word (s.xNat rs2 + 1) ∧ s.par.dmWords < s.bufWord (s.xNat rs2) j + s.word (s.xNat rs2 + 2))
include hbufs

theorem exec_resDec_of_buffers : exec (.resDec rd rs1 rs2) s =
    if disjointRegions ((s.xNat rs2, 3 + 2 * s.word (s.xNat rs2 + 1)) ::
      (List.range (s.word (s.xNat rs2 + 1))).map fun j => (s.bufWord (s.xNat rs2) j, s.word (s.xNat rs2 + 2))) = false then
      .refused .overlap
    else endResDec rd (resDecode res (s.jobAt (s.xNat rs2)) s) := by
  simp only [exec, execResDec, if_neg hslot.not_ge, if_neg hheader.not_ge, withWord_of_known hv, withWord_of_known hc,
    withWord_of_known hn, toNat_ofNat_word, if_neg hoperands, if_neg hfits.not_gt, withWords_of_known hwords,
    evenWords_eq_bufWords, oddWords_eq_skipWords, any_map_range_iff, if_neg hflags, hres, if_neg hbufs]
  simp only [List.map_map]
  rfl

end Ends

/-! ### What the decode leaves (R211, R213, R215) -/

theorem State.setX_ended (s : State) (r : Reg) (v : Word) (c : BitVec 8) :
    (s.setX r v).ended c = State.setX { s with status := c } r v := by
  unfold State.setX
  split <;> rfl

/-- With its codebooks and its buffers there a decode completes: all of it, or up to a codeword that is short or INVALID. -/
theorem endResDec_of_ready {s : State} {res : Residue} {job : ResJob} (hready : res.Ready s.books)
    (hknown : ∀ a, job.touches a → s.known a) (rd : Reg) :
    ∃ (cnt : Nat) (m : Memory) (pos : Word) (short : Bool) (cnt' : BitVec 7) (flags status : BitVec 8),
      endResDec rd (resDecode res job s) = .next (State.setX { s with
        dm := m, flags := flags, status := status,
        bc := { ranges := s.bc.ranges, pos := pos, short := short, cnt := cnt' } } rd (BitVec.ofNat 64 cnt)) ∧
      ((status = 0 ∧ flags = s.flags ∧ short = s.bc.short) ∨
        (status = 2 ∧ flags = s.flags ||| 0x01 ∧ short = true ∧ pos = BitVec.ofNat 64 s.bcTotal) ∨
        (status = 3 ∧ flags = s.flags ||| 0x02 ∧ short = s.bc.short)) ∧
      ∀ b, ¬ job.touches b → Memory.read m b = Memory.read s.dm b := by
  obtain ⟨hok, herror⟩ := resDecode_ran res job s
  cases hx : resDecode res job s with
  | ok r =>
    obtain ⟨⟨m, pos, cnt, hst, -⟩, -, houtside, -⟩ := hok r hx
    rw [hst] at houtside
    refine ⟨r.cnt, m, pos, s.bc.short, cnt, s.flags, 0, ?_, .inl ⟨rfl, rfl, rfl⟩, houtside⟩
    rw [endResDec, hst, finish_eq, State.setX_ended]
    rfl
  | error x =>
    cases x with
    | short r =>
      obtain ⟨u, ⟨⟨m, pos, cnt, rfl, -⟩, -, houtside, -⟩, hst⟩ := herror _ hx
      refine ⟨r.cnt, m, BitVec.ofNat 64 s.bcTotal, true, cnt, s.flags ||| 0x01, 2, ?_, .inr (.inl ⟨rfl, rfl, rfl, rfl⟩),
        houtside⟩
      rw [endResDec, hst, finish_eq, State.setX_ended]
      rfl
    | invalid r =>
      obtain ⟨⟨m, pos, cnt, hst, -⟩, -, houtside, -⟩ := herror _ hx
      rw [hst] at houtside
      refine ⟨r.cnt, m, pos, s.bc.short, cnt, s.flags ||| 0x02, 3, ?_, .inr (.inr ⟨rfl, rfl, rfl⟩), houtside⟩
      rw [endResDec, hst, finish_eq, State.setX_setFlag, State.setX_ended]
      rfl
    | fault f =>
      rcases herror _ hx with ⟨a, ha, rfl, hread⟩ | ⟨k, rfl, -⟩
      · have := hknown a ha
        rw [State.known, hread] at this
        cases this
      · exact (resDecode_present hready hx).elim

/-- An address of the job at `a` is a word of the buffer of a channel that is decoded (R210). -/
theorem touches_jobAt {s : State} {a b : Nat} (h : (s.jobAt a).touches b) : ∃ j, j < s.word (a + 1) ∧
    (s.word a = 1 ∨ s.skipWord a j ≠ 1) ∧ ∃ i, i < s.word (a + 2) ∧ b = s.bufWord a j + i := by
  obtain ⟨j, hj, hdecoded, i, hi, rfl⟩ := ResJob.touches_buffer h
  have hj : j < s.word (a + 1) := by simpa [State.jobAt, ResJob.ch] using hj
  refine ⟨j, hj, ?_, i, hi, ?_⟩
  · simpa [State.jobAt, hj] using hdecoded
  · simp [State.jobAt, hj]

theorem resDecode_jobAt_of_all_skipped {s : State} {a : Nat} (h : ∀ j, j < s.word (a + 1) → s.skipWord a j = 1)
    (res : Residue) : resDecode res (s.jobAt a) s = .ok { st := s, cnt := 0, cls := [] } := by
  refine resDecode_of_all_skipped (fun f hf => ?_) res s
  obtain ⟨j, hj, rfl⟩ := List.mem_map.1 hf
  exact decide_eq_true (h j (List.mem_range.1 hj))

/-- Settles O39: each end of RES.DEC, in the order of R212, then `endResDec_of_ready`. -/
theorem residueDecode : Obligations.ResidueDecode := by
  unfold Obligations.ResidueDecode
  intro s rd rs1 rs2 r a variant ch n buf dnd job
  refine ⟨exec_resDec_of_slot, exec_resDec_of_header, fun hslot hheader hv hc hn =>
    ⟨exec_resDec_of_operands hslot hheader hv hc hn, fun hvariant hch hmax => ?_⟩⟩
  have hoperands : ¬ (1 < variant ∨ ch = 0 ∨ s.par.maxCh < ch) := by omega
  refine ⟨exec_resDec_of_beyond hslot hheader hv hc hn hoperands, fun hfits hwords =>
    ⟨exec_resDec_of_flag hslot hheader hv hc hn hoperands hfits hwords, fun hflags => ?_⟩⟩
  have hnoFlag : ¬ ∃ j, j < ch ∧ 1 < dnd j := fun ⟨j, hj, hlt⟩ => (hflags j hj).not_gt hlt
  refine ⟨exec_resDec_of_absent hslot hheader hv hc hn hoperands hfits hwords hnoFlag, fun res hres =>
    ⟨exec_resDec_of_buffer hslot hheader hv hc hn hoperands hfits hwords hnoFlag hres, fun hbufs => ?_⟩⟩
  have hinside : ¬ ∃ j, j < ch ∧ s.par.dmWords < buf j + n := fun ⟨j, hj, hlt⟩ => (hbufs j hj).not_gt hlt
  have hexec := exec_resDec_of_buffers (rd := rd) hslot hheader hv hc hn hoperands hfits hwords hnoFlag hres hinside
  refine ⟨fun hoverlap => hexec.trans (if_pos hoverlap), fun hdisjoint => ?_⟩
  have hdecode : exec (.resDec rd rs1 rs2) s = endResDec rd (resDecode res (s.jobAt a) s) :=
    hexec.trans (if_neg fun hoverlap => Bool.noConfusion (hdisjoint.symm.trans hoverlap))
  refine ⟨hdecode, fun hskip => ?skipped, fun hready hknown => ?ready⟩
  case skipped =>
    rw [hdecode, resDecode_jobAt_of_all_skipped hskip]
    rfl
  case ready =>
    have htouched {b : Nat} (h : job.touches b) :
        ∃ j, j < ch ∧ (variant = 1 ∨ dnd j = 0) ∧ ∃ i, i < n ∧ b = buf j + i := by
      obtain ⟨j, hj, hdecoded, hb⟩ := touches_jobAt h
      exact ⟨j, hj, hdecoded.imp_right fun hne => Nat.lt_one_iff.1 (Nat.lt_of_le_of_ne (hflags j hj) hne), hb⟩
    have hready := residuesReady_iff.1 hready _ (Table.mem_of_find hres)
    obtain ⟨cnt, m, pos, short, cnt', flags, status, hend, hstatus, houtside⟩ :=
      endResDec_of_ready (job := job) hready (fun b hb => by
        obtain ⟨j, hj, hdecoded, i, hi, rfl⟩ := htouched hb
        exact hknown j i hj hdecoded hi) rd
    refine ⟨cnt, m, pos, short, cnt', flags, status, hdecode.trans hend, hstatus, fun b hb => houtside b fun h => ?_⟩
    obtain ⟨j, hj, hdecoded, i, hi, rfl⟩ := htouched h
    exact hb j hj hdecoded ⟨Nat.le_add_right .., Nat.add_lt_add_left hi _⟩

end Sys2Proof.Machine
end

section
/-! SUPPORT. The inverse-MDCT commands (R220 to R222): which sizes MDCT.INIT takes, each end of the two commands as one equation,
and the block that MDCT.REV leaves in DM. O40 follows. -/

namespace Sys2Proof.Machine

/-- R220: the block sizes are the powers of two between the two limits. -/
theorem isBlockSize_iff {p : Params} {n : Nat} :
    isBlockSize p n = true ↔ ∃ j, p.blkMinLog2 ≤ j ∧ j ≤ p.blkMaxLog2 ∧ n = 2 ^ j := by
  simp only [isBlockSize, Bool.and_eq_true, beq_iff_eq, decide_eq_true_eq]
  constructor
  · rintro ⟨⟨hpow, hmin⟩, hmax⟩
    exact ⟨n.log2, hmin, hmax, hpow⟩
  · rintro ⟨j, hmin, hmax, rfl⟩
    rw [Nat.log2_two_pow]
    exact ⟨⟨rfl, hmin⟩, hmax⟩

/-! ### The ends of MDCT.INIT (R221) -/

section Init

variable {s : State} {rs1 : Reg} {imm : Imm}

theorem exec_mdctInit_of_other_size (h : isBlockSize s.par (s.x rs1).toNat = false) :
    exec (.mdctInit rs1 imm) s = .next (s.faulted 17) := if_pos h

theorem exec_mdctInit_of_blockSize (h : isBlockSize s.par (s.x rs1).toNat = true) :
    exec (.mdctInit rs1 imm) s = .next (State.ended { s with
      mdct := if oneBit imm then { s.mdct with n1 := (s.x rs1).setWidth 14 }
        else { s.mdct with n0 := (s.x rs1).setWidth 14 } } 0) :=
  if_neg (by simp [h])

end Init

/-! ### The ends of MDCT.REV (R222) -/

section Rev

variable {s : State} {rd rs1 : Reg} {imm : Imm}

theorem exec_mdctRev_of_empty (h : s.mdctSize imm = 0) :
    exec (.mdctRev rd rs1 imm) s = .next (s.faulted 21) := if_pos h

variable (hsize : s.mdctSize imm ≠ 0)
include hsize

theorem exec_mdctRev_of_beyond (h : s.par.dmWords < s.xNat rs1 + s.mdctSize imm) :
    exec (.mdctRev rd rs1 imm) s = .next (s.faulted 20) := (if_neg hsize).trans (if_pos h)

theorem exec_mdctRev_of_known (hfits : s.xNat rs1 + s.mdctSize imm ≤ s.par.dmWords)
    (hknown : ∀ k, k < s.mdctSize imm / 2 → s.known (s.xNat rs1 + k)) :
    exec (.mdctRev rd rs1 imm) s = .next (((s.dmWriteList (s.xNat rs1) (imdctBlock (s.mdctSize imm)
      ((List.range (s.mdctSize imm / 2)).map fun k => BitVec.ofNat 32 (s.word (s.xNat rs1 + k))))).setX rd (s.x rs1)).ended 0) :=
  (if_neg hsize).trans ((if_neg hfits.not_gt).trans (withWords_of_known hknown _))

end Rev

/-! ### The block in DM (R220, R222) -/

@[simp] theorem length_imdctBlock (n : Nat) (spectrum : List Word32) : (imdctBlock n spectrum).length = n := by
  simp [imdctBlock]

theorem read_writeList_imdctBlock (m : Memory) (a : Nat) {n i : Nat} (spectrum : List Word32) (hi : i < n) :
    Memory.read (Memory.writeList m a (imdctBlock n spectrum)) (a + i) = some (Config.imdct n spectrum i) := by
  rw [Memory.read_writeList, length_imdctBlock, if_pos (by omega), Nat.add_sub_cancel_left]
  simp [imdctBlock, hi]

theorem read_writeList_imdctBlock_outside (m : Memory) {a n b : Nat} (spectrum : List Word32) (hb : b < a ∨ a + n ≤ b) :
    Memory.read (Memory.writeList m a (imdctBlock n spectrum)) b = Memory.read m b := by
  rw [Memory.read_writeList, length_imdctBlock, if_neg (by omega)]

/-- Settles O40: each end of the two commands, in the order of R221 and R222, then the block of MDCT.REV word by word. -/
theorem mdctCommands : Obligations.MdctCommands := by
  intro s rd rs1 slot n one size
  refine ⟨fun hnone => ?illegal, fun j hmin hmax hn => ?legal, exec_mdctRev_of_empty, exec_mdctRev_of_beyond,
    fun hsize hfits hknown => ?block⟩
  case illegal =>
    exact exec_mdctInit_of_other_size (Bool.eq_false_iff.2 fun h => hnone (isBlockSize_iff.1 h))
  case legal =>
    rw [exec_mdctInit_of_blockSize (isBlockSize_iff.2 ⟨j, hmin, hmax, hn⟩)]
    rfl
  case block =>
    exact ⟨exec_mdctRev_of_known hsize hfits hknown, fun _ => read_writeList_imdctBlock s.dm n _,
      fun _ => read_writeList_imdctBlock_outside s.dm _⟩

end Sys2Proof.Machine
end

section
/-! SUPPORT. A fault is the one end of a command whose code is 16 or more (R260, R262). O46 follows. -/

namespace Sys2Proof.Machine

/-- Settles O46: of the ends of a command (`exec_ends`) only a fault has a code of 16 or more. -/
theorem faultsChangeNothing : Obligations.FaultsChangeNothing := by
  unfold Obligations.FaultsChangeNothing
  intro i s t h hcode
  rcases exec_ends h with ⟨c, rfl⟩ | ⟨-, hstatus⟩ | ⟨c, m, hstatus, -⟩
  case trapped => rfl
  case cleared => exact absurd Cond.ok.code_lt (hstatus ▸ hcode.not_gt)
  case completed => exact absurd c.code_lt (hstatus ▸ hcode.not_gt)

end Sys2Proof.Machine
end

section
/-! SUPPORT. OLA.CFG (R230, R231): its ends, in the order of its tests. O41 follows. -/

namespace Sys2Proof.Machine

theorem selector_eight (imm : Imm) : selector 8 imm = imm.toNat % 256 := BitVec.toNat_setWidth ..

section Cfg

variable {s : State} {rs1 rs2 : Reg} {imm : Imm}

theorem exec_olaCfg_of_channels (h : selector 8 imm = 0 ∨ s.par.maxCh < selector 8 imm) :
    exec (.olaCfg rs1 rs2 imm) s = .next (s.faulted 17) := if_pos h

variable (hch : ¬ (selector 8 imm = 0 ∨ s.par.maxCh < selector 8 imm))
include hch

theorem exec_olaCfg_of_sizes
    (h : isBlockSize s.par (s.xNat rs1) = false ∨ isBlockSize s.par (s.xNat rs2) = false ∨ s.xNat rs2 < s.xNat rs1) :
    exec (.olaCfg rs1 rs2 imm) s = .next (s.faulted 17) := (if_neg hch).trans (if_pos h)

theorem exec_olaCfg_of_legal (h0 : isBlockSize s.par (s.xNat rs1) = true) (h1 : isBlockSize s.par (s.xNat rs2) = true)
    (hle : s.xNat rs1 ≤ s.xNat rs2) : exec (.olaCfg rs1 rs2 imm) s = .next (State.ended { s with
      ola := { ch := BitVec.ofNat 8 (selector 8 imm), b0 := BitVec.ofNat 14 (s.xNat rs1), b1 := BitVec.ofNat 14 (s.xNat rs2),
               prev := 0 }
      modes := []
      ring := .empty (BitVec.ofNat 32 (max s.ring.cap.toNat (s.xNat rs2))) } 0) :=
  (if_neg hch).trans (if_neg (by simp [h0, h1, hle]))

end Cfg

/-- Settles O41: the two tests of OLA.CFG refuse exactly what is not good. -/
theorem olaConfigure : Obligations.OlaConfigure := by
  intro s rs1 rs2 imm b0 b1 ch legal good
  have hch : selector 8 imm = ch := selector_eight imm
  refine ⟨fun hbad => ?illegal, fun ⟨hne, hmax, h0, h1, hle⟩ => ?legal⟩
  case illegal =>
    by_cases hchannels : ch = 0 ∨ s.par.maxCh < ch
    · exact exec_olaCfg_of_channels (hch ▸ hchannels)
    · refine exec_olaCfg_of_sizes (hch ▸ hchannels) ?_
      by_contra hsizes
      simp only [not_or, Bool.not_eq_false, isBlockSize_iff, not_lt] at hchannels hsizes
      exact hbad ⟨hchannels.1, hchannels.2, hsizes⟩
  case legal =>
    rw [exec_olaCfg_of_legal (by omega) (isBlockSize_iff.2 h0) (isBlockSize_iff.2 h1) hle, hch]
    rfl

end Sys2Proof.Machine
end

section
/-! SUPPORT. The modes and their windows (R232, R233, R246): the ends of OLA.MODE and OLA.WIN, in the order of their tests, and
a window value by value. O42 follows. -/

namespace Sys2Proof.Machine

section Mode

variable {s : State} {rs1 : Reg} {imm : Imm}

theorem exec_olaMode_of_slot (h : s.par.nmode ≤ s.xNat rs1) :
    exec (.olaMode rs1 imm) s = .next (s.faulted 17) := if_pos h

variable (hslot : s.xNat rs1 < s.par.nmode)
include hslot

theorem exec_olaMode_of_unconfigured (h : s.ola.ch = 0) :
    exec (.olaMode rs1 imm) s = .next (s.faulted 21) := (if_neg hslot.not_ge).trans (if_pos h)

theorem exec_olaMode_of_configured (h : s.ola.ch ≠ 0) : exec (.olaMode rs1 imm) s = .next (State.ended { s with
    modes := Table.put s.modes (s.xNat rs1)
      { long := oneBit imm
        n := if oneBit imm then s.ola.b1.toNat else s.ola.b0.toNat
        windows := modeWindows s.par.sine (oneBit imm) s.ola.b0.toNat s.ola.b1.toNat } } 0) :=
  (if_neg hslot.not_ge).trans (if_neg h)

end Mode

section Win

variable {s : State} {rd rs1 rs2 : Reg} {imm : Imm}

theorem exec_olaWin_of_slot (h : s.par.nmode ≤ s.xNat rs1) :
    exec (.olaWin rd rs1 rs2 imm) s = .next (s.faulted 17) := if_pos h

variable (hslot : s.xNat rs1 < s.par.nmode)
include hslot

theorem exec_olaWin_of_absent (h : Table.find s.modes (s.xNat rs1) = none) :
    exec (.olaWin rd rs1 rs2 imm) s = .next (s.faulted 21) := by
  simp only [exec, execOlaWin, if_neg hslot.not_ge, h]
  rfl

theorem exec_olaWin_of_mode {mode : Mode} (h : Table.find s.modes (s.xNat rs1) = some mode) :
    exec (.olaWin rd rs1 rs2 imm) s =
      if mode.windows.length ≤ selector 2 imm ∨ mode.n ≤ s.xNat rs2 then .next (s.faulted 17)
      else .next ((s.setX rd (((mode.windows.getD (selector 2 imm) []).getD (s.xNat rs2) 0).setWidth 64)).ended 0) := by
  simp only [exec, execOlaWin, if_neg hslot.not_ge, h]
  rfl

end Win

/-- R232: a long mode has four windows, the left slope of number `w` long where bit 0 of `w` is set and the right one where bit 1
is; a short mode has one. -/
theorem mode_of_flag (sine : SineUnit) (long : Bool) (b0 b1 : Nat) :
    Mode.mk long (if long then b1 else b0) (modeWindows sine long b0 b1) =
      if long then .mk true b1 ((List.range 4).map fun w =>
        window sine b1 (if w.testBit 0 then b1 / 2 else b0 / 2) (if w.testBit 1 then b1 / 2 else b0 / 2))
      else .mk false b0 [window sine b0 (b0 / 2) (b0 / 2)] := by
  cases long <;> rfl

/-! ### A window (R233) -/

@[simp] theorem window_length (sine : SineUnit) (n left right : Nat) : (window sine n left right).length = n := by
  simp [window]

theorem window_getD (sine : SineUnit) (left right : Nat) {n i : Nat} (hi : i < n) :
    (window sine n left right).getD i 0 = windowValue sine n left right i := by
  simp [window, hi]

section WindowValue

variable {sine : SineUnit} {n left right i : Nat}

theorem windowValue_of_lt (h : i < n / 4 - left / 2) : windowValue sine n left right i = 0 := if_pos h

theorem windowValue_of_rising (hle : n / 4 - left / 2 ≤ i) (h : i < n / 4 - left / 2 + left) :
    windowValue sine n left right i = slope sine (i - (n / 4 - left / 2)) left :=
  (if_neg hle.not_gt).trans (if_pos h)

variable (hleft : n / 4 - left / 2 + left ≤ i)
include hleft

theorem windowValue_of_ones (h : i < n - n / 4 - right / 2) : windowValue sine n left right i = F32.one :=
  (if_neg (by omega)).trans ((if_neg hleft.not_gt).trans (if_pos h))

theorem windowValue_of_falling (hle : n - n / 4 - right / 2 ≤ i) (h : i < n - n / 4 - right / 2 + right) :
    windowValue sine n left right i = slope sine (right - 1 - (i - (n - n / 4 - right / 2))) right :=
  (if_neg (by omega)).trans ((if_neg hleft.not_gt).trans ((if_neg hle.not_gt).trans (if_pos h)))

theorem windowValue_of_ge (h : n - n / 4 - right / 2 + right ≤ i) : windowValue sine n left right i = 0 :=
  (if_neg (by omega)).trans ((if_neg hleft.not_gt).trans ((if_neg (by omega)).trans (if_neg h.not_gt)))

end WindowValue

/-- Settles O42: each end of the two commands, in the order of R232 and R246, then the five parts of a window. -/
theorem modesAndWindows : Obligations.ModesAndWindows := by
  refine ⟨?commands, ?shape⟩
  case commands =>
    intro s rd rs1 rs2 imm m i w b0 b1 long side
    have hw : selector 2 imm = w := selector_two imm
    refine ⟨fun h => ⟨exec_olaMode_of_slot h, exec_olaWin_of_slot h⟩, exec_olaMode_of_unconfigured, fun hslot hch => ?built,
      exec_olaWin_of_absent, fun mode hslot hmode => ?read⟩
    case built =>
      rw [exec_olaMode_of_configured hslot hch, mode_of_flag]
      rfl
    case read =>
      have hread := exec_olaWin_of_mode (rd := rd) (rs2 := rs2) (imm := imm) hslot hmode
      rw [hw] at hread
      exact ⟨fun h => hread.trans (if_pos h), fun hwin hval => hread.trans (if_neg (not_or.2 ⟨hwin.not_ge, hval.not_ge⟩))⟩
  case shape =>
    intro sine n left right i hi lb rb v
    have hv : v = windowValue sine n left right i := window_getD sine left right hi
    exact ⟨window_length .., fun h => hv.trans (windowValue_of_lt h),
      fun hle h => hv.trans (windowValue_of_rising hle h), fun hleft h => hv.trans (windowValue_of_ones hleft h),
      fun hleft hle h => hv.trans (windowValue_of_falling hleft hle h), fun hleft h => hv.trans (windowValue_of_ge hleft h)⟩

end Sys2Proof.Machine
end

section
/-! SUPPORT. Draining the ring buffer (R241, R242, R245): the ends of OLA.RD, OLA.DISC and OLA.RESET, and the frames that
OLA.RD leaves in DM. O44 follows. -/

namespace Sys2Proof.Machine

section Drain

variable {s : State} {rd rs1 rs2 : Reg}

theorem exec_olaRd_of_unconfigured (h : s.ola.ch.toNat = 0) :
    exec (.olaRd rd rs1 rs2) s = .next (s.faulted 21) := if_pos h

theorem exec_olaDisc_of_unconfigured (h : s.ola.ch = 0) :
    exec (.olaDisc rd rs1) s = .next (s.faulted 21) := if_pos h

theorem exec_olaDisc_of_configured (h : s.ola.ch ≠ 0) : exec (.olaDisc rd rs1) s = .next (State.ended (State.setX
    { s with ring := s.ring.drop (min (s.xNat rs1) (s.ring.valid - s.ring.start)) } rd
    (BitVec.ofNat 64 (min (s.xNat rs1) (s.ring.valid - s.ring.start)))) 0) := if_neg h

variable (hch : s.ola.ch.toNat ≠ 0)
include hch

theorem exec_olaRd_of_beyond
    (h : s.par.dmWords < s.xNat rs1 + min (s.xNat rs2) (s.ring.valid - s.ring.start) * s.ola.ch.toNat) :
    exec (.olaRd rd rs1 rs2) s = .next (s.faulted 20) := (if_neg hch).trans (if_pos h)

theorem exec_olaRd_of_fits
    (h : s.xNat rs1 + min (s.xNat rs2) (s.ring.valid - s.ring.start) * s.ola.ch.toNat ≤ s.par.dmWords) :
    exec (.olaRd rd rs1 rs2) s = .next (State.ended (State.setX { s with
      dm := Memory.writeList s.dm (s.xNat rs1)
        (drainWords s.ring s.ola.ch.toNat (min (s.xNat rs2) (s.ring.valid - s.ring.start)))
      ring := s.ring.drop (min (s.xNat rs2) (s.ring.valid - s.ring.start)) } rd
      (BitVec.ofNat 64 (min (s.xNat rs2) (s.ring.valid - s.ring.start)))) 0) := (if_neg hch).trans (if_neg h.not_gt)

end Drain

/-! ### The drained frames in DM (R241) -/

@[simp] theorem length_drainWords (r : Ring) (ch k : Nat) : (drainWords r ch k).length = k * ch :=
  flatMap_range_length (by simp) k

theorem drainWords_getElem? (r : Ring) {ch k f c : Nat} (hf : f < k) (hc : c < ch) :
    (drainWords r ch k)[f * ch + c]? = some (r.read c (r.start + f)) := by
  rw [drainWords, flatMap_range_getElem? (by simp) hf hc]
  simp [hc]

theorem read_writeList_drainWords (m : Memory) (dst : Nat) (r : Ring) {ch k f c : Nat} (hf : f < k) (hc : c < ch) :
    Memory.read (Memory.writeList m dst (drainWords r ch k)) (dst + f * ch + c) = some (r.read c (r.start + f)) := by
  have hinside : f * ch + c < k * ch :=
    calc f * ch + c < (f + 1) * ch := by rw [Nat.succ_mul]; omega
      _ ≤ k * ch := Nat.mul_le_mul_right ch hf
  rw [Memory.read_writeList, length_drainWords, if_pos (by omega), Nat.add_assoc, Nat.add_sub_cancel_left,
    drainWords_getElem? r hf hc]

theorem read_writeList_drainWords_outside (m : Memory) {dst b : Nat} (r : Ring) {ch k : Nat}
    (hb : b < dst ∨ dst + k * ch ≤ b) :
    Memory.read (Memory.writeList m dst (drainWords r ch k)) b = Memory.read m b := by
  rw [Memory.read_writeList, length_drainWords, if_neg (by omega)]

/-- Settles O44: each end of the three commands, then the words of OLA.RD one by one, and what a cleared ring reads. -/
theorem ringDrain : Obligations.RingDrain := by
  intro s rd rs1 rs2 ch dst finished k d dropped out
  refine ⟨fun h => ⟨exec_olaRd_of_unconfigured (congrArg BitVec.toNat h), exec_olaDisc_of_unconfigured h⟩, fun hne => ?_, rfl,
    fun lo hi c t => Ring.read_clear s.ring⟩
  have hch : ch ≠ 0 := fun h => hne (BitVec.eq_of_toNat_eq h)
  exact ⟨exec_olaRd_of_beyond hch, fun hfits => ⟨exec_olaRd_of_fits hch hfits,
    fun f c => read_writeList_drainWords s.dm dst s.ring, fun b => read_writeList_drainWords_outside s.dm s.ring⟩,
    exec_olaDisc_of_configured hne⟩

end Sys2Proof.Machine
end

section
/-! SUPPORT. Comparing with zero, and adding a zero, in binary32 (R9, R248). -/

namespace Sys2Proof.Machine.F32

/-- R248: above zero are the infinity of positive sign and the finite values that are. -/
theorem gtZero_iff (a : Word32) : gtZero a = true ↔ decode a = .inf false ∨ (isFinite a = true ∧ 0 < value a) := by
  cases hdecode : decode a with
  | nan => simp [gtZero, isFinite, hdecode]
  | inf s => simp [gtZero, isFinite, hdecode]
  | fin s m e =>
    have hpow : (0 : ℚ) < 2 ^ e := by positivity
    rw [value_of_decode hdecode]
    cases s
    · simp [gtZero, isFinite, hdecode, hpow, Nat.pos_iff_ne_zero]
    · have : 0 ≤ (m : ℚ) * 2 ^ e := by positivity
      simp [gtZero, isFinite, hdecode, hpow]

theorem decode_fin_exponent_le {w : Word32} {s : Bool} {m : ℕ} {e : ℤ} (h : decode w = .fin s m e) : e ≤ 104 := by
  have hexp := exponent_toNat w
  simp only [decode] at h
  split at h
  next => split at h <;> cases h
  next =>
    split at h
    next => cases h; norm_num
    next => cases h; omega

theorem abs_value_lt {w : Word32} (h : isFinite w = true) : |value w| < overflowBound := by
  obtain ⟨s, m, e, hdecode⟩ := isFinite_iff.1 h
  obtain ⟨-, hm, -⟩ := decode_fin_bounds hdecode
  have hm : (m : ℚ) ≤ 2 ^ 24 - 1 := by
    have : (m : ℚ) + 1 ≤ 2 ^ 24 := by exact_mod_cast hm
    linarith
  calc |value w| = m * 2 ^ e := by simp [value_of_decode hdecode, abs_mul]
    _ ≤ (2 ^ 24 - 1) * 2 ^ (104 : ℤ) := by
      gcongr
      · norm_num
      · exact decode_fin_exponent_le hdecode
    _ < overflowBound := by norm_num [overflowBound]

/-- A finite value is its own rounding (R9). -/
theorem IsRounded.value_eq {w x : Word32} (hx : isFinite x = true) (h : IsRounded (value x) w) : value w = value x := by
  have := h.nearest (abs_value_lt hx) x hx
  rw [sub_self, abs_zero] at this
  exact sub_eq_zero.1 (abs_nonpos_iff.1 this)

section Zero

variable {m a : Word32} (hm : isFinite m = true) (ha : isFinite a = true) (hzero : value a = 0)
include hm ha hzero

theorem value_add_zero : value (add m a) = value m :=
  IsRounded.value_eq hm (by simpa [hzero] using isRounded_add hm ha)

theorem value_sub_zero : value (sub m a) = value m :=
  IsRounded.value_eq hm (by simpa [hzero] using isRounded_sub hm ha)

end Zero

theorem gtZero_of_value_zero {a : Word32} (ha : isFinite a = true) (hzero : value a = 0) : gtZero a = false := by
  obtain ⟨s, m, e, hdecode⟩ := isFinite_iff.1 ha
  rw [Bool.eq_false_iff, ne_eq, gtZero_iff, hdecode, hzero]
  simp

end Sys2Proof.Machine.F32
end

section
/-! SUPPORT. OLA.CPL (R247, R248): the four cases of the coupling rule, the ends of the command in the order of its tests, and
the two buffers it leaves in DM. O45 follows. -/

namespace Sys2Proof.Machine

/-! ### The coupling rule (R248) -/

section Uncouple

variable {m a : Word32}

theorem uncouple_of_both (hm : F32.gtZero m = true) (ha : F32.gtZero a = true) : uncouple m a = (m, F32.sub m a) :=
  (if_pos hm).trans (if_pos ha)

theorem uncouple_of_magnitude (hm : F32.gtZero m = true) (ha : F32.gtZero a = false) : uncouple m a = (F32.add m a, m) :=
  (if_pos hm).trans (if_neg (Bool.eq_false_iff.1 ha))

theorem uncouple_of_angle (hm : F32.gtZero m = false) (ha : F32.gtZero a = true) : uncouple m a = (m, F32.add m a) :=
  (if_neg (Bool.eq_false_iff.1 hm)).trans (if_pos ha)

theorem uncouple_of_neither (hm : F32.gtZero m = false) (ha : F32.gtZero a = false) : uncouple m a = (F32.sub m a, m) :=
  (if_neg (Bool.eq_false_iff.1 hm)).trans (if_neg (Bool.eq_false_iff.1 ha))

theorem uncouple_zero_angle (hm : F32.isFinite m = true) (ha : F32.isFinite a = true) (hzero : F32.value a = 0) :
    F32.value (uncouple m a).1 = F32.value m ∧ (uncouple m a).2 = m := by
  have hangle := F32.gtZero_of_value_zero ha hzero
  cases hmag : F32.gtZero m with
  | true => rw [uncouple_of_magnitude hmag hangle]; exact ⟨F32.value_add_zero hm ha hzero, rfl⟩
  | false => rw [uncouple_of_neither hmag hangle]; exact ⟨F32.value_sub_zero hm ha hzero, rfl⟩

end Uncouple

/-! ### The ends of OLA.CPL (R247) -/

/-- Word `i` of the pairs of two regions, uncoupled. -/
def State.uncoupledAt (s : State) (mag ang i : Nat) : Word32 × Word32 :=
  uncouple (BitVec.ofNat 32 (s.word (mag + i))) (BitVec.ofNat 32 (s.word (ang + i)))

/-- DM with the `cnt` pairs at `mag` and `ang` uncoupled in place. -/
def State.uncoupledDm (s : State) (mag ang cnt : Nat) : Memory :=
  Memory.writeList (Memory.writeList s.dm mag ((List.range cnt).map fun i => (s.uncoupledAt mag ang i).1)) ang
    ((List.range cnt).map fun i => (s.uncoupledAt mag ang i).2)

section Ends

variable {s : State} {rs1 : Reg}

theorem exec_olaCpl_of_descriptor (h : s.par.dmWords ≤ s.xNat rs1 + 2) :
    exec (.olaCpl rs1) s = .next (s.faulted 20) := if_pos h

variable (hdesc : s.xNat rs1 + 2 < s.par.dmWords) (hmag : s.known (s.xNat rs1)) (hang : s.known (s.xNat rs1 + 1))
  (hcnt : s.known (s.xNat rs1 + 2))
include hdesc hmag hang hcnt

theorem exec_olaCpl_of_known : exec (.olaCpl rs1) s =
    if s.par.dmWords < s.word (s.xNat rs1) + s.word (s.xNat rs1 + 2) then .next (s.faulted 20)
    else if s.par.dmWords < s.word (s.xNat rs1 + 1) + s.word (s.xNat rs1 + 2) then .next (s.faulted 20)
    else if disjointRegions [(s.xNat rs1, 3), (s.word (s.xNat rs1), s.word (s.xNat rs1 + 2)),
      (s.word (s.xNat rs1 + 1), s.word (s.xNat rs1 + 2))] = false then .refused .overlap
    else s.withWords (s.word (s.xNat rs1)) (s.word (s.xNat rs1 + 2)) fun ms =>
      s.withWords (s.word (s.xNat rs1 + 1)) (s.word (s.xNat rs1 + 2)) fun as =>
        .next (((s.dmWriteList (s.word (s.xNat rs1)) ((List.zipWith uncouple ms as).map Prod.fst)).dmWriteList
          (s.word (s.xNat rs1 + 1)) ((List.zipWith uncouple ms as).map Prod.snd)).ended 0) := by
  simp only [exec, execOlaCpl, if_neg hdesc.not_ge, withWord_of_known hmag, withWord_of_known hang, withWord_of_known hcnt,
    toNat_ofNat_word]
  rfl

/-- Where the command tests nothing more and both buffers are known, its pairs are uncoupled in place. -/
theorem exec_olaCpl_of_disjoint (hm : s.word (s.xNat rs1) + s.word (s.xNat rs1 + 2) ≤ s.par.dmWords)
    (ha : s.word (s.xNat rs1 + 1) + s.word (s.xNat rs1 + 2) ≤ s.par.dmWords)
    (hdisjoint : disjointRegions [(s.xNat rs1, 3), (s.word (s.xNat rs1), s.word (s.xNat rs1 + 2)),
      (s.word (s.xNat rs1 + 1), s.word (s.xNat rs1 + 2))] = true)
    (hms : ∀ i, i < s.word (s.xNat rs1 + 2) → s.known (s.word (s.xNat rs1) + i))
    (has : ∀ i, i < s.word (s.xNat rs1 + 2) → s.known (s.word (s.xNat rs1 + 1) + i)) :
    exec (.olaCpl rs1) s = .next (State.ended { s with
      dm := s.uncoupledDm (s.word (s.xNat rs1)) (s.word (s.xNat rs1 + 1)) (s.word (s.xNat rs1 + 2)) } 0) := by
  rw [exec_olaCpl_of_known hdesc hmag hang hcnt, if_neg hm.not_gt, if_neg ha.not_gt, hdisjoint, if_neg (by decide),
    withWords_of_known hms, withWords_of_known has, List.zipWith_map, List.zipWith_self, List.map_map, List.map_map]
  rfl

end Ends

/-! ### The two buffers (R247) -/

theorem overlaps_eq_false_iff {a n b m : Nat} :
    overlaps (a, n) (b, m) = false ↔ n = 0 ∨ m = 0 ∨ b + m ≤ a ∨ a + n ≤ b := by
  simp only [overlaps, Bool.and_eq_false_iff, decide_eq_false_iff_not]
  omega

theorem read_uncoupledDm_outside (s : State) {mag ang cnt b : Nat} (hmag : ¬ (mag ≤ b ∧ b < mag + cnt))
    (hang : ¬ (ang ≤ b ∧ b < ang + cnt)) : Memory.read (s.uncoupledDm mag ang cnt) b = Memory.read s.dm b := by
  rw [State.uncoupledDm, Memory.read_writeList, if_neg (by simpa using hang), Memory.read_writeList,
    if_neg (by simpa using hmag)]

section Buffers

variable {s : State} {mag ang cnt i : Nat} (hi : i < cnt)
include hi

theorem read_uncoupledDm_angle :
    Memory.read (s.uncoupledDm mag ang cnt) (ang + i) = some (s.uncoupledAt mag ang i).2 := by
  rw [State.uncoupledDm, Memory.read_writeList, if_pos (by simpa using hi)]
  simp [hi]

theorem read_uncoupledDm_magnitude (hdisjoint : overlaps (mag, cnt) (ang, cnt) = false) :
    Memory.read (s.uncoupledDm mag ang cnt) (mag + i) = some (s.uncoupledAt mag ang i).1 := by
  rw [overlaps_eq_false_iff] at hdisjoint
  rw [State.uncoupledDm, Memory.read_writeList, if_neg (by rw [List.length_map, List.length_range]; omega),
    Memory.read_writeList, if_pos (by simpa using hi)]
  simp [hi]

end Buffers

theorem uncoupledAt_of_read {s : State} {mag ang i : Nat} {m a : Word32} (hm : Memory.read s.dm (mag + i) = some m)
    (ha : Memory.read s.dm (ang + i) = some a) : s.uncoupledAt mag ang i = uncouple m a := by
  simp [State.uncoupledAt, word_of_read hm, word_of_read ha]

/-- Settles O45: each end of OLA.CPL, in the order of R247, then the two buffers word by word, and the rule of R248. -/
theorem inverseCoupling : Obligations.InverseCoupling := by
  refine ⟨?command, F32.gtZero_iff, fun M A => ⟨uncouple_of_both, uncouple_of_magnitude, uncouple_of_angle,
    uncouple_of_neither, uncouple_zero_angle⟩⟩
  intro s rs1 a mag ang cnt
  refine ⟨exec_olaCpl_of_descriptor, fun hdesc hkmag hkang hkcnt => ?_⟩
  have hexec := exec_olaCpl_of_known hdesc hkmag hkang hkcnt
  refine ⟨fun h => ?beyond, fun hmag hang => ⟨fun hoverlap => ?overlap, fun hdisjoint hknown => ?disjoint⟩⟩
  case beyond =>
    by_cases hmag : s.par.dmWords < mag + cnt
    · exact hexec.trans (if_pos hmag)
    · exact hexec.trans ((if_neg hmag).trans (if_pos (h.resolve_left hmag)))
  case overlap => exact hexec.trans ((if_neg hmag.not_gt).trans ((if_neg hang.not_gt).trans (if_pos hoverlap)))
  case disjoint =>
    have hbuffers : overlaps (mag, cnt) (ang, cnt) = false := by
      simp only [disjointRegions, List.all_cons, List.all_nil, Bool.and_true, Bool.and_eq_true, Bool.not_eq_true'] at hdisjoint
      exact hdisjoint.2
    refine ⟨_, exec_olaCpl_of_disjoint hdesc hkmag hkang hkcnt hmag hang hdisjoint (fun i hi => (hknown i hi).1)
      fun i hi => (hknown i hi).2, fun i M A hi hM hA => ?_, fun b => read_uncoupledDm_outside s⟩
    rw [← uncoupledAt_of_read hM hA]
    exact ⟨read_uncoupledDm_magnitude hi hbuffers, read_uncoupledDm_angle hi⟩

end Sys2Proof.Machine
end

section
/-! SUPPORT. Windowed products added into the ring (R236 to R238): one sample, one channel, all channels. -/

namespace Sys2Proof.Machine

/-- `r'` is `r` with `v c t` added, rounded, to the samples `RB[c][t]` of the region `P`. -/
structure Ring.Summed (v : Nat → Nat → Word32) (P : Nat → Nat → Prop) (r r' : Ring) : Prop where
  start : r'.start = r.start
  inside : ∀ c t, c < 256 → P c t → r'.read c t = F32.add (r.read c t) (v c t)
  outside : ∀ c t, c < 256 → ¬ P c t → r'.read c t = r.read c t

namespace Ring.Summed

variable {v : Nat → Nat → Word32} {P Q : Nat → Nat → Prop} {r r1 r2 : Ring}

theorem empty (h : ∀ c t, ¬ P c t) (r : Ring) : Summed v P r r := ⟨rfl, fun c t _ hP => (h c t hP).elim, fun _ _ _ _ => rfl⟩

theorem congr (h : Summed v P r r1) (hPQ : ∀ c t, P c t ↔ Q c t) : Summed v Q r r1 where
  start := h.start
  inside c t hc hQ := h.inside c t hc ((hPQ c t).2 hQ)
  outside c t hc hQ := h.outside c t hc fun hP => hQ ((hPQ c t).1 hP)

theorem trans (h : Summed v P r r1) (h' : Summed v Q r1 r2) (hPQ : ∀ c t, P c t → ¬ Q c t) :
    Summed v (fun c t => P c t ∨ Q c t) r r2 where
  start := h'.start.trans h.start
  inside c t hc hor := by
    rcases hor with hP | hQ
    · rw [h'.outside c t hc (hPQ c t hP), h.inside c t hc hP]
    · rw [h'.inside c t hc hQ, h.outside c t hc fun hP => hPQ c t hP hQ]
  outside c t hc hnone := by
    rw [not_or] at hnone
    rw [h'.outside c t hc hnone.2, h.outside c t hc hnone.1]

/-- One sample. -/
theorem write (r : Ring) {c t : Nat} (hc : c < 256) (hP : ∀ c' t', P c' t' ↔ c' = c ∧ t' = t) :
    Summed v P r (r.write c t (F32.add (r.read c t) (v c t))) where
  start := rfl
  inside c' t' hc' h := by
    rw [Ring.read_write r _ hc hc', if_pos ((hP c' t').1 h)]
    obtain ⟨rfl, rfl⟩ := (hP c' t').1 h
    rfl
  outside c' t' hc' h := by rw [Ring.read_write r _ hc hc', if_neg fun he => h ((hP c' t').2 he)]

end Ring.Summed

/-- A loop whose turns add to regions apart from each other adds to all of them. -/
theorem loopOver_summed {α ε : Type} {body : α → Ring → Except ε Ring} {v : Nat → Nat → Word32}
    {P : α → Nat → Nat → Prop} {xs : List α} (hbody : ∀ x ∈ xs, ∀ r, ∃ r', body x r = .ok r' ∧ Ring.Summed v (P x) r r')
    (hapart : xs.Pairwise fun x y => ∀ c t, P x c t → ¬ P y c t) (r : Ring) :
    ∃ r', loopOver body xs r = .ok r' ∧ Ring.Summed v (fun c t => ∃ x ∈ xs, P x c t) r r' := by
  induction xs generalizing r with
  | nil => exact ⟨r, rfl, .empty (by simp) r⟩
  | cons x xs ih =>
    rw [List.pairwise_cons] at hapart
    obtain ⟨r1, hrun1, hsum1⟩ := hbody x List.mem_cons_self r
    obtain ⟨r2, hrun2, hsum2⟩ := ih (fun y hy => hbody y (List.mem_cons_of_mem x hy)) hapart.2 r1
    refine ⟨r2, ?_, (hsum1.trans hsum2 fun c t hx ⟨y, hy, hyP⟩ => hapart.1 y hy c t hx hyP).congr (by simp)⟩
    rw [loopOver_cons, hrun1]
    exact hrun2

/-! ### The samples of a channel (R238) -/

/-- What R238 adds at frame `t` of channel `c`, for a block at `buf c` whose sample 0 lands at frame `st`. -/
def State.windowedSample (s : State) (win : List Word32) (buf : Nat → Nat) (st : Int) (c t : Nat) : Word32 :=
  F32.mul (win.getD ((t : Int) - st).toNat 0) (BitVec.ofNat 32 (s.word (buf c + ((t : Int) - st).toNat)))

section Block

variable {s : State} {win : List Word32} {buf : Nat → Nat} {st : Int} {v n : Nat}

theorem addWindowed_summed {c i : Nat} (hc : c < 256) (hknown : (v : Int) ≤ st + i → s.known (buf c + i)) (r : Ring) :
    ∃ r', addWindowed s.dm win (buf c) c st v i r = .ok r' ∧
      Ring.Summed (s.windowedSample win buf st) (fun c' t => c' = c ∧ v ≤ t ∧ (t : Int) = st + i) r r' := by
  by_cases hlow : st + (i : Int) < v
  · exact ⟨r, if_pos hlow, .empty (by omega) r⟩
  · obtain ⟨y, hy, hword⟩ := exists_read_of_known (hknown (by omega))
    have hwindowed : F32.mul (win.getD i 0) y = s.windowedSample win buf st c (st + (i : Int)).toNat := by
      have hsample : (((st + (i : Int)).toNat : Int) - st).toNat = i := by omega
      rw [State.windowedSample, hsample, hword, BitVec.ofNat_toNat, BitVec.setWidth_eq]
    refine ⟨_, ?_, .write (t := (st + (i : Int)).toNat) r hc (by omega)⟩
    rw [← hwindowed]
    simp only [addWindowed, if_neg hlow, hy]

theorem addChannel_summed {c : Nat} {energy : Bool} (hc : c < 256)
    (hknown : energy = true → ∀ i, i < n → (v : Int) ≤ st + i → s.known (buf c + i)) (r : Ring) :
    ∃ r', addChannel s.dm win n st v (c, buf c, energy) r = .ok r' ∧
      Ring.Summed (s.windowedSample win buf st)
        (fun c' t => energy = true ∧ c' = c ∧ v ≤ t ∧ st ≤ t ∧ (t : Int) < st + n) r r' := by
  cases energy with
  | false => exact ⟨r, rfl, .empty (by simp) r⟩
  | true =>
    obtain ⟨r', hrun, hsum⟩ := loopOver_summed
      (fun i hi => addWindowed_summed (win := win) hc (hknown rfl i (List.mem_range.1 hi)))
      (List.pairwise_lt_range.imp fun hij c' t => by omega) r
    refine ⟨r', ?_, hsum.congr fun c' t => ?_⟩
    · rw [addChannel, if_pos rfl, loopFrom_zero_eq_loopOver]
      exact hrun
    · simp only [List.mem_range, true_and]
      exact ⟨by rintro ⟨i, hi, h⟩; omega, fun h => ⟨((t : Int) - st).toNat, by omega⟩⟩

/-! ### All channels (R236, R238) -/

theorem addChannels_summed {energy : Nat → Bool} {ch : Nat} (hch : ch ≤ 256)
    (hknown : ∀ c, c < ch → energy c = true → ∀ i, i < n → (v : Int) ≤ st + i → s.known (buf c + i)) (r : Ring) :
    ∃ r', loopOver (addChannel s.dm win n st v) ((List.range ch).map fun c => (c, buf c, energy c)) r = .ok r' ∧
      Ring.Summed (s.windowedSample win buf st)
        (fun c t => (c < ch ∧ energy c = true) ∧ v ≤ t ∧ st ≤ t ∧ (t : Int) < st + n) r r' := by
  rw [loopOver_map]
  obtain ⟨r', hrun, hsum⟩ := loopOver_summed
    (fun c hc => addChannel_summed (win := win) (by have := List.mem_range.1 hc; omega) (hknown c (List.mem_range.1 hc)))
    (List.pairwise_lt_range.imp fun hij c' t => by omega) r
  refine ⟨r', hrun, hsum.congr fun c t => ?_⟩
  simp only [List.mem_range]
  exact ⟨by rintro ⟨c', hc', he, rfl, h⟩; exact ⟨⟨hc', he⟩, h⟩, fun ⟨⟨hc, he⟩, h⟩ => ⟨c, hc, he, rfl, h⟩⟩

end Block

/-! ### The descriptor (R236) -/

theorem range_two_mul_succ (n : Nat) : List.range (2 * (n + 1)) = 0 :: 1 :: (List.range (2 * n)).map (· + 2) := by
  rw [show 2 * (n + 1) = 2 * n + 1 + 1 from rfl, List.range_succ_eq_map, List.range_succ_eq_map]
  simp [Function.comp_def]

theorem blockChannels_map_range (f : Nat → Word32) (n c : Nat) :
    blockChannels c ((List.range (2 * n)).map f) =
      (List.range n).map fun j => (c + j, (f (2 * j)).toNat, f (2 * j + 1) == 1) := by
  induction n generalizing f c with
  | zero => rfl
  | succ n ih =>
    rw [range_two_mul_succ, List.map_cons, List.map_cons, List.map_map, blockChannels, ih, List.range_succ_eq_map,
      List.map_cons, List.map_map]
    refine congrArg (List.cons _) (List.map_congr_left fun j _ => ?_)
    simp [Nat.mul_succ, Nat.add_right_comm, Nat.add_assoc, Nat.add_comm 1]

theorem energyWords_map_range (f : Nat → Word32) (n : Nat) :
    energyWords ((List.range (2 * n)).map f) = (List.range n).map fun j => f (2 * j + 1) := by
  induction n generalizing f with
  | zero => rfl
  | succ n ih =>
    rw [range_two_mul_succ, List.map_cons, List.map_cons, List.map_map, energyWords, ih, List.range_succ_eq_map,
      List.map_cons, List.map_map]
    exact congrArg (List.cons _) (List.map_congr_left fun j _ => rfl)

/-- The first address of the block of channel `j`, of the descriptor at `a`. -/
def State.blockWord (s : State) (a j : Nat) : Nat := s.word (a + 2 * j)

/-- The energy word of channel `j`, of the descriptor at `a`. -/
def State.energyWord (s : State) (a j : Nat) : Nat := s.word (a + 2 * j + 1)

theorem ofNat_word_beq_one (s : State) (a : Nat) : (BitVec.ofNat 32 (s.word a) == 1) = decide (s.word a = 1) := by
  rw [beq_eq_decide, decide_eq_decide, ← BitVec.toNat_inj, toNat_ofNat_word]
  rfl

theorem blockChannels_words (s : State) (a n : Nat) :
    blockChannels 0 ((List.range (2 * n)).map fun i => BitVec.ofNat 32 (s.word (a + i))) =
      (List.range n).map fun j => (j, s.blockWord a j, decide (s.energyWord a j = 1)) := by
  rw [blockChannels_map_range]
  simp only [toNat_ofNat_word, ofNat_word_beq_one, Nat.zero_add]
  rfl

theorem any_energy_iff (s : State) (a n : Nat) :
    (energyWords ((List.range (2 * n)).map fun i => BitVec.ofNat 32 (s.word (a + i)))).any (fun e => decide (1 < e.toNat)) =
      true ↔ ∃ j, j < n ∧ 1 < s.energyWord a j := by
  simp only [energyWords_map_range, List.any_map, List.any_eq_true, List.mem_range, Function.comp_apply, toNat_ofNat_word,
    decide_eq_true_eq]
  rfl

theorem any_block_iff (s : State) (a n size : Nat) :
    ((List.range n).map fun j => (j, s.blockWord a j, decide (s.energyWord a j = 1))).any
      (fun b => b.2.2 && decide (s.par.dmWords < b.2.1 + size)) = true ↔
      ∃ j, j < n ∧ s.energyWord a j = 1 ∧ s.par.dmWords < s.blockWord a j + size := by
  simp

end Sys2Proof.Machine
end

section
/-! SUPPORT. OLA.ADD (R236 to R240, R271): the ends of the command in the order of its tests. O43 follows. -/

namespace Sys2Proof.Machine

section Ends

variable {s : State} {rd rs1 rs2 : Reg} {imm : Imm}

theorem exec_olaAdd_of_slot (h : s.par.nmode ≤ s.xNat rs1) :
    exec (.olaAdd rd rs1 rs2 imm) s = .next (s.faulted 17) := if_pos h

variable (hslot : s.xNat rs1 < s.par.nmode)
include hslot

theorem exec_olaAdd_of_unconfigured (h : s.ola.ch.toNat = 0) :
    exec (.olaAdd rd rs1 rs2 imm) s = .next (s.faulted 21) := (if_neg hslot.not_ge).trans (if_pos h)

theorem exec_olaAdd_of_absent (h : Table.find s.modes (s.xNat rs1) = none) :
    exec (.olaAdd rd rs1 rs2 imm) s = .next (s.faulted 21) := by
  by_cases hch : s.ola.ch.toNat = 0
  · exact exec_olaAdd_of_unconfigured hslot hch
  · simp only [exec, execOlaAdd, if_neg hslot.not_ge, if_neg hch, h]
    rfl

variable (hch : s.ola.ch.toNat ≠ 0) {mode : Mode} (hmode : Table.find s.modes (s.xNat rs1) = some mode)
include hch hmode

theorem exec_olaAdd_of_window (h : mode.long = false ∧ selector 2 imm ≠ 0) :
    exec (.olaAdd rd rs1 rs2 imm) s = .next (s.faulted 17) := by
  simp only [exec, execOlaAdd, if_neg hslot.not_ge, if_neg hch, hmode, if_pos h]
  rfl

variable (hwindow : ¬ (mode.long = false ∧ selector 2 imm ≠ 0))
include hwindow

theorem exec_olaAdd_of_beyond (h : s.par.dmWords < s.xNat rs2 + 2 * s.ola.ch.toNat) :
    exec (.olaAdd rd rs1 rs2 imm) s = .next (s.faulted 20) := by
  simp only [exec, execOlaAdd, if_neg hslot.not_ge, if_neg hch, hmode, if_neg hwindow, if_pos h]
  rfl

variable (hfits : s.xNat rs2 + 2 * s.ola.ch.toNat ≤ s.par.dmWords)
  (hwords : ∀ j, j < 2 * s.ola.ch.toNat → s.known (s.xNat rs2 + j))
include hfits hwords

theorem exec_olaAdd_of_energy (h : ∃ j, j < s.ola.ch.toNat ∧ 1 < s.energyWord (s.xNat rs2) j) :
    exec (.olaAdd rd rs1 rs2 imm) s = .next (s.faulted 17) := by
  simp only [exec, execOlaAdd, if_neg hslot.not_ge, if_neg hch, hmode, if_neg hwindow, if_neg hfits.not_gt,
    withWords_of_known hwords, any_energy_iff, if_pos h]
  rfl

variable (henergy : ¬ ∃ j, j < s.ola.ch.toNat ∧ 1 < s.energyWord (s.xNat rs2) j)
include henergy

theorem exec_olaAdd_of_buffer (h : ∃ j, j < s.ola.ch.toNat ∧ s.energyWord (s.xNat rs2) j = 1 ∧
      s.par.dmWords < s.blockWord (s.xNat rs2) j + mode.n) :
    exec (.olaAdd rd rs1 rs2 imm) s = .next (s.faulted 20) := by
  simp only [exec, execOlaAdd, if_neg hslot.not_ge, if_neg hch, hmode, if_neg hwindow, if_neg hfits.not_gt,
    withWords_of_known hwords, any_energy_iff, if_neg henergy, blockChannels_words, any_block_iff, if_pos h]
  rfl

variable (hbufs : ¬ ∃ j, j < s.ola.ch.toNat ∧ s.energyWord (s.xNat rs2) j = 1 ∧
  s.par.dmWords < s.blockWord (s.xNat rs2) j + mode.n)
include hbufs

theorem exec_olaAdd_of_overrun (h : (s.par.rbMax : Int) < framesNeeded s.ola.prev.toNat mode.n s.ring) :
    exec (.olaAdd rd rs1 rs2 imm) s = .next (s.faulted 24) := by
  simp only [exec, execOlaAdd, if_neg hslot.not_ge, if_neg hch, hmode, if_neg hwindow, if_neg hfits.not_gt,
    withWords_of_known hwords, any_energy_iff, if_neg henergy, blockChannels_words, any_block_iff, if_neg hbufs, if_pos h]
  rfl

theorem exec_olaAdd_of_added (hneed : framesNeeded s.ola.prev.toNat mode.n s.ring ≤ s.par.rbMax) {r : Ring}
    (h : loopOver (addChannel s.dm (mode.windows.getD (selector 2 imm) []) mode.n
        (landing s.ola.prev.toNat mode.n s.ring.valid) s.ring.valid)
      ((List.range s.ola.ch.toNat).map fun j =>
        (j, s.blockWord (s.xNat rs2) j, decide (s.energyWord (s.xNat rs2) j = 1))) s.ring = .ok r) :
    exec (.olaAdd rd rs1 rs2 imm) s = .next (State.ended (State.setX { s with
      ring := s.ring.advance r s.ola.prev.toNat mode.n
      ola := { s.ola with prev := BitVec.ofNat 14 mode.n } } rd
      (BitVec.ofNat 64 (validAfter s.ola.prev.toNat mode.n s.ring.valid - s.ring.valid))) 0) := by
  simp only [exec, execOlaAdd, if_neg hslot.not_ge, if_neg hch, hmode, if_neg hwindow, if_neg hfits.not_gt,
    withWords_of_known hwords, any_energy_iff, if_neg henergy, blockChannels_words, any_block_iff, if_neg hbufs,
    if_neg hneed.not_gt, h]
  rfl

end Ends

theorem Ring.read_advance (r r' : Ring) (p n c t : Nat) : (r.advance r' p n).read c t = r'.read c t := rfl

/-- Settles O43: each end of OLA.ADD, in the order of R238, then the samples by `addChannels_summed`. -/
theorem overlapAdd : Obligations.OverlapAdd := by
  intro s rd rs1 rs2 imm m a w ch buf energy p V cmd
  refine ⟨exec_olaAdd_of_slot, fun hslot h => h.elim (exec_olaAdd_of_unconfigured hslot) (exec_olaAdd_of_absent hslot), ?_⟩
  intro mode hslot hch hmode n st V' need
  have hw : selector 2 imm = w := selector_two imm
  refine ⟨fun hlong hne => exec_olaAdd_of_window hslot hch hmode ⟨hlong, hw ▸ hne⟩, fun hwin => ?_⟩
  have hwindow : ¬ (mode.long = false ∧ selector 2 imm ≠ 0) := by
    rw [hw]
    rintro ⟨hlong, hne⟩
    exact hwin.elim (fun htrue => by simp [htrue] at hlong) hne
  refine ⟨exec_olaAdd_of_beyond hslot hch hmode hwindow, fun hfits hwords =>
    ⟨exec_olaAdd_of_energy hslot hch hmode hwindow hfits hwords, fun henergies => ?_⟩⟩
  have henergy : ¬ ∃ j, j < ch ∧ 1 < energy j := fun ⟨j, hj, hlt⟩ => (henergies j hj).not_gt hlt
  refine ⟨exec_olaAdd_of_buffer hslot hch hmode hwindow hfits hwords henergy, fun hinside => ?_⟩
  have hbufs : ¬ ∃ j, j < ch ∧ energy j = 1 ∧ s.par.dmWords < buf j + n :=
    fun ⟨j, hj, hone, hlt⟩ => (hinside j hj hone).not_gt hlt
  refine ⟨exec_olaAdd_of_overrun hslot hch hmode hwindow hfits hwords henergy hbufs, fun hneed hknown => ?_⟩
  obtain ⟨r, hrun, hsum⟩ := addChannels_summed (win := mode.windows.getD w []) (buf := buf)
    (energy := fun c => decide (energy c = 1)) (st := st) (v := V) (n := n) (ch := ch) (by omega)
    (fun c hc hone i => hknown c i hc (of_decide_eq_true hone)) s.ring
  refine ⟨s.ring.advance r p n, exec_olaAdd_of_added hslot hch hmode hwindow hfits hwords henergy hbufs hneed
    (hw ▸ hrun), hsum.start, rfl, rfl, rfl, fun c t hc => ?_⟩
  rw [Ring.read_advance]
  split
  next h => exact hsum.inside c t hc ⟨⟨h.1, decide_eq_true h.2.1⟩, h.2.2⟩
  next h => exact hsum.outside c t hc fun hP => h ⟨hP.1.1, of_decide_eq_true hP.1.2, hP.2⟩

end Sys2Proof.Machine
end
